-- ==== Sys2Proof/Config.lean ====
section
/-! DEFINITION. The fixed constants of the LEC (00_scope.md R6) and its open parameters (R7). -/

namespace Sys2Proof.Config

/-- `TOP` (R6): a coder operation renormalises when its interval length is below it. -/
@[simp] abbrev top : Nat := 0x01000000

/-- `MAX_RANGE` (R6, 90_conflicts.md C1): the interval length after initialisation. -/
@[simp] abbrev maxRange : Nat := 0xFFFFFFFF

/-- `OUT_BUF_SIZE` (R6): bytes in the RCE output buffer. -/
@[simp] abbrev outBufSize : Nat := 4096

/-- `BM_SHIFT` (R6): binary-model probability precision. -/
@[simp] abbrev bmShift : Nat := 13

/-- `BM_MAX_COUNT` (R6): binary-model halving threshold. -/
@[simp] abbrev bmMaxCount : Nat := 8192

/-- `BM_CYCLE_INIT` (R6): binary-model first update period. -/
@[simp] abbrev bmCycleInit : Nat := 4

/-- `BM_CYCLE_MAX` (R6): binary-model largest update period. -/
@[simp] abbrev bmCycleMax : Nat := 64

/-- `DM_SHIFT` (R6): m-ary model probability precision. -/
@[simp] abbrev dmShift : Nat := 15

/-- `DM_MAX_COUNT` (R6): m-ary model halving threshold. -/
@[simp] abbrev dmMaxCount : Nat := 32768

/-- `SM_MIN_SYMBOLS` (R6): smallest alphabet of an m-ary model. -/
@[simp] abbrev smMinSymbols : Nat := 2

/-- `SM_MAX_SYMBOLS` (R6): largest alphabet of an m-ary model. -/
@[simp] abbrev smMaxSymbols : Nat := 2048

/-- `LIT_SPLIT` (R6): a literal of more bits is coded as two halves. -/
@[simp] abbrev litSplit : Nat := 19

/-- Width of the half-word split of wide literals, whose radix is `BOTTOM` = 2^16 (R6,
42_range_enc.md R179). -/
@[simp] abbrev halfBits : Nat := 16

/-- The open parameters (R7). The machine never changes them. They are data of the state, so that a
statement about every state holds for every choice of them (log 3). -/
structure Params where
  /-- `N_BM`: binary-model slots. -/
  nBm : Nat
  /-- `N_SM`: m-ary model slots. -/
  nSm : Nat
  /-- `N_IC`: integer-compressor instances. -/
  nIc : Nat
  /-- `IC_MAX_CTX`: the largest `contexts` of an instance. -/
  icMaxCtx : Nat
  deriving DecidableEq, Repr

/-- The defaults R7 suggests. -/
def Params.default : Params :=
  { nBm := 1024, nSm := 1024, nIc := 64, icMaxCtx := 256 }

/-- The constraints R7 puts on the open parameters. -/
abbrev Params.Legal (p : Params) : Prop :=
  1 ≤ p.nBm ∧ p.nBm ≤ 65536 ∧ 1 ≤ p.nSm ∧ p.nSm ≤ 65536 ∧ 1 ≤ p.nIc ∧ p.nIc ≤ 65536 ∧
    1 ≤ p.icMaxCtx ∧ p.icMaxCtx ≤ 65535

end Sys2Proof.Config
end

