-- ==== Sys2Proof/Word.lean ====
section
/-! DEFINITION. The words of the LEC (00_scope.md R8): bytes, the 32-bit coder registers, the 64-bit
data and counters, and the 128-bit command. Bit 0 is the least significant bit. -/

namespace Sys2Proof

/-- A byte of a stream: 8 bits (20_memory.md R60). -/
abbrev Byte := BitVec 8

/-- A coder register: `CODE_BITS` = 32 bits (00_scope.md R6). -/
abbrev Word := BitVec 32

/-- A result, a counter or a data word: 64 bits (10_state.md R31, R34). -/
abbrev Dword := BitVec 64

/-- A command: CW in bits 127:64, DW in bits 63:0 (30_encoding.md R90). -/
abbrev Command := BitVec 128

/-- A slot index, an instance index, a CSR address or a context: 16 bits (30_encoding.md R91). -/
abbrev Index := BitVec 16

end Sys2Proof
end

