-- ==== Sys2Proof/Machine/State.lean ====
section
/-! DEFINITION. The state of the LEC (10_state.md R20 to R42), the environment it is driven by, and
the ways a step can stop. Everything is plain data. -/

namespace Sys2Proof.Machine

/-- The ways the MODEL stops. A fault of the LEC itself (60_exceptions.md R270) is no stop: it is a
next state with `FAULT` written. -/
inductive Fault where
  /-- Raised by an encoder command whose renormalisation loop (42_range_enc.md R178) never ends,
  because its `range` is 0. No run reaches it (R188). Safe: the machine stops where the spec's own
  loop does not terminate (log 15). -/
  | renormDiverges
  deriving DecidableEq, Repr

/-- Why the model gives a command no meaning. -/
inductive Refusal where
  /-- Raised by an arm of `exec` whose command has no meaning yet. No arm is left so. Safe. -/
  | notModelled (mnemonic : String)
  deriving DecidableEq, Repr

/-- The faults of the LEC (60_exceptions.md R270). -/
inductive FaultCode where
  | illegalCommand
  | sequenceError
  | configError
  | notInitialised
  | operandRange
  | corruptedStream
  | unexpectedEndOfInput
  | ioError
  deriving DecidableEq, Repr

/-! The model files of the ASM. Fields are natural numbers: no rule relies on the wrapping of a
state field narrower than 32 bits (00_scope.md R9, log 14). -/

/-- A binary model (10_state.md R27). -/
structure BinModel where
  /-- `c0`: count of 0 bits, scaled. -/
  c0 : Nat
  /-- `cnt`: count of all bits as of the last update, scaled. -/
  cnt : Nat
  /-- `p0`: probability of a 0 bit, in units of 2^-13. -/
  p0 : Nat
  /-- `cycle`: the current update period. -/
  cycle : Nat
  /-- `until`: bits left until the next update. -/
  untilUpdate : Nat
  deriving DecidableEq, Repr

/-- An m-ary model (10_state.md R28). The decode tree is not state (R29, log 19). -/
structure SymModel where
  /-- `n`: number of symbols. -/
  n : Nat
  /-- `count[0..n-1]`: occurrence counts, scaled. -/
  count : List Nat
  /-- `dist[0..n-1]`: cumulative distribution as of the last update, in units of 2^-15. -/
  dist : List Nat
  /-- `total`: sum of the counts as of the last update. -/
  total : Nat
  /-- `cycle`: the current update period. -/
  cycle : Nat
  /-- `until`: symbols left until the next update. -/
  untilUpdate : Nat
  deriving DecidableEq, Repr

/-- An integer-compressor instance (10_state.md R30). -/
structure IntComp where
  /-- `bits`: configured width of the values. -/
  bits : Nat
  /-- `contexts`: number of contexts. -/
  contexts : Nat
  /-- `bits_high`: the largest k whose payload is coded wholly by a model. -/
  bitsHigh : Nat
  /-- `rng`: configured value range, 0 for none. -/
  rng : Word
  /-- `corr_bits`. -/
  corrBits : Nat
  /-- `corr_range`: modulus of the corrector, 0 meaning 2^32. -/
  corrRange : Word
  /-- `corr_min`. -/
  corrMin : Int
  /-- `corr_max`. -/
  corrMax : Int
  /-- `k`: the k of the last `IC.ENC` or `IC.DEC`. -/
  k : Nat
  /-- `mbits[0..contexts-1]`: the k-prefix model of each context. -/
  mbits : List SymModel
  /-- `bm0`: codes the corrector when k = 0. -/
  bm0 : BinModel
  /-- `mcorr[1..corr_bits]`: the payload model of each k; `mcorr[q]` is entry `q - 1`. -/
  mcorr : List SymModel
  deriving DecidableEq, Repr

/-- A file of slots: the slots whose `valid` bit is 1, each under its index, indexes strictly
rising. An unlisted index is a slot with `valid = 0`, whose other fields no rule reads
(10_state.md R40, log 8). -/
abbrev SlotFile (α : Type) := List (Nat × α)

/-! The coder registers. -/

/-- The registers of the RCE (10_state.md R21 to R24). -/
structure Encoder where
  /-- `low`. -/
  low : Word
  /-- `range`. -/
  range : Word
  /-- `cache`: the oldest staged byte. -/
  cache : Byte
  /-- `cache_valid`. -/
  cacheValid : Bool
  /-- `pending`: the number of bytes 0xFF staged after `cache` (log 13). -/
  pending : Nat
  /-- `out_buf[0 .. out_idx-1]`; `out_idx` is its length (log 9). -/
  outBuf : List Byte
  /-- `enc_active`. -/
  active : Bool
  deriving DecidableEq, Repr

/-- The registers of the RCD (10_state.md R25, R26). -/
structure Decoder where
  /-- `dvalue`. -/
  dvalue : Word
  /-- `drange`. -/
  drange : Word
  /-- `dec_active`. -/
  active : Bool
  deriving DecidableEq, Repr

/-! The two ports. -/

/-- An answer of the sink to one `MemWrite` (20_memory.md R79). -/
inductive SinkAnswer where
  /-- The burst is taken. -/
  | accept
  /-- An io-error, after the first `kept` bytes of the burst were taken (60_exceptions.md R278: some
  prefix; log 12). -/
  | ioError (kept : Nat)
  deriving DecidableEq, Repr

/-- An answer of the source to one byte asked (20_memory.md R79). -/
inductive SrcAnswer where
  | byte (b : Byte)
  | endOfInput
  | ioError
  deriving DecidableEq, Repr

/-- The sink port: the environment's sink and its oracle (20_memory.md R61, R79), and the counter of
the bytes delivered. -/
structure Sink where
  /-- The bursts the sink has taken, oldest first; its bytes are their concatenation (log 18). -/
  bursts : List (List Byte)
  /-- The sink's answers to the coming transfers; past the last it accepts (log 4). -/
  answers : List SinkAnswer
  /-- `SINK_COUNT` (10_state.md R34). -/
  count : Dword
  deriving DecidableEq, Repr

/-- The source port: the environment's source and its oracle (20_memory.md R62, R79), and the
counter of the bytes removed. -/
structure Source where
  /-- The source's answers to the coming requests for a byte; past the last it answers end of input
  (log 5). -/
  answers : List SrcAnswer
  /-- `SRC_COUNT` (10_state.md R34). -/
  count : Dword
  deriving DecidableEq, Repr

/-- What the environment presents to the LEC. -/
inductive PortEvent where
  /-- A command of the host (30_encoding.md R90). -/
  | command (w : Command)
  /-- The reset event, while no command is in progress (70_reset_and_hazards.md R300, log 7). -/
  | reset
  /-- A command of the host, and the reset event while it is in progress: once it has made this many
  transfers, or, when it makes no more than these, before its response (70_reset_and_hazards.md R300,
  log 7). -/
  | abandoned (w : Command) (transfers : Nat)
  /-- The host moves the source it owns: from now on it answers so (20_memory.md R62, log 7). -/
  | seek (answers : List SrcAnswer)
  deriving DecidableEq, Repr

/-- A response (30_encoding.md R97). -/
structure Response where
  status : BitVec 8
  data : Dword
  deriving DecidableEq, Repr

/-- FREE VALUES: what one execution fault leaves in the elements that 60_exceptions.md R278 calls
unspecified. Only the parts the faulting command could write are used (log 10, log 23). -/
structure Residue where
  enc : Encoder
  dec : Decoder
  bin : BinModel
  sym : SymModel
  int : IntComp
  /-- How many of the bytes the command removed from the source it has removed after all. -/
  srcTaken : Nat
  deriving DecidableEq, Repr

/-- The LEC, its parameters and its environment. -/
structure State where
  /-- The open parameters (00_scope.md R7, log 3). -/
  params : Config.Params
  /-- The RCE registers. -/
  enc : Encoder
  /-- The RCD registers. -/
  dec : Decoder
  /-- The binary-model file `bm[]`. -/
  bm : SlotFile BinModel
  /-- The m-ary model file `sm[]`. -/
  sm : SlotFile SymModel
  /-- The integer-compressor file `ic[]`. -/
  ic : SlotFile IntComp
  /-- `RES` (10_state.md R31). -/
  res : Dword
  /-- `FAULT` (10_state.md R32). -/
  fault : BitVec 8
  /-- The sink port with `SINK_COUNT`. -/
  sink : Sink
  /-- The source port with `SRC_COUNT`. -/
  src : Source
  /-- What the environment presents next (log 1). -/
  port : List PortEvent
  /-- The responses given, oldest first (30_encoding.md R97, log 2). -/
  responses : List Response
  /-- The free values of the coming execution faults; where none is listed the natural reading of
  60_exceptions.md R278 holds (log 10). -/
  residues : List Residue
  deriving DecidableEq, Repr

/-- The RCE registers after reset (10_state.md R40). -/
def Encoder.reset : Encoder :=
  { low := 0#32, range := 0#32, cache := 0#8, cacheValid := false, pending := 0, outBuf := [], active := false }

/-- The RCD registers after reset (10_state.md R40). -/
def Decoder.reset : Decoder :=
  { dvalue := 0#32, drange := 0#32, active := false }

/-- The machine right after reset (10_state.md R40, 70_reset_and_hazards.md R300, R301), with the
default parameters, an empty sink, an empty source and nothing presented (log 3, log 17). -/
def State.reset : State :=
  { params := Config.Params.default
    enc := Encoder.reset
    dec := Decoder.reset
    bm := []
    sm := []
    ic := []
    res := 0#64
    fault := 0#8
    sink := { bursts := [], answers := [], count := 0#64 }
    src := { answers := [], count := 0#64 }
    port := []
    responses := []
    residues := [] }

end Sys2Proof.Machine
end

