-- ==== Sys2Proof/Machine/Ops.lean ====
section
/-! DEFINITION. The shared operations: the arithmetic primitives (00_scope.md R9), how a
micro-operation ends (R12), the slot files, the two ports (R11), the order of the checks
(60_exceptions.md R275), taking a fault (R276 to R278) and the reset event
(70_reset_and_hazards.md R300). -/

namespace Sys2Proof.Machine

/-! ## Arithmetic primitives (00_scope.md R9) -/

/-- The 32-bit pattern of a natural number: reduction modulo 2^32. -/
def word (a : Nat) : Word := BitVec.ofNat 32 a

/-- `carry32(a, b)`. -/
def carry32 (a b : Word) : Bool := decide (2 ^ 32 ≤ a.toNat + b.toNat)

/-- `mul32(a, b)`. -/
def mul32 (a b : Nat) : Nat := a * b % 2 ^ 32

/-- `udiv(a, b)`; a divisor of 0 is never reached and gives 0 (60_exceptions.md R285, log 16). -/
def udiv (a b : Nat) : Nat := a / b

/-- `bitlen(a)`: number of bits of `a`. -/
def bitlen (a : Nat) : Nat := if a = 0 then 0 else Nat.log2 a + 1

/-- `s32(v)` (00_scope.md R8): the 32-bit pattern read as an `i32`. -/
def s32 (v : Word) : Int := v.toInt

/-- `u32of(z)` (00_scope.md R8): the 32-bit pattern of an integer. -/
def u32of (z : Int) : Word := BitVec.ofInt 32 z

/-! ## How a micro-operation ends (00_scope.md R12) -/

/-- A micro-operation over a part `σ` of the state either goes on with a result, or raises a fault
in the midst of execution (the writes made before the `raise` stand in its state: the natural
reading of 60_exceptions.md R278), or never ends. -/
inductive Run (σ α : Type) where
  | ok (a : α) (s : σ)
  | raised (f : FaultCode) (s : σ)
  | diverged
  deriving DecidableEq, Repr

/-- One micro-operation after another: a `raise` ends the command at that point (R12). -/
def Run.bind {σ α β : Type} (m : Run σ α) (k : α → σ → Run σ β) : Run σ β :=
  match m with
  | .ok a s => k a s
  | .raised f s => .raised f s
  | .diverged => .diverged

/-- A micro-operation over a part of a larger state, put back by `put`. -/
def Run.within {σ τ α : Type} (m : Run σ α) (put : σ → τ) : Run τ α :=
  match m with
  | .ok a s => .ok a (put s)
  | .raised f s => .raised f (put s)
  | .diverged => .diverged

/-- The same micro-operation with its result computed further. -/
def Run.value {σ α β : Type} (m : Run σ α) (g : α → β) : Run σ β :=
  match m with
  | .ok a s => .ok (g a) s
  | .raised f s => .raised f s
  | .diverged => .diverged

/-! ## Slot files (10_state.md R27 to R30) -/

/-- The slot at an index, when its `valid` bit is 1. -/
def SlotFile.slot? {α : Type} : SlotFile α → Nat → Option α
  | [], _ => none
  | (j, x) :: rest, i => if i = j then some x else SlotFile.slot? rest i

/-- Write a slot and set its `valid` bit. -/
def SlotFile.put {α : Type} (i : Nat) (x : α) : SlotFile α → SlotFile α
  | [] => [(i, x)]
  | (j, y) :: rest =>
    if i < j then (i, x) :: (j, y) :: rest
    else if i = j then (i, x) :: rest
    else (j, y) :: SlotFile.put i x rest

/-- Every index of a file is above a bound, and they rise strictly. -/
def SlotFile.risingAbove {α : Type} : Nat → SlotFile α → Bool
  | _, [] => true
  | b, (j, _) :: rest => decide (b < j) && SlotFile.risingAbove j rest

/-- The canonical form of a file: indexes strictly rising. -/
def SlotFile.wf {α : Type} : SlotFile α → Bool
  | [] => true
  | (j, _) :: rest => SlotFile.risingAbove j rest

/-! ## The ports (00_scope.md R11, 20_memory.md R61, R62, R79) -/

/-- The bytes the sink holds (20_memory.md R61). -/
def Sink.bytes (k : Sink) : List Byte := k.bursts.flatten

/-- The sink after it took a burst: the bytes are appended and counted (10_state.md R34). -/
def Sink.took (k : Sink) (burst : List Byte) : Sink :=
  { k with bursts := k.bursts ++ [burst], count := k.count + BitVec.ofNat 64 burst.length }

/-- `MemWrite(SNK, n, B)`: one burst, as the oracle answers. A refused burst may have left a prefix
at the sink (log 12). -/
def Sink.write (burst : List Byte) (k : Sink) : Run Sink Unit :=
  match k.answers with
  | [] => .ok () (k.took burst)
  | .accept :: rest => .ok () ({ k with answers := rest }.took burst)
  | .ioError 0 :: rest => .raised .ioError { k with answers := rest }
  | .ioError (kept + 1) :: rest =>
    .raised .ioError ({ k with answers := rest }.took (burst.take (kept + 1)))

/-- `src_byte()`: one byte of the source, as the oracle answers (20_memory.md R79). -/
def Source.next (p : Source) : Run Source Byte :=
  match p.answers with
  | [] => .raised .unexpectedEndOfInput p
  | .byte b :: rest => .ok b { answers := rest, count := p.count + 1#64 }
  | .endOfInput :: rest => .raised .unexpectedEndOfInput { p with answers := rest }
  | .ioError :: rest => .raised .ioError { p with answers := rest }

/-- `MemRead(SRC, n)`: the next `n` bytes, asked one by one, first byte first (log 11). -/
def Source.read : Nat → Source → Run Source (List Byte)
  | 0, p => .ok [] p
  | n + 1, p => p.next.bind fun b p1 => (Source.read n p1).value (b :: ·)

/-! ## The coders with their ports -/

/-- What the encoder commands work on: the RCE registers and the sink port. -/
structure Rce where
  enc : Encoder
  sink : Sink
  deriving DecidableEq, Repr

/-- What the decoder commands work on: the RCD registers and the source port. -/
structure Rcd where
  dec : Decoder
  src : Source
  deriving DecidableEq, Repr

/-- The encoder's part of the state. -/
def State.rce (s : State) : Rce := { enc := s.enc, sink := s.sink }

/-- The decoder's part of the state. -/
def State.rcd (s : State) : Rcd := { dec := s.dec, src := s.src }

/-- The encoder's part written back. -/
def State.withRce (s : State) (r : Rce) : State := { s with enc := r.enc, sink := r.sink }

/-- The decoder's part written back. -/
def State.withRcd (s : State) (r : Rcd) : State := { s with dec := r.dec, src := r.src }

/-- The sink port written back. -/
def State.withSink (s : State) (k : Sink) : State := { s with sink := k }

/-- The source port written back. -/
def State.withSrc (s : State) (p : Source) : State := { s with src := p }

/-- Binary-model slot `i` written and marked valid. -/
def State.withBin (s : State) (i : Nat) (m : BinModel) : State := { s with bm := SlotFile.put i m s.bm }

/-- M-ary model slot `i` written and marked valid. -/
def State.withSym (s : State) (i : Nat) (m : SymModel) : State := { s with sm := SlotFile.put i m s.sm }

/-- Integer-compressor instance `j` written and marked valid. -/
def State.withInt (s : State) (j : Nat) (c : IntComp) : State := { s with ic := SlotFile.put j c s.ic }

/-! ## Responses and faults -/

/-- The code of a fault (60_exceptions.md R270). -/
def FaultCode.code : FaultCode → BitVec 8
  | .illegalCommand => 0x01#8
  | .sequenceError => 0x02#8
  | .configError => 0x03#8
  | .notInitialised => 0x04#8
  | .operandRange => 0x05#8
  | .corruptedStream => 0x06#8
  | .unexpectedEndOfInput => 0x07#8
  | .ioError => 0x08#8

/-- Give the one response of a command (30_encoding.md R97). -/
def State.respond (s : State) (status : BitVec 8) (data : Dword) : State :=
  { s with responses := s.responses ++ [{ status := status, data := data }] }

/-- A command that succeeds: a command that returns data writes the same value to `RES` and to the
response, every other one answers 0 and leaves `RES` (10_state.md R31, 30_encoding.md R97). -/
def State.complete (s : State) (data : Option Dword) : State :=
  match data with
  | some d => { s with res := d }.respond 0x00#8 d
  | none => s.respond 0x00#8 0#64

/-- A refused command changes no state; its response is `{0xFF, 0}` (60_exceptions.md R276). -/
def State.refuse (s : State) : State := s.respond 0xFF#8 0#64

/-- Taking a precise fault: the only state change is `FAULT`; the response is `{code, 0}`
(60_exceptions.md R277). -/
def State.raisePrecise (s : State) (f : FaultCode) : State :=
  { s with fault := f.code }.respond f.code 0#64

/-- The slot or instance a command names and can write. -/
inductive SlotRef where
  | none
  | bin (i : Nat)
  | sym (i : Nat)
  | int (j : Nat)
  deriving DecidableEq, Repr

/-- What a command's pseudocode could write, as far as an execution fault leaves it unspecified
(60_exceptions.md R278, log 23). The source's advance is bounded by what the command removed. -/
structure Touch where
  /-- `low`, `range`, the stage, `out_buf`, `out_idx`. -/
  enc : Bool := false
  /-- `enc_active`. -/
  encActive : Bool := false
  /-- `dvalue`, `drange`. -/
  dec : Bool := false
  /-- `dec_active`. -/
  decActive : Bool := false
  /-- The slot or instance named. -/
  slot : SlotRef := .none
  deriving DecidableEq, Repr

/-- The RCE registers after an execution fault: `now` is the natural reading, `u` the free value. The
output buffer never holds more than its 4096 bytes (10_state.md R23). -/
def Touch.encoder (t : Touch) (now u : Encoder) : Encoder :=
  if t.enc then
    { u with
      outBuf := u.outBuf.take Config.outBufSize
      active := if t.encActive then u.active else now.active }
  else now

/-- The RCD registers after an execution fault. -/
def Touch.decoder (t : Touch) (now u : Decoder) : Decoder :=
  if t.dec then { u with active := if t.decActive then u.active else now.active } else now

/-- The slot named, after an execution fault. -/
def Touch.slots (t : Touch) (u : Residue) (s : State) : State :=
  match t.slot with
  | .none => s
  | .bin i => s.withBin i u.bin
  | .sym i => s.withSym i u.sym
  | .int j => s.withInt j u.int

/-- The source after an execution fault: of the bytes the command removed (those between `before`
and `now`) the first `taken` are removed (20_memory.md R62, 60_exceptions.md R278). -/
def Source.tookAtMost (taken : Nat) (before now : Source) : Source :=
  if taken < before.answers.length - now.answers.length then
    { answers := before.answers.drop taken, count := before.count + BitVec.ofNat 64 taken }
  else now

/-- The state an execution fault leaves, before `FAULT` is written: the natural reading, unless the
next free value says otherwise (60_exceptions.md R278, 93_implementation_defined.md U1, log 10).
`before` is the state before the command, `now` the state at the `raise`. -/
def State.settle (before : State) (t : Touch) (now : State) : State :=
  match now.residues with
  | [] => now
  | u :: rest =>
    t.slots u
      { now with
        residues := rest
        enc := t.encoder now.enc u.enc
        dec := t.decoder now.dec u.dec
        src := Source.tookAtMost u.srcTaken before.src now.src }

/-- Taking an execution fault: `FAULT <- code`, response `{code, 0}`, `RES` as it was
(60_exceptions.md R278). -/
def State.raiseInExecution (before : State) (t : Touch) (f : FaultCode) (now : State) : State :=
  (before.settle t now).raisePrecise f

/-! ## The order of the checks (60_exceptions.md R275) -/

/-- A check: what must hold, and the fault raised when it does not (00_scope.md R12). -/
abbrev Check := Bool × FaultCode

/-- `require C else F`. -/
def require (c : Bool) (f : FaultCode) : Check := (c, f)

/-- The first check that fails decides the outcome. -/
def firstFailure : List Check → Option FaultCode
  | [] => none
  | (c, f) :: rest => if c then firstFailure rest else some f

/-- How the body of a command ends the command. -/
def State.finish (before : State) (t : Touch) : Run State (Option Dword) → Host.Outcome State Fault Refusal
  | .ok d s => .next (s.complete d)
  | .raised f s => .next (before.raiseInExecution t f s)
  | .diverged => .fault .renormDiverges

/-- A command: refused while `FAULT ≠ 0` (check 1); then its own checks in the order of R275
(checks 3 to 8), precise; then its body (step 9). The decode check (2) is the decoder's. -/
def State.command (s : State) (checks : List Check) (t : Touch) (body : Run State (Option Dword)) :
    Host.Outcome State Fault Refusal :=
  if s.fault = 0#8 then
    match firstFailure checks with
    | some f => .next (s.raisePrecise f)
    | none => s.finish t body
  else .next s.refuse

/-- 128 bits that are not a command: refused while `FAULT ≠ 0`, else `IllegalCommand`
(30_encoding.md R95, 60_exceptions.md R271, R275). -/
def State.illegalCommand (s : State) : Host.Outcome State Fault Refusal :=
  if s.fault = 0#8 then .next (s.raisePrecise .illegalCommand) else .next s.refuse

/-! ## The events of the environment -/

/-- The reset event: every state element of the LEC takes its reset value; the sink and the source
stay as they are, as do the parameters, what is still presented and the responses given
(70_reset_and_hazards.md R300, log 7). -/
def State.resetEvent (s : State) : State :=
  { State.reset with
    params := s.params
    sink := { s.sink with count := 0#64 }
    src := { s.src with count := 0#64 }
    port := s.port
    responses := s.responses
    residues := s.residues }

/-- The sink up to a reset that comes when `n` transfers are made: as it answers these, and then the
transfer at which the command is cut off. -/
def Sink.cut (n : Nat) (k : Sink) : Sink :=
  { k with answers := (k.answers ++ List.replicate n SinkAnswer.accept).take n ++ [.ioError 0] }

/-- The source up to a reset that comes when `n` bytes are asked for: as it answers these, and then
the byte at which the command is cut off. -/
def Source.cut (n : Nat) (p : Source) : Source :=
  { p with answers := (p.answers ++ List.replicate n SrcAnswer.endOfInput).take n ++ [.ioError] }

/-- The machine whose ports are cut off after so many transfers to the sink and so many bytes of the
source. -/
def State.cut (s : State) (writes reads : Nat) : State :=
  { s with sink := s.sink.cut writes, src := s.src.cut reads, residues := [] }

/-- A command in progress abandoned without a response: bytes already delivered stay delivered, bytes
already consumed stay consumed, and the reset event does the rest (70_reset_and_hazards.md R300). The
ports, and what is left of the free values, are those of `t`. -/
def State.abandonedAs (s t : State) : State :=
  State.resetEvent { s with sink := t.sink, src := t.src, residues := t.residues }

/-- The host moves the source it owns (20_memory.md R62). -/
def State.seekEvent (s : State) (answers : List SrcAnswer) : State :=
  { s with src := { s.src with answers := answers } }

end Sys2Proof.Machine
end

