-- ==== Sys2Proof/Machine/Operands.lean ====
section
/-! DEFINITION. The operand forms: the bytes of a value in either byte order (40_bit_io.md R120 to
R122), the half-words of a wide literal (42_range_enc.md R179, R182, R183), and the slots an index
operand names (30_encoding.md R93). -/

namespace Sys2Proof.Machine

/-! ## Byte order -/

/-- A byte order (20_memory.md R63). -/
inductive Order where
  | little
  | big
  deriving DecidableEq, Repr

/-- Byte `j` of a value: `v[8*j+7 : 8*j]`. -/
def byteAt (v : Nat) (j : Nat) : Byte := BitVec.ofNat 8 (v / 2 ^ (8 * j))

/-- The low `nb` bytes of `v`, least significant byte first. -/
def bytesLittle (nb v : Nat) : List Byte := (List.range nb).map (byteAt v)

/-- The low `nb` bytes of `v` in a byte order (40_bit_io.md R121). -/
def toBytes (o : Order) (nb v : Nat) : List Byte :=
  match o with
  | .little => bytesLittle nb v
  | .big => (List.range nb).map fun j => byteAt v (nb - 1 - j)

/-- The value of bytes, first byte least significant (40_bit_io.md R122). -/
def valueLittle : List Byte → Nat
  | [] => 0
  | b :: rest => b.toNat + 2 ^ 8 * valueLittle rest

/-- The value of bytes, first byte most significant, on top of what came before. -/
def valueBigFrom (acc : Nat) : List Byte → Nat
  | [] => acc
  | b :: rest => valueBigFrom (acc * 2 ^ 8 + b.toNat) rest

/-- The value of bytes in a byte order (40_bit_io.md R122). -/
def ofBytes (o : Order) (bs : List Byte) : Nat :=
  match o with
  | .little => valueLittle bs
  | .big => valueBigFrom 0 bs

/-! ## Half-words -/

/-- Half-word `i` of a value: `v[16*i+15 : 16*i]`. -/
def half (v i : Nat) : Nat := v / 2 ^ (16 * i) % 2 ^ 16

/-! ## Slots named by an index -/

/-- What an unlisted binary-model slot reads as: an empty model. The `valid` check comes before
every use of a slot (60_exceptions.md R273), so no command gets to read it (log 16). -/
def BinModel.empty : BinModel := { c0 := 0, cnt := 0, p0 := 0, cycle := 0, untilUpdate := 0 }

/-- What an unlisted m-ary model slot reads as, as `BinModel.empty`. -/
def SymModel.empty : SymModel :=
  { n := 0, count := [], dist := [], total := 0, cycle := 0, untilUpdate := 0 }

/-- What an unlisted instance reads as, as `BinModel.empty`. -/
def IntComp.empty : IntComp :=
  { bits := 0, contexts := 0, bitsHigh := 0, rng := 0#32, corrBits := 0, corrRange := 0#32, corrMin := 0
    corrMax := 0, k := 0, mbits := [], bm0 := BinModel.empty, mcorr := [] }

/-- The binary-model slot an index names. -/
def State.binAt (s : State) (idx : Index) : BinModel :=
  (SlotFile.slot? s.bm idx.toNat).getD BinModel.empty

/-- The m-ary model slot an index names. -/
def State.symAt (s : State) (idx : Index) : SymModel :=
  (SlotFile.slot? s.sm idx.toNat).getD SymModel.empty

/-- The integer-compressor instance an index names. -/
def State.intAt (s : State) (idx : Index) : IntComp :=
  (SlotFile.slot? s.ic idx.toNat).getD IntComp.empty

/-! ## The checks on an index (60_exceptions.md R275 checks 4 and 6) -/

/-- `idx < N_BM` else `ConfigError`. -/
def State.binIndex (s : State) (idx : Index) : Check :=
  require (decide (idx.toNat < s.params.nBm)) .configError

/-- `idx < N_SM` else `ConfigError`. -/
def State.symIndex (s : State) (idx : Index) : Check :=
  require (decide (idx.toNat < s.params.nSm)) .configError

/-- `idx < N_IC` else `ConfigError`. -/
def State.intIndex (s : State) (idx : Index) : Check :=
  require (decide (idx.toNat < s.params.nIc)) .configError

/-- `bm[idx].valid` else `NotInitialised`. -/
def State.binValid (s : State) (idx : Index) : Check :=
  require (SlotFile.slot? s.bm idx.toNat).isSome .notInitialised

/-- `sm[idx].valid` else `NotInitialised`. -/
def State.symValid (s : State) (idx : Index) : Check :=
  require (SlotFile.slot? s.sm idx.toNat).isSome .notInitialised

/-- `ic[idx].valid` else `NotInitialised`. -/
def State.intValid (s : State) (idx : Index) : Check :=
  require (SlotFile.slot? s.ic idx.toNat).isSome .notInitialised

end Sys2Proof.Machine
end

