-- ==== Sys2Proof/Machine/Flags.lean ====
section
/-! DEFINITION. The flags (10_state.md R38), the views built from them (R33, R35), and the checks on
the activity of the coders (60_exceptions.md R272). There are no condition codes. -/

namespace Sys2Proof.Machine

/-- A flag as a number. -/
def flagBit (b : Bool) : Nat := if b then 1 else 0

/-- `STATUS` (10_state.md R33): bit 0 `enc_active`, bit 1 `dec_active`, bit 2 `FAULT ≠ 0`, bit 3
`cache_valid`, every other bit 0. -/
def State.status (s : State) : Dword :=
  BitVec.ofNat 64
    (flagBit s.enc.active + 2 * flagBit s.dec.active + 4 * flagBit (decide (s.fault ≠ 0#8))
      + 8 * flagBit s.enc.cacheValid)

/-- `ENC_STAGE` (10_state.md R35): `cache_valid` and `cache` in bits 8:0. -/
def Encoder.stageView (e : Encoder) : Dword :=
  BitVec.ofNat 64 (256 * flagBit e.cacheValid + e.cache.toNat)

/-- `out_idx` (10_state.md R23). -/
def Encoder.outIdx (e : Encoder) : Nat := e.outBuf.length

/-- `enc_active = 1` else `SequenceError` (60_exceptions.md R272). -/
def State.encoderOn (s : State) : Check := require s.enc.active .sequenceError

/-- `enc_active = 0` else `SequenceError`. -/
def State.encoderOff (s : State) : Check := require (!s.enc.active) .sequenceError

/-- `dec_active = 1` else `SequenceError`. -/
def State.decoderOn (s : State) : Check := require s.dec.active .sequenceError

/-- `dvalue < drange` else `CorruptedStream` (43_range_dec.md R206). -/
def Decoder.inside (d : Decoder) : Bool := decide (d.dvalue.toNat < d.drange.toNat)

end Sys2Proof.Machine
end

