-- ==== Sys2Proof/Machine/Bio.lean ====
section
/-! DEFINITION. The bit I/O engine (40_bit_io.md): `BIO.WR*` (R121) and `BIO.RD*` (R122). It moves
whole bytes between a command and a port, past the coder. -/

namespace Sys2Proof.Machine

/-- The BIO write of `nb` bytes (R121): `v < 2^w` else `OperandRange`, then one burst. -/
def bioWrite (nb : Nat) (o : Order) (v : Dword) (s : State) : Host.Outcome State Fault Refusal :=
  s.command [require (decide (v.toNat < 2 ^ (8 * nb))) .operandRange] {}
    (((Sink.write (toBytes o nb v.toNat) s.sink).within s.withSink).value fun _ => none)

/-- The BIO read of `nb` bytes (R122), zero-extended. -/
def bioRead (nb : Nat) (o : Order) (s : State) : Host.Outcome State Fault Refusal :=
  s.command [] {}
    (((Source.read nb s.src).within s.withSrc).value fun bs => some (BitVec.ofNat 64 (ofBytes o bs)))

/-- `BIO.WR8 v` (R121). -/
def execBioWr8 (v : Dword) (s : State) : Host.Outcome State Fault Refusal := bioWrite 1 .little v s

/-- `BIO.WR16LE v` (R121). -/
def execBioWr16le (v : Dword) (s : State) : Host.Outcome State Fault Refusal := bioWrite 2 .little v s

/-- `BIO.WR16BE v` (R121). -/
def execBioWr16be (v : Dword) (s : State) : Host.Outcome State Fault Refusal := bioWrite 2 .big v s

/-- `BIO.WR32LE v` (R121). -/
def execBioWr32le (v : Dword) (s : State) : Host.Outcome State Fault Refusal := bioWrite 4 .little v s

/-- `BIO.WR32BE v` (R121). -/
def execBioWr32be (v : Dword) (s : State) : Host.Outcome State Fault Refusal := bioWrite 4 .big v s

/-- `BIO.WR64LE v` (R121). -/
def execBioWr64le (v : Dword) (s : State) : Host.Outcome State Fault Refusal := bioWrite 8 .little v s

/-- `BIO.WR64BE v` (R121). -/
def execBioWr64be (v : Dword) (s : State) : Host.Outcome State Fault Refusal := bioWrite 8 .big v s

/-- `BIO.RD8` (R122). -/
def execBioRd8 (s : State) : Host.Outcome State Fault Refusal := bioRead 1 .little s

/-- `BIO.RD16LE` (R122). -/
def execBioRd16le (s : State) : Host.Outcome State Fault Refusal := bioRead 2 .little s

/-- `BIO.RD16BE` (R122). -/
def execBioRd16be (s : State) : Host.Outcome State Fault Refusal := bioRead 2 .big s

/-- `BIO.RD32LE` (R122). -/
def execBioRd32le (s : State) : Host.Outcome State Fault Refusal := bioRead 4 .little s

/-- `BIO.RD32BE` (R122). -/
def execBioRd32be (s : State) : Host.Outcome State Fault Refusal := bioRead 4 .big s

/-- `BIO.RD64LE` (R122). -/
def execBioRd64le (s : State) : Host.Outcome State Fault Refusal := bioRead 8 .little s

/-- `BIO.RD64BE` (R122). -/
def execBioRd64be (s : State) : Host.Outcome State Fault Refusal := bioRead 8 .big s

end Sys2Proof.Machine
end

