-- ==== Sys2Proof/Machine/Adapt.lean ====
section
/-! DEFINITION. The adaptation of the models (41_models.md): `bm_update` (R142), `sm_reset` (R146),
`sm_update` (R148) and the step each coded symbol takes. -/

namespace Sys2Proof.Machine

/-! ## Binary models -/

/-- The canonical initial state of a binary model (R141). -/
def BinModel.fresh : BinModel :=
  { c0 := 1, cnt := 2, p0 := 4096, cycle := Config.bmCycleInit, untilUpdate := Config.bmCycleInit }

/-- The ageing of the counts in `bm_update` (R142). -/
def BinModel.age (m : BinModel) : BinModel :=
  let cnt := m.cnt + m.cycle
  if Config.bmMaxCount < cnt then
    let cnt := (cnt + 1) / 2
    let c0 := (m.c0 + 1) / 2
    { m with c0 := c0, cnt := if c0 = cnt then cnt + 1 else cnt }
  else { m with cnt := cnt }

/-- The next update period of a binary model (R142). -/
def BinModel.nextCycle (cycle : Nat) : Nat := min (5 * cycle / 4) Config.bmCycleMax

/-- `bm_update(m)` (R142): age the counts, recompute the probability, lengthen the period. -/
def BinModel.update (m : BinModel) : BinModel :=
  let a := m.age
  let cycle := BinModel.nextCycle a.cycle
  { a with
    p0 := mul32 a.c0 (udiv 0x80000000 a.cnt) / 2 ^ (31 - Config.bmShift)
    cycle := cycle
    untilUpdate := cycle }

/-- A 0 bit coded: `c0 <- c0 + 1` (42_range_enc.md R177). -/
def BinModel.countZero (m : BinModel) : BinModel := { m with c0 := m.c0 + 1 }

/-- The end of a coding command: one bit fewer until the update, and the update when none is left
(42_range_enc.md R177, 43_range_dec.md R205). -/
def BinModel.tick (m : BinModel) : BinModel :=
  let m1 := { m with untilUpdate := m.untilUpdate - 1 }
  if m1.untilUpdate = 0 then m1.update else m1

/-- The point that splits an interval between a 0 and a 1 bit: `p0 * (range >> 13)`. -/
def BinModel.split (m : BinModel) (range : Word) : Word :=
  word (m.p0 * (range.toNat / 2 ^ Config.bmShift))

/-! ## M-ary models -/

/-- The cumulative distribution of counts at a scale, from a running sum on (R148). -/
def distOf (scale : Nat) : Nat → List Nat → List Nat
  | _, [] => []
  | sum, c :: rest => (mul32 scale sum / 2 ^ (31 - Config.dmShift)) :: distOf scale (sum + c) rest

/-- The ageing of the counts in `sm_update` (R148). -/
def SymModel.age (m : SymModel) : SymModel :=
  let total := m.total + m.cycle
  if Config.dmMaxCount < total then
    let count := m.count.map fun c => (c + 1) / 2
    { m with count := count, total := count.sum }
  else { m with total := total }

/-- The next update period of an m-ary model of `n` symbols (R148). -/
def SymModel.nextCycle (n cycle : Nat) : Nat := min (5 * cycle / 4) ((n + 6) * 8)

/-- `sm_update(m)` (R148): age the counts, recompute the distribution, lengthen the period. -/
def SymModel.update (m : SymModel) : SymModel :=
  let a := m.age
  let cycle := SymModel.nextCycle a.n a.cycle
  { a with
    dist := distOf (udiv 0x80000000 a.total) 0 a.count
    cycle := cycle
    untilUpdate := cycle }

/-- `sm_reset(m)` for an alphabet of `n` symbols (R146): equal counts, one update with period `n`,
then the first period `(n + 6) >> 1`. -/
def SymModel.fresh (n : Nat) : SymModel :=
  let m := SymModel.update
    { n := n, count := List.replicate n 1, dist := [], total := 0, cycle := n, untilUpdate := n }
  { m with cycle := (n + 6) / 2, untilUpdate := (n + 6) / 2 }

/-- A symbol coded: its count rises, and the update runs when none is left until it
(42_range_enc.md R176, 43_range_dec.md R203). -/
def SymModel.learn (m : SymModel) (v : Nat) : SymModel :=
  let m1 :=
    { m with count := m.count.set v (m.count.getD v 0 + 1), untilUpdate := m.untilUpdate - 1 }
  if m1.untilUpdate = 0 then m1.update else m1

/-- `dist[k]`; a read past the end is never reached (log 16). -/
def SymModel.distAt (m : SymModel) (k : Nat) : Nat := m.dist.getD k 0

/-- The lower end of a symbol's part of an interval: `dist[v] * (range >> 15)`
(42_range_enc.md R176, 43_range_dec.md R203). -/
def SymModel.lower (m : SymModel) (v : Nat) (range : Word) : Word :=
  word (m.distAt v * (range.toNat / 2 ^ Config.dmShift))

/-- The upper end of a symbol's part: the last symbol takes all that is left. -/
def SymModel.upper (m : SymModel) (v : Nat) (range : Word) : Word :=
  if v = m.n - 1 then range else m.lower (v + 1) range

end Sys2Proof.Machine
end

