-- ==== Sys2Proof/Machine/RcdOps.lean ====
section
/-! DEFINITION. The micro-operations of the range decoder (43_range_dec.md R202, R208) and the
decoding steps made of them, on a model held beside the decoder. -/

namespace Sys2Proof.Machine

/-- One turn of `dec_renorm`: a byte shifted into `dvalue`, `drange` multiplied by 256 (R202). -/
def Decoder.shiftIn (d : Decoder) (b : Byte) : Decoder :=
  { d with dvalue := (d.dvalue <<< 8) + b.zeroExtend 32, drange := d.drange <<< 8 }

/-- The turns of `dec_renorm` (R202), byte by byte along the answers of the source: it ends when
`drange` reaches `TOP`, or with the fault of the byte it could not get. -/
def Rcd.renormTurns : List SrcAnswer → Dword → Decoder → Run Rcd Unit
  | [], n, d => .raised .unexpectedEndOfInput { dec := d, src := { answers := [], count := n } }
  | .endOfInput :: rest, n, d =>
    .raised .unexpectedEndOfInput { dec := d, src := { answers := rest, count := n } }
  | .ioError :: rest, n, d => .raised .ioError { dec := d, src := { answers := rest, count := n } }
  | .byte b :: rest, n, d =>
    if Config.top ≤ (d.shiftIn b).drange.toNat then
      .ok () { dec := d.shiftIn b, src := { answers := rest, count := n + 1#64 } }
    else Rcd.renormTurns rest (n + 1#64) (d.shiftIn b)

/-- `dec_renorm()` (R202). -/
def Rcd.renorm (r : Rcd) : Run Rcd Unit := Rcd.renormTurns r.src.answers r.src.count r.dec

/-- `if drange < TOP: dec_renorm()`. -/
def Rcd.renormIfSmall (r : Rcd) : Run Rcd Unit :=
  if r.dec.drange.toNat < Config.top then r.renorm else .ok () r

/-- `dvalue <- v`, `drange <- len`. -/
def Rcd.setInterval (v len : Word) (r : Rcd) : Rcd :=
  { r with dec := { r.dec with dvalue := v, drange := len } }

/-- The registers after the four bytes of `DEC.INIT`, first byte most significant (R201). -/
def Decoder.start (bs : List Byte) : Decoder :=
  { dvalue := word (ofBytes .big bs), drange := word Config.maxRange, active := true }

/-- The body of `DEC.INIT` (R201). -/
def Rcd.init (r : Rcd) : Run Rcd Unit :=
  ((Source.read 4 r.src).within fun p => { r with src := p }).bind fun bs r1 =>
    .ok () { r1 with dec := Decoder.start bs }

/-- `dec_lit(n)` (R208), which undoes `Rce.lit` (R212): the interval is updated and renormalised first, the quotient is checked
last (90_conflicts.md C9). -/
def Rcd.lit (n : Nat) (r : Rcd) : Run Rcd Nat :=
  let len := r.dec.drange >>> n
  let q := udiv r.dec.dvalue.toNat len.toNat
  (r.setInterval (r.dec.dvalue - word (mul32 len.toNat q)) len).renormIfSmall.bind fun _ r1 =>
    if q < 2 ^ n then .ok q r1 else .raised .corruptedStream r1

/-- `n` uniform half-words as one value, the first one lowest (R207, R209, R210). -/
def Rcd.halves : Nat → Rcd → Run Rcd Nat
  | 0, r => .ok 0 r
  | n + 1, r =>
    (r.lit Config.halfBits).bind fun lo r1 =>
      (Rcd.halves n r1).value fun hi => lo + 2 ^ Config.halfBits * hi

/-- The body of `DEC.BITS` (R207): above 19 bits the low half was coded first. -/
def Rcd.bits (n : Nat) (r : Rcd) : Run Rcd Nat :=
  if Config.litSplit < n then
    (r.lit Config.halfBits).bind fun lo r1 =>
      (r1.lit (n - Config.halfBits)).value fun hi => hi * 2 ^ Config.halfBits + lo
  else r.lit n

/-- The largest `k` below a bound that passes a test, 0 if none does. -/
def largestBelow (test : Nat → Bool) : Nat → Nat
  | 0 => 0
  | k + 1 => if test k then k else largestBelow test k

/-- The symbol of R203: the largest `k` in `0 .. n-1` with `dist[k] * L ≤ dvalue`. -/
def SymModel.find (m : SymModel) (d : Decoder) : Nat :=
  largestBelow (fun k => decide (m.distAt k * (d.drange.toNat / 2 ^ Config.dmShift) ≤ d.dvalue.toNat)) m.n

/-- The body of `DEC.SYM` below its slot checks (R203), with its entry check (R206). It undoes `Rce.sym`:
the same part of the interval, the same `SymModel.learn` (R212). -/
def Rcd.sym (m : SymModel) (r : Rcd) : Run (Rcd × SymModel) Nat :=
  if r.dec.inside then
    let v := m.find r.dec
    let x := m.lower v r.dec.drange
    let y := m.upper v r.dec.drange
    ((r.setInterval (r.dec.dvalue - x) (y - x)).renormIfSmall.within fun r1 => (r1, m)).bind fun _ p =>
      .ok v (p.1, p.2.learn v)
  else .raised .corruptedStream (r, m)

/-- The body of `DEC.BIT` below its slot checks (R205), with its entry check (R206). It undoes `Rce.bit`:
the same split, the same count and `BinModel.tick` (R212). -/
def Rcd.bit (m : BinModel) (r : Rcd) : Run (Rcd × BinModel) Nat :=
  if r.dec.inside then
    let x := m.split r.dec.drange
    if r.dec.dvalue.toNat < x.toNat then
      ((r.setInterval r.dec.dvalue x).renormIfSmall.within fun r1 => (r1, m.countZero)).bind fun _ p =>
        .ok 0 (p.1, p.2.tick)
    else
      ((r.setInterval (r.dec.dvalue - x) (r.dec.drange - x)).renormIfSmall.within
        fun r1 => (r1, m)).bind fun _ p => .ok 1 (p.1, p.2.tick)
  else .raised .corruptedStream (r, m)

end Sys2Proof.Machine
end

