-- ==== Sys2Proof/Machine/Decoder.lean ====
section
/-! DEFINITION. The range decoder's commands (43_range_dec.md R201 to R211). -/

namespace Sys2Proof.Machine

/-- `DEC.INIT` (R201): load four bytes; legal whether or not a chunk is open. -/
def execDecInit (s : State) : Host.Outcome State Fault Refusal :=
  s.command [] { dec := true, decActive := true }
    ((s.rcd.init.within s.withRcd).value fun _ => none)

/-- `DEC.SYM sm<idx>` (R203). The entry check is the last of the precise checks (R206). -/
def execDecSym (idx : Index) (s : State) : Host.Outcome State Fault Refusal :=
  s.command
    [s.decoderOn, s.symIndex idx, s.symValid idx, require s.dec.inside .corruptedStream]
    { dec := true, slot := .sym idx.toNat }
    (((s.rcd.sym (s.symAt idx)).within fun p => (s.withRcd p.1).withSym idx.toNat p.2).value
      fun v => some (BitVec.ofNat 64 v))

/-- `DEC.BIT bm<idx>` (R205). The entry check is the last of the precise checks (R206). -/
def execDecBit (idx : Index) (s : State) : Host.Outcome State Fault Refusal :=
  s.command
    [s.decoderOn, s.binIndex idx, s.binValid idx, require s.dec.inside .corruptedStream]
    { dec := true, slot := .bin idx.toNat }
    (((s.rcd.bit (s.binAt idx)).within fun p => (s.withRcd p.1).withBin idx.toNat p.2).value
      fun b => some (BitVec.ofNat 64 b))

/-- `DEC.BITS n` (R207). -/
def execDecBits (n : BitVec 8) (s : State) : Host.Outcome State Fault Refusal :=
  s.command [s.decoderOn, require (decide (1 ≤ n.toNat) && decide (n.toNat ≤ 32)) .operandRange]
    { dec := true }
    (((s.rcd.bits n.toNat).within s.withRcd).value fun v => some (BitVec.ofNat 64 v))

/-- `DEC.FLOAT` (R209): a 32-bit pattern, low half first. -/
def execDecFloat (s : State) : Host.Outcome State Fault Refusal :=
  s.command [s.decoderOn] { dec := true }
    (((s.rcd.halves 2).within s.withRcd).value fun v => some (BitVec.ofNat 64 v))

/-- `DEC.DOUBLE` (R210): a 64-bit pattern, lowest half first. -/
def execDecDouble (s : State) : Host.Outcome State Fault Refusal :=
  s.command [s.decoderOn] { dec := true }
    (((s.rcd.halves 4).within s.withRcd).value fun v => some (BitVec.ofNat 64 v))

/-- `DEC.DONE` (R211): only `dec_active` is cleared. -/
def execDecDone (s : State) : Host.Outcome State Fault Refusal :=
  s.command [s.decoderOn] {} (.ok none { s with dec := { s.dec with active := false } })

end Sys2Proof.Machine
end

