-- ==== Sys2Proof/Machine/RceOps.lean ====
section
/-! DEFINITION. The micro-operations of the range encoder (42_range_enc.md R171 to R174, R178,
R180) and the coding steps made of them, on a model held beside the encoder. -/

namespace Sys2Proof.Machine

/-! ## Output path -/

/-- `MemWrite(SNK, out_idx, out_buf[0 .. out_idx-1])`, then `out_idx <- 0`. -/
def Rce.flush (r : Rce) : Run Rce Unit :=
  ((Sink.write r.enc.outBuf r.sink).within fun k => { r with sink := k }).bind fun _ r1 =>
    .ok () { r1 with enc := { r1.enc with outBuf := [] } }

/-- `enc_put(b)` (R171): append a byte to the output buffer and send the buffer when it is full. -/
def Rce.putByte (b : Byte) (r : Rce) : Run Rce Unit :=
  let r1 : Rce := { r with enc := { r.enc with outBuf := r.enc.outBuf ++ [b] } }
  if r1.enc.outBuf.length = Config.outBufSize then r1.flush else .ok () r1

/-- `enc_put` of several bytes, first byte first. -/
def Rce.putBytes : List Byte → Rce → Run Rce Unit
  | [], r => .ok () r
  | b :: rest, r => (r.putByte b).bind fun _ r1 => Rce.putBytes rest r1

/-- `enc_shift_out(b)` (R172): take a byte into the stage; a byte that is not 0xFF releases what no
carry can reach any more. -/
def Rce.shiftOut (b : Byte) (r : Rce) : Run Rce Unit :=
  if !r.enc.cacheValid then
    .ok () { r with enc := { r.enc with cache := b, cacheValid := true } }
  else if b = 0xFF#8 then
    .ok () { r with enc := { r.enc with pending := r.enc.pending + 1 } }
  else
    (r.putBytes (r.enc.cache :: List.replicate r.enc.pending 0xFF#8)).bind fun _ r1 =>
      .ok () { r1 with enc := { r1.enc with pending := 0, cache := b } }

/-- `enc_carry()` (R173): add 1 to the staged byte string, seen as a big-endian number. -/
def Rce.carry (r : Rce) : Run Rce Unit :=
  let r1 : Rce := { r with enc := { r.enc with cache := r.enc.cache + 1#8 } }
  if r1.enc.pending = 0 then .ok () r1
  else
    (r1.putBytes (r1.enc.cache :: List.replicate (r1.enc.pending - 1) 0x00#8)).bind fun _ r2 =>
      .ok () { r2 with enc := { r2.enc with cache := 0x00#8, pending := 0 } }

/-- `enc_add(x)` (R174): add to `low`, the carry going into the stage. -/
def Rce.add (x : Word) (r : Rce) : Run Rce Unit :=
  let r1 : Rce := { r with enc := { r.enc with low := r.enc.low + x } }
  if carry32 r.enc.low x then r1.carry else .ok () r1

/-- `range <- v`. -/
def Rce.setRange (v : Word) (r : Rce) : Rce := { r with enc := { r.enc with range := v } }

/-- The byte shifted out at renormalisation: `low[31:24]` (R178). -/
def Rce.topByte (r : Rce) : Byte := r.enc.low.extractLsb' 24 8

/-- The shifts of one turn of `enc_renorm`: `low <- shl32(low, 8)`, `range <- shl32(range, 8)`. -/
def Rce.shiftLeft (r : Rce) : Rce :=
  { r with enc := { r.enc with low := r.enc.low <<< 8, range := r.enc.range <<< 8 } }

/-- Turns of `enc_renorm` (R178), at most `fuel`. A `range` that is not 0 reaches `TOP` within three
turns; on 0 the loop never ends (log 15). -/
def Rce.renormTurns : Nat → Rce → Run Rce Unit
  | 0, _ => .diverged
  | fuel + 1, r =>
    (r.shiftOut r.topByte).bind fun _ r1 =>
      if Config.top ≤ r1.shiftLeft.enc.range.toNat then .ok () r1.shiftLeft
      else Rce.renormTurns fuel r1.shiftLeft

/-- `enc_renorm()` (R178). -/
def Rce.renorm (r : Rce) : Run Rce Unit := Rce.renormTurns 3 r

/-- `if range < TOP: enc_renorm()`. -/
def Rce.renormIfSmall (r : Rce) : Run Rce Unit :=
  if r.enc.range.toNat < Config.top then r.renorm else .ok () r

/-! ## Coding steps -/

/-- Go on with the sub-interval of length `len` that begins `x` above `low`. -/
def Rce.narrow (x len : Word) (r : Rce) : Run Rce Unit :=
  (r.add x).bind fun _ r1 => (r1.setRange len).renormIfSmall

/-- `enc_lit(n, v)` (R180): one uniform step. -/
def Rce.lit (n v : Nat) (r : Rce) : Run Rce Unit :=
  let r1 := r.setRange (r.enc.range >>> n)
  (r1.add (word (mul32 v r1.enc.range.toNat))).bind fun _ r2 => r2.renormIfSmall

/-- Uniform half-words, first one first. -/
def Rce.halves : List Nat → Rce → Run Rce Unit
  | [], r => .ok () r
  | h :: rest, r => (r.lit Config.halfBits h).bind fun _ r1 => Rce.halves rest r1

/-- The body of `ENC.BITS` (R179): above 19 bits the low half goes first. -/
def Rce.bits (n v : Nat) (r : Rce) : Run Rce Unit :=
  if Config.litSplit < n then
    (r.lit Config.halfBits (half v 0)).bind fun _ r1 =>
      r1.lit (n - Config.halfBits) (v / 2 ^ Config.halfBits)
  else r.lit n v

/-- The body of `ENC.SYM` (R176): the symbol's part of the interval, then the model adapts. -/
def Rce.sym (v : Nat) (m : SymModel) (r : Rce) : Run (Rce × SymModel) Unit :=
  let x := m.lower v r.enc.range
  ((r.narrow x (m.upper v r.enc.range - x)).within fun r1 => (r1, m)).bind fun _ p =>
    .ok () (p.1, p.2.learn v)

/-- The body of `ENC.BIT` (R177): a 0 bit takes the lower part and is counted before the
renormalisation. -/
def Rce.bit (b : Nat) (m : BinModel) (r : Rce) : Run (Rce × BinModel) Unit :=
  let x := m.split r.enc.range
  if b = 0 then
    ((r.setRange x).renormIfSmall.within fun r1 => (r1, m.countZero)).bind fun _ p =>
      .ok () (p.1, p.2.tick)
  else
    ((r.narrow x (r.enc.range - x)).within fun r1 => (r1, m)).bind fun _ p =>
      .ok () (p.1, p.2.tick)

/-- Shift out `n` zero bytes. -/
def Rce.pad : Nat → Rce → Run Rce Unit
  | 0, r => .ok () r
  | n + 1, r => (r.shiftOut 0x00#8).bind fun _ r1 => Rce.pad n r1

/-- The choice of the final code value and its leading bytes in `ENC.DONE` (R184). -/
def Rce.finalBytes (r : Rce) : Run Rce Unit :=
  if 2 * Config.top < r.enc.range.toNat then
    (r.add 0x01000000#32).bind fun _ r1 =>
      (r1.setRange 0x00800000#32).renorm.bind fun _ r2 => r2.pad 3
  else
    (r.add 0x00800000#32).bind fun _ r1 =>
      (r1.setRange 0x00008000#32).renorm.bind fun _ r2 => r2.pad 2

/-- The stage drained into the output buffer, and emptied (R184). -/
def Rce.drain (r : Rce) : Run Rce Unit :=
  (if r.enc.cacheValid then r.putBytes (r.enc.cache :: List.replicate r.enc.pending 0xFF#8)
    else .ok () r).bind fun _ r1 =>
      .ok () { r1 with enc := { r1.enc with cache := 0#8, cacheValid := false, pending := 0 } }

/-- The last burst of a chunk, when the output buffer is not empty, and the end of the activity
(R184). -/
def Rce.close (r : Rce) : Run Rce Unit :=
  (if r.enc.outBuf.length = 0 then .ok () r else r.flush).bind fun _ r1 =>
    .ok () { r1 with enc := { r1.enc with active := false } }

/-- The body of `ENC.DONE` (R184). -/
def Rce.done (r : Rce) : Run Rce Unit :=
  r.finalBytes.bind fun _ r1 => r1.drain.bind fun _ r2 => r2.close

/-- The RCE registers at the start of a chunk (R175). -/
def Encoder.start : Encoder :=
  { low := 0#32, range := word Config.maxRange, cache := 0#8, cacheValid := false, pending := 0
    outBuf := [], active := true }

end Sys2Proof.Machine
end

