-- ==== Sys2Proof/Machine/Encoder.lean ====
section
/-! DEFINITION. The range encoder's commands (42_range_enc.md R175 to R184). -/

namespace Sys2Proof.Machine

/-- `ENC.INIT` (R175): start a chunk; legal only while none is open. -/
def execEncInit (s : State) : Host.Outcome State Fault Refusal :=
  s.command [s.encoderOff] {} (.ok none { s with enc := Encoder.start })

/-- `ENC.SYM sm<idx>, v` (R176). -/
def execEncSym (idx : Index) (v : Dword) (s : State) : Host.Outcome State Fault Refusal :=
  s.command
    [s.encoderOn, s.symIndex idx, s.symValid idx,
      require (decide (v.toNat < (s.symAt idx).n)) .operandRange]
    { enc := true, slot := .sym idx.toNat }
    (((s.rce.sym v.toNat (s.symAt idx)).within fun p => (s.withRce p.1).withSym idx.toNat p.2).value
      fun _ => none)

/-- `ENC.BIT bm<idx>, v` (R177). -/
def execEncBit (idx : Index) (v : Dword) (s : State) : Host.Outcome State Fault Refusal :=
  s.command
    [s.encoderOn, s.binIndex idx, s.binValid idx, require (decide (v.toNat < 2)) .operandRange]
    { enc := true, slot := .bin idx.toNat }
    (((s.rce.bit v.toNat (s.binAt idx)).within fun p => (s.withRce p.1).withBin idx.toNat p.2).value
      fun _ => none)

/-- `ENC.BITS n, v` (R179). -/
def execEncBits (n : BitVec 8) (v : Dword) (s : State) : Host.Outcome State Fault Refusal :=
  s.command
    [s.encoderOn, require (decide (1 ≤ n.toNat) && decide (n.toNat ≤ 32)) .operandRange,
      require (decide (v.toNat < 2 ^ n.toNat)) .operandRange]
    { enc := true }
    (((s.rce.bits n.toNat v.toNat).within s.withRce).value fun _ => none)

/-- `ENC.FLOAT v` (R182): the 32-bit pattern, low half first. -/
def execEncFloat (v : Dword) (s : State) : Host.Outcome State Fault Refusal :=
  s.command [s.encoderOn, require (decide (v.toNat < 2 ^ 32)) .operandRange] { enc := true }
    (((s.rce.halves [half v.toNat 0, half v.toNat 1]).within s.withRce).value fun _ => none)

/-- `ENC.DOUBLE v` (R183): the 64-bit pattern, low word first, in each word low half first. -/
def execEncDouble (v : Dword) (s : State) : Host.Outcome State Fault Refusal :=
  s.command [s.encoderOn] { enc := true }
    (((s.rce.halves [half v.toNat 0, half v.toNat 1, half v.toNat 2, half v.toNat 3]).within
      s.withRce).value fun _ => none)

/-- `ENC.DONE` (R184): end the chunk. -/
def execEncDone (s : State) : Host.Outcome State Fault Refusal :=
  s.command [s.encoderOn] { enc := true, encActive := true }
    ((s.rce.done.within s.withRce).value fun _ => none)

end Sys2Proof.Machine
end

