-- ==== Sys2Proof/Machine/IntOps.lean ====
section
/-! DEFINITION. The procedures of the integer compressor (44_integer_codec.md R231, R233 to R237):
configuration, reset, folding, and coding a corrector with the private models of an instance. -/

namespace Sys2Proof.Machine

/-! ## Configuration and initialisation -/

/-- `ic_reset(c)` (R233). -/
def IntComp.reset (c : IntComp) : IntComp :=
  { c with
    k := 0
    mbits := List.replicate c.contexts (SymModel.fresh (c.corrBits + 1))
    bm0 := BinModel.fresh
    mcorr := (List.range c.corrBits).map fun q => SymModel.fresh (2 ^ min (q + 1) c.bitsHigh) }

/-- `corr_bits` for a value range that is not 0 (R231): its bit length, less 1 for a power of two. -/
def rangeBits (rng : Nat) : Nat :=
  if rng = 2 ^ (bitlen rng - 1) then bitlen rng - 1 else bitlen rng

/-- The derived fields of a configuration (R231): a value range overrides the width; a width of 0 or
32 without a range means 32 bits. -/
def IntComp.derive (c : IntComp) : IntComp :=
  if c.rng ≠ 0#32 then
    { c with
      corrBits := rangeBits c.rng.toNat
      corrRange := c.rng
      corrMin := -((c.rng.toNat / 2 : Nat) : Int)
      corrMax := -((c.rng.toNat / 2 : Nat) : Int) + (c.rng.toNat : Int) - 1 }
  else if 1 ≤ c.bits ∧ c.bits ≤ 31 then
    { c with
      corrBits := c.bits
      corrRange := word (2 ^ c.bits)
      corrMin := -(2 ^ (c.bits - 1) : Int)
      corrMax := (2 ^ (c.bits - 1) : Int) - 1 }
  else
    { c with
      corrBits := 32
      corrRange := 0#32
      corrMin := -(2 ^ 31 : Int)
      corrMax := (2 ^ 31 : Int) - 1 }

/-- The instance that `IC.CFG` makes (R231). -/
def IntComp.configure (bits contexts bitsHigh : Nat) (rng : Word) : IntComp :=
  (IntComp.derive
    { IntComp.empty with bits := bits, contexts := contexts, bitsHigh := bitsHigh, rng := rng }).reset

/-! ## The private models -/

/-- `mbits[ctx]`. -/
def IntComp.mbitsAt (c : IntComp) (ctx : Nat) : SymModel := c.mbits.getD ctx SymModel.empty

/-- `mcorr[q]`, 1 ≤ q ≤ corr_bits. -/
def IntComp.mcorrAt (c : IntComp) (q : Nat) : SymModel := c.mcorr.getD (q - 1) SymModel.empty

/-- `mbits[ctx] <- m`. -/
def IntComp.setMbits (c : IntComp) (ctx : Nat) (m : SymModel) : IntComp :=
  { c with mbits := c.mbits.set ctx m }

/-- `mcorr[q] <- m`. -/
def IntComp.setMcorr (c : IntComp) (q : Nat) (m : SymModel) : IntComp :=
  { c with mcorr := c.mcorr.set (q - 1) m }

/-- `bm0 <- m`. -/
def IntComp.setBm0 (c : IntComp) (m : BinModel) : IntComp := { c with bm0 := m }

/-- `k <- v`. -/
def IntComp.setK (c : IntComp) (v : Nat) : IntComp := { c with k := v }

/-! ## Folding -/

/-- The corrector of `IC.ENC` (R234): `real - pred` wrapped to an `i32`, folded once toward the
corrector interval. -/
def IntComp.fold (c : IntComp) (pred real : Word) : Int :=
  let corr := s32 (real - pred)
  if corr < c.corrMin then corr + (c.corrRange.toNat : Int)
  else if c.corrMax < corr then corr - (c.corrRange.toNat : Int)
  else corr

/-- The folded corrector lies in the corrector interval (R234). -/
def IntComp.inInterval (c : IntComp) (corr : Int) : Bool :=
  decide (c.corrMin ≤ corr) && decide (corr ≤ c.corrMax)

/-- The value of `IC.DEC` (R236): `pred + corr` wrapped to an `i32`, folded once. -/
def IntComp.unfold (c : IntComp) (pred : Word) (corr : Int) : Word :=
  let real := pred + u32of corr
  if s32 real < 0 then real + c.corrRange
  else if c.corrRange.toNat ≤ real.toNat then real - c.corrRange
  else real

/-! ## Coding a corrector -/

/-- The class `k` of a corrector (R235): the bit length of its magnitude. -/
def corrClass (corr : Int) : Nat :=
  bitlen (if corr ≤ 0 then u32of (-corr) else u32of (corr - 1)).toNat

/-- The shifted unsigned mapping of a corrector within its class (R235). -/
def corrOffset (k : Nat) (corr : Int) : Nat :=
  (if corr < 0 then corr + (2 ^ k - 1) else corr - 1).toNat

/-- The corrector of a class at an offset (R237). -/
def corrValue (k u : Nat) : Int :=
  if 2 ^ (k - 1) ≤ u then (u : Int) + 1 else (u : Int) - (2 ^ k - 1)

/-- The payload of `ic_put_corr` for 1 ≤ k ≤ 31 (R235): the upper `bits_high` bits with the model of
class `k`, the others raw. -/
def IntComp.putPayload (c : IntComp) (k u : Nat) (r : Rce) : Run (Rce × IntComp) Unit :=
  if k ≤ c.bitsHigh then
    (r.sym u (c.mcorrAt k)).within fun p => (p.1, c.setMcorr k p.2)
  else
    let k1 := k - c.bitsHigh
    ((r.sym (u / 2 ^ k1) (c.mcorrAt k)).within fun p => (p.1, c.setMcorr k p.2)).bind fun _ p =>
      (p.1.bits k1 (u % 2 ^ k1)).within fun r1 => (r1, p.2)

/-- `ic_put_corr(c, mbits[ctx], corr)` (R235). -/
def IntComp.putCorr (c : IntComp) (ctx : Nat) (corr : Int) (r : Rce) : Run (Rce × IntComp) Unit :=
  let k := corrClass corr
  let c1 := c.setK k
  ((r.sym k (c1.mbitsAt ctx)).within fun p => (p.1, c1.setMbits ctx p.2)).bind fun _ p =>
    if k = 0 then
      (p.1.bit corr.toNat p.2.bm0).within fun q => (q.1, p.2.setBm0 q.2)
    else if k < 32 then p.2.putPayload k (corrOffset k corr) p.1
    else .ok () p

/-- The payload of `ic_get_corr` for 1 ≤ k ≤ 31 (R237): the offset `u`. -/
def IntComp.getPayload (c : IntComp) (k : Nat) (r : Rcd) : Run (Rcd × IntComp) Nat :=
  if k ≤ c.bitsHigh then
    (r.sym (c.mcorrAt k)).within fun p => (p.1, c.setMcorr k p.2)
  else
    let k1 := k - c.bitsHigh
    ((r.sym (c.mcorrAt k)).within fun p => (p.1, c.setMcorr k p.2)).bind fun u p =>
      ((p.1.bits k1).within fun r1 => (r1, p.2)).value fun low => u * 2 ^ k1 + low

/-- `ic_get_corr(c, mbits[ctx])` (R237). -/
def IntComp.getCorr (c : IntComp) (ctx : Nat) (r : Rcd) : Run (Rcd × IntComp) Int :=
  ((r.sym (c.mbitsAt ctx)).within fun p => (p.1, c.setMbits ctx p.2)).bind fun k p =>
    let c1 := p.2.setK k
    if k = 0 then
      ((p.1.bit c1.bm0).within fun q => (q.1, c1.setBm0 q.2)).value fun b => (b : Int)
    else if k < 32 then (c1.getPayload k p.1).value (corrValue k)
    else .ok c1.corrMin (p.1, c1)

end Sys2Proof.Machine
end

