-- ==== Sys2Proof/Machine/IntCodec.lean ====
section
/-! DEFINITION. The integer compressor's commands (44_integer_codec.md R231 to R238). -/

namespace Sys2Proof.Machine

/-- `IC.CFG ic<idx>, bits, contexts, bits_high, rng` (R231). -/
def execIcCfg (idx : Index) (bits : BitVec 8) (contexts : BitVec 16) (bitsHigh : BitVec 8) (rng : Word)
    (s : State) : Host.Outcome State Fault Refusal :=
  s.command
    [s.intIndex idx,
      require (decide (bits.toNat ≤ 32)) .configError,
      require (decide (1 ≤ contexts.toNat) && decide (contexts.toNat ≤ s.params.icMaxCtx)) .configError,
      require (decide (1 ≤ bitsHigh.toNat) && decide (bitsHigh.toNat ≤ 11)) .configError,
      require (decide (rng = 0#32) || (decide (2 ≤ rng.toNat) && decide (rng.toNat ≤ 2 ^ 31 - 1))) .configError]
    {}
    (.ok none
      (s.withInt idx.toNat (IntComp.configure bits.toNat contexts.toNat bitsHigh.toNat rng)))

/-- `IC.INIT ic<idx>` (R232): the canonical initial state, keeping the configuration. -/
def execIcInit (idx : Index) (s : State) : Host.Outcome State Fault Refusal :=
  s.command [s.intIndex idx, s.intValid idx] {}
    (.ok none (s.withInt idx.toNat (s.intAt idx).reset))

/-- `IC.ENC ic<idx>, ctx, pred, real` (R234). -/
def execIcEnc (idx : Index) (ctx : BitVec 16) (pred real : Word) (s : State) :
    Host.Outcome State Fault Refusal :=
  let c := s.intAt idx
  let corr := c.fold pred real
  s.command
    [s.encoderOn, s.intIndex idx, s.intValid idx,
      require (decide (ctx.toNat < c.contexts)) .operandRange,
      require (c.inInterval corr) .operandRange]
    { enc := true, slot := .int idx.toNat }
    (((c.putCorr ctx.toNat corr s.rce).within fun p => (s.withRce p.1).withInt idx.toNat p.2).value
      fun _ => none)

/-- `IC.DEC ic<idx>, ctx, pred` (R236). A context out of range is `CorruptedStream` here. -/
def execIcDec (idx : Index) (ctx : BitVec 16) (pred : Word) (s : State) :
    Host.Outcome State Fault Refusal :=
  let c := s.intAt idx
  s.command
    [s.decoderOn, s.intIndex idx, s.intValid idx,
      require (decide (ctx.toNat < c.contexts)) .corruptedStream]
    { dec := true, slot := .int idx.toNat }
    (((c.getCorr ctx.toNat s.rcd).within fun p => (s.withRcd p.1).withInt idx.toNat p.2).value
      fun corr => some ((c.unfold pred corr).zeroExtend 64))

/-- `IC.GETK ic<idx>` (R238). -/
def execIcGetk (idx : Index) (s : State) : Host.Outcome State Fault Refusal :=
  s.command [s.intIndex idx, s.intValid idx] {}
    (.ok (some (BitVec.ofNat 64 (s.intAt idx).k)) s)

end Sys2Proof.Machine
end

