-- ==== Sys2Proof/Machine/Models.lean ====
section
/-! DEFINITION. The model commands of the ASM (41_models.md): `BM.INIT`, `SM.CFG`, `SM.INIT`. They
need no active coder and touch no port (R140). -/

namespace Sys2Proof.Machine

/-- `BM.INIT bm<idx>` (R141): the canonical initial state. -/
def execBmInit (idx : Index) (s : State) : Host.Outcome State Fault Refusal :=
  s.command [s.binIndex idx] {} (.ok none (s.withBin idx.toNat BinModel.fresh))

/-- `SM.CFG sm<idx>, n` (R144): an alphabet of `n` symbols and the canonical initial state. -/
def execSmCfg (idx : Index) (n : BitVec 16) (s : State) : Host.Outcome State Fault Refusal :=
  s.command
    [s.symIndex idx,
      require (decide (Config.smMinSymbols ≤ n.toNat) && decide (n.toNat ≤ Config.smMaxSymbols)) .configError]
    {} (.ok none (s.withSym idx.toNat (SymModel.fresh n.toNat)))

/-- `SM.INIT sm<idx>` (R145): the canonical initial state, keeping the alphabet. -/
def execSmInit (idx : Index) (s : State) : Host.Outcome State Fault Refusal :=
  s.command [s.symIndex idx, s.symValid idx] {}
    (.ok none (s.withSym idx.toNat (SymModel.fresh (s.symAt idx).n)))

end Sys2Proof.Machine
end

