-- ==== Sys2Proof/Syntax.lean ====
section
/-! DEFINITION. The commands of the LEC, one constructor per row of spec/opcode_table.json
(30_encoding.md R95). An operand has the width its field has (R91 to R93). -/

namespace Sys2Proof

/-- A command of the opcode map (30_encoding.md R95). -/
inductive Instr where
  /-- `BIO.WR8 v` (40_bit_io.md R121). -/
  | bioWr8 (v : Dword)
  /-- `BIO.WR16LE v` (40_bit_io.md R121). -/
  | bioWr16le (v : Dword)
  /-- `BIO.WR16BE v` (40_bit_io.md R121). -/
  | bioWr16be (v : Dword)
  /-- `BIO.WR32LE v` (40_bit_io.md R121). -/
  | bioWr32le (v : Dword)
  /-- `BIO.WR32BE v` (40_bit_io.md R121). -/
  | bioWr32be (v : Dword)
  /-- `BIO.WR64LE v` (40_bit_io.md R121). -/
  | bioWr64le (v : Dword)
  /-- `BIO.WR64BE v` (40_bit_io.md R121). -/
  | bioWr64be (v : Dword)
  /-- `BIO.RD8` (40_bit_io.md R122). -/
  | bioRd8
  /-- `BIO.RD16LE` (40_bit_io.md R122). -/
  | bioRd16le
  /-- `BIO.RD16BE` (40_bit_io.md R122). -/
  | bioRd16be
  /-- `BIO.RD32LE` (40_bit_io.md R122). -/
  | bioRd32le
  /-- `BIO.RD32BE` (40_bit_io.md R122). -/
  | bioRd32be
  /-- `BIO.RD64LE` (40_bit_io.md R122). -/
  | bioRd64le
  /-- `BIO.RD64BE` (40_bit_io.md R122). -/
  | bioRd64be
  /-- `BM.INIT bm<idx>` (41_models.md R141). -/
  | bmInit (idx : Index)
  /-- `SM.CFG sm<idx>, n` (41_models.md R144). -/
  | smCfg (idx : Index) (n : BitVec 16)
  /-- `SM.INIT sm<idx>` (41_models.md R145). -/
  | smInit (idx : Index)
  /-- `ENC.INIT` (42_range_enc.md R175). -/
  | encInit
  /-- `ENC.SYM sm<idx>, v` (42_range_enc.md R176). -/
  | encSym (idx : Index) (v : Dword)
  /-- `ENC.BIT bm<idx>, v` (42_range_enc.md R177). -/
  | encBit (idx : Index) (v : Dword)
  /-- `ENC.BITS n, v` (42_range_enc.md R179). -/
  | encBits (n : BitVec 8) (v : Dword)
  /-- `ENC.FLOAT v` (42_range_enc.md R182). -/
  | encFloat (v : Dword)
  /-- `ENC.DOUBLE v` (42_range_enc.md R183). -/
  | encDouble (v : Dword)
  /-- `ENC.DONE` (42_range_enc.md R184). -/
  | encDone
  /-- `DEC.INIT` (43_range_dec.md R201). -/
  | decInit
  /-- `DEC.SYM sm<idx>` (43_range_dec.md R203). -/
  | decSym (idx : Index)
  /-- `DEC.BIT bm<idx>` (43_range_dec.md R205). -/
  | decBit (idx : Index)
  /-- `DEC.BITS n` (43_range_dec.md R207). -/
  | decBits (n : BitVec 8)
  /-- `DEC.FLOAT` (43_range_dec.md R209). -/
  | decFloat
  /-- `DEC.DOUBLE` (43_range_dec.md R210). -/
  | decDouble
  /-- `DEC.DONE` (43_range_dec.md R211). -/
  | decDone
  /-- `IC.CFG ic<idx>, bits, contexts, bits_high, rng` (44_integer_codec.md R231). -/
  | icCfg (idx : Index) (bits : BitVec 8) (contexts : BitVec 16) (bitsHigh : BitVec 8) (rng : Word)
  /-- `IC.INIT ic<idx>` (44_integer_codec.md R232). -/
  | icInit (idx : Index)
  /-- `IC.ENC ic<idx>, ctx, pred, real` (44_integer_codec.md R234). -/
  | icEnc (idx : Index) (ctx : BitVec 16) (pred real : Word)
  /-- `IC.DEC ic<idx>, ctx, pred` (44_integer_codec.md R236). -/
  | icDec (idx : Index) (ctx : BitVec 16) (pred : Word)
  /-- `IC.GETK ic<idx>` (44_integer_codec.md R238). -/
  | icGetk (idx : Index)
  /-- `CSR.RD addr` (45_system.md R260). -/
  | csrRd (addr : Index)
  deriving DecidableEq, Repr

/-- The pseudo-instructions (30_encoding.md R100). They have no encoding of their own. -/
inductive Pseudo where
  | encByte (v : Dword)
  | encShort (v : Dword)
  | encInt (v : Dword)
  | encInt64 (v : Dword)
  | encWbit (b : Dword)
  | decByte
  | decShort
  | decInt
  | decInt64
  | decRbit
  deriving DecidableEq, Repr

/-- The control and status registers by name (10_state.md R35). -/
inductive Csr where
  | fault | status | res | sinkCount | srcCount
  | encLow | encRange | encStage | encPending | encOutIdx
  | decValue | decRange
  deriving DecidableEq, Repr

end Sys2Proof
end

