-- ==== Sys2Proof/Decode.lean ====
section
/-! DEFINITION. The decoder and the encoder of the command words (30_encoding.md R90 to R96), both
written from the same field positions, formats and opcode map. -/

namespace Sys2Proof

/-- Why 128 bits are not a command (30_encoding.md R95, 60_exceptions.md R271). -/
inductive Illegal where
  /-- An `OP` value that R95 does not list. -/
  | unassignedOpcode
  /-- A BIO function value that R95 does not list. -/
  | unassignedFunction
  /-- A `CSR.RD` address that 10_state.md R35 does not list. -/
  | unassignedCsr
  /-- A non-zero bit in a field the format does not use (R94). -/
  | mustBeZero
  deriving DecidableEq, Repr

/-- The fields of a command (R91) and its data word. -/
structure Fields where
  op : BitVec 8
  f : BitVec 8
  idx : BitVec 16
  ctx : BitVec 16
  g : BitVec 8
  z : BitVec 8
  dw : BitVec 64
  deriving DecidableEq, Repr

/-- The fields of 128 command bits: CW is bits 127:64, DW bits 63:0 (R90, R91). -/
def Fields.split (w : Command) : Fields :=
  { op := w.extractLsb' 120 8
    f := w.extractLsb' 112 8
    idx := w.extractLsb' 96 16
    ctx := w.extractLsb' 80 16
    g := w.extractLsb' 72 8
    z := w.extractLsb' 64 8
    dw := w.extractLsb' 0 64 }

/-- The 128 command bits of the fields (R90, R91). -/
def Fields.join (x : Fields) : Command :=
  x.op ++ x.f ++ x.idx ++ x.ctx ++ x.g ++ x.z ++ x.dw

/-- The upper half of the data word (R92: `pred` of IE, must be zero in IC and ID). -/
def Fields.dwHigh (x : Fields) : Word := x.dw.extractLsb' 32 32

/-- The lower half of the data word (R92: `rng` of IC, `real` of IE, `pred` of ID). -/
def Fields.dwLow (x : Fields) : Word := x.dw.extractLsb' 0 32

/-- The ten command formats (R92). -/
inductive Format where
  | Z | S | SV | SN | V | NV | N | IC | IE | ID
  deriving DecidableEq, Repr

/-- The must-be-zero fields of a format are zero (R92, R94). -/
def Format.clean : Format → Fields → Bool
  | .Z, x => x.f == 0#8 && x.idx == 0#16 && x.ctx == 0#16 && x.g == 0#8 && x.z == 0#8 && x.dw == 0#64
  | .S, x => x.f == 0#8 && x.ctx == 0#16 && x.g == 0#8 && x.z == 0#8 && x.dw == 0#64
  | .SV, x => x.f == 0#8 && x.ctx == 0#16 && x.g == 0#8 && x.z == 0#8
  | .SN, x => x.f == 0#8 && x.g == 0#8 && x.z == 0#8 && x.dw == 0#64
  | .V, x => x.f == 0#8 && x.idx == 0#16 && x.ctx == 0#16 && x.g == 0#8 && x.z == 0#8
  | .NV, x => x.idx == 0#16 && x.ctx == 0#16 && x.g == 0#8 && x.z == 0#8
  | .N, x => x.idx == 0#16 && x.ctx == 0#16 && x.g == 0#8 && x.z == 0#8 && x.dw == 0#64
  | .IC, x => x.z == 0#8 && x.dwHigh == 0#32
  | .IE, x => x.f == 0#8 && x.g == 0#8 && x.z == 0#8
  | .ID, x => x.f == 0#8 && x.g == 0#8 && x.z == 0#8 && x.dwHigh == 0#32

/-- The must-be-zero check comes last (R96). -/
def Format.accept (fmt : Format) (x : Fields) (i : Instr) : Except Illegal Instr :=
  if fmt.clean x then .ok i else .error .mustBeZero

/-- The CSR at an address (10_state.md R35). -/
def Csr.ofAddress (a : Index) : Option Csr :=
  match a with
  | 0x00#16 => some .fault
  | 0x01#16 => some .status
  | 0x02#16 => some .res
  | 0x03#16 => some .sinkCount
  | 0x04#16 => some .srcCount
  | 0x08#16 => some .encLow
  | 0x09#16 => some .encRange
  | 0x0A#16 => some .encStage
  | 0x0B#16 => some .encPending
  | 0x0C#16 => some .encOutIdx
  | 0x10#16 => some .decValue
  | 0x11#16 => some .decRange
  | _ => none

/-- The BIO writes, by function field: `f[1:0]` is the width, `f[2]` the byte order
(R93, R95, 40_bit_io.md R120). -/
def decodeBioWrite (x : Fields) : Except Illegal Instr :=
  match x.f with
  | 0x00#8 => Format.NV.accept x (.bioWr8 x.dw)
  | 0x01#8 => Format.NV.accept x (.bioWr16le x.dw)
  | 0x05#8 => Format.NV.accept x (.bioWr16be x.dw)
  | 0x02#8 => Format.NV.accept x (.bioWr32le x.dw)
  | 0x06#8 => Format.NV.accept x (.bioWr32be x.dw)
  | 0x03#8 => Format.NV.accept x (.bioWr64le x.dw)
  | 0x07#8 => Format.NV.accept x (.bioWr64be x.dw)
  | _ => .error .unassignedFunction

/-- The BIO reads, by function field (R93, R95, 40_bit_io.md R120). -/
def decodeBioRead (x : Fields) : Except Illegal Instr :=
  match x.f with
  | 0x00#8 => Format.N.accept x .bioRd8
  | 0x01#8 => Format.N.accept x .bioRd16le
  | 0x05#8 => Format.N.accept x .bioRd16be
  | 0x02#8 => Format.N.accept x .bioRd32le
  | 0x06#8 => Format.N.accept x .bioRd32be
  | 0x03#8 => Format.N.accept x .bioRd64le
  | 0x07#8 => Format.N.accept x .bioRd64be
  | _ => .error .unassignedFunction

/-- `CSR.RD`: an unlisted address is no command (R95, R96). -/
def decodeCsrRead (x : Fields) : Except Illegal Instr :=
  if (Csr.ofAddress x.idx).isSome then Format.S.accept x (.csrRd x.idx)
  else .error .unassignedCsr

/-- The opcode map (R95), in the order of R96: `OP`, then `F` or the CSR address, then the
must-be-zero fields. -/
def decodeFields (x : Fields) : Except Illegal Instr :=
  match x.op with
  | 0x10#8 => decodeBioWrite x
  | 0x11#8 => decodeBioRead x
  | 0x20#8 => Format.S.accept x (.bmInit x.idx)
  | 0x21#8 => Format.SN.accept x (.smCfg x.idx x.ctx)
  | 0x22#8 => Format.S.accept x (.smInit x.idx)
  | 0x30#8 => Format.Z.accept x .encInit
  | 0x31#8 => Format.SV.accept x (.encSym x.idx x.dw)
  | 0x32#8 => Format.SV.accept x (.encBit x.idx x.dw)
  | 0x33#8 => Format.NV.accept x (.encBits x.f x.dw)
  | 0x34#8 => Format.V.accept x (.encFloat x.dw)
  | 0x35#8 => Format.V.accept x (.encDouble x.dw)
  | 0x36#8 => Format.Z.accept x .encDone
  | 0x40#8 => Format.Z.accept x .decInit
  | 0x41#8 => Format.S.accept x (.decSym x.idx)
  | 0x42#8 => Format.S.accept x (.decBit x.idx)
  | 0x43#8 => Format.N.accept x (.decBits x.f)
  | 0x44#8 => Format.Z.accept x .decFloat
  | 0x45#8 => Format.Z.accept x .decDouble
  | 0x46#8 => Format.Z.accept x .decDone
  | 0x50#8 => Format.IC.accept x (.icCfg x.idx x.f x.ctx x.g x.dwLow)
  | 0x51#8 => Format.S.accept x (.icInit x.idx)
  | 0x52#8 => Format.IE.accept x (.icEnc x.idx x.ctx x.dwHigh x.dwLow)
  | 0x53#8 => Format.ID.accept x (.icDec x.idx x.ctx x.dwLow)
  | 0x54#8 => Format.S.accept x (.icGetk x.idx)
  | 0x60#8 => decodeCsrRead x
  | _ => .error .unassignedOpcode

/-- The decoder: total on any 128 bits (R96). -/
def decode (w : Command) : Except Illegal Instr := decodeFields (Fields.split w)

/-- The instruction the decoder reads from a table word: the command bits as spec/opcode_table.json
numbers them, every bit above `nbits` zero. A command has 128 bits (R90). -/
def decodeTableWord (nbits w : Nat) : Option Instr :=
  if nbits ≤ 128 then (decode (BitVec.ofNat 128 (w % 2 ^ nbits))).toOption else none

/-! The encoder. -/

/-- The fields of a command with this `OP` and every other field zero (R94). -/
def Fields.ofOp (op : BitVec 8) : Fields :=
  { op := op, f := 0#8, idx := 0#16, ctx := 0#16, g := 0#8, z := 0#8, dw := 0#64 }

/-- The fields of a BIO write (R95). -/
def Fields.bioWrite (f : BitVec 8) (v : Dword) : Fields :=
  { Fields.ofOp 0x10#8 with f := f, dw := v }

/-- The fields of a BIO read (R95). -/
def Fields.bioRead (f : BitVec 8) : Fields :=
  { Fields.ofOp 0x11#8 with f := f }

/-- The fields of each command (R91, R92, R95). -/
def Instr.fields : Instr → Fields
  | .bioWr8 v => Fields.bioWrite 0x00#8 v
  | .bioWr16le v => Fields.bioWrite 0x01#8 v
  | .bioWr16be v => Fields.bioWrite 0x05#8 v
  | .bioWr32le v => Fields.bioWrite 0x02#8 v
  | .bioWr32be v => Fields.bioWrite 0x06#8 v
  | .bioWr64le v => Fields.bioWrite 0x03#8 v
  | .bioWr64be v => Fields.bioWrite 0x07#8 v
  | .bioRd8 => Fields.bioRead 0x00#8
  | .bioRd16le => Fields.bioRead 0x01#8
  | .bioRd16be => Fields.bioRead 0x05#8
  | .bioRd32le => Fields.bioRead 0x02#8
  | .bioRd32be => Fields.bioRead 0x06#8
  | .bioRd64le => Fields.bioRead 0x03#8
  | .bioRd64be => Fields.bioRead 0x07#8
  | .bmInit idx => { Fields.ofOp 0x20#8 with idx := idx }
  | .smCfg idx n => { Fields.ofOp 0x21#8 with idx := idx, ctx := n }
  | .smInit idx => { Fields.ofOp 0x22#8 with idx := idx }
  | .encInit => Fields.ofOp 0x30#8
  | .encSym idx v => { Fields.ofOp 0x31#8 with idx := idx, dw := v }
  | .encBit idx v => { Fields.ofOp 0x32#8 with idx := idx, dw := v }
  | .encBits n v => { Fields.ofOp 0x33#8 with f := n, dw := v }
  | .encFloat v => { Fields.ofOp 0x34#8 with dw := v }
  | .encDouble v => { Fields.ofOp 0x35#8 with dw := v }
  | .encDone => Fields.ofOp 0x36#8
  | .decInit => Fields.ofOp 0x40#8
  | .decSym idx => { Fields.ofOp 0x41#8 with idx := idx }
  | .decBit idx => { Fields.ofOp 0x42#8 with idx := idx }
  | .decBits n => { Fields.ofOp 0x43#8 with f := n }
  | .decFloat => Fields.ofOp 0x44#8
  | .decDouble => Fields.ofOp 0x45#8
  | .decDone => Fields.ofOp 0x46#8
  | .icCfg idx bits contexts bitsHigh rng =>
      { Fields.ofOp 0x50#8 with f := bits, idx := idx, ctx := contexts, g := bitsHigh, dw := 0#32 ++ rng }
  | .icInit idx => { Fields.ofOp 0x51#8 with idx := idx }
  | .icEnc idx ctx pred real => { Fields.ofOp 0x52#8 with idx := idx, ctx := ctx, dw := pred ++ real }
  | .icDec idx ctx pred => { Fields.ofOp 0x53#8 with idx := idx, ctx := ctx, dw := 0#32 ++ pred }
  | .icGetk idx => { Fields.ofOp 0x54#8 with idx := idx }
  | .csrRd addr => { Fields.ofOp 0x60#8 with idx := addr }

/-- The encoder: the 128 bits of a command. -/
def encode (i : Instr) : Command := i.fields.join

/-- The one command each pseudo-instruction expands to (R100). -/
def Pseudo.expand : Pseudo → Instr
  | .encByte v => .encBits 8#8 v
  | .encShort v => .encBits 16#8 v
  | .encInt v => .encBits 32#8 v
  | .encInt64 v => .encDouble v
  | .encWbit b => .encBits 1#8 b
  | .decByte => .decBits 8#8
  | .decShort => .decBits 16#8
  | .decInt => .decBits 32#8
  | .decInt64 => .decDouble
  | .decRbit => .decBits 1#8

/-! The rows of spec/opcode_table.json. -/

/-- A row of the opcode table: a command is of this row when its masked bits equal `pattern`. -/
structure Row where
  mnemonic : String
  pattern : Command
  mask : Command
  deriving DecidableEq, Repr

/-- A command is of a row. -/
def Row.holds (r : Row) (w : Command) : Bool := (w &&& r.mask) == r.pattern

/-- The row of each command, as spec/opcode_table.json writes it. -/
def Instr.row : Instr → Row
  | .bioWr8 _ => ⟨"BIO.WR8", 0x10000000000000000000000000000000#128, 0xFFFFFFFFFFFFFFFF0000000000000000#128⟩
  | .bioWr16le _ => ⟨"BIO.WR16LE", 0x10010000000000000000000000000000#128, 0xFFFFFFFFFFFFFFFF0000000000000000#128⟩
  | .bioWr16be _ => ⟨"BIO.WR16BE", 0x10050000000000000000000000000000#128, 0xFFFFFFFFFFFFFFFF0000000000000000#128⟩
  | .bioWr32le _ => ⟨"BIO.WR32LE", 0x10020000000000000000000000000000#128, 0xFFFFFFFFFFFFFFFF0000000000000000#128⟩
  | .bioWr32be _ => ⟨"BIO.WR32BE", 0x10060000000000000000000000000000#128, 0xFFFFFFFFFFFFFFFF0000000000000000#128⟩
  | .bioWr64le _ => ⟨"BIO.WR64LE", 0x10030000000000000000000000000000#128, 0xFFFFFFFFFFFFFFFF0000000000000000#128⟩
  | .bioWr64be _ => ⟨"BIO.WR64BE", 0x10070000000000000000000000000000#128, 0xFFFFFFFFFFFFFFFF0000000000000000#128⟩
  | .bioRd8 => ⟨"BIO.RD8", 0x11000000000000000000000000000000#128, 0xFFFFFFFFFFFFFFFFFFFFFFFFFFFFFFFF#128⟩
  | .bioRd16le => ⟨"BIO.RD16LE", 0x11010000000000000000000000000000#128, 0xFFFFFFFFFFFFFFFFFFFFFFFFFFFFFFFF#128⟩
  | .bioRd16be => ⟨"BIO.RD16BE", 0x11050000000000000000000000000000#128, 0xFFFFFFFFFFFFFFFFFFFFFFFFFFFFFFFF#128⟩
  | .bioRd32le => ⟨"BIO.RD32LE", 0x11020000000000000000000000000000#128, 0xFFFFFFFFFFFFFFFFFFFFFFFFFFFFFFFF#128⟩
  | .bioRd32be => ⟨"BIO.RD32BE", 0x11060000000000000000000000000000#128, 0xFFFFFFFFFFFFFFFFFFFFFFFFFFFFFFFF#128⟩
  | .bioRd64le => ⟨"BIO.RD64LE", 0x11030000000000000000000000000000#128, 0xFFFFFFFFFFFFFFFFFFFFFFFFFFFFFFFF#128⟩
  | .bioRd64be => ⟨"BIO.RD64BE", 0x11070000000000000000000000000000#128, 0xFFFFFFFFFFFFFFFFFFFFFFFFFFFFFFFF#128⟩
  | .bmInit _ => ⟨"BM.INIT", 0x20000000000000000000000000000000#128, 0xFFFF0000FFFFFFFFFFFFFFFFFFFFFFFF#128⟩
  | .smCfg _ _ => ⟨"SM.CFG", 0x21000000000000000000000000000000#128, 0xFFFF00000000FFFFFFFFFFFFFFFFFFFF#128⟩
  | .smInit _ => ⟨"SM.INIT", 0x22000000000000000000000000000000#128, 0xFFFF0000FFFFFFFFFFFFFFFFFFFFFFFF#128⟩
  | .encInit => ⟨"ENC.INIT", 0x30000000000000000000000000000000#128, 0xFFFFFFFFFFFFFFFFFFFFFFFFFFFFFFFF#128⟩
  | .encSym _ _ => ⟨"ENC.SYM", 0x31000000000000000000000000000000#128, 0xFFFF0000FFFFFFFF0000000000000000#128⟩
  | .encBit _ _ => ⟨"ENC.BIT", 0x32000000000000000000000000000000#128, 0xFFFF0000FFFFFFFF0000000000000000#128⟩
  | .encBits _ _ => ⟨"ENC.BITS", 0x33000000000000000000000000000000#128, 0xFF00FFFFFFFFFFFF0000000000000000#128⟩
  | .encFloat _ => ⟨"ENC.FLOAT", 0x34000000000000000000000000000000#128, 0xFFFFFFFFFFFFFFFF0000000000000000#128⟩
  | .encDouble _ => ⟨"ENC.DOUBLE", 0x35000000000000000000000000000000#128, 0xFFFFFFFFFFFFFFFF0000000000000000#128⟩
  | .encDone => ⟨"ENC.DONE", 0x36000000000000000000000000000000#128, 0xFFFFFFFFFFFFFFFFFFFFFFFFFFFFFFFF#128⟩
  | .decInit => ⟨"DEC.INIT", 0x40000000000000000000000000000000#128, 0xFFFFFFFFFFFFFFFFFFFFFFFFFFFFFFFF#128⟩
  | .decSym _ => ⟨"DEC.SYM", 0x41000000000000000000000000000000#128, 0xFFFF0000FFFFFFFFFFFFFFFFFFFFFFFF#128⟩
  | .decBit _ => ⟨"DEC.BIT", 0x42000000000000000000000000000000#128, 0xFFFF0000FFFFFFFFFFFFFFFFFFFFFFFF#128⟩
  | .decBits _ => ⟨"DEC.BITS", 0x43000000000000000000000000000000#128, 0xFF00FFFFFFFFFFFFFFFFFFFFFFFFFFFF#128⟩
  | .decFloat => ⟨"DEC.FLOAT", 0x44000000000000000000000000000000#128, 0xFFFFFFFFFFFFFFFFFFFFFFFFFFFFFFFF#128⟩
  | .decDouble => ⟨"DEC.DOUBLE", 0x45000000000000000000000000000000#128, 0xFFFFFFFFFFFFFFFFFFFFFFFFFFFFFFFF#128⟩
  | .decDone => ⟨"DEC.DONE", 0x46000000000000000000000000000000#128, 0xFFFFFFFFFFFFFFFFFFFFFFFFFFFFFFFF#128⟩
  | .icCfg _ _ _ _ _ => ⟨"IC.CFG", 0x50000000000000000000000000000000#128, 0xFF000000000000FFFFFFFFFF00000000#128⟩
  | .icInit _ => ⟨"IC.INIT", 0x51000000000000000000000000000000#128, 0xFFFF0000FFFFFFFFFFFFFFFFFFFFFFFF#128⟩
  | .icEnc _ _ _ _ => ⟨"IC.ENC", 0x52000000000000000000000000000000#128, 0xFFFF00000000FFFF0000000000000000#128⟩
  | .icDec _ _ _ => ⟨"IC.DEC", 0x53000000000000000000000000000000#128, 0xFFFF00000000FFFFFFFFFFFF00000000#128⟩
  | .icGetk _ => ⟨"IC.GETK", 0x54000000000000000000000000000000#128, 0xFFFF0000FFFFFFFFFFFFFFFFFFFFFFFF#128⟩
  | .csrRd _ => ⟨"CSR.RD", 0x60000000000000000000000000000000#128, 0xFFFF0000FFFFFFFFFFFFFFFFFFFFFFFF#128⟩

end Sys2Proof
end

