-- ==== Sys2Proof/Machine/System.lean ====
section
/-! DEFINITION. The system command (45_system.md): `CSR.RD` (R260). There is no CSR write. -/

namespace Sys2Proof.Machine

/-- The value of a CSR (10_state.md R35), zero-extended. -/
def State.csr (s : State) : Csr → Dword
  | .fault => s.fault.zeroExtend 64
  | .status => s.status
  | .res => s.res
  | .sinkCount => s.sink.count
  | .srcCount => s.src.count
  | .encLow => s.enc.low.zeroExtend 64
  | .encRange => s.enc.range.zeroExtend 64
  | .encStage => s.enc.stageView
  | .encPending => BitVec.ofNat 64 s.enc.pending
  | .encOutIdx => BitVec.ofNat 64 s.enc.outIdx
  | .decValue => s.dec.dvalue.zeroExtend 64
  | .decRange => s.dec.drange.zeroExtend 64

/-- `CSR.RD addr` (R260): the one command that is not refused while `FAULT ≠ 0`
(60_exceptions.md R276). An unlisted address is no command (log 21). -/
def execCsrRd (addr : Index) (s : State) : Host.Outcome State Fault Refusal :=
  match Csr.ofAddress addr with
  | some c => .next (s.complete (some (s.csr c)))
  | none => s.illegalCommand

end Sys2Proof.Machine
end

