-- ==== Sys2Proof/WellFormed.lean ====
section
/-! DEFINITION. The well-formed commands: those some 128 bits decode to (30_encoding.md R95, R96). -/

namespace Sys2Proof

/-- Every value of every operand field decodes (30_encoding.md R93, R95), except the address of
`CSR.RD`, which must be one of 10_state.md R35. -/
def Instr.wellFormed : Instr → Bool
  | .csrRd addr => (Csr.ofAddress addr).isSome
  | .bioWr8 _ | .bioWr16le _ | .bioWr16be _ | .bioWr32le _ | .bioWr32be _ | .bioWr64le _ | .bioWr64be _ => true
  | .bioRd8 | .bioRd16le | .bioRd16be | .bioRd32le | .bioRd32be | .bioRd64le | .bioRd64be => true
  | .bmInit _ | .smCfg _ _ | .smInit _ => true
  | .encInit | .encSym _ _ | .encBit _ _ | .encBits _ _ | .encFloat _ | .encDouble _ | .encDone => true
  | .decInit | .decSym _ | .decBit _ | .decBits _ | .decFloat | .decDouble | .decDone => true
  | .icCfg _ _ _ _ _ | .icInit _ | .icEnc _ _ _ _ | .icDec _ _ _ | .icGetk _ => true

end Sys2Proof
end

