-- ==== Sys2Proof/Machine/Dispatch.lean ====
section
/-! DEFINITION. The meaning of each command of the opcode map (30_encoding.md R95). -/

namespace Sys2Proof.Machine

def exec (i : Instr) (s : State) : Host.Outcome State Fault Refusal :=
  match i with
  | .bioWr8 v => Sys2Proof.Machine.execBioWr8 v s
  | .bioWr16le v => Sys2Proof.Machine.execBioWr16le v s
  | .bioWr16be v => Sys2Proof.Machine.execBioWr16be v s
  | .bioWr32le v => Sys2Proof.Machine.execBioWr32le v s
  | .bioWr32be v => Sys2Proof.Machine.execBioWr32be v s
  | .bioWr64le v => Sys2Proof.Machine.execBioWr64le v s
  | .bioWr64be v => Sys2Proof.Machine.execBioWr64be v s
  | .bioRd8 => Sys2Proof.Machine.execBioRd8 s
  | .bioRd16le => Sys2Proof.Machine.execBioRd16le s
  | .bioRd16be => Sys2Proof.Machine.execBioRd16be s
  | .bioRd32le => Sys2Proof.Machine.execBioRd32le s
  | .bioRd32be => Sys2Proof.Machine.execBioRd32be s
  | .bioRd64le => Sys2Proof.Machine.execBioRd64le s
  | .bioRd64be => Sys2Proof.Machine.execBioRd64be s
  | .bmInit idx => Sys2Proof.Machine.execBmInit idx s
  | .smCfg idx n => Sys2Proof.Machine.execSmCfg idx n s
  | .smInit idx => Sys2Proof.Machine.execSmInit idx s
  | .encInit => Sys2Proof.Machine.execEncInit s
  | .encSym idx v => Sys2Proof.Machine.execEncSym idx v s
  | .encBit idx v => Sys2Proof.Machine.execEncBit idx v s
  | .encBits n v => Sys2Proof.Machine.execEncBits n v s
  | .encFloat v => Sys2Proof.Machine.execEncFloat v s
  | .encDouble v => Sys2Proof.Machine.execEncDouble v s
  | .encDone => Sys2Proof.Machine.execEncDone s
  | .decInit => Sys2Proof.Machine.execDecInit s
  | .decSym idx => Sys2Proof.Machine.execDecSym idx s
  | .decBit idx => Sys2Proof.Machine.execDecBit idx s
  | .decBits n => Sys2Proof.Machine.execDecBits n s
  | .decFloat => Sys2Proof.Machine.execDecFloat s
  | .decDouble => Sys2Proof.Machine.execDecDouble s
  | .decDone => Sys2Proof.Machine.execDecDone s
  | .icCfg idx bits contexts bitsHigh rng => Sys2Proof.Machine.execIcCfg idx bits contexts bitsHigh rng s
  | .icInit idx => Sys2Proof.Machine.execIcInit idx s
  | .icEnc idx ctx pred real => Sys2Proof.Machine.execIcEnc idx ctx pred real s
  | .icDec idx ctx pred => Sys2Proof.Machine.execIcDec idx ctx pred s
  | .icGetk idx => Sys2Proof.Machine.execIcGetk idx s
  | .csrRd addr => Sys2Proof.Machine.execCsrRd addr s

end Sys2Proof.Machine
end

