-- ==== Sys2Proof/Machine/Fetch.lean ====
section
/-! DEFINITION. What the LEC does with what its environment presents: a command is decoded and
executed (60_exceptions.md R275), reset and the source's move are events (00_scope.md R14). -/

namespace Sys2Proof.Machine

/-- A command presented: 128 bits that do not decode are an illegal command (30_encoding.md R95). -/
def State.present (s : State) (w : Command) : Host.Outcome State Fault Refusal :=
  match decode w with
  | .ok i => exec i s
  | .error _ => s.illegalCommand

/-- How many bytes a command reads that reads a fixed number of them, in one transfer
(40_bit_io.md R122, 43_range_dec.md R201, 20_memory.md R67). -/
def plainReads : Instr → Option Nat
  | .bioRd8 => some 1
  | .bioRd16le | .bioRd16be => some 2
  | .bioRd32le | .bioRd32be | .decInit => some 4
  | .bioRd64le | .bioRd64be => some 8
  | .bioWr8 _ | .bioWr16le _ | .bioWr16be _ | .bioWr32le _ | .bioWr32be _ | .bioWr64le _ | .bioWr64be _
  | .bmInit _ | .smCfg _ _ | .smInit _ | .encInit | .encSym _ _ | .encBit _ _ | .encBits _ _
  | .encFloat _ | .encDouble _ | .encDone | .decSym _ | .decBit _ | .decBits _ | .decFloat | .decDouble
  | .decDone | .icCfg _ _ _ _ _ | .icInit _ | .icEnc _ _ _ _ | .icDec _ _ _ | .icGetk _ | .csrRd _ => none

/-- How many bytes `transfers` reads of a command move: a renormalisation moves one at a time
(20_memory.md R67). -/
def bytesRead (i : Instr) (transfers : Nat) : Nat := transfers * (plainReads i).getD 1

/-- A command abandoned before its response, when it has made every transfer it makes. -/
def State.abandonWhole (s : State) (i : Instr) : Host.Outcome State Fault Refusal :=
  match exec i s with
  | .next t => .next (s.abandonedAs t)
  | .fault r => .fault r
  | .refused r => .refused r

/-- A command abandoned when it has made `transfers` transfers (70_reset_and_hazards.md R300; a
transfer is whole, 20_memory.md R68): it runs on ports that are cut off there. When it does not come
to the cut it is abandoned before its response. -/
def State.abandonCommand (s : State) (i : Instr) (transfers : Nat) : Host.Outcome State Fault Refusal :=
  match exec i (s.cut transfers (bytesRead i transfers)) with
  | .next t =>
    if t.sink.answers = [] then
      .next (s.abandonedAs { s with sink := { t.sink with answers := s.sink.answers.drop transfers } })
    else if t.src.answers = [] then
      .next (s.abandonedAs
        { s with src := { t.src with answers := s.src.answers.drop (bytesRead i transfers) } })
    else s.abandonWhole i
  | .fault r => .fault r
  | .refused r => .refused r

/-- 128 bits presented and abandoned. Bits that are no command make no transfer. -/
def State.abandon (s : State) (w : Command) (transfers : Nat) : Host.Outcome State Fault Refusal :=
  match decode w with
  | .ok i => s.abandonCommand i transfers
  | .error _ => .next s.resetEvent

/-- One event of the environment. -/
def State.take (s : State) (e : PortEvent) : Host.Outcome State Fault Refusal :=
  match e with
  | .command w => s.present w
  | .reset => .next s.resetEvent
  | .abandoned w transfers => s.abandon w transfers
  | .seek answers => .next (s.seekEvent answers)

/-- What comes next on the port: nothing presented leaves the LEC idle, holding all its state
(60_exceptions.md R294, log 1). -/
def State.advance (s : State) : Host.Outcome State Fault Refusal :=
  match s.port with
  | [] => .next s
  | e :: rest => { s with port := rest }.take e

/-- The command bits of a table word: bit 0 the least significant, every bit above `nbits` zero. -/
def tableCommand (nbits w : Nat) : Command := BitVec.ofNat 128 (w % 2 ^ nbits)

/-- A command presented before everything else on the port. -/
def State.presentNext (s : State) (w : Command) : State :=
  { s with port := .command w :: s.port }

end Sys2Proof.Machine
end

