-- ==== Sys2Proof/Machine/Step.lean ====
section
/-! DEFINITION. The step of the LEC (00_scope.md R13): one command, or one event of the environment,
to completion. -/

namespace Sys2Proof.Machine

/-- One step (00_scope.md R13). -/
def step (s : State) : Host.Outcome State Fault Refusal := s.advance

/-- `s` with the instruction of a table word presented next (log 1). -/
def State.withFetchWord (s : State) (nbits w : Nat) : State := s.presentNext (tableCommand nbits w)

end Sys2Proof.Machine
end

