-- ==== Sys2Proof/Safety.lean ====
section
/-! DEFINITION. The terms the statements use: the invariants the spec gives of the models, the coder
and the whole machine (10_state.md R27, R28, R39; 41_models.md R143, R149; 42_range_enc.md R173,
R188; 43_range_dec.md R215), when the ports answer, and the coded stream as an exact number with the
interval steps on it (42_range_enc.md R185, R188). -/

namespace Sys2Proof.Machine

/-! ## The invariants of the models -/

/-- A binary model between commands (10_state.md R27, 41_models.md R143). -/
structure BinModel.Wf (m : BinModel) : Prop where
  zeros : 1 ≤ m.c0
  /-- `c0` exceeds the stored `cnt` by less than the bits coded since the last update. -/
  below : m.c0 + m.untilUpdate < m.cnt + m.cycle
  bits : 2 ≤ m.cnt ∧ m.cnt ≤ 8192
  prob : 1 ≤ m.p0 ∧ m.p0 ≤ 8191
  period : 4 ≤ m.cycle ∧ m.cycle ≤ 64
  remaining : 1 ≤ m.untilUpdate ∧ m.untilUpdate ≤ m.cycle

/-- An m-ary model between commands (10_state.md R28, 41_models.md R149). -/
structure SymModel.Wf (m : SymModel) : Prop where
  alphabet : 2 ≤ m.n ∧ m.n ≤ 2048
  counts : m.count.length = m.n
  positive : ∀ c ∈ m.count, 1 ≤ c
  table : m.dist.length = m.n
  first : m.distAt 0 = 0
  rising : ∀ k, k + 1 < m.n → m.distAt k < m.distAt (k + 1)
  last : m.distAt (m.n - 1) < 2 ^ 15
  totals : m.n ≤ m.total ∧ m.total ≤ 32768
  /-- The counts sum to `total` and the symbols coded since the last update. -/
  sum : m.count.sum + m.untilUpdate = m.total + m.cycle
  period : 1 ≤ m.cycle ∧ m.cycle ≤ (m.n + 6) * 8
  remaining : 1 ≤ m.untilUpdate ∧ m.untilUpdate ≤ m.cycle

/-- An integer-compressor instance between commands (10_state.md R30, 44_integer_codec.md R231,
R233, R239): its derived fields are those of its configuration, its private models have the
alphabets R233 gives and are between commands themselves. -/
structure IntComp.Wf (c : IntComp) : Prop where
  bits : c.bits ≤ 32
  contexts : 1 ≤ c.contexts
  high : 1 ≤ c.bitsHigh ∧ c.bitsHigh ≤ 11
  rng : c.rng = 0#32 ∨ (2 ≤ c.rng.toNat ∧ c.rng.toNat ≤ 2 ^ 31 - 1)
  derived : c.derive = c
  corrBits : 1 ≤ c.corrBits ∧ c.corrBits ≤ 32
  k : c.k ≤ c.corrBits
  prefixes : c.mbits.length = c.contexts
  prefixModels : ∀ m ∈ c.mbits, m.Wf ∧ m.n = c.corrBits + 1
  bm0 : c.bm0.Wf
  payloads : c.mcorr.length = c.corrBits
  payloadModels : ∀ q, 1 ≤ q → q ≤ c.corrBits → (c.mcorrAt q).Wf ∧ (c.mcorrAt q).n = 2 ^ min q c.bitsHigh

/-! ## The invariants of the coders -/

/-- No carry can leave the stage (42_range_enc.md R173): while the stage is empty, or its oldest byte
is 0xFF, the interval does not reach past 2^32. -/
def Encoder.CarrySafe (e : Encoder) : Prop :=
  e.cacheValid = false ∨ e.cache = 0xFF#8 → e.low.toNat + e.range.toNat ≤ 2 ^ 32

/-- The RCE between commands of an open chunk (10_state.md R39, 42_range_enc.md R173, R188). -/
structure Encoder.Open (e : Encoder) : Prop where
  active : e.active = true
  range : 2 ^ 24 ≤ e.range.toNat
  room : e.outBuf.length < 4096
  stage : e.cacheValid = false → e.pending = 0
  carrySafe : e.CarrySafe

/-- The RCE while no chunk is open: nothing is staged or buffered (20_memory.md R71). -/
structure Encoder.Closed (e : Encoder) : Prop where
  inactive : e.active = false
  stage : e.cacheValid = false ∧ e.pending = 0
  buffer : e.outBuf = []

/-- The RCD between commands of an open chunk (10_state.md R39): the code value lies in the
interval, or the chunk began with FF FF FF FF and nothing has been decoded (43_range_dec.md R201). -/
structure Decoder.Open (d : Decoder) : Prop where
  active : d.active = true
  range : 2 ^ 24 ≤ d.drange.toNat
  value : d.dvalue.toNat < d.drange.toNat ∨ (d.dvalue = 0xFFFFFFFF#32 ∧ d.drange = 0xFFFFFFFF#32)

/-! ## The invariant of the machine -/

/-- The indexes listed in a file are below its number of slots. -/
def SlotFile.Bounded {α : Type} (f : SlotFile α) (bound : Nat) : Prop := ∀ p ∈ f, p.1 < bound

/-- Every slot listed in a file satisfies a predicate. -/
def SlotFile.All {α : Type} (f : SlotFile α) (good : α → Prop) : Prop := ∀ p ∈ f, good p.2

/-- The form of the state that holds at every moment: legal parameters, a `FAULT` code of
60_exceptions.md R270, the canonical form of the files. -/
structure State.Form (s : State) : Prop where
  params : s.params.Legal
  fault : s.fault.toNat ≤ 8
  bmForm : SlotFile.wf s.bm = true
  smForm : SlotFile.wf s.sm = true
  icForm : SlotFile.wf s.ic = true
  bmIndex : SlotFile.Bounded s.bm s.params.nBm
  smIndex : SlotFile.Bounded s.sm s.params.nSm
  icIndex : SlotFile.Bounded s.ic s.params.nIc

/-- What holds between commands while `FAULT = 0` (10_state.md R39 and the bounds of R27, R28). -/
structure State.Sound (s : State) : Prop where
  encoder : s.enc.Open ∨ s.enc.Closed
  decoder : s.dec.Open ∨ s.dec.active = false
  bm : SlotFile.All s.bm BinModel.Wf
  sm : SlotFile.All s.sm SymModel.Wf
  ic : SlotFile.All s.ic fun c => c.Wf ∧ c.contexts ≤ s.params.icMaxCtx

/-- The invariant of the machine. -/
structure State.Inv (s : State) : Prop where
  form : s.Form
  sound : s.fault = 0#8 → s.Sound

/-! ## When the ports answer -/

/-- The sink takes every burst to come: the default oracle (00_scope.md R7). -/
def Sink.Accepting (k : Sink) : Prop := ∀ a ∈ k.answers, a = SinkAnswer.accept

/-- The sink takes the next burst. -/
def Sink.TakesNext (k : Sink) : Prop := ∀ a, k.answers.head? = some a → a = SinkAnswer.accept

/-- The source answers with these bytes next, and then with what is listed. -/
def Source.Gives (p : Source) (bs : List Byte) (rest : List SrcAnswer) : Prop :=
  p.answers = bs.map SrcAnswer.byte ++ rest

/-- The source answers with `have'` bytes next and then not with a byte: an end of input (code 0x07)
or an io-error (code 0x08) (20_memory.md R79, 60_exceptions.md R290, R291). -/
def Source.Breaks (p : Source) (have' : Nat) (code : BitVec 8) : Prop :=
  ∃ bs rest, p.Gives bs rest ∧ bs.length = have' ∧
    (((rest = [] ∨ rest.head? = some SrcAnswer.endOfInput) ∧ code = 0x07#8) ∨
      (rest.head? = some SrcAnswer.ioError ∧ code = 0x08#8))

/-! ## The coded stream as an exact number -/

/-- The number bytes write, most significant byte first. -/
def bigEndian (bs : List Byte) : Nat := bs.foldl (fun acc b => acc * 256 + b.toNat) 0

/-- The staged bytes (10_state.md R22). -/
def Encoder.staged (e : Encoder) : List Byte :=
  if e.cacheValid then e.cache :: List.replicate e.pending 0xFF#8 else []

/-- Every byte that has left `low`, in order: at the sink, in the output buffer, in the stage. -/
def Rce.stream (r : Rce) : List Byte := r.sink.bytes ++ r.enc.outBuf ++ r.enc.staged

/-- The base of the coding interval as an exact number: the bytes that have left `low`, then `low`. -/
def Rce.codeValue (r : Rce) : Nat := bigEndian r.stream * 2 ^ 32 + r.enc.low.toNat

/-- `SINK_COUNT` less the bytes at the sink: what a command never changes (10_state.md R34). -/
def Sink.uncounted (k : Sink) : Dword := k.count - BitVec.ofNat 64 k.bytes.length

/-- What the sink port may do during a coding command: bytes reach the sink in whole buffers only
(20_memory.md R67), they are counted, and a sink that takes everything goes on doing so. -/
structure Sink.Grown (k k' : Sink) : Prop where
  bursts : ∃ more, k'.bursts = k.bursts ++ more ∧ ∀ b ∈ more, b.length = 4096
  counted : k'.uncounted = k.uncounted
  accepting : k.Accepting → k'.Accepting

/-- `j` is the least number of bytes whose shift brings an interval of length `w` to 2^24 at least
(42_range_enc.md R178, 43_range_dec.md R202). -/
def Needs (w j : Nat) : Prop := 2 ^ 24 ≤ w * 256 ^ j ∧ ∀ i, i < j → w * 256 ^ i < 2 ^ 24

/-- The encoder goes from `r` to `r'` by narrowing its interval to the length `w` that begins `x`
above its base, and shifting out as few bytes as bring the length to 2^24 at least: an exact step on
the numbers, whatever the stage and the buffer do (42_range_enc.md R178, R185, R188). -/
structure Rce.Narrowed (x w : Nat) (r r' : Rce) : Prop where
  turns : ∃ j, Needs w j ∧ r'.codeValue = (r.codeValue + x) * 256 ^ j ∧
    r'.enc.range.toNat = w * 256 ^ j ∧ r'.stream.length = r.stream.length + j
  opened : r'.enc.Open
  port : r.sink.Grown r'.sink

/-- A list of uniform literals, each a width and a value, coded one after another
(42_range_enc.md R180). -/
def Rce.CodesLiterals : List (Nat × Nat) → Rce → Rce → Prop
  | [], r, r' => r' = r
  | (n, v) :: rest, r, r' =>
    ∃ r1, Rce.Narrowed (v * (r.enc.range.toNat / 2 ^ n)) (r.enc.range.toNat / 2 ^ n) r r1 ∧
      Rce.CodesLiterals rest r1 r'

/-- The literals `ENC.BITS` codes (42_range_enc.md R179): above 19 bits the low half, then the rest. -/
def literalParts (n v : Nat) : List (Nat × Nat) :=
  if 19 < n then [(16, v % 2 ^ 16), (n - 16, v / 2 ^ 16)] else [(n, v)]

/-- The literals `ENC.FLOAT` and `ENC.DOUBLE` code (42_range_enc.md R182, R183): `n` half-words, the
lowest first. -/
def halfParts : Nat → Nat → List (Nat × Nat)
  | 0, _ => []
  | n + 1, v => (16, v % 2 ^ 16) :: halfParts n (v / 2 ^ 16)

/-- The decoder goes from `r` to `r'` by the same step: `x` taken off the code value, and as few
source bytes shifted in as bring the length to 2^24 at least (43_range_dec.md R202). -/
def Rcd.Narrowed (x w : Nat) (r r' : Rcd) : Prop :=
  ∃ bs, Needs w bs.length ∧ r.src.Gives bs r'.src.answers ∧
    r'.src.count = r.src.count + BitVec.ofNat 64 bs.length ∧
    r'.dec.dvalue.toNat = (r.dec.dvalue.toNat - x) * 256 ^ bs.length + bigEndian bs ∧
    r'.dec.drange.toNat = w * 256 ^ bs.length ∧ r'.dec.active = r.dec.active

/-- Uniform literals of the listed widths read one after another, with the values read
(43_range_dec.md R208): each value is below 2 to its width. -/
def Rcd.ReadsLiterals : List Nat → List Nat → Rcd → Rcd → Prop
  | [], [], r, r' => r' = r
  | n :: ns, q :: qs, r, r' =>
    q = r.dec.dvalue.toNat / (r.dec.drange.toNat / 2 ^ n) ∧ q < 2 ^ n ∧
      ∃ r1, Rcd.Narrowed (q * (r.dec.drange.toNat / 2 ^ n)) (r.dec.drange.toNat / 2 ^ n) r r1 ∧
        Rcd.ReadsLiterals ns qs r1 r'
  | _, _, _, _ => False

/-- The widths of the literals `DEC.BITS` reads (43_range_dec.md R207). -/
def literalWidths (n : Nat) : List Nat := if 19 < n then [16, n - 16] else [n]

/-- The value of literals read: the first is lowest, each one half-word above the one before
(43_range_dec.md R207, R209, R210). -/
def literalValue : List Nat → Nat
  | [] => 0
  | q :: qs => q + 2 ^ 16 * literalValue qs

/-- The ends of a symbol's part of an interval of length `len` (42_range_enc.md R176). -/
def SymModel.partLow (m : SymModel) (v len : Nat) : Nat := m.distAt v * (len / 2 ^ 15)

/-- The end of a symbol's part: the last symbol's part ends with the interval. -/
def SymModel.partHigh (m : SymModel) (v len : Nat) : Nat :=
  if v + 1 = m.n then len else m.distAt (v + 1) * (len / 2 ^ 15)

/-- The length of a symbol's part of an interval. -/
def SymModel.partLen (m : SymModel) (v len : Nat) : Nat := m.partHigh v len - m.partLow v len

/-- A symbol coded with a model: the exact interval step of 42_range_enc.md R176. -/
def Rce.CodesSymbol (m : SymModel) (v : Nat) (r r' : Rce) : Prop :=
  Rce.Narrowed (m.partLow v r.enc.range.toNat) (m.partLen v r.enc.range.toNat) r r'

/-- Where a bit's part of an interval begins: a 0 bit takes the lower part (42_range_enc.md R177). -/
def BinModel.partLow (m : BinModel) (b len : Nat) : Nat := if b = 0 then 0 else m.p0 * (len / 2 ^ 13)

/-- The length of a bit's part of an interval. -/
def BinModel.partLen (m : BinModel) (b len : Nat) : Nat :=
  if b = 0 then m.p0 * (len / 2 ^ 13) else len - m.p0 * (len / 2 ^ 13)

/-- A bit coded with a model: the exact interval step of 42_range_enc.md R177. -/
def Rce.CodesBit (m : BinModel) (b : Nat) (r r' : Rce) : Prop :=
  Rce.Narrowed (m.partLow b r.enc.range.toNat) (m.partLen b r.enc.range.toNat) r r'

/-- A value lies in a part of an interval. -/
def InPart (low len value : Nat) : Prop := low ≤ value ∧ value < low + len

/-- A symbol decoded with a model: the code value lies in its part, and the exact interval step of
43_range_dec.md R203 follows. -/
def Rcd.DecodesSymbol (m : SymModel) (v : Nat) (r r' : Rcd) : Prop :=
  v < m.n ∧ InPart (m.partLow v r.dec.drange.toNat) (m.partLen v r.dec.drange.toNat) r.dec.dvalue.toNat ∧
    Rcd.Narrowed (m.partLow v r.dec.drange.toNat) (m.partLen v r.dec.drange.toNat) r r'

/-- A bit decoded with a model: the code value lies in its part, and the exact interval step of
43_range_dec.md R205 follows. -/
def Rcd.DecodesBit (m : BinModel) (b : Nat) (r r' : Rcd) : Prop :=
  b < 2 ∧ InPart (m.partLow b r.dec.drange.toNat) (m.partLen b r.dec.drange.toNat) r.dec.dvalue.toNat ∧
    Rcd.Narrowed (m.partLow b r.dec.drange.toNat) (m.partLen b r.dec.drange.toNat) r r'

/-- A binary model after a bit, on either side (41_models.md R152). -/
def BinModel.learn (m : BinModel) (b : Nat) : BinModel :=
  if b = 0 then m.countZero.tick else m.tick

/-- The end of a chunk as an exact number: the base raised to the final code value, the bytes behind
its leading ones zero (42_range_enc.md R184). -/
def Rce.finalCode (r : Rce) : Nat :=
  if 2 ^ 25 < r.enc.range.toNat then (r.codeValue + 2 ^ 24) / 2 ^ 24 * 2 ^ 24
  else (r.codeValue + 2 ^ 23) / 2 ^ 16 * 2 ^ 16

/-- What `ENC.DONE` leaves in `low` (42_range_enc.md R184). -/
def Rce.finalLow (r : Rce) : Nat :=
  if 2 ^ 25 < r.enc.range.toNat then (r.enc.low.toNat + 2 ^ 24) * 2 ^ 8 % 2 ^ 32
  else (r.enc.low.toNat + 2 ^ 23) * 2 ^ 16 % 2 ^ 32

/-- A chunk ended (42_range_enc.md R184, R187): every byte of the stream and four more are at the
sink, in whole buffers and one last burst that is shorter; stage and buffer are empty. -/
structure Rce.Finished (r r' : Rce) : Prop where
  bytes : r'.sink.bytes.length = r.stream.length + 4 ∧ bigEndian r'.sink.bytes = r.finalCode
  bursts : ∃ more last, r'.sink.bursts = r.sink.bursts ++ more ++ last ∧ (∀ b ∈ more, b.length = 4096) ∧
    last.length ≤ 1 ∧ ∀ b ∈ last, 1 ≤ b.length ∧ b.length ≤ 4095
  counted : r'.sink.uncounted = r.sink.uncounted
  accepting : r.sink.Accepting → r'.sink.Accepting
  registers : r'.enc =
    { low := word r.finalLow, range := 0x80000000#32, cache := 0#8, cacheValid := false, pending := 0
      outBuf := [], active := false }

/-! ## Correctors (44_integer_codec.md R235, R237) -/

/-- The class of a corrector, as 44_integer_codec.md R235 lists the classes. -/
def InClass (k : Nat) (corr : Int) : Prop :=
  if k = 0 then corr = 0 ∨ corr = 1
  else if k ≤ 31 then
    (-(2 ^ k - 1) ≤ corr ∧ corr ≤ -2 ^ (k - 1)) ∨ (2 ^ (k - 1) + 1 ≤ corr ∧ corr ≤ 2 ^ k)
  else k = 32 ∧ corr = -2 ^ 31

/-- The place of a corrector in its class: a `k`-bit number (44_integer_codec.md R235). -/
def AtOffset (k : Nat) (corr : Int) (u : Nat) : Prop :=
  u < 2 ^ k ∧ (u : Int) = if corr < 0 then corr + (2 ^ k - 1) else corr - 1

/-- The payload of a corrector coded (44_integer_codec.md R235). -/
def Rce.CodesPayload (c : IntComp) (k u : Nat) (r r' : Rce) (c' : IntComp) : Prop :=
  if k ≤ c.bitsHigh then
    Rce.CodesSymbol (c.mcorrAt k) u r r' ∧ c' = c.setMcorr k ((c.mcorrAt k).learn u)
  else
    ∃ r1, Rce.CodesSymbol (c.mcorrAt k) (u / 2 ^ (k - c.bitsHigh)) r r1 ∧
      Rce.CodesLiterals (literalParts (k - c.bitsHigh) (u % 2 ^ (k - c.bitsHigh))) r1 r' ∧
      c' = c.setMcorr k ((c.mcorrAt k).learn (u / 2 ^ (k - c.bitsHigh)))

/-- A corrector coded with the private models of an instance (44_integer_codec.md R235). -/
def Rce.CodesCorrector (c : IntComp) (ctx : Nat) (corr : Int) (r r' : Rce) (c' : IntComp) : Prop :=
  ∃ k r1, InClass k corr ∧ k ≤ c.corrBits ∧ Rce.CodesSymbol (c.mbitsAt ctx) k r r1 ∧
    if k = 0 then
      Rce.CodesBit c.bm0 corr.toNat r1 r' ∧
        c' = ((c.setK k).setMbits ctx ((c.mbitsAt ctx).learn k)).setBm0 (c.bm0.learn corr.toNat)
    else if k ≤ 31 then
      ∃ u, AtOffset k corr u ∧
        Rce.CodesPayload ((c.setK k).setMbits ctx ((c.mbitsAt ctx).learn k)) k u r1 r' c'
    else r' = r1 ∧ c' = (c.setK k).setMbits ctx ((c.mbitsAt ctx).learn k)

/-- The payload of a corrector decoded (44_integer_codec.md R237). -/
def Rcd.DecodesPayload (c : IntComp) (k u : Nat) (r r' : Rcd) (c' : IntComp) : Prop :=
  if k ≤ c.bitsHigh then
    Rcd.DecodesSymbol (c.mcorrAt k) u r r' ∧ c' = c.setMcorr k ((c.mcorrAt k).learn u)
  else
    ∃ r1 hi qs, Rcd.DecodesSymbol (c.mcorrAt k) hi r r1 ∧
      Rcd.ReadsLiterals (literalWidths (k - c.bitsHigh)) qs r1 r' ∧
      u = hi * 2 ^ (k - c.bitsHigh) + literalValue qs ∧
      c' = c.setMcorr k ((c.mcorrAt k).learn hi)

/-- A corrector decoded with the private models of an instance (44_integer_codec.md R237). -/
def Rcd.DecodesCorrector (c : IntComp) (ctx : Nat) (corr : Int) (r r' : Rcd) (c' : IntComp) : Prop :=
  ∃ k r1, InClass k corr ∧ Rcd.DecodesSymbol (c.mbitsAt ctx) k r r1 ∧
    if k = 0 then
      Rcd.DecodesBit c.bm0 corr.toNat r1 r' ∧
        c' = ((c.setMbits ctx ((c.mbitsAt ctx).learn k)).setK k).setBm0 (c.bm0.learn corr.toNat)
    else if k ≤ 31 then
      ∃ u, AtOffset k corr u ∧
        Rcd.DecodesPayload ((c.setMbits ctx ((c.mbitsAt ctx).learn k)).setK k) k u r1 r' c'
    else r' = r1 ∧ c' = (c.setMbits ctx ((c.mbitsAt ctx).learn k)).setK k

/-! ## When a decoding step faults (60_exceptions.md R278, R289, R290, R291)

Each says which fault, and how many bytes of the source `came` before it. -/

/-- The source after an execution fault, of `came` bytes that came: some first of them are off it, and
counted. When all are, the answer that was no byte may be off it too (20_memory.md R62,
60_exceptions.md R278, log 11). -/
def Source.Left (p q : Source) (came : Nat) : Prop :=
  ∃ j, j ≤ came ∧ q.count = p.count + BitVec.ofNat 64 j ∧
    (q.answers = p.answers.drop j ∨
      (j = came ∧ (∀ b, p.answers[came]? ≠ some (SrcAnswer.byte b)) ∧ q.answers = p.answers.drop (came + 1)))

/-- A renormalisation from an interval of length `w` does not get its bytes: the source stops before,
and `code` is its fault (43_range_dec.md R202). -/
def Source.Lacks (p : Source) (w : Nat) (code : BitVec 8) (came : Nat) : Prop :=
  ∃ need, Needs w need ∧ came < need ∧ p.Breaks came code

/-- A literal of `n` bits faults: the source's fault in its renormalisation, whatever the quotient, or
`CorruptedStream` for a quotient out of range once the bytes have come (43_range_dec.md R208,
90_conflicts.md C9). -/
def Rcd.FailsLiteral (n : Nat) (r : Rcd) (code : BitVec 8) (came : Nat) : Prop :=
  r.src.Lacks (r.dec.drange.toNat / 2 ^ n) code came ∨
    (code = 0x06#8 ∧ 2 ^ n ≤ r.dec.dvalue.toNat / (r.dec.drange.toNat / 2 ^ n) ∧
      Needs (r.dec.drange.toNat / 2 ^ n) came ∧ ∃ bs rest, r.src.Gives bs rest ∧ bs.length = came)

/-- The bytes a decoder took off its source from `r` to `r'`. -/
def Rcd.taken (r r' : Rcd) : Nat := r.src.answers.length - r'.src.answers.length

/-- One of several literals faults, after those before it were read (43_range_dec.md R207 to R210). -/
def Rcd.FailsLiterals : List Nat → Rcd → BitVec 8 → Nat → Prop
  | [], _, _, _ => False
  | n :: ns, r, code, came =>
    Rcd.FailsLiteral n r code came ∨
      ∃ q r1 more, Rcd.ReadsLiterals [n] [q] r r1 ∧ Rcd.FailsLiterals ns r1 code more ∧
        came = r.taken r1 + more

/-- A symbol faults: `CorruptedStream` for a code value outside the interval, or the source's fault in
its renormalisation (43_range_dec.md R203, R206). -/
def Rcd.FailsSymbol (m : SymModel) (r : Rcd) (code : BitVec 8) (came : Nat) : Prop :=
  (code = 0x06#8 ∧ came = 0 ∧ r.dec.drange.toNat ≤ r.dec.dvalue.toNat) ∨
    ∃ v, v < m.n ∧
      InPart (m.partLow v r.dec.drange.toNat) (m.partLen v r.dec.drange.toNat) r.dec.dvalue.toNat ∧
      r.src.Lacks (m.partLen v r.dec.drange.toNat) code came

/-- A bit faults, as a symbol does (43_range_dec.md R205, R206). -/
def Rcd.FailsBit (m : BinModel) (r : Rcd) (code : BitVec 8) (came : Nat) : Prop :=
  (code = 0x06#8 ∧ came = 0 ∧ r.dec.drange.toNat ≤ r.dec.dvalue.toNat) ∨
    ∃ b, b < 2 ∧
      InPart (m.partLow b r.dec.drange.toNat) (m.partLen b r.dec.drange.toNat) r.dec.dvalue.toNat ∧
      r.src.Lacks (m.partLen b r.dec.drange.toNat) code came

/-- A corrector faults in one of its steps, after those before it were decoded (44_integer_codec.md
R237). -/
def Rcd.FailsCorrector (c : IntComp) (ctx : Nat) (r : Rcd) (code : BitVec 8) (came : Nat) : Prop :=
  Rcd.FailsSymbol (c.mbitsAt ctx) r code came ∨
    ∃ k r1 more, Rcd.DecodesSymbol (c.mbitsAt ctx) k r r1 ∧ came = r.taken r1 + more ∧
      ((k = 0 ∧ Rcd.FailsBit c.bm0 r1 code more) ∨
        (1 ≤ k ∧ k ≤ 31 ∧ Rcd.FailsSymbol (c.mcorrAt k) r1 code more) ∨
        (c.bitsHigh < k ∧ k ≤ 31 ∧ ∃ hi r2 last, Rcd.DecodesSymbol (c.mcorrAt k) hi r1 r2 ∧
          Rcd.FailsLiterals (literalWidths (k - c.bitsHigh)) r2 code last ∧ more = r1.taken r2 + last))

/-! ## What a command leaves, and when -/

/-- A command without a result has succeeded: response `{0x00, 0}` (30_encoding.md R97). -/
def State.done (s : State) : State :=
  { s with responses := s.responses ++ [{ status := 0x00#8, data := 0#64 }] }

/-- A command has succeeded with a result, in `RES` and in the response (10_state.md R31). -/
def State.returned (s : State) (d : Dword) : State :=
  { s with res := d, responses := s.responses ++ [{ status := 0x00#8, data := d }] }

/-- A fault with this code has been recorded and reported, and nothing else has changed
(60_exceptions.md R277). -/
def State.faulted (s : State) (code : BitVec 8) : State :=
  { s with fault := code, responses := s.responses ++ [{ status := code, data := 0#64 }] }

/-- Every state element of the LEC but the counters of the ports has its reset value, and nothing else
has changed (10_state.md R40). -/
def State.restored (s : State) : State :=
  { s with
    enc :=
      { low := 0#32, range := 0#32, cache := 0#8, cacheValid := false, pending := 0, outBuf := []
        active := false }
    dec := { dvalue := 0#32, drange := 0#32, active := false }
    bm := []
    sm := []
    ic := []
    res := 0#64
    fault := 0#8 }

/-- A command has been refused (60_exceptions.md R276). -/
def State.refused (s : State) : State :=
  { s with responses := s.responses ++ [{ status := 0xFF#8, data := 0#64 }] }

/-- One burst more at the sink, and nothing else. -/
def State.wrote (s : State) (burst : List Byte) : State :=
  { s with
    sink :=
      { bursts := s.sink.bursts ++ [burst]
        answers := s.sink.answers.tail
        count := s.sink.count + BitVec.ofNat 64 burst.length } }

/-- As many bytes fewer at the source, which goes on with `rest`, and nothing else. -/
def State.consumed (s : State) (taken : Nat) (rest : List SrcAnswer) : State :=
  { s with src := { answers := rest, count := s.src.count + BitVec.ofNat 64 taken } }

/-! ## The checks of a command, rule by rule (60_exceptions.md R272 to R275, R279) -/

/-- What 60_exceptions.md R272 requires of the activity of the coders. -/
def sequenceOk (s : State) : Instr → Bool
  | .encInit => !s.enc.active
  | .encSym _ _ | .encBit _ _ | .encBits _ _ | .encFloat _ | .encDouble _ | .encDone | .icEnc _ _ _ _ =>
    s.enc.active
  | .decSym _ | .decBit _ | .decBits _ | .decFloat | .decDouble | .decDone | .icDec _ _ _ => s.dec.active
  | .bioWr8 _ | .bioWr16le _ | .bioWr16be _ | .bioWr32le _ | .bioWr32be _ | .bioWr64le _ | .bioWr64be _
  | .bioRd8 | .bioRd16le | .bioRd16be | .bioRd32le | .bioRd32be | .bioRd64le | .bioRd64be
  | .bmInit _ | .smCfg _ _ | .smInit _ | .decInit | .icCfg _ _ _ _ _ | .icInit _ | .icGetk _
  | .csrRd _ => true

/-- The slot or the instance a command names exists (60_exceptions.md R279 (a)). -/
def indexOk (p : Config.Params) : Instr → Bool
  | .bmInit i | .encBit i _ | .decBit i => decide (i.toNat < p.nBm)
  | .smCfg i _ | .smInit i | .encSym i _ | .decSym i => decide (i.toNat < p.nSm)
  | .icCfg j _ _ _ _ | .icInit j | .icEnc j _ _ _ | .icDec j _ _ | .icGetk j => decide (j.toNat < p.nIc)
  | .bioWr8 _ | .bioWr16le _ | .bioWr16be _ | .bioWr32le _ | .bioWr32be _ | .bioWr64le _ | .bioWr64be _
  | .bioRd8 | .bioRd16le | .bioRd16be | .bioRd32le | .bioRd32be | .bioRd64le | .bioRd64be
  | .encInit | .encBits _ _ | .encFloat _ | .encDouble _ | .encDone
  | .decInit | .decBits _ | .decFloat | .decDouble | .decDone | .csrRd _ => true

/-- The configuration parameters are legal (60_exceptions.md R279 (b), (c)). -/
def configOk (p : Config.Params) : Instr → Bool
  | .smCfg _ n => decide (2 ≤ n.toNat ∧ n.toNat ≤ 2048)
  | .icCfg _ bits contexts bitsHigh rng =>
    decide (bits.toNat ≤ 32 ∧ contexts.toNat ≠ 0 ∧ contexts.toNat ≤ p.icMaxCtx ∧ bitsHigh.toNat ≠ 0 ∧
      bitsHigh.toNat ≤ 11 ∧ rng.toNat ≠ 1 ∧ rng.toNat < 2 ^ 31)
  | .bioWr8 _ | .bioWr16le _ | .bioWr16be _ | .bioWr32le _ | .bioWr32be _ | .bioWr64le _ | .bioWr64be _
  | .bioRd8 | .bioRd16le | .bioRd16be | .bioRd32le | .bioRd32be | .bioRd64le | .bioRd64be
  | .bmInit _ | .smInit _ | .encInit | .encSym _ _ | .encBit _ _ | .encBits _ _ | .encFloat _
  | .encDouble _ | .encDone | .decInit | .decSym _ | .decBit _ | .decBits _ | .decFloat | .decDouble
  | .decDone | .icInit _ | .icEnc _ _ _ _ | .icDec _ _ _ | .icGetk _ | .csrRd _ => true

/-- The slot or the instance a command uses is valid (60_exceptions.md R273). -/
def slotOk (s : State) : Instr → Bool
  | .smInit i | .encSym i _ | .decSym i => (SlotFile.slot? s.sm i.toNat).isSome
  | .encBit i _ | .decBit i => (SlotFile.slot? s.bm i.toNat).isSome
  | .icInit j | .icEnc j _ _ _ | .icDec j _ _ | .icGetk j => (SlotFile.slot? s.ic j.toNat).isSome
  | .bioWr8 _ | .bioWr16le _ | .bioWr16be _ | .bioWr32le _ | .bioWr32be _ | .bioWr64le _ | .bioWr64be _
  | .bioRd8 | .bioRd16le | .bioRd16be | .bioRd32le | .bioRd32be | .bioRd64le | .bioRd64be
  | .bmInit _ | .smCfg _ _ | .encInit | .encBits _ _ | .encFloat _ | .encDouble _ | .encDone
  | .decInit | .decBits _ | .decFloat | .decDouble | .decDone | .icCfg _ _ _ _ _ | .csrRd _ => true

/-- The difference `IC.ENC` codes, folded once toward the corrector interval (44_integer_codec.md
R234). -/
def IntComp.folded (c : IntComp) (pred real : Word) : Int :=
  if (real - pred).toInt < c.corrMin then (real - pred).toInt + c.corrRange.toNat
  else if c.corrMax < (real - pred).toInt then (real - pred).toInt - c.corrRange.toNat
  else (real - pred).toInt

/-- The value `IC.DEC` makes of a corrector, folded once toward `0 .. corr_range - 1`
(44_integer_codec.md R236). -/
def IntComp.unfolded (c : IntComp) (pred : Word) (corr : Int) : Word :=
  if (BitVec.ofInt 32 (pred.toInt + corr)).toInt < 0 then
    BitVec.ofInt 32 (pred.toInt + corr + c.corrRange.toNat)
  else if c.corrRange.toNat ≤ (BitVec.ofInt 32 (pred.toInt + corr)).toNat then
    BitVec.ofInt 32 (pred.toInt + corr - c.corrRange.toNat)
  else BitVec.ofInt 32 (pred.toInt + corr)

/-- The operand values can be coded (60_exceptions.md R274). -/
def operandsOk (s : State) : Instr → Bool
  | .bioWr8 v => decide (v.toNat < 2 ^ 8)
  | .bioWr16le v | .bioWr16be v => decide (v.toNat < 2 ^ 16)
  | .bioWr32le v | .bioWr32be v | .encFloat v => decide (v.toNat < 2 ^ 32)
  | .encSym i v => (SlotFile.slot? s.sm i.toNat).any fun m => decide (v.toNat < m.n)
  | .encBit _ v => decide (v.toNat < 2)
  | .encBits n v => decide (1 ≤ n.toNat ∧ n.toNat ≤ 32 ∧ v.toNat < 2 ^ n.toNat)
  | .decBits n => decide (1 ≤ n.toNat ∧ n.toNat ≤ 32)
  | .icEnc j ctx pred real =>
    (SlotFile.slot? s.ic j.toNat).any fun c =>
      decide (ctx.toNat < c.contexts ∧ c.corrMin ≤ c.folded pred real ∧ c.folded pred real ≤ c.corrMax)
  | .bioWr64le _ | .bioWr64be _
  | .bioRd8 | .bioRd16le | .bioRd16be | .bioRd32le | .bioRd32be | .bioRd64le | .bioRd64be
  | .bmInit _ | .smCfg _ _ | .smInit _ | .encInit | .encDouble _ | .encDone
  | .decInit | .decSym _ | .decBit _ | .decFloat | .decDouble | .decDone
  | .icCfg _ _ _ _ _ | .icInit _ | .icDec _ _ _ | .icGetk _ | .csrRd _ => true

/-- What a decoding command finds corrupted before it executes: the context of `IC.DEC` and the code
value of `DEC.SYM` and `DEC.BIT` (60_exceptions.md R275 checks 7 and 8). -/
def streamOk (s : State) : Instr → Bool
  | .icDec j ctx _ => (SlotFile.slot? s.ic j.toNat).any fun c => decide (ctx.toNat < c.contexts)
  | .decSym _ | .decBit _ => decide (s.dec.dvalue.toNat < s.dec.drange.toNat)
  | .bioWr8 _ | .bioWr16le _ | .bioWr16be _ | .bioWr32le _ | .bioWr32be _ | .bioWr64le _ | .bioWr64be _
  | .bioRd8 | .bioRd16le | .bioRd16be | .bioRd32le | .bioRd32be | .bioRd64le | .bioRd64be
  | .bmInit _ | .smCfg _ _ | .smInit _ | .encInit | .encSym _ _ | .encBit _ _ | .encBits _ _
  | .encFloat _ | .encDouble _ | .encDone | .decInit | .decBits _ | .decFloat | .decDouble | .decDone
  | .icCfg _ _ _ _ _ | .icInit _ | .icEnc _ _ _ _ | .icGetk _ | .csrRd _ => true

/-- Every check of a command holds (60_exceptions.md R275 checks 3 to 8). -/
def checksOk (s : State) (i : Instr) : Bool :=
  sequenceOk s i && indexOk s.params i && configOk s.params i && slotOk s i && operandsOk s i && streamOk s i

/-! ## The commands by what they touch -/

/-- The commands that return data (10_state.md R31). -/
def returnsData : Instr → Bool
  | .bioRd8 | .bioRd16le | .bioRd16be | .bioRd32le | .bioRd32be | .bioRd64le | .bioRd64be
  | .decSym _ | .decBit _ | .decBits _ | .decFloat | .decDouble | .icDec _ _ _ | .icGetk _ | .csrRd _ => true
  | .bioWr8 _ | .bioWr16le _ | .bioWr16be _ | .bioWr32le _ | .bioWr32be _ | .bioWr64le _ | .bioWr64be _
  | .bmInit _ | .smCfg _ _ | .smInit _ | .encInit | .encSym _ _ | .encBit _ _ | .encBits _ _
  | .encFloat _ | .encDouble _ | .encDone | .decInit | .decDone | .icCfg _ _ _ _ _ | .icInit _
  | .icEnc _ _ _ _ => false

/-- The commands that reach the RCE registers (42_range_enc.md; `IC.ENC`, 44_integer_codec.md R234). -/
def usesEncoder : Instr → Bool
  | .encInit | .encSym _ _ | .encBit _ _ | .encBits _ _ | .encFloat _ | .encDouble _ | .encDone
  | .icEnc _ _ _ _ => true
  | .bioWr8 _ | .bioWr16le _ | .bioWr16be _ | .bioWr32le _ | .bioWr32be _ | .bioWr64le _ | .bioWr64be _
  | .bioRd8 | .bioRd16le | .bioRd16be | .bioRd32le | .bioRd32be | .bioRd64le | .bioRd64be
  | .bmInit _ | .smCfg _ _ | .smInit _
  | .decInit | .decSym _ | .decBit _ | .decBits _ | .decFloat | .decDouble | .decDone
  | .icCfg _ _ _ _ _ | .icInit _ | .icDec _ _ _ | .icGetk _ | .csrRd _ => false

/-- The commands that reach the RCD registers (43_range_dec.md; `IC.DEC`, 44_integer_codec.md R236). -/
def usesDecoder : Instr → Bool
  | .decInit | .decSym _ | .decBit _ | .decBits _ | .decFloat | .decDouble | .decDone | .icDec _ _ _ => true
  | .bioWr8 _ | .bioWr16le _ | .bioWr16be _ | .bioWr32le _ | .bioWr32be _ | .bioWr64le _ | .bioWr64be _
  | .bioRd8 | .bioRd16le | .bioRd16be | .bioRd32le | .bioRd32be | .bioRd64le | .bioRd64be
  | .bmInit _ | .smCfg _ _ | .smInit _
  | .encInit | .encSym _ _ | .encBit _ _ | .encBits _ _ | .encFloat _ | .encDouble _ | .encDone
  | .icCfg _ _ _ _ _ | .icInit _ | .icEnc _ _ _ _ | .icGetk _ | .csrRd _ => false

/-- The commands that reach the sink: the encoder's and the BIO writes (20_memory.md R60). -/
def usesSink : Instr → Bool
  | .bioWr8 _ | .bioWr16le _ | .bioWr16be _ | .bioWr32le _ | .bioWr32be _ | .bioWr64le _ | .bioWr64be _
  | .encSym _ _ | .encBit _ _ | .encBits _ _ | .encFloat _ | .encDouble _ | .encDone | .icEnc _ _ _ _ => true
  | .bioRd8 | .bioRd16le | .bioRd16be | .bioRd32le | .bioRd32be | .bioRd64le | .bioRd64be
  | .bmInit _ | .smCfg _ _ | .smInit _ | .encInit
  | .decInit | .decSym _ | .decBit _ | .decBits _ | .decFloat | .decDouble | .decDone
  | .icCfg _ _ _ _ _ | .icInit _ | .icDec _ _ _ | .icGetk _ | .csrRd _ => false

/-- The commands that reach the source: the decoder's and the BIO reads (20_memory.md R60). -/
def usesSource : Instr → Bool
  | .bioRd8 | .bioRd16le | .bioRd16be | .bioRd32le | .bioRd32be | .bioRd64le | .bioRd64be
  | .decInit | .decSym _ | .decBit _ | .decBits _ | .decFloat | .decDouble | .icDec _ _ _ => true
  | .bioWr8 _ | .bioWr16le _ | .bioWr16be _ | .bioWr32le _ | .bioWr32be _ | .bioWr64le _ | .bioWr64be _
  | .bmInit _ | .smCfg _ _ | .smInit _
  | .encInit | .encSym _ _ | .encBit _ _ | .encBits _ _ | .encFloat _ | .encDouble _ | .encDone
  | .decDone | .icCfg _ _ _ _ _ | .icInit _ | .icEnc _ _ _ _ | .icGetk _ | .csrRd _ => false

/-- The binary-model slot a command writes. -/
def binWritten : Instr → Option Nat
  | .bmInit i | .encBit i _ | .decBit i => some i.toNat
  | .bioWr8 _ | .bioWr16le _ | .bioWr16be _ | .bioWr32le _ | .bioWr32be _ | .bioWr64le _ | .bioWr64be _
  | .bioRd8 | .bioRd16le | .bioRd16be | .bioRd32le | .bioRd32be | .bioRd64le | .bioRd64be
  | .smCfg _ _ | .smInit _ | .encInit | .encSym _ _ | .encBits _ _ | .encFloat _ | .encDouble _
  | .encDone | .decInit | .decSym _ | .decBits _ | .decFloat | .decDouble | .decDone
  | .icCfg _ _ _ _ _ | .icInit _ | .icEnc _ _ _ _ | .icDec _ _ _ | .icGetk _ | .csrRd _ => none

/-- The m-ary model slot a command writes. -/
def symWritten : Instr → Option Nat
  | .smCfg i _ | .smInit i | .encSym i _ | .decSym i => some i.toNat
  | .bioWr8 _ | .bioWr16le _ | .bioWr16be _ | .bioWr32le _ | .bioWr32be _ | .bioWr64le _ | .bioWr64be _
  | .bioRd8 | .bioRd16le | .bioRd16be | .bioRd32le | .bioRd32be | .bioRd64le | .bioRd64be
  | .bmInit _ | .encInit | .encBit _ _ | .encBits _ _ | .encFloat _ | .encDouble _
  | .encDone | .decInit | .decBit _ | .decBits _ | .decFloat | .decDouble | .decDone
  | .icCfg _ _ _ _ _ | .icInit _ | .icEnc _ _ _ _ | .icDec _ _ _ | .icGetk _ | .csrRd _ => none

/-- The integer-compressor instance a command writes. -/
def intWritten : Instr → Option Nat
  | .icCfg j _ _ _ _ | .icInit j | .icEnc j _ _ _ | .icDec j _ _ => some j.toNat
  | .bioWr8 _ | .bioWr16le _ | .bioWr16be _ | .bioWr32le _ | .bioWr32be _ | .bioWr64le _ | .bioWr64be _
  | .bioRd8 | .bioRd16le | .bioRd16be | .bioRd32le | .bioRd32be | .bioRd64le | .bioRd64be
  | .bmInit _ | .smCfg _ _ | .smInit _ | .encInit | .encSym _ _ | .encBit _ _ | .encBits _ _
  | .encFloat _ | .encDouble _ | .encDone | .decInit | .decSym _ | .decBit _ | .decBits _ | .decFloat
  | .decDouble | .decDone | .icGetk _ | .csrRd _ => none

/-! ## Reference procedures -/

/-- A carry walked back over bytes already written, last byte first: every 0xFF becomes 0x00 until 1
can be added to a byte (42_range_enc.md R185). -/
def walkBack : List Byte → List Byte
  | [] => []
  | b :: earlier => if b = 0xFF#8 then 0x00#8 :: walkBack earlier else (b + 1#8) :: earlier

/-- The reference's carry on the bytes written so far, first byte first (42_range_enc.md R185). -/
def carryWalk (bs : List Byte) : List Byte := (walkBack bs.reverse).reverse

/-- The turns of the reference's symbol search, at most `fuel`, from `x`, `s`, `y`, `hi`, `k`
(43_range_dec.md R204). It ends with `s`, `x` and `y`. -/
def SymModel.bisect (m : SymModel) (len value : Nat) : Nat → Nat → Nat → Nat → Nat → Nat → Nat × Nat × Nat
  | 0, x, s, y, _, _ => (s, x, y)
  | fuel + 1, x, s, y, hi, k =>
    let z := len * m.distAt k
    if value < z then
      if (s + k) / 2 = s then (s, x, z) else m.bisect len value fuel x s z k ((s + k) / 2)
    else
      if (k + hi) / 2 = k then (k, z, y) else m.bisect len value fuel z k y hi ((k + hi) / 2)

/-! ## Chunks (43_range_dec.md R212) -/

/-- A coding command and its counterpart: what is coded, with which model. -/
inductive Coding where
  | sym (idx : Index) (v : Dword)
  | bit (idx : Index) (v : Dword)
  | bits (n : BitVec 8) (v : Dword)
  | float (v : Dword)
  | double (v : Dword)
  | int (idx : Index) (ctx : BitVec 16) (pred real : Word)
  deriving DecidableEq, Repr

/-- The encoder's command. -/
def Coding.enc : Coding → Instr
  | .sym idx v => .encSym idx v
  | .bit idx v => .encBit idx v
  | .bits n v => .encBits n v
  | .float v => .encFloat v
  | .double v => .encDouble v
  | .int idx ctx pred real => .icEnc idx ctx pred real

/-- The decoder's counterpart. -/
def Coding.dec : Coding → Instr
  | .sym idx _ => .decSym idx
  | .bit idx _ => .decBit idx
  | .bits n _ => .decBits n
  | .float _ => .decFloat
  | .double _ => .decDouble
  | .int idx ctx pred _ => .icDec idx ctx pred

/-- The value operand, as the decoder's command returns it. -/
def Coding.value : Coding → Dword
  | .sym _ v => v
  | .bit _ v => v
  | .bits _ v => v
  | .float v => v
  | .double v => v
  | .int _ _ _ real => real.zeroExtend 64

/-- The proviso of 44_integer_codec.md R239: with a modulus, prediction and value lie below it. -/
def IntComp.Below (c : IntComp) (pred real : Word) : Prop :=
  pred.toNat < c.corrRange.toNat ∧ real.toNat < c.corrRange.toNat

/-- The proviso of 44_integer_codec.md R239, less the pairs for which the pseudocode of R236 does not
keep it: those whose sum of prediction and corrector reaches 2^31, with a modulus that is not 2^31
itself, is read as negative and folded the wrong way (log 25). -/
def IntComp.Proper (c : IntComp) (pred real : Word) : Prop :=
  c.corrRange = 0#32 ∨
    (c.Below pred real ∧
      ((pred.toNat : Int) + c.folded pred real < 2 ^ 31 ∨ c.corrRange.toNat = 2 ^ 31))

/-- No step of 44_integer_codec.md R234 and R236 wraps: the difference of value and prediction, and the
sum of prediction and corrector, are `i32` numbers. -/
def IntComp.Unwrapped (c : IntComp) (pred real : Word) : Prop :=
  real.toInt - pred.toInt = (real - pred).toInt ∧
    -2 ^ 31 ≤ pred.toInt + c.folded pred real ∧ pred.toInt + c.folded pred real < 2 ^ 31

/-- The proviso on the instance a coding command names. -/
def Coding.proper (s : State) : Coding → Prop
  | .int idx _ pred real => ∀ c, SlotFile.slot? s.ic idx.toNat = some c → c.Proper pred real
  | .sym _ _ | .bit _ _ | .bits _ _ | .float _ | .double _ => True

/-- Commands executed one after another. -/
def State.runs : List Instr → State → Option State
  | [], s => some s
  | i :: rest, s =>
    match exec i s with
    | .next t => State.runs rest t
    | .fault _ => none
    | .refused _ => none

end Sys2Proof.Machine
end

