-- ==== Sys2Proof/Certificates/Slice0/Obligations.lean ====
section
/-! DEFINITION. The statements about the LEC. Each docstring names the rule it formalises. Of these
rules the spec marks R39, R123, R143, R149, R152, R185, R187, R188, R204, R212, R213, R215, R239 and
R302 (and parts of R28, R147, R173, R178 and R202) as derived: inferences of its own from the rules
that OBLIGATIONS.json cites. -/

open Sys2Proof Sys2Proof.Machine

/-! ## Encoding (30_encoding.md) -/

/-- Every well-formed command decodes, from its own bits, to itself with every operand (R90 to R96). -/
def Obligations.DecodeOfEncode : Prop :=
  ∀ i : Instr, i.wellFormed = true → decode (encode i) = .ok i

/-- What the decoder reads, the encoder writes back bit for bit: no bit of a command is ignored
(R94, R96). -/
def Obligations.EncodeOfDecode : Prop :=
  ∀ (w : Command) (i : Instr), decode w = .ok i → i.wellFormed = true ∧ encode i = w

/-- The decoder's answer is of the row of the opcode table it names, and no command is of two rows
(R95, R96). -/
def Obligations.RowsAreDisjoint : Prop :=
  (∀ (w : Command) (i : Instr), decode w = .ok i → i.row.holds w = true) ∧
    ∀ (i j : Instr) (w : Command), i.row.holds w = true → j.row.holds w = true → i.row = j.row

/-- A few command words written out from R90 to R95 decode to the commands they stand for. -/
def Obligations.WordsDecode : Prop :=
  decode 0x10020000000000000000000012345678#128 = .ok (.bioWr32le 0x12345678#64) ∧
  decode 0x11070000000000000000000000000000#128 = .ok .bioRd64be ∧
  decode 0x21000003000400000000000000000000#128 = .ok (.smCfg 3#16 4#16) ∧
  decode 0x31000003000000000000000000000005#128 = .ok (.encSym 3#16 5#64) ∧
  decode 0x430C0000000000000000000000000000#128 = .ok (.decBits 12#8) ∧
  decode 0x50200000000208000000000000000000#128 = .ok (.icCfg 0#16 32#8 2#16 8#8 0#32) ∧
  decode 0x520000000001000000000064FFFFFFF9#128 = .ok (.icEnc 0#16 1#16 100#32 0xFFFFFFF9#32) ∧
  decode 0x60000000000000000000000000000000#128 = .ok (.csrRd 0#16)

/-! ## The step -/

/-- A step at a command that decodes is that command's execution with the command taken off the port;
and so it is of a word put where the step takes its next command (00_scope.md R13). With nothing
presented the LEC is idle and holds all its state (60_exceptions.md R294; that this is a step is the
model's, log 1); when the host moves the source only the source's answers change (20_memory.md R62; the
event is the model's, log 7). -/
def Obligations.StepRunsTheDecodedCommand : Prop :=
  (∀ (s : State) (w : Command) (rest : List PortEvent) (i : Instr),
    s.port = .command w :: rest → decode w = .ok i → step s = exec i { s with port := rest }) ∧
  (∀ (s : State) (i : Instr), i.wellFormed = true →
    step (s.withFetchWord 128 (encode i).toNat) = exec i s) ∧
  (∀ s : State, s.port = [] → step s = .next s) ∧
  ∀ (s : State) (answers : List SrcAnswer) (rest : List PortEvent), s.port = .seek answers :: rest →
    step s = .next { s with src := { answers := answers, count := s.src.count }, port := rest }

/-- 128 bits that are no command's are `IllegalCommand`: only `FAULT` changes (60_exceptions.md R271,
30_encoding.md R95). -/
def Obligations.OtherBitsAreIllegal : Prop :=
  ∀ (s : State) (w : Command) (rest : List PortEvent),
    s.port = .command w :: rest → (∀ i : Instr, i.wellFormed = true → encode i ≠ w) → s.fault = 0#8 →
      step s = .next (({ s with port := rest } : State).faulted 0x01#8)

/-! ## Reset (10_state.md R40, 70_reset_and_hazards.md R300 to R302) -/

/-- The values after reset (10_state.md R40). -/
def Obligations.ResetValues : Prop :=
  State.reset.enc.low = 0#32 ∧ State.reset.enc.range = 0#32 ∧ State.reset.enc.cache = 0#8 ∧
  State.reset.enc.cacheValid = false ∧ State.reset.enc.pending = 0 ∧ State.reset.enc.outIdx = 0 ∧
  State.reset.enc.active = false ∧ State.reset.dec.active = false ∧
  State.reset.dec.dvalue = 0#32 ∧ State.reset.dec.drange = 0#32 ∧
  (∀ i : Nat, (SlotFile.slot? State.reset.bm i).isSome = false ∧
    (SlotFile.slot? State.reset.sm i).isSome = false ∧ (SlotFile.slot? State.reset.ic i).isSome = false) ∧
  State.reset.res = 0#64 ∧ State.reset.fault = 0#8 ∧
  State.reset.sink.count = 0#64 ∧ State.reset.src.count = 0#64

/-- The reset event gives every state element its reset value, whatever it held; the sink's bytes and
the source stay. A command in progress is abandoned without a response: the sink keeps the bursts it
had taken and the source stands where it stood, and when the command would have succeeded these are
the first of its transfers (70_reset_and_hazards.md R300, log 7). -/
def Obligations.ResetEventRestores : Prop :=
  (∀ (s : State) (rest : List PortEvent), s.port = .reset :: rest →
    step s = .next
      ({ s with
        sink := { s.sink with count := 0#64 }
        src := { s.src with count := 0#64 }
        port := rest } : State).restored) ∧
  (∀ (s t : State) (w : Command) (n : Nat) (rest : List PortEvent),
    s.port = .abandoned w n :: rest → step s = .next t →
      ∃ delivered consumed,
        t = ({ s with
          sink := { bursts := s.sink.bursts ++ delivered, answers := t.sink.answers, count := 0#64 }
          src := { answers := s.src.answers.drop consumed, count := 0#64 }
          residues := t.residues
          port := rest } : State).restored) ∧
  ∀ (s u : State) (w : Command) (n k : Nat) (rest : List PortEvent) (i : Instr) (delivered : List (List Byte)),
    s.port = .abandoned w n :: rest → decode w = .ok i →
    exec i { s with port := rest } = .next u → u.fault = 0#8 →
    u.sink.bursts = s.sink.bursts ++ delivered → k ≤ s.src.answers.length →
    u.src.answers = s.src.answers.drop k →
      step s = .next
        ({ s with
          sink :=
            { bursts := s.sink.bursts ++ delivered.take n
              answers := s.sink.answers.drop (min n delivered.length)
              count := 0#64 }
          src := { answers := s.src.answers.drop (min k (bytesRead i n)), count := 0#64 }
          port := rest } : State).restored

/-- What works directly after reset, and what faults with what (70_reset_and_hazards.md R302). -/
def Obligations.WhatWorksAfterReset : Prop :=
  ∀ s0 s : State, s = s0.resetEvent →
    -- every `BIO.*` (given a port that answers)
    (∀ v : Dword, s.sink.TakesNext →
      (v.toNat < 2 ^ 8 → ∃ t, exec (.bioWr8 v) s = .next t ∧ t.fault = 0#8) ∧
      (v.toNat < 2 ^ 16 → ∃ t, exec (.bioWr16le v) s = .next t ∧ t.fault = 0#8) ∧
      (v.toNat < 2 ^ 16 → ∃ t, exec (.bioWr16be v) s = .next t ∧ t.fault = 0#8) ∧
      (v.toNat < 2 ^ 32 → ∃ t, exec (.bioWr32le v) s = .next t ∧ t.fault = 0#8) ∧
      (v.toNat < 2 ^ 32 → ∃ t, exec (.bioWr32be v) s = .next t ∧ t.fault = 0#8) ∧
      (∃ t, exec (.bioWr64le v) s = .next t ∧ t.fault = 0#8) ∧
      (∃ t, exec (.bioWr64be v) s = .next t ∧ t.fault = 0#8)) ∧
    (∀ (i : Instr) (n : Nat) (bs : List Byte) (rest : List SrcAnswer),
      plainReads i = some n → n ≤ bs.length → s.src.Gives bs rest →
        ∃ t, exec i s = .next t ∧ t.fault = 0#8) ∧
    -- `CSR.RD`, `BM.INIT`, `SM.CFG`, `IC.CFG`, `ENC.INIT`
    (∀ a : Index, (Csr.ofAddress a).isSome = true → ∃ t, exec (.csrRd a) s = .next t ∧ t.fault = 0#8) ∧
    (∀ i : Index, i.toNat < s.params.nBm → ∃ t, exec (.bmInit i) s = .next t ∧ t.fault = 0#8) ∧
    (∀ (i : Index) (n : BitVec 16), i.toNat < s.params.nSm → configOk s.params (.smCfg i n) = true →
      ∃ t, exec (.smCfg i n) s = .next t ∧ t.fault = 0#8) ∧
    (∀ (j : Index) (b : BitVec 8) (c : BitVec 16) (h : BitVec 8) (r : Word), j.toNat < s.params.nIc →
      configOk s.params (.icCfg j b c h r) = true →
        ∃ t, exec (.icCfg j b c h r) s = .next t ∧ t.fault = 0#8) ∧
    (∃ t, exec .encInit s = .next t ∧ t.fault = 0#8) ∧
    -- `NotInitialised`
    (∀ i : Index, i.toNat < s.params.nSm → exec (.smInit i) s = .next (s.faulted 0x04#8)) ∧
    (∀ j : Index, j.toNat < s.params.nIc → exec (.icInit j) s = .next (s.faulted 0x04#8)) ∧
    (∀ j : Index, j.toNat < s.params.nIc → exec (.icGetk j) s = .next (s.faulted 0x04#8)) ∧
    -- `SequenceError`, before any other fault
    (∀ (i : Index) (n : BitVec 8) (v : Dword) (ctx : BitVec 16) (p r : Word),
      exec (.encSym i v) s = .next (s.faulted 0x02#8) ∧ exec (.encBit i v) s = .next (s.faulted 0x02#8) ∧
      exec (.encBits n v) s = .next (s.faulted 0x02#8) ∧ exec (.encFloat v) s = .next (s.faulted 0x02#8) ∧
      exec (.encDouble v) s = .next (s.faulted 0x02#8) ∧ exec .encDone s = .next (s.faulted 0x02#8) ∧
      exec (.icEnc i ctx p r) s = .next (s.faulted 0x02#8) ∧
      exec (.decSym i) s = .next (s.faulted 0x02#8) ∧ exec (.decBit i) s = .next (s.faulted 0x02#8) ∧
      exec (.decBits n) s = .next (s.faulted 0x02#8) ∧ exec .decFloat s = .next (s.faulted 0x02#8) ∧
      exec .decDouble s = .next (s.faulted 0x02#8) ∧ exec .decDone s = .next (s.faulted 0x02#8) ∧
      exec (.icDec i ctx p) s = .next (s.faulted 0x02#8))

/-! ## The invariant (10_state.md R27, R28, R39; 41_models.md R143, R149; 42_range_enc.md R173, R188) -/

/-- The machine's invariant holds after reset. -/
def Obligations.InvariantHoldsAtReset : Prop := State.reset.Inv

/-- Every step keeps the machine's invariant. -/
def Obligations.StepKeepsTheInvariant : Prop :=
  ∀ s t : State, s.Inv → step s = .next t → t.Inv

/-- No step of a machine in its invariant stops: every command completes or faults as the LEC faults,
and the renormalisation of the encoder ends (42_range_enc.md R178, 43_range_dec.md R215). It rests on
log 6, the model's choice that every transfer is answered, as one step: 20_memory.md R78 lets an
environment that never accepts a transfer hold its command for ever, and of such an environment the
statement says nothing. -/
def Obligations.StepNeverStops : Prop := ∀ s : State, s.Inv → ∃ t, step s = .next t

/-! ## Faults (60_exceptions.md) -/

/-- `SequenceError` is raised exactly by the commands outside their activity window, before any other
check (R272). -/
def Obligations.SequenceErrorWhen : Prop :=
  ∀ (s : State) (i : Instr), s.fault = 0#8 → i.wellFormed = true →
    (sequenceOk s i = false → exec i s = .next (s.faulted 0x02#8)) ∧
    (sequenceOk s i = true → ∀ t, exec i s = .next t → t.fault ≠ 0x02#8)

/-- `ConfigError` is raised exactly when an index or a configuration parameter is out of range, by a
command inside its activity window (R279). -/
def Obligations.ConfigErrorWhen : Prop :=
  ∀ (s : State) (i : Instr), s.fault = 0#8 → i.wellFormed = true → sequenceOk s i = true →
    (indexOk s.params i = false → exec i s = .next (s.faulted 0x03#8)) ∧
    (configOk s.params i = false → exec i s = .next (s.faulted 0x03#8)) ∧
    (indexOk s.params i = true → configOk s.params i = true → ∀ t, exec i s = .next t → t.fault ≠ 0x03#8)

/-- `NotInitialised` is raised exactly by the commands that use a slot or an instance whose `valid` is
0, once the earlier checks hold (R273). -/
def Obligations.NotInitialisedWhen : Prop :=
  ∀ (s : State) (i : Instr), s.fault = 0#8 → i.wellFormed = true → sequenceOk s i = true →
    indexOk s.params i = true → configOk s.params i = true →
    (slotOk s i = false → exec i s = .next (s.faulted 0x04#8)) ∧
    (slotOk s i = true → ∀ t, exec i s = .next t → t.fault ≠ 0x04#8)

/-- `OperandRange` is raised exactly, and precisely, when an operand value cannot be coded, once the
earlier checks hold (R274). -/
def Obligations.OperandRangeWhen : Prop :=
  ∀ (s : State) (i : Instr), s.fault = 0#8 → i.wellFormed = true → sequenceOk s i = true →
    indexOk s.params i = true → configOk s.params i = true → slotOk s i = true →
    (operandsOk s i = false → exec i s = .next (s.faulted 0x05#8)) ∧
    (operandsOk s i = true → ∀ t, exec i s = .next t → t.fault ≠ 0x05#8)

/-- The last of the checks before execution: the context of `IC.DEC` and the code value of `DEC.SYM`
and `DEC.BIT` are `CorruptedStream`, and precise (R275, R277; 43_range_dec.md R206). A command all of
whose checks hold succeeds or takes one of the three execution faults. -/
def Obligations.ChecksBeforeExecution : Prop :=
  ∀ (s : State) (i : Instr), s.fault = 0#8 → i.wellFormed = true → sequenceOk s i = true →
    indexOk s.params i = true → configOk s.params i = true → slotOk s i = true → operandsOk s i = true →
    (streamOk s i = false → exec i s = .next (s.faulted 0x06#8)) ∧
    (streamOk s i = true → ∀ t, exec i s = .next t →
      t.fault = 0#8 ∨ t.fault = 0x06#8 ∨ t.fault = 0x07#8 ∨ t.fault = 0x08#8)

/-- While `FAULT` is not 0 every command but a well-formed `CSR.RD` is refused and changes no state;
illegal bits are refused too (R276). -/
def Obligations.FaultIsSticky : Prop :=
  (∀ (s : State) (i : Instr), s.fault ≠ 0#8 → (∀ a, i ≠ .csrRd a) → exec i s = .next s.refused) ∧
  (∀ (s : State) (w : Command) (rest : List PortEvent), s.port = .command w :: rest → s.fault ≠ 0#8 →
    (∀ i : Instr, i.wellFormed = true → encode i ≠ w) →
      step s = .next ({ s with port := rest } : State).refused) ∧
  ∀ s t : State, s.fault ≠ 0#8 → (∀ rest, s.port ≠ .reset :: rest) →
    (∀ w n rest, s.port ≠ .abandoned w n :: rest) → step s = .next t → t.fault = s.fault

/-- A command gets one response: success with its result or zero, the code of the fault it raised, or
the refusal (30_encoding.md R97, 10_state.md R31). -/
def Obligations.OneResponsePerCommand : Prop :=
  ∀ (s t : State) (i : Instr), i.wellFormed = true → exec i s = .next t →
    ∃ a : Response, t.responses = s.responses ++ [a] ∧
      ((a.status = 0x00#8 ∧ t.fault = s.fault ∧
          (returnsData i = true → t.res = a.data) ∧
          (returnsData i = false → a.data = 0#64 ∧ t.res = s.res)) ∨
        (s.fault = 0#8 ∧ (∃ f : FaultCode, a.status = f.code) ∧ t.fault = a.status ∧ a.data = 0#64 ∧
          t.res = s.res) ∨
        (s.fault ≠ 0#8 ∧ a.status = 0xFF#8 ∧ a.data = 0#64 ∧ t = s.refused))

/-- A command leaves alone what its pseudocode cannot write, whatever its outcome: the other coder,
the other port, every slot it does not name, `RES`, and the activity of a coder that it neither starts
nor ends (60_exceptions.md R278, 20_memory.md R73, R74,
41_models.md R140). It holds for every free value an execution fault may leave. -/
def Obligations.CommandsKeepToTheirState : Prop :=
  ∀ (s t : State) (i : Instr), exec i s = .next t →
    (usesEncoder i = false → t.enc = s.enc) ∧ (usesDecoder i = false → t.dec = s.dec) ∧
    (usesSink i = false → t.sink = s.sink) ∧ (usesSource i = false → t.src = s.src) ∧
    (returnsData i = false → t.res = s.res) ∧
    (i ≠ .encInit → i ≠ .encDone → t.enc.active = s.enc.active) ∧
    (i ≠ .decInit → i ≠ .decDone → t.dec.active = s.dec.active) ∧
    (∀ k, binWritten i ≠ some k → SlotFile.slot? t.bm k = SlotFile.slot? s.bm k) ∧
    (∀ k, symWritten i ≠ some k → SlotFile.slot? t.sm k = SlotFile.slot? s.sm k) ∧
    (∀ k, intWritten i ≠ some k → SlotFile.slot? t.ic k = SlotFile.slot? s.ic k) ∧
    t.params = s.params ∧ t.port = s.port

/-- A burst that the sink answers with an io-error: `IoError`, with the bursts before it and some
prefix of it at the sink, and `SINK_COUNT` within the matching bounds. First a `BIO` write, which changes nothing else; then every command that
writes to the sink, `ENC.DONE`, `IC.ENC` and each encoder command that fills `out_buf` among them: of
the bursts it makes where every one is accepted, the first that is refused decides, and a refusal past
the last of them is none of its own (60_exceptions.md R278, R291). It holds for every free value. -/
def Obligations.SinkErrorIsReported : Prop :=
  (∀ (s : State) (kept : Nat) (rest : List SinkAnswer) (i : Instr),
    s.fault = 0#8 → s.sink.answers = .ioError kept :: rest → usesSink i = true → usesEncoder i = false →
    operandsOk s i = true →
      ∃ t taken, exec i s = .next t ∧ t.fault = 0x08#8 ∧
        t.responses = s.responses ++ [{ status := 0x08#8, data := 0#64 }] ∧
        (∃ u : State, exec i { s with sink := { s.sink with answers := [] } } = .next u ∧ u.fault = 0#8 ∧
          t.sink.bytes = s.sink.bytes ++ taken ∧
          ∃ missing, u.sink.bytes = s.sink.bytes ++ taken ++ missing ∧
            ∃ j, j ≤ (taken ++ missing).length ∧ t.sink.count = s.sink.count + BitVec.ofNat 64 j) ∧
        t.enc = s.enc ∧ t.dec = s.dec ∧ t.bm = s.bm ∧ t.sm = s.sm ∧ t.ic = s.ic ∧ t.src = s.src ∧
        t.res = s.res) ∧
  ∀ (s u : State) (i : Instr) (accepted kept : Nat) (rest : List SinkAnswer) (made : List (List Byte)),
    s.fault = 0#8 → usesSink i = true →
    s.sink.answers = List.replicate accepted .accept ++ .ioError kept :: rest →
    exec i { s with sink := { s.sink with answers := [] } } = .next u → u.fault = 0#8 →
    u.sink.bursts = s.sink.bursts ++ made →
      (made.length ≤ accepted → exec i s = .next
        { u with
          sink :=
            { u.sink with
              answers := List.replicate (accepted - made.length) .accept ++ .ioError kept :: rest } }) ∧
      (accepted < made.length → ∃ t taken missing, exec i s = .next t ∧ t.fault = 0x08#8 ∧
        t.responses = s.responses ++ [{ status := 0x08#8, data := 0#64 }] ∧
        made[accepted]? = some (taken ++ missing) ∧
        t.sink.bytes = s.sink.bytes ++ (made.take accepted).flatten ++ taken ∧
        (∃ j, j ≤ ((made.take accepted).flatten ++ taken ++ missing).length ∧
          t.sink.count = s.sink.count + BitVec.ofNat 64 j) ∧
        t.sink.answers = rest ∧ t.dec = s.dec ∧ t.src = s.src ∧ t.res = s.res)

/-- A read that the source answers with too few bytes: `UnexpectedEndOfInput` or `IoError`, with `RES`,
the encoder, the sink and every model as they were, and for a `BIO` read the decoder too, and with some
of the bytes that came off the source and counted, no other. Then the
steps of `DEC.SYM`, `DEC.BIT` and `IC.DEC`: the fault of the first that fails, the source's where its
renormalisation lacks a byte, and `CorruptedStream` where it is entered outside the interval or a raw
quotient is out of range; and the source as before (60_exceptions.md R278, R289, R290, R291). It holds for every free value. -/
def Obligations.SourceFaultIsReported : Prop :=
  (∀ (s : State) (i : Instr) (n got : Nat) (code : BitVec 8),
    s.fault = 0#8 → plainReads i = some n → got < n → s.src.Breaks got code →
      ∃ t, exec i s = .next t ∧ t.fault = code ∧
        t.responses = s.responses ++ [{ status := code, data := 0#64 }] ∧ t.res = s.res ∧
        s.src.Left t.src got ∧
        t.enc = s.enc ∧ t.sink = s.sink ∧ t.bm = s.bm ∧ t.sm = s.sm ∧ t.ic = s.ic ∧
        (usesDecoder i = false → t.dec = s.dec)) ∧
  ∀ (s : State) (idx : Index) (code : BitVec 8) (came : Nat), s.fault = 0#8 → s.dec.active = true →
    2 ^ 24 ≤ s.dec.drange.toNat →
    (∀ m : SymModel, idx.toNat < s.params.nSm → SlotFile.slot? s.sm idx.toNat = some m → m.Wf →
      Rcd.FailsSymbol m s.rcd code came →
        ∃ t, exec (.decSym idx) s = .next t ∧ t.fault = code ∧
          t.responses = s.responses ++ [{ status := code, data := 0#64 }] ∧ t.res = s.res ∧
          s.src.Left t.src came ∧
          t.enc = s.enc ∧ t.sink = s.sink ∧ t.bm = s.bm ∧ t.ic = s.ic) ∧
    (∀ m : BinModel, idx.toNat < s.params.nBm → SlotFile.slot? s.bm idx.toNat = some m → m.Wf →
      Rcd.FailsBit m s.rcd code came →
        ∃ t, exec (.decBit idx) s = .next t ∧ t.fault = code ∧
          t.responses = s.responses ++ [{ status := code, data := 0#64 }] ∧ t.res = s.res ∧
          s.src.Left t.src came ∧
          t.enc = s.enc ∧ t.sink = s.sink ∧ t.sm = s.sm ∧ t.ic = s.ic) ∧
    ∀ (c : IntComp) (ctx : BitVec 16) (pred : Word), idx.toNat < s.params.nIc →
      SlotFile.slot? s.ic idx.toNat = some c → c.Wf → ctx.toNat < c.contexts →
      Rcd.FailsCorrector c ctx.toNat s.rcd code came →
        ∃ t, exec (.icDec idx ctx pred) s = .next t ∧ t.fault = code ∧
          t.responses = s.responses ++ [{ status := code, data := 0#64 }] ∧ t.res = s.res ∧
          s.src.Left t.src came ∧
          t.enc = s.enc ∧ t.sink = s.sink ∧ t.bm = s.bm ∧ t.sm = s.sm

/-- A literal whose quotient is out of range is `CorruptedStream` only once the bytes of its
renormalisation have come; without them the fault is the source's. First `DEC.BITS` of one literal;
then the literals of every width, of `DEC.FLOAT` and of `DEC.DOUBLE`, of which the first that fails
decides. Some first of the bytes that came are off the source and counted, and no other (43_range_dec.md
R207 to R210, 90_conflicts.md C9; 60_exceptions.md R278). It holds for every free value. -/
def Obligations.LiteralFaultsInOrder : Prop :=
  (∀ (s : State) (n : BitVec 8), s.fault = 0#8 → s.dec.active = true → 2 ^ 24 ≤ s.dec.drange.toNat →
    1 ≤ n.toNat → n.toNat ≤ 19 →
    2 ^ n.toNat ≤ s.dec.dvalue.toNat / (s.dec.drange.toNat / 2 ^ n.toNat) →
    (∀ (bs : List Byte) (rest : List SrcAnswer), s.src.Gives bs rest →
      Needs (s.dec.drange.toNat / 2 ^ n.toNat) bs.length →
        ∃ t, exec (.decBits n) s = .next t ∧ t.fault = 0x06#8 ∧
          t.responses = s.responses ++ [{ status := 0x06#8, data := 0#64 }] ∧ t.res = s.res ∧
          s.src.Left t.src bs.length) ∧
    (∀ (got need : Nat) (code : BitVec 8), Needs (s.dec.drange.toNat / 2 ^ n.toNat) need → got < need →
      s.src.Breaks got code →
        ∃ t, exec (.decBits n) s = .next t ∧ t.fault = code ∧
          t.responses = s.responses ++ [{ status := code, data := 0#64 }] ∧ t.res = s.res ∧
          s.src.Left t.src got)) ∧
  ∀ (s : State) (n : BitVec 8) (i : Instr) (widths : List Nat) (code : BitVec 8) (came : Nat),
    s.fault = 0#8 → s.dec.active = true → 2 ^ 24 ≤ s.dec.drange.toNat → 1 ≤ n.toNat → n.toNat ≤ 32 →
    (i, widths) ∈ [(Instr.decBits n, literalWidths n.toNat), (.decFloat, [16, 16]),
      (.decDouble, [16, 16, 16, 16])] →
    Rcd.FailsLiterals widths s.rcd code came →
      ∃ t, exec i s = .next t ∧ t.fault = code ∧
        t.responses = s.responses ++ [{ status := code, data := 0#64 }] ∧ t.res = s.res ∧
        s.src.Left t.src came ∧
        t.enc = s.enc ∧ t.sink = s.sink ∧ t.bm = s.bm ∧ t.sm = s.sm ∧ t.ic = s.ic

/-! ## Bit I/O (40_bit_io.md) -/

/-- `BIO.WR*` writes the bytes of its value, in its byte order, in one burst past the coder (R121). -/
def Obligations.BioWritesItsBytes : Prop :=
  ∀ (s : State) (v : Dword), s.fault = 0#8 → s.sink.TakesNext →
    (v.toNat < 2 ^ 8 → exec (.bioWr8 v) s = .next (s.wrote [v.extractLsb' 0 8]).done) ∧
    (v.toNat < 2 ^ 16 → exec (.bioWr16le v) s =
      .next (s.wrote [v.extractLsb' 0 8, v.extractLsb' 8 8]).done) ∧
    (v.toNat < 2 ^ 16 → exec (.bioWr16be v) s =
      .next (s.wrote [v.extractLsb' 8 8, v.extractLsb' 0 8]).done) ∧
    (v.toNat < 2 ^ 32 → exec (.bioWr32le v) s =
      .next (s.wrote [v.extractLsb' 0 8, v.extractLsb' 8 8, v.extractLsb' 16 8, v.extractLsb' 24 8]).done) ∧
    (v.toNat < 2 ^ 32 → exec (.bioWr32be v) s =
      .next (s.wrote [v.extractLsb' 24 8, v.extractLsb' 16 8, v.extractLsb' 8 8, v.extractLsb' 0 8]).done) ∧
    exec (.bioWr64le v) s =
      .next (s.wrote [v.extractLsb' 0 8, v.extractLsb' 8 8, v.extractLsb' 16 8, v.extractLsb' 24 8,
        v.extractLsb' 32 8, v.extractLsb' 40 8, v.extractLsb' 48 8, v.extractLsb' 56 8]).done ∧
    exec (.bioWr64be v) s =
      .next (s.wrote [v.extractLsb' 56 8, v.extractLsb' 48 8, v.extractLsb' 40 8, v.extractLsb' 32 8,
        v.extractLsb' 24 8, v.extractLsb' 16 8, v.extractLsb' 8 8, v.extractLsb' 0 8]).done

/-- `BIO.RD*` takes as many bytes off the source as its width has and returns their value in its byte
order, zero-extended (R122). -/
def Obligations.BioReadsItsBytes : Prop :=
  ∀ (s : State) (b0 b1 b2 b3 b4 b5 b6 b7 : Byte) (rest : List SrcAnswer), s.fault = 0#8 →
    (s.src.Gives [b0] rest → exec .bioRd8 s = .next ((s.consumed 1 rest).returned (b0.zeroExtend 64))) ∧
    (s.src.Gives [b0, b1] rest →
      exec .bioRd16le s = .next ((s.consumed 2 rest).returned ((b1 ++ b0).zeroExtend 64)) ∧
      exec .bioRd16be s = .next ((s.consumed 2 rest).returned ((b0 ++ b1).zeroExtend 64))) ∧
    (s.src.Gives [b0, b1, b2, b3] rest →
      exec .bioRd32le s = .next ((s.consumed 4 rest).returned ((b3 ++ b2 ++ b1 ++ b0).zeroExtend 64)) ∧
      exec .bioRd32be s = .next ((s.consumed 4 rest).returned ((b0 ++ b1 ++ b2 ++ b3).zeroExtend 64))) ∧
    (s.src.Gives [b0, b1, b2, b3, b4, b5, b6, b7] rest →
      exec .bioRd64le s =
        .next ((s.consumed 8 rest).returned (b7 ++ b6 ++ b5 ++ b4 ++ b3 ++ b2 ++ b1 ++ b0)) ∧
      exec .bioRd64be s =
        .next ((s.consumed 8 rest).returned (b0 ++ b1 ++ b2 ++ b3 ++ b4 ++ b5 ++ b6 ++ b7)))

/-- What a `BIO` write of a legal value appends, the read of the same form returns; and the two byte
orders of a width write reversed bytes (R123). -/
def Obligations.BioRoundTrip : Prop :=
  (∀ (w : Dword → Instr) (r : Instr) (s t s' : State) (v : Dword) (bytes : List Byte)
      (rest : List SrcAnswer),
    (w, r) ∈ [(Instr.bioWr8, Instr.bioRd8), (.bioWr16le, .bioRd16le), (.bioWr16be, .bioRd16be),
      (.bioWr32le, .bioRd32le), (.bioWr32be, .bioRd32be), (.bioWr64le, .bioRd64le),
      (.bioWr64be, .bioRd64be)] →
    exec (w v) s = .next t → s.fault = 0#8 → t.fault = 0#8 → t.sink.bytes = s.sink.bytes ++ bytes →
    s'.fault = 0#8 → s'.src.Gives bytes rest →
      exec r s' = .next ((s'.consumed bytes.length rest).returned v)) ∧
  ∀ (le be : Dword → Instr) (s t u : State) (v : Dword) (little big : List Byte),
    (le, be) ∈ [(Instr.bioWr16le, Instr.bioWr16be), (.bioWr32le, .bioWr32be), (.bioWr64le, .bioWr64be)] →
    s.fault = 0#8 → exec (le v) s = .next t → t.fault = 0#8 → exec (be v) s = .next u →
    t.sink.bytes = s.sink.bytes ++ little → u.sink.bytes = s.sink.bytes ++ big → little = big.reverse

/-! ## Models (41_models.md) -/

/-- `BM.INIT` puts a binary-model slot in its canonical initial state, and reading the slot gives it
back (R141). -/
def Obligations.BmInitResets : Prop :=
  ∀ (s : State) (idx : Index), s.fault = 0#8 → idx.toNat < s.params.nBm →
    exec (.bmInit idx) s = .next
      ({ s with
        bm := SlotFile.put idx.toNat { c0 := 1, cnt := 2, p0 := 4096, cycle := 4, untilUpdate := 4 } s.bm } :
        State).done ∧
      ∀ t, exec (.bmInit idx) s = .next t → SlotFile.slot? t.bm idx.toNat =
        some { c0 := 1, cnt := 2, p0 := 4096, cycle := 4, untilUpdate := 4 }

/-- `SM.CFG` gives an m-ary slot its alphabet and the canonical initial state (R144, R147). -/
def Obligations.SmCfgConfigures : Prop :=
  ∀ (s : State) (idx : Index) (n : BitVec 16), s.fault = 0#8 → idx.toNat < s.params.nSm →
    2 ≤ n.toNat → n.toNat ≤ 2048 →
      exec (.smCfg idx n) s = .next
        ({ s with
          sm := SlotFile.put idx.toNat
            { n := n.toNat
              count := List.replicate n.toNat 1
              dist := (List.range n.toNat).map fun k => 2 ^ 31 / n.toNat * k / 2 ^ 16
              total := n.toNat
              cycle := (n.toNat + 6) / 2
              untilUpdate := (n.toNat + 6) / 2 } s.sm } : State).done ∧
      ∀ t, exec (.smCfg idx n) s = .next t → SlotFile.slot? t.sm idx.toNat =
        some
          { n := n.toNat
            count := List.replicate n.toNat 1
            dist := (List.range n.toNat).map fun k => 2 ^ 31 / n.toNat * k / 2 ^ 16
            total := n.toNat
            cycle := (n.toNat + 6) / 2
            untilUpdate := (n.toNat + 6) / 2 }

/-- `SM.INIT` puts an m-ary slot back in its canonical initial state, as `SM.CFG` with the slot's own
alphabet does (R145). -/
def Obligations.SmInitReconfigures : Prop :=
  ∀ (s : State) (idx : Index) (m : SymModel), s.fault = 0#8 → idx.toNat < s.params.nSm →
    SlotFile.slot? s.sm idx.toNat = some m → m.Wf →
      exec (.smInit idx) s = .next
        ({ s with
          sm := SlotFile.put idx.toNat
            { n := m.n
              count := List.replicate m.n 1
              dist := (List.range m.n).map fun k => 2 ^ 31 / m.n * k / 2 ^ 16
              total := m.n
              cycle := (m.n + 6) / 2
              untilUpdate := (m.n + 6) / 2 } s.sm } : State).done ∧
      (∀ t, exec (.smInit idx) s = .next t → ∃ m', SlotFile.slot? t.sm idx.toNat = some m' ∧ m'.n = m.n ∧
        m'.count = List.replicate m.n 1 ∧ m'.untilUpdate = (m.n + 6) / 2) ∧
      exec (.smInit idx) s = exec (.smCfg idx (BitVec.ofNat 16 m.n)) s

/-- `bm_update` in exact arithmetic, with no wrap, for a model between its bounds, and the bounds it
leaves (R142, R143). -/
def Obligations.BmUpdateIsExact : Prop :=
  ∀ m : BinModel, 1 ≤ m.c0 → m.c0 < m.cnt + m.cycle → 2 ≤ m.cnt → m.cnt ≤ 8192 → 4 ≤ m.cycle →
    m.cycle ≤ 64 →
    (m.cnt + m.cycle ≤ 8192 → m.update.cnt = m.cnt + m.cycle ∧ m.update.c0 = m.c0) ∧
    (8192 < m.cnt + m.cycle → m.update.c0 = (m.c0 + 1) / 2 ∧
      m.update.cnt = if (m.c0 + 1) / 2 = (m.cnt + m.cycle + 1) / 2 then (m.cnt + m.cycle + 1) / 2 + 1
        else (m.cnt + m.cycle + 1) / 2) ∧
    m.update.p0 = m.update.c0 * (2 ^ 31 / m.update.cnt) / 2 ^ 18 ∧
    m.update.cycle = min (5 * m.cycle / 4) 64 ∧ m.update.untilUpdate = m.update.cycle ∧
    1 ≤ m.update.c0 ∧ m.update.c0 < m.update.cnt ∧ 2 ≤ m.update.cnt ∧ m.update.cnt ≤ 8192 ∧
    1 ≤ m.update.p0 ∧ m.update.p0 ≤ 8191

/-- `sm_update` in exact arithmetic, with no wrap, for counts that sum to `total + cycle`, and the
bounds it leaves (R148, R149). -/
def Obligations.SmUpdateIsExact : Prop :=
  ∀ m : SymModel, 2 ≤ m.n → m.n ≤ 2048 → m.count.length = m.n → (∀ c ∈ m.count, 1 ≤ c) →
    m.count.sum = m.total + m.cycle → m.total ≤ 32768 → 1 ≤ m.cycle → m.cycle ≤ (m.n + 6) * 8 →
    (m.total + m.cycle ≤ 32768 → m.update.count = m.count) ∧
    (32768 < m.total + m.cycle → m.update.count = m.count.map fun c => (c + 1) / 2) ∧
    m.update.n = m.n ∧ m.update.total = m.update.count.sum ∧ m.update.dist.length = m.n ∧
    (∀ k, k < m.n →
      m.update.distAt k = 2 ^ 31 / m.update.total * (m.update.count.take k).sum / 2 ^ 16) ∧
    m.update.cycle = min (5 * m.cycle / 4) ((m.n + 6) * 8) ∧ m.update.untilUpdate = m.update.cycle ∧
    m.n ≤ m.update.total ∧ m.update.total ≤ 32768 ∧ m.update.distAt 0 = 0 ∧
    (∀ k, k + 1 < m.n → m.update.distAt k + 1 ≤ m.update.distAt (k + 1)) ∧
    m.update.distAt (m.n - 1) < 2 ^ 15

/-- What coding a symbol or a bit does to its model: one count, the countdown, and the update when it
reaches 0 (42_range_enc.md R176, R177). -/
def Obligations.ModelsLearn : Prop :=
  (∀ (m : SymModel) (v : Nat), m.Wf → v < m.n →
    (1 < m.untilUpdate → m.learn v =
      { m with count := m.count.set v (m.count.getD v 0 + 1), untilUpdate := m.untilUpdate - 1 }) ∧
    (m.untilUpdate = 1 → m.learn v = SymModel.update
      { m with count := m.count.set v (m.count.getD v 0 + 1), untilUpdate := 0 }) ∧
    (m.learn v).Wf ∧ (m.learn v).n = m.n) ∧
  ∀ (m : BinModel) (b : Nat), m.Wf → b < 2 →
    (1 < m.untilUpdate → m.learn b = { m with c0 := m.c0 + (1 - b), untilUpdate := m.untilUpdate - 1 }) ∧
    (m.untilUpdate = 1 → m.learn b = BinModel.update { m with c0 := m.c0 + (1 - b), untilUpdate := 0 }) ∧
    (m.learn b).Wf

/-- A slot adapts identically whether driven by the encoder or by the decoder (R152). -/
def Obligations.ModelsAdaptAlike : Prop :=
  (∀ (s s' t t' : State) (idx : Index) (b : Dword),
    SlotFile.slot? s.bm idx.toNat = SlotFile.slot? t.bm idx.toNat →
    exec (.encBit idx b) s = .next s' → s'.fault = 0#8 →
    exec (.decBit idx) t = .next t' → t'.fault = 0#8 → t'.res = b →
      SlotFile.slot? s'.bm idx.toNat = SlotFile.slot? t'.bm idx.toNat) ∧
  ∀ (s s' t t' : State) (idx : Index) (v : Dword), t.Inv →
    SlotFile.slot? s.sm idx.toNat = SlotFile.slot? t.sm idx.toNat →
    exec (.encSym idx v) s = .next s' → s'.fault = 0#8 →
    exec (.decSym idx) t = .next t' → t'.fault = 0#8 → t'.res = v →
      SlotFile.slot? s'.sm idx.toNat = SlotFile.slot? t'.sm idx.toNat

/-! ## Range encoder (42_range_enc.md) -/

/-- `ENC.INIT` starts a chunk (R175). -/
def Obligations.EncInitStarts : Prop :=
  ∀ s : State, s.fault = 0#8 → s.enc.active = false →
    exec .encInit s = .next
      ({ s with
        enc :=
          { low := 0#32, range := 0xFFFFFFFF#32, cache := 0#8, cacheValid := false, pending := 0
            outBuf := [], active := true } } : State).done

/-- `ENC.SYM` takes the symbol's part of the interval, and then its model adapts (R176). -/
def Obligations.EncSymCodesASymbol : Prop :=
  ∀ (s : State) (idx : Index) (v : Dword) (m : SymModel), s.fault = 0#8 → s.enc.Open →
    s.sink.Accepting → idx.toNat < s.params.nSm → SlotFile.slot? s.sm idx.toNat = some m → m.Wf →
    v.toNat < m.n →
      ∃ r : Rce, Rce.CodesSymbol m v.toNat s.rce r ∧
        exec (.encSym idx v) s = .next
          ({ s with
            enc := r.enc, sink := r.sink, sm := SlotFile.put idx.toNat (m.learn v.toNat) s.sm } : State).done ∧
        ∀ t, exec (.encSym idx v) s = .next t → SlotFile.slot? t.sm idx.toNat = some (m.learn v.toNat)

/-- `ENC.BIT` takes the bit's part of the interval, and then its model adapts (R177). -/
def Obligations.EncBitCodesABit : Prop :=
  ∀ (s : State) (idx : Index) (v : Dword) (m : BinModel), s.fault = 0#8 → s.enc.Open →
    s.sink.Accepting → idx.toNat < s.params.nBm → SlotFile.slot? s.bm idx.toNat = some m → m.Wf →
    v.toNat < 2 →
      ∃ r : Rce, Rce.CodesBit m v.toNat s.rce r ∧
        exec (.encBit idx v) s = .next
          ({ s with
            enc := r.enc, sink := r.sink, bm := SlotFile.put idx.toNat (m.learn v.toNat) s.bm } : State).done ∧
        ∀ t, exec (.encBit idx v) s = .next t → SlotFile.slot? t.bm idx.toNat = some (m.learn v.toNat)

/-- `ENC.BITS`, `ENC.FLOAT` and `ENC.DOUBLE` code their value as uniform literals, the low half of a
wide one first (R179, R180, R182, R183). -/
def Obligations.EncLiteralsCodeTheirValue : Prop :=
  ∀ (s : State) (n : BitVec 8) (v : Dword), s.fault = 0#8 → s.enc.Open → s.sink.Accepting →
    (1 ≤ n.toNat → n.toNat ≤ 32 → v.toNat < 2 ^ n.toNat →
      ∃ r : Rce, Rce.CodesLiterals (literalParts n.toNat v.toNat) s.rce r ∧
        exec (.encBits n v) s = .next ({ s with enc := r.enc, sink := r.sink } : State).done) ∧
    (v.toNat < 2 ^ 32 →
      ∃ r : Rce, Rce.CodesLiterals (halfParts 2 v.toNat) s.rce r ∧
        exec (.encFloat v) s = .next ({ s with enc := r.enc, sink := r.sink } : State).done) ∧
    ∃ r : Rce, Rce.CodesLiterals (halfParts 4 v.toNat) s.rce r ∧
      exec (.encDouble v) s = .next ({ s with enc := r.enc, sink := r.sink } : State).done

/-- `ENC.DONE` ends the chunk: four bytes more, stage and buffer drained into the sink (R184, R187). -/
def Obligations.EncDoneEndsTheChunk : Prop :=
  ∀ s : State, s.fault = 0#8 → s.enc.Open → s.sink.Accepting →
    ∃ r : Rce, Rce.Finished s.rce r ∧
      exec .encDone s = .next ({ s with enc := r.enc, sink := r.sink } : State).done

/-- An empty chunk is the four bytes 01 00 00 00, in one burst (R184, R187). -/
def Obligations.EmptyChunk : Prop :=
  ∀ s : State, s.fault = 0#8 → s.enc.active = false → s.sink.TakesNext →
    ∃ t u : State, exec .encInit s = .next t ∧ exec .encDone t = .next u ∧
      u.sink.bursts = s.sink.bursts ++ [[0x01#8, 0x00#8, 0x00#8, 0x00#8]] ∧
      u.sink.count = s.sink.count + 4#64 ∧ u.enc.active = false ∧ u.enc.range = 0x80000000#32

/-- The stage: what a byte shifted out and a carry do to it, and that the stream behaves as one in
which every byte is written at once and a carry walks back over the bytes (R172, R173, R185). -/
def Obligations.StageDefersTheCarry : Prop :=
  (∀ (r : Rce) (b : Byte), r.enc.outBuf.length < 4096 → (r.enc.cacheValid = false → r.enc.pending = 0) →
    r.sink.Accepting →
      ∃ r', r.shiftOut b = .ok () r' ∧ r'.stream = r.stream ++ [b] ∧ r'.enc.cacheValid = true ∧
        (r.enc.cacheValid = false → r'.enc.cache = b ∧ r'.enc.pending = 0) ∧
        (r.enc.cacheValid = true → b = 0xFF#8 →
          r'.enc.cache = r.enc.cache ∧ r'.enc.pending = r.enc.pending + 1) ∧
        (r.enc.cacheValid = true → b ≠ 0xFF#8 → r'.enc.cache = b ∧ r'.enc.pending = 0)) ∧
  ∀ r : Rce, r.enc.outBuf.length < 4096 → r.enc.cacheValid = true → r.enc.cache ≠ 0xFF#8 →
    r.sink.Accepting →
      ∃ r', r.carry = .ok () r' ∧ r'.stream = carryWalk r.stream ∧ r'.enc.cacheValid = true ∧
        r'.enc.pending = 0 ∧ (r.enc.pending = 0 → r'.enc.cache = r.enc.cache + 1#8) ∧
        (0 < r.enc.pending → r'.enc.cache = 0x00#8)

/-- Distinct values of one coding step have disjoint parts, and every part lies in the interval and is
not empty (R188, 41_models.md R143, R149). -/
def Obligations.PartsAreDisjoint : Prop :=
  (∀ (m : SymModel) (a b len : Nat), m.Wf → a < b → b < m.n → 2 ^ 24 ≤ len →
    0 < m.partLen a len ∧ m.partLow a len + m.partLen a len ≤ m.partLow b len ∧
      0 < m.partLen b len ∧ m.partLow b len + m.partLen b len ≤ len) ∧
  (∀ (m : BinModel) (len : Nat), m.Wf → 2 ^ 24 ≤ len →
    m.partLow 0 len = 0 ∧ 0 < m.partLen 0 len ∧ m.partLow 1 len = m.partLen 0 len ∧
      0 < m.partLen 1 len ∧ m.partLow 1 len + m.partLen 1 len = len) ∧
  ∀ n a b len : Nat, 1 ≤ n → n ≤ 19 → a < b → b < 2 ^ n → 2 ^ 24 ≤ len →
    0 < len / 2 ^ n ∧ a * (len / 2 ^ n) + len / 2 ^ n ≤ b * (len / 2 ^ n) ∧
      b * (len / 2 ^ n) + len / 2 ^ n ≤ len

/-! ## Range decoder (43_range_dec.md) -/

/-- `DEC.INIT` loads four bytes, the first most significant, whether or not a chunk is open (R201). -/
def Obligations.DecInitLoads : Prop :=
  ∀ (s : State) (b0 b1 b2 b3 : Byte) (rest : List SrcAnswer), s.fault = 0#8 →
    s.src.Gives [b0, b1, b2, b3] rest →
      exec .decInit s = .next
        ({ s.consumed 4 rest with
          dec := { dvalue := b0 ++ b1 ++ b2 ++ b3, drange := 0xFFFFFFFF#32, active := true } } : State).done

/-- `DEC.SYM` returns the symbol in whose part the code value lies, takes that part off, shifts in the
bytes its length needs, and then the model adapts (R202, R203). -/
def Obligations.DecSymDecodesASymbol : Prop :=
  ∀ (s : State) (idx : Index) (m : SymModel) (v : Nat) (bs : List Byte) (rest : List SrcAnswer),
    s.fault = 0#8 → s.dec.active = true → 2 ^ 24 ≤ s.dec.drange.toNat →
    s.dec.dvalue.toNat < s.dec.drange.toNat → idx.toNat < s.params.nSm →
    SlotFile.slot? s.sm idx.toNat = some m → m.Wf → v < m.n →
    InPart (m.partLow v s.dec.drange.toNat) (m.partLen v s.dec.drange.toNat) s.dec.dvalue.toNat →
    s.src.Gives bs rest → Needs (m.partLen v s.dec.drange.toNat) bs.length →
      exec (.decSym idx) s = .next
        (({ s.consumed bs.length rest with
          dec :=
            { dvalue := BitVec.ofNat 32
                ((s.dec.dvalue.toNat - m.partLow v s.dec.drange.toNat) * 256 ^ bs.length + bigEndian bs)
              drange := BitVec.ofNat 32 (m.partLen v s.dec.drange.toNat * 256 ^ bs.length)
              active := true }
          sm := SlotFile.put idx.toNat (m.learn v) s.sm } : State).returned (BitVec.ofNat 64 v)) ∧
      ∀ t, exec (.decSym idx) s = .next t → SlotFile.slot? t.sm idx.toNat = some (m.learn v)

/-- `DEC.BIT` returns the bit in whose part the code value lies, takes that part off, shifts in the
bytes its length needs, and then the model adapts (R202, R205). -/
def Obligations.DecBitDecodesABit : Prop :=
  ∀ (s : State) (idx : Index) (m : BinModel) (b : Nat) (bs : List Byte) (rest : List SrcAnswer),
    s.fault = 0#8 → s.dec.active = true → 2 ^ 24 ≤ s.dec.drange.toNat →
    s.dec.dvalue.toNat < s.dec.drange.toNat → idx.toNat < s.params.nBm →
    SlotFile.slot? s.bm idx.toNat = some m → m.Wf → b < 2 →
    InPart (m.partLow b s.dec.drange.toNat) (m.partLen b s.dec.drange.toNat) s.dec.dvalue.toNat →
    s.src.Gives bs rest → Needs (m.partLen b s.dec.drange.toNat) bs.length →
      exec (.decBit idx) s = .next
        (({ s.consumed bs.length rest with
          dec :=
            { dvalue := BitVec.ofNat 32
                ((s.dec.dvalue.toNat - m.partLow b s.dec.drange.toNat) * 256 ^ bs.length + bigEndian bs)
              drange := BitVec.ofNat 32 (m.partLen b s.dec.drange.toNat * 256 ^ bs.length)
              active := true }
          bm := SlotFile.put idx.toNat (m.learn b) s.bm } : State).returned (BitVec.ofNat 64 b)) ∧
      ∀ t, exec (.decBit idx) s = .next t → SlotFile.slot? t.bm idx.toNat = some (m.learn b)

/-- `DEC.BITS`, `DEC.FLOAT` and `DEC.DOUBLE` return the value of their literals, each the quotient of
the code value by its step, when the source has their bytes and every quotient is in range (R207 to
R210). -/
def Obligations.DecLiteralsReturnTheirValue : Prop :=
  ∀ (s : State) (n : BitVec 8) (qs : List Nat) (r : Rcd), s.fault = 0#8 → s.dec.active = true →
    2 ^ 24 ≤ s.dec.drange.toNat →
    (1 ≤ n.toNat → n.toNat ≤ 32 → Rcd.ReadsLiterals (literalWidths n.toNat) qs s.rcd r →
      literalValue qs < 2 ^ n.toNat ∧
      exec (.decBits n) s =
        .next (({ s with dec := r.dec, src := r.src } : State).returned (BitVec.ofNat 64 (literalValue qs)))) ∧
    (Rcd.ReadsLiterals [16, 16] qs s.rcd r →
      exec .decFloat s =
        .next (({ s with dec := r.dec, src := r.src } : State).returned (BitVec.ofNat 64 (literalValue qs)))) ∧
    (Rcd.ReadsLiterals [16, 16, 16, 16] qs s.rcd r →
      exec .decDouble s =
        .next (({ s with dec := r.dec, src := r.src } : State).returned (BitVec.ofNat 64 (literalValue qs))))

/-- `DEC.DONE` only clears `dec_active` (R211). -/
def Obligations.DecDoneStops : Prop :=
  ∀ s : State, s.fault = 0#8 → s.dec.active = true →
    exec .decDone s = .next ({ s with dec := { s.dec with active := false } } : State).done

/-- The reference's bisection ends with the symbol, and the ends of its part, that `DEC.SYM` uses
(R204). -/
def Obligations.BisectionFindsTheSymbol : Prop :=
  ∀ (m : SymModel) (d : Decoder), m.Wf → d.dvalue.toNat < d.drange.toNat →
    m.bisect (d.drange.toNat / 2 ^ 15) d.dvalue.toNat m.n 0 0 d.drange.toNat m.n (m.n / 2) =
      (m.find d, m.partLow (m.find d) d.drange.toNat, m.partHigh (m.find d) d.drange.toNat)

/-- On any source a decoding command of an open chunk returns a value in range, with the code value
left inside an interval of 2^24 at least, or takes one of the three execution faults (R215). -/
def Obligations.DecoderIsTotal : Prop :=
  ∀ (s : State) (i : Instr), s.Inv → s.fault = 0#8 → s.dec.active = true →
    (i ∈ [Instr.decFloat, .decDouble] ∨ (∃ idx, i = .decSym idx) ∨ (∃ idx, i = .decBit idx) ∨
      (∃ n, i = .decBits n)) → checksOk s i = true →
      ∃ t, exec i s = .next t ∧
        ((t.fault = 0#8 ∧ 2 ^ 24 ≤ t.dec.drange.toNat ∧ t.dec.dvalue.toNat < t.dec.drange.toNat ∧
            (∀ idx m, i = .decSym idx → SlotFile.slot? s.sm idx.toNat = some m → t.res.toNat < m.n) ∧
            (∀ idx, i = .decBit idx → t.res.toNat < 2) ∧
            (∀ n, i = .decBits n → t.res.toNat < 2 ^ n.toNat) ∧
            (i = .decFloat → t.res.toNat < 2 ^ 32)) ∨
          t.fault = 0x06#8 ∨ t.fault = 0x07#8 ∨ t.fault = 0x08#8)

/-- One symbol, on both sides: if the encoder codes a symbol, and the bytes the decoder reads make a
number inside the encoder's new interval, the decoder reads that symbol, and stays as far into the new
interval (R212, 42_range_enc.md R188). -/
def Obligations.DecoderFollowsTheEncoder : Prop :=
  ∀ (m : SymModel) (v : Nat) (r r' : Rce) (q : Rcd) (more : List Byte) (rest : List SrcAnswer) (j : Nat),
    m.Wf → v < m.n → r.enc.Open → q.dec.Open → q.dec.drange = r.enc.range →
    Rce.CodesSymbol m v r r' → r'.stream.length = r.stream.length + j →
    q.src.Gives more rest → more.length = j →
    r'.codeValue ≤ (r.codeValue + q.dec.dvalue.toNat) * 256 ^ j + bigEndian more →
    (r.codeValue + q.dec.dvalue.toNat) * 256 ^ j + bigEndian more < r'.codeValue + r'.enc.range.toNat →
      ∃ q', q.sym m = .ok v (q', m.learn v) ∧ q'.dec.drange = r'.enc.range ∧ q'.src.answers = rest ∧
        r'.codeValue + q'.dec.dvalue.toNat =
          (r.codeValue + q.dec.dvalue.toNat) * 256 ^ j + bigEndian more

/-- Decoding a chunk with the counterparts of the commands that coded it, on the same models, returns
every operand and reads exactly the chunk; and after each pair of commands nothing has faulted, `drange`
equals the encoder's `range`, and every slot holds what the encoder's holds (R212, R213). -/
def Obligations.DecodingReturnsWhatWasCoded : Prop :=
  ∀ (codings : List Coding) (s s' t : State) (chunk : List Byte) (rest : List SrcAnswer),
    s.Inv → t.Inv → s.fault = 0#8 → t.fault = 0#8 → s.enc.active = false →
    t.params = s.params → t.bm = s.bm → t.sm = s.sm → t.ic = s.ic →
    (∀ c ∈ codings, c.proper s) →
    State.runs (Instr.encInit :: (codings.map Coding.enc ++ [Instr.encDone])) s = some s' →
    s'.fault = 0#8 → s'.sink.bytes = s.sink.bytes ++ chunk → t.src.Gives chunk rest →
      ∃ t', State.runs (Instr.decInit :: codings.map Coding.dec) t = some t' ∧ t'.fault = 0#8 ∧
        t'.responses = t.responses ++ { status := 0x00#8, data := 0#64 } ::
          codings.map (fun c => { status := 0x00#8, data := c.value }) ∧
        t'.bm = s'.bm ∧ t'.sm = s'.sm ∧ t'.ic = s'.ic ∧ t'.src.answers = rest ∧
        t'.src.count = t.src.count + BitVec.ofNat 64 chunk.length ∧
        ∀ k, k ≤ codings.length → ∃ s1 t1,
          State.runs (Instr.encInit :: (codings.take k).map Coding.enc) s = some s1 ∧
          State.runs (Instr.decInit :: (codings.take k).map Coding.dec) t = some t1 ∧
          s1.fault = 0#8 ∧ t1.fault = 0#8 ∧ t1.dec.drange = s1.enc.range ∧
          t1.bm = s1.bm ∧ t1.sm = s1.sm ∧ t1.ic = s1.ic

/-! ## Integer compressor (44_integer_codec.md) -/

/-- `IC.CFG` sets the configuration, derives the corrector's width, modulus and interval, and puts the
instance in its canonical initial state (R231, R233). -/
def Obligations.IcCfgConfigures : Prop :=
  ∀ (s : State) (idx : Index) (bits : BitVec 8) (contexts : BitVec 16) (bitsHigh : BitVec 8) (rng : Word),
    s.fault = 0#8 → idx.toNat < s.params.nIc → bits.toNat ≤ 32 → 1 ≤ contexts.toNat →
    contexts.toNat ≤ s.params.icMaxCtx → 1 ≤ bitsHigh.toNat → bitsHigh.toNat ≤ 11 →
    (rng.toNat = 0 ∨ (2 ≤ rng.toNat ∧ rng.toNat ≤ 2 ^ 31 - 1)) →
      ∃ c : IntComp, exec (.icCfg idx bits contexts bitsHigh rng) s =
          .next ({ s with ic := SlotFile.put idx.toNat c s.ic } : State).done ∧
        (∀ t, exec (.icCfg idx bits contexts bitsHigh rng) s = .next t →
          SlotFile.slot? t.ic idx.toNat = some c) ∧
        c.bits = bits.toNat ∧ c.contexts = contexts.toNat ∧ c.bitsHigh = bitsHigh.toNat ∧ c.rng = rng ∧
        (rng.toNat ≠ 0 →
          rng.toNat ≤ 2 ^ c.corrBits ∧ 2 ^ (c.corrBits - 1) < rng.toNat ∧ c.corrRange = rng ∧
          c.corrMin = -((rng.toNat / 2 : Nat) : Int) ∧ c.corrMax = c.corrMin + rng.toNat - 1) ∧
        (rng.toNat = 0 → 1 ≤ bits.toNat → bits.toNat ≤ 31 →
          c.corrBits = bits.toNat ∧ c.corrRange.toNat = 2 ^ bits.toNat ∧
          c.corrMin = -2 ^ (bits.toNat - 1) ∧ c.corrMax = 2 ^ (bits.toNat - 1) - 1) ∧
        (rng.toNat = 0 → (bits.toNat = 0 ∨ bits.toNat = 32) →
          c.corrBits = 32 ∧ c.corrRange = 0#32 ∧ c.corrMin = -2 ^ 31 ∧ c.corrMax = 2 ^ 31 - 1) ∧
        c.k = 0 ∧ c.mbits = List.replicate contexts.toNat (SymModel.fresh (c.corrBits + 1)) ∧
        c.bm0 = { c0 := 1, cnt := 2, p0 := 4096, cycle := 4, untilUpdate := 4 } ∧
        c.mcorr.length = c.corrBits ∧
        ∀ q, 1 ≤ q → q ≤ c.corrBits → c.mcorrAt q = SymModel.fresh (2 ^ min q bitsHigh.toNat)

/-- `IC.INIT` puts an instance back in its canonical initial state, keeping its configuration (R232,
R233). -/
def Obligations.IcInitResets : Prop :=
  ∀ (s : State) (idx : Index) (c : IntComp), s.fault = 0#8 → idx.toNat < s.params.nIc →
    SlotFile.slot? s.ic idx.toNat = some c → c.Wf →
      ∃ c' : IntComp,
        exec (.icInit idx) s = .next ({ s with ic := SlotFile.put idx.toNat c' s.ic } : State).done ∧
        (∀ t, exec (.icInit idx) s = .next t → SlotFile.slot? t.ic idx.toNat = some c') ∧
        c' = { c with k := 0, mbits := c'.mbits, bm0 := c'.bm0, mcorr := c'.mcorr } ∧
        c'.mbits = List.replicate c.contexts (SymModel.fresh (c.corrBits + 1)) ∧
        c'.bm0 = { c0 := 1, cnt := 2, p0 := 4096, cycle := 4, untilUpdate := 4 } ∧
        c'.mcorr.length = c.corrBits ∧
        ∀ q, 1 ≤ q → q ≤ c.corrBits → c'.mcorrAt q = SymModel.fresh (2 ^ min q c.bitsHigh)

/-- `IC.ENC` folds the difference into the corrector interval and codes it: the class, then the payload
by a model and raw bits (R234, R235). -/
def Obligations.IcEncCodesTheCorrector : Prop :=
  ∀ (s : State) (idx : Index) (ctx : BitVec 16) (pred real : Word) (c : IntComp), s.fault = 0#8 →
    s.enc.Open → s.sink.Accepting → idx.toNat < s.params.nIc → SlotFile.slot? s.ic idx.toNat = some c →
    c.Wf → ctx.toNat < c.contexts → c.corrMin ≤ c.folded pred real → c.folded pred real ≤ c.corrMax →
      ∃ (r : Rce) (c' : IntComp), Rce.CodesCorrector c ctx.toNat (c.folded pred real) s.rce r c' ∧
        InClass c'.k (c.folded pred real) ∧ c'.Wf ∧
        exec (.icEnc idx ctx pred real) s = .next
          ({ s with enc := r.enc, sink := r.sink, ic := SlotFile.put idx.toNat c' s.ic } : State).done ∧
        ∀ t, exec (.icEnc idx ctx pred real) s = .next t → SlotFile.slot? t.ic idx.toNat = some c'

/-- `IC.DEC` decodes a corrector, adds it to the prediction, folds the sum once, and returns its 32-bit
pattern zero-extended (R236, R237). -/
def Obligations.IcDecReturnsTheValue : Prop :=
  ∀ (s : State) (idx : Index) (ctx : BitVec 16) (pred : Word) (c c' : IntComp) (corr : Int) (r : Rcd),
    s.fault = 0#8 → s.dec.active = true → 2 ^ 24 ≤ s.dec.drange.toNat → idx.toNat < s.params.nIc →
    SlotFile.slot? s.ic idx.toNat = some c → c.Wf → ctx.toNat < c.contexts →
    Rcd.DecodesCorrector c ctx.toNat corr s.rcd r c' →
      exec (.icDec idx ctx pred) s = .next
        (({ s with dec := r.dec, src := r.src, ic := SlotFile.put idx.toNat c' s.ic } : State).returned
          ((c.unfolded pred corr).zeroExtend 64)) ∧
      ∀ t, exec (.icDec idx ctx pred) s = .next t → SlotFile.slot? t.ic idx.toNat = some c'

/-- `IC.GETK` returns the class of the last corrector (R238). -/
def Obligations.IcGetkReturnsTheClass : Prop :=
  ∀ (s : State) (idx : Index) (c : IntComp), s.fault = 0#8 → idx.toNat < s.params.nIc →
    SlotFile.slot? s.ic idx.toNat = some c →
      exec (.icGetk idx) s = .next (s.returned (BitVec.ofNat 64 c.k))

/-- Every corrector of the interval is in one class, at one offset, and is the corrector of that class
at that offset (R235, R237). -/
def Obligations.ClassesPartitionTheCorrectors : Prop :=
  ∀ corr : Int, -2 ^ 31 ≤ corr → corr ≤ 2 ^ 31 - 1 →
    InClass (corrClass corr) corr ∧ (∀ k, InClass k corr → k = corrClass corr) ∧
    (1 ≤ corrClass corr → corrClass corr ≤ 31 →
      corrOffset (corrClass corr) corr < 2 ^ corrClass corr ∧
      corrValue (corrClass corr) (corrOffset (corrClass corr) corr) = corr)

/-- The value folded and unfolded is the value: without a modulus, and with one for every pair below
it whose sum of R236 stays below 2^31 or whose modulus is 2^31. With a modulus of at most 1431655766
that is every pair below it. Outside the proviso, where neither the difference nor the sum wraps, the
result is congruent to the value; and it always is where the modulus divides 2^32 (R239, log 25). -/
def Obligations.FoldingRoundTrip : Prop :=
  ∀ (c : IntComp) (pred real : Word), c.Wf →
    (c.Proper pred real →
      c.corrMin ≤ c.folded pred real ∧ c.folded pred real ≤ c.corrMax ∧
        c.unfolded pred (c.folded pred real) = real) ∧
    (c.Below pred real → c.corrRange.toNat ≤ 1431655766 → c.Proper pred real) ∧
    (c.corrRange ≠ 0#32 → c.Unwrapped pred real ∨ c.corrRange.toNat ∣ 2 ^ 32 →
      (c.corrRange.toNat : Int) ∣ (c.unfolded pred (c.folded pred real)).toInt - real.toInt)

/-- What R239 derives does not follow for every modulus: with each value range from 1431655767 to
2^31 - 1 there are a prediction and a value below it for which the pseudocode of R234 and R236 returns
another value than was coded; and with the range 100 there are a prediction and a value outside the
proviso that are coded, and for which it returns one that is not congruent. It is the pseudocode the
model follows (log 25). -/
def Obligations.FoldingFailsForALargeRange : Prop :=
  (∀ rng : Word, 1431655767 ≤ rng.toNat → rng.toNat ≤ 2 ^ 31 - 1 → ∃ pred real : Word,
    (IntComp.configure 0 1 8 rng).Below pred real ∧
    (IntComp.configure 0 1 8 rng).corrMin ≤ (IntComp.configure 0 1 8 rng).folded pred real ∧
    (IntComp.configure 0 1 8 rng).folded pred real ≤ (IntComp.configure 0 1 8 rng).corrMax ∧
    (IntComp.configure 0 1 8 rng).unfolded pred ((IntComp.configure 0 1 8 rng).folded pred real) ≠ real) ∧
  ∃ pred real : Word,
    (IntComp.configure 0 1 8 100#32).corrMin ≤ (IntComp.configure 0 1 8 100#32).folded pred real ∧
    (IntComp.configure 0 1 8 100#32).folded pred real ≤ (IntComp.configure 0 1 8 100#32).corrMax ∧
    ¬ (100 : Int) ∣
      ((IntComp.configure 0 1 8 100#32).unfolded pred
        ((IntComp.configure 0 1 8 100#32).folded pred real)).toInt - real.toInt

/-! ## System (45_system.md) -/

/-- `CSR.RD` returns the register at its address, in `RES` and in the response, also while `FAULT` is
not 0 (R260, 10_state.md R35, 60_exceptions.md R276). -/
def Obligations.CsrReadsTheRegister : Prop :=
  ∀ s : State,
    exec (.csrRd 0x00#16) s = .next (s.returned (s.fault.zeroExtend 64)) ∧
    exec (.csrRd 0x01#16) s = .next (s.returned s.status) ∧
    exec (.csrRd 0x02#16) s = .next (s.returned s.res) ∧
    exec (.csrRd 0x03#16) s = .next (s.returned s.sink.count) ∧
    exec (.csrRd 0x04#16) s = .next (s.returned s.src.count) ∧
    exec (.csrRd 0x08#16) s = .next (s.returned (s.enc.low.zeroExtend 64)) ∧
    exec (.csrRd 0x09#16) s = .next (s.returned (s.enc.range.zeroExtend 64)) ∧
    exec (.csrRd 0x0A#16) s =
      .next (s.returned ((BitVec.ofBool s.enc.cacheValid ++ s.enc.cache).zeroExtend 64)) ∧
    exec (.csrRd 0x0B#16) s = .next (s.returned (BitVec.ofNat 64 s.enc.pending)) ∧
    exec (.csrRd 0x0C#16) s = .next (s.returned (BitVec.ofNat 64 s.enc.outBuf.length)) ∧
    exec (.csrRd 0x10#16) s = .next (s.returned (s.dec.dvalue.zeroExtend 64)) ∧
    exec (.csrRd 0x11#16) s = .next (s.returned (s.dec.drange.zeroExtend 64))

/-- `STATUS` shows four flags, and every other bit of it is 0 (10_state.md R33). -/
def Obligations.StatusShowsTheFlags : Prop :=
  ∀ s : State, ∃ d : Dword, exec (.csrRd 0x01#16) s = .next (s.returned d) ∧
    d.getLsbD 0 = s.enc.active ∧ d.getLsbD 1 = s.dec.active ∧ d.getLsbD 2 = decide (s.fault ≠ 0#8) ∧
    d.getLsbD 3 = s.enc.cacheValid ∧ ∀ k, 4 ≤ k → d.getLsbD k = false
end

