-- ==== Sys2Proof/Laws/Adapt.lean ====
section
/-! SUPPORT. The laws of the adaptation of the models: every update keeps a model in its bounds, and a
model in its bounds splits an interval into parts that are not empty. -/


namespace Sys2Proof.Machine

/-! ## Binary models -/

/-- The new probability is never 0 and never 1 (41_models.md R143). -/
theorem binProb_bounds {c0 cnt : Nat} (h0 : 1 ≤ c0) (h1 : c0 < cnt) (h2 : cnt ≤ 8192) :
    1 ≤ mul32 c0 (udiv 0x80000000 cnt) / 2 ^ 18 ∧ mul32 c0 (udiv 0x80000000 cnt) / 2 ^ 18 ≤ 8191 := by
  simp only [mul32, udiv]
  have hs : 2 ^ 18 ≤ 0x80000000 / cnt := by
    rw [Nat.le_div_iff_mul_le (by omega)]
    omega
  have hm : 0x80000000 / cnt * cnt ≤ 0x80000000 := Nat.div_mul_le_self _ _
  generalize 0x80000000 / cnt = s at hs hm
  have hlow : 2 ^ 18 ≤ c0 * s := by nlinarith
  have hhigh : c0 * s + s ≤ 0x80000000 := by nlinarith
  rw [Nat.mod_eq_of_lt (by omega)]
  omega

/-- What `bm_update` gives from counts in their bounds (41_models.md R143). -/
theorem BinModel.update_wf {m : BinModel} (h0 : 1 ≤ m.c0) (h1 : m.c0 < m.cnt + m.cycle)
    (h2 : 2 ≤ m.cnt ∧ m.cnt ≤ 8192) (h3 : 4 ≤ m.cycle ∧ m.cycle ≤ 64) : m.update.Wf := by
  have hage : 1 ≤ m.age.c0 ∧ m.age.c0 < m.age.cnt ∧ 2 ≤ m.age.cnt ∧ m.age.cnt ≤ 8192 ∧
      m.age.cycle = m.cycle := by
    simp only [BinModel.age, Config.bmMaxCount]
    split_ifs <;> refine ⟨?_, ?_, ?_, ?_, rfl⟩ <;> dsimp only <;> omega
  obtain ⟨a1, a2, a3, a4, a5⟩ := hage
  have hc : 4 ≤ BinModel.nextCycle m.age.cycle ∧ BinModel.nextCycle m.age.cycle ≤ 64 := by
    simp only [BinModel.nextCycle, Config.bmCycleMax, a5]
    omega
  refine ⟨a1, ?_, ⟨a3, a4⟩, binProb_bounds a1 a2 a4, hc, ?_, le_refl _⟩
  · simp only [BinModel.update]; omega
  · simp only [BinModel.update]; omega

/-- The end of a coding command keeps a binary model in its bounds; the bit just coded may already
be counted. -/
theorem BinModel.tick_wf {m : BinModel} (h0 : 1 ≤ m.c0) (h1 : m.c0 + m.untilUpdate ≤ m.cnt + m.cycle)
    (h2 : 2 ≤ m.cnt ∧ m.cnt ≤ 8192) (hp : 1 ≤ m.p0 ∧ m.p0 ≤ 8191) (h3 : 4 ≤ m.cycle ∧ m.cycle ≤ 64)
    (h4 : 1 ≤ m.untilUpdate ∧ m.untilUpdate ≤ m.cycle) : m.tick.Wf := by
  simp only [BinModel.tick]
  split_ifs with h
  · exact BinModel.update_wf h0 (by dsimp only; omega) h2 h3
  · exact ⟨h0, by dsimp only; omega, h2, hp, h3, by dsimp only; omega, by dsimp only; omega⟩

/-- `BM.INIT` leaves a binary model in its bounds. -/
theorem BinModel.fresh_wf : BinModel.fresh.Wf := by
  constructor <;> decide

/-- Coding a bit keeps a binary model in its bounds (41_models.md R143). -/
theorem BinModel.learn_wf {m : BinModel} (h : m.Wf) (b : Nat) : (m.learn b).Wf := by
  obtain ⟨h0, h1, h2, hp, h3, h4⟩ := h
  unfold BinModel.learn
  split_ifs
  · exact BinModel.tick_wf (by simp [BinModel.countZero])
      (by simp only [BinModel.countZero]; omega) h2 hp h3 h4
  · exact BinModel.tick_wf h0 (by omega) h2 hp h3 h4

/-- The split point lies strictly inside the interval (41_models.md R143). -/
theorem BinModel.split_inside {m : BinModel} (h : 1 ≤ m.p0 ∧ m.p0 ≤ 8191) {len : Nat}
    (hl : 2 ^ 24 ≤ len) : 2 ^ 11 ≤ m.p0 * (len / 2 ^ 13) ∧ m.p0 * (len / 2 ^ 13) + 2 ^ 11 ≤ len := by
  have h1 : 2 ^ 11 ≤ len / 2 ^ 13 := by omega
  have h2 : len / 2 ^ 13 * 2 ^ 13 ≤ len := Nat.div_mul_le_self _ _
  generalize len / 2 ^ 13 = L at h1 h2
  constructor <;> nlinarith

/-! ## M-ary models -/

@[simp] theorem distOf_length (scale sum : Nat) (cs : List Nat) :
    (distOf scale sum cs).length = cs.length := by
  induction cs generalizing sum with
  | nil => rfl
  | cons c rest ih => simp [distOf, ih]

theorem distOf_getD (scale sum : Nat) (cs : List Nat) (k : Nat) (h : k < cs.length) :
    (distOf scale sum cs).getD k 0 = mul32 scale (sum + (cs.take k).sum) / 2 ^ 16 := by
  induction cs generalizing sum k with
  | nil => simp at h
  | cons c rest ih =>
    cases k with
    | zero => simp [distOf]
    | succ k =>
      simp only [List.length_cons, Nat.add_lt_add_iff_right] at h
      have := ih (sum + c) k h
      simp only [distOf, List.getD_cons_succ, List.take_succ_cons, List.sum_cons]
      rw [this, Nat.add_assoc]

theorem sum_take_succ (cs : List Nat) (k : Nat) (h : k < cs.length) :
    (cs.take (k + 1)).sum = (cs.take k).sum + cs[k] := by
  rw [List.take_succ_eq_append_getElem h, List.sum_append_nat]
  simp

theorem sum_take_le (cs : List Nat) (k : Nat) : (cs.take k).sum ≤ cs.sum := by
  have h := congrArg List.sum (List.take_append_drop k cs)
  rw [List.sum_append_nat] at h
  omega

theorem length_le_sum {cs : List Nat} (h : ∀ c ∈ cs, 1 ≤ c) : cs.length ≤ cs.sum := by
  induction cs with
  | nil => simp
  | cons c rest ih =>
    simp only [List.mem_cons, forall_eq_or_imp] at h
    have := ih h.2
    simp only [List.length_cons, List.sum_cons]
    omega

theorem sum_half_le (cs : List Nat) :
    2 * (cs.map fun c => (c + 1) / 2).sum ≤ cs.sum + cs.length := by
  induction cs with
  | nil => simp
  | cons c rest ih =>
    simp only [List.map_cons, List.sum_cons, List.length_cons]
    omega

/-- What `sm_update` gives from positive counts that sum to `total + cycle` (41_models.md R149). -/
theorem SymModel.update_spec {m : SymModel} (hn : 2 ≤ m.n ∧ m.n ≤ 2048) (hc : m.count.length = m.n)
    (hp : ∀ c ∈ m.count, 1 ≤ c) (hs : m.count.sum = m.total + m.cycle) (ht : m.total ≤ 32768)
    (hy : 1 ≤ m.cycle ∧ m.cycle ≤ (m.n + 6) * 8) :
    m.update.Wf ∧ m.update.n = m.n := by
  have hage : m.age.n = m.n ∧ m.age.count.length = m.n ∧ (∀ c ∈ m.age.count, 1 ≤ c) ∧
      m.age.count.sum = m.age.total ∧ m.age.total ≤ 32768 ∧ m.age.cycle = m.cycle := by
    simp only [SymModel.age, Config.dmMaxCount]
    split_ifs with h
    · refine ⟨rfl, by simp [hc], ?_, rfl, ?_, rfl⟩
      · intro c hcm
        simp only [List.mem_map] at hcm
        obtain ⟨c', h1, rfl⟩ := hcm
        have := hp c' h1
        omega
      · have := sum_half_le m.count
        dsimp only
        omega
    · exact ⟨rfl, hc, hp, hs, by dsimp only; omega, rfl⟩
  obtain ⟨a1, a2, a3, a4, a5, a6⟩ := hage
  have hnt : m.n ≤ m.age.total := by
    rw [← a4, ← a2]; exact length_le_sum a3
  have hscale : 2 ^ 16 ≤ udiv 0x80000000 m.age.total := by
    simp only [udiv]
    rw [Nat.le_div_iff_mul_le (by omega)]
    omega
  have hprod : udiv 0x80000000 m.age.total * m.age.total ≤ 0x80000000 := Nat.div_mul_le_self _ _
  have hcyc : 1 ≤ SymModel.nextCycle m.age.n m.age.cycle ∧
      SymModel.nextCycle m.age.n m.age.cycle ≤ (m.n + 6) * 8 := by
    simp only [SymModel.nextCycle, a1, a6]
    omega
  have hdist : ∀ k, k < m.n → m.update.distAt k =
      udiv 0x80000000 m.age.total * (m.age.count.take k).sum / 2 ^ 16 := by
    intro k hk
    have h1 : m.update.distAt k = (distOf (udiv 0x80000000 m.age.total) 0 m.age.count).getD k 0 := rfl
    rw [h1, distOf_getD _ _ _ _ (by omega), mul32, Nat.zero_add, Nat.mod_eq_of_lt]
    have := sum_take_le m.age.count k
    nlinarith
  have hn' : m.update.n = m.n := a1
  refine ⟨⟨by rw [hn']; exact hn, by rw [hn']; exact a2, a3, ?_, ?_, ?_, ?_, ?_, ?_, ?_, ?_⟩, hn'⟩
  · simp [SymModel.update, a2, a1]
  · rw [hdist 0 (by omega)]; simp
  · intro k hk
    rw [hn'] at hk
    rw [hdist k (by omega), hdist (k + 1) hk, sum_take_succ _ _ (by omega)]
    have hck : 1 ≤ m.age.count[k] := a3 _ (List.getElem_mem _)
    generalize udiv 0x80000000 m.age.total = s at *
    have : s * (m.age.count.take k).sum + 2 ^ 16 ≤ s * ((m.age.count.take k).sum + m.age.count[k]) := by
      nlinarith
    omega
  · rw [hn', hdist (m.n - 1) (by omega)]
    have h1 := sum_take_succ m.age.count (m.n - 1) (by omega)
    have hck : 1 ≤ m.age.count[m.n - 1] := a3 _ (List.getElem_mem _)
    have h2 := sum_take_le m.age.count (m.n - 1 + 1)
    generalize udiv 0x80000000 m.age.total = s at *
    have : s * (m.age.count.take (m.n - 1)).sum + s ≤ 0x80000000 := by nlinarith
    omega
  · exact ⟨by rw [hn']; exact hnt, a5⟩
  · show m.age.count.sum + SymModel.nextCycle m.age.n m.age.cycle =
      m.age.total + SymModel.nextCycle m.age.n m.age.cycle
    rw [a4]
  · rw [hn']; exact hcyc
  · exact ⟨hcyc.1, le_refl _⟩

/-- The canonical initial state is in its bounds, with the alphabet asked for (41_models.md R146). -/
theorem SymModel.fresh_wf {n : Nat} (h : 2 ≤ n ∧ n ≤ 2048) :
    (SymModel.fresh n).Wf ∧ (SymModel.fresh n).n = n := by
  have hu := SymModel.update_spec
    (m := { n := n, count := List.replicate n 1, dist := [], total := 0, cycle := n, untilUpdate := n })
    h (by simp) (by simp) (by simp) (by simp) (by dsimp only; omega)
  obtain ⟨⟨w1, w2, w3, w4, w5, w6, w7, w8, w9, w10, w11⟩, hn⟩ := hu
  have hn2 : (SymModel.fresh n).n = n := hn
  have hu : ∀ m : SymModel, m.update.untilUpdate = m.update.cycle := fun _ => rfl
  have hu := hu
    { n := n, count := List.replicate n 1, dist := [], total := 0, cycle := n, untilUpdate := n }
  refine ⟨⟨w1, w2, w3, w4, w5, w6, w7, w8, ?_, ?_, ?_⟩, hn2⟩
  · simp only [SymModel.fresh]; omega
  · rw [hn2]; simp only [SymModel.fresh]; omega
  · simp only [SymModel.fresh]; omega

theorem sum_set_succ {cs : List Nat} {v : Nat} (h : v < cs.length) :
    (cs.set v (cs.getD v 0 + 1)).sum = cs.sum + 1 := by
  induction cs generalizing v with
  | nil => simp at h
  | cons c rest ih =>
    cases v with
    | zero => simp; omega
    | succ v =>
      simp only [List.length_cons, Nat.add_lt_add_iff_right] at h
      simp only [List.set_cons_succ, List.getD_cons_succ, List.sum_cons]
      rw [ih h]; omega

/-- Coding a symbol keeps an m-ary model in its bounds and its alphabet (41_models.md R149). -/
theorem SymModel.learn_wf {m : SymModel} (h : m.Wf) {v : Nat} (hv : v < m.n) :
    (m.learn v).Wf ∧ (m.learn v).n = m.n := by
  obtain ⟨w1, w2, w3, w4, w5, w6, w7, w8, w9, w10, w11⟩ := h
  have hsum : (m.count.set v (m.count.getD v 0 + 1)).sum = m.count.sum + 1 :=
    sum_set_succ (by omega)
  have hpos : ∀ c ∈ m.count.set v (m.count.getD v 0 + 1), 1 ≤ c := by
    intro c hc
    rcases List.mem_or_eq_of_mem_set hc with h1 | h1
    · exact w3 c h1
    · omega
  unfold SymModel.learn
  dsimp only
  split_ifs with h
  · exact SymModel.update_spec
      (m := { m with count := m.count.set v (m.count.getD v 0 + 1), untilUpdate := m.untilUpdate - 1 })
      w1 (by simp [w2]) hpos (by dsimp only; omega) w8.2 w10
  · exact ⟨⟨w1, by simp [w2], hpos, w4, w5, w6, w7, w8, by dsimp only; omega, w10,
      by dsimp only; omega⟩, rfl⟩

/-- `dist` rises all along the alphabet. -/
theorem SymModel.Wf.rises {m : SymModel} (h : m.Wf) {a b : Nat} (hab : a < b) (hb : b < m.n) :
    m.distAt a < m.distAt b := by
  induction b with
  | zero => omega
  | succ b ih =>
    have h1 := h.rising b hb
    rcases Nat.lt_succ_iff_lt_or_eq.mp hab with h2 | h2
    · exact lt_trans (ih h2 (by omega)) h1
    · exact h2 ▸ h1

/-- Every symbol's part of an interval is not empty and lies inside it (41_models.md R149). -/
theorem SymModel.part_inside {m : SymModel} (h : m.Wf) {v len : Nat} (hv : v < m.n) (hl : 2 ^ 24 ≤ len) :
    m.partLow v len + 2 ^ 9 ≤ m.partHigh v len ∧ m.partHigh v len ≤ len := by
  have h1 : 2 ^ 9 ≤ len / 2 ^ 15 := by omega
  have h2 : len / 2 ^ 15 * 2 ^ 15 ≤ len := Nat.div_mul_le_self _ _
  have hlast := h.last
  unfold SymModel.partLow SymModel.partHigh
  generalize len / 2 ^ 15 = L at h1 h2
  split_ifs with hv1
  · have : v = m.n - 1 := by omega
    subst this
    constructor
    · nlinarith
    · exact le_refl _
  · have h3 := h.rising v (by omega)
    have h4 : m.distAt (v + 1) ≤ m.distAt (m.n - 1) := by
      rcases Nat.lt_or_ge (v + 1) (m.n - 1) with h5 | h5
      · exact le_of_lt (h.rises h5 (by omega))
      · have : v + 1 = m.n - 1 := by omega
        rw [this]
    constructor <;> nlinarith

end Sys2Proof.Machine
end

