-- ==== Sys2Proof/Laws/Bytes.lean ====
section
/-! SUPPORT. The laws of byte strings as numbers, in both byte orders. -/

namespace Sys2Proof.Machine

/-! ## Big-endian numbers -/

theorem bigEndian_foldl (acc : Nat) (bs : List Byte) :
    bs.foldl (fun acc b => acc * 256 + b.toNat) acc = acc * 256 ^ bs.length + bigEndian bs := by
  induction bs generalizing acc with
  | nil => simp [bigEndian]
  | cons b rest ih =>
    simp only [List.foldl_cons, bigEndian, List.length_cons]
    rw [ih, ih (0 * 256 + b.toNat)]
    ring

@[simp] theorem bigEndian_nil : bigEndian [] = 0 := rfl

/-- The first byte is the most significant. -/
theorem bigEndian_cons (b : Byte) (bs : List Byte) :
    bigEndian (b :: bs) = b.toNat * 256 ^ bs.length + bigEndian bs := by
  have := bigEndian_foldl (0 * 256 + b.toNat) bs
  simpa [bigEndian] using this

theorem bigEndian_append (as bs : List Byte) :
    bigEndian (as ++ bs) = bigEndian as * 256 ^ bs.length + bigEndian bs := by
  unfold bigEndian
  rw [List.foldl_append, bigEndian_foldl]
  rfl

theorem bigEndian_lt (bs : List Byte) : bigEndian bs < 256 ^ bs.length := by
  induction bs with
  | nil => simp
  | cons b rest ih =>
    rw [bigEndian_cons, List.length_cons, pow_succ]
    have := b.isLt
    nlinarith

theorem bigEndian_replicate_zero (n : Nat) : bigEndian (List.replicate n 0#8) = 0 := by
  induction n with
  | zero => rfl
  | succ n ih => simp [List.replicate_succ, bigEndian_cons, ih]

theorem bigEndian_replicate_ff (n : Nat) : bigEndian (List.replicate n 0xFF#8) + 1 = 256 ^ n := by
  induction n with
  | zero => rfl
  | succ n ih =>
    simp only [List.replicate_succ, bigEndian_cons, List.length_replicate]
    have h : (0xFF#8).toNat = 255 := rfl
    rw [h, pow_succ]
    omega

/-- Bytes are determined by their number and how many they are. -/
theorem bigEndian_inj {as bs : List Byte} (hl : as.length = bs.length)
    (h : bigEndian as = bigEndian bs) : as = bs := by
  induction as generalizing bs with
  | nil => exact (List.eq_nil_of_length_eq_zero hl.symm).symm
  | cons a as ih =>
    cases bs with
    | nil => simp at hl
    | cons b bs =>
      simp only [List.length_cons, Nat.add_right_cancel_iff] at hl
      rw [bigEndian_cons, bigEndian_cons, hl] at h
      have h1 := bigEndian_lt as
      have h2 := bigEndian_lt bs
      rw [hl] at h1
      have h3 : a.toNat = b.toNat := by
        have e1 : (a.toNat * 256 ^ bs.length + bigEndian as) / 256 ^ bs.length =
            (b.toNat * 256 ^ bs.length + bigEndian bs) / 256 ^ bs.length := by rw [h]
        rw [Nat.mul_comm, Nat.mul_add_div (by positivity), Nat.div_eq_of_lt h1, Nat.mul_comm,
          Nat.mul_add_div (by positivity), Nat.div_eq_of_lt h2] at e1
        simpa using e1
      rw [h3] at h
      rw [BitVec.eq_of_toNat_eq h3, ih hl (by omega)]

/-- The value of bytes read most significant first (40_bit_io.md R122) is their number. -/
theorem valueBigFrom_eq (acc : Nat) (bs : List Byte) :
    valueBigFrom acc bs = acc * 256 ^ bs.length + bigEndian bs := by
  rw [← bigEndian_foldl]
  induction bs generalizing acc with
  | nil => rfl
  | cons b rest ih => simpa [valueBigFrom] using ih (acc * 256 + b.toNat)

theorem ofBytes_big (bs : List Byte) : ofBytes .big bs = bigEndian bs := by
  simp [ofBytes, valueBigFrom_eq]

/-! ## The bytes of a value -/

@[simp] theorem length_toBytes (o : Order) (nb v : Nat) : (toBytes o nb v).length = nb := by
  cases o <;> simp [toBytes, bytesLittle]

/-- The little-endian bytes are the big-endian bytes in reverse order (40_bit_io.md R123). -/
theorem toBytes_reverse (nb v : Nat) : (toBytes .big nb v).reverse = toBytes .little nb v := by
  simp only [toBytes, bytesLittle]
  apply List.ext_getElem <;> simp
  intro i h
  congr 1
  omega

theorem valueLittle_bytes (nb v : Nat) : valueLittle (bytesLittle nb v) = v % 2 ^ (8 * nb) := by
  induction nb generalizing v with
  | zero => simp [bytesLittle, valueLittle, Nat.mod_one]
  | succ n ih =>
    have h : bytesLittle (n + 1) v = byteAt v 0 :: bytesLittle n (v / 2 ^ 8) := by
      simp only [bytesLittle, List.range_succ_eq_map, List.map_cons, List.map_map]
      congr 1
      apply List.map_congr_left
      intro j _
      simp only [Function.comp, byteAt, Nat.div_div_eq_div_mul, ← pow_add]
      congr 3
      simp only [Nat.succ_eq_add_one]
      ring
    rw [h, valueLittle, ih]
    simp only [byteAt, Nat.mul_zero, pow_zero, Nat.div_one, BitVec.toNat_ofNat]
    rw [show 8 * (n + 1) = 8 + 8 * n by ring, pow_add, Nat.mod_mul]

theorem valueLittle_reverse (bs : List Byte) : valueLittle bs.reverse = bigEndian bs := by
  have key : ∀ (as : List Byte) (b : Byte),
      valueLittle (as ++ [b]) = valueLittle as + b.toNat * 256 ^ as.length := by
    intro as b
    induction as with
    | nil => simp [valueLittle]
    | cons a rest ih => simp [valueLittle, ih, pow_succ]; ring
  induction bs with
  | nil => rfl
  | cons b rest ih => rw [List.reverse_cons, key, ih, bigEndian_cons, List.length_reverse]; ring

/-- Reading back the bytes of a value gives the value (40_bit_io.md R123). -/
theorem ofBytes_toBytes (o : Order) (nb v : Nat) : ofBytes o (toBytes o nb v) = v % 2 ^ (8 * nb) := by
  cases o with
  | little => exact valueLittle_bytes nb v
  | big =>
    rw [ofBytes_big, ← valueLittle_reverse, toBytes_reverse]
    exact valueLittle_bytes nb v

end Sys2Proof.Machine
end

