-- ==== Sys2Proof/Laws/State.lean ====
section
/-! SUPPORT. One lemma per field per named update of the state, so that no proof unfolds a record
update. -/

namespace Sys2Proof.Machine

/-! ### `withRce` -/

@[simp] theorem State.withRce_params (s : State) (r : Rce) :
    (s.withRce r).params = s.params := rfl
@[simp] theorem State.withRce_enc (s : State) (r : Rce) :
    (s.withRce r).enc = r.enc := rfl
@[simp] theorem State.withRce_dec (s : State) (r : Rce) :
    (s.withRce r).dec = s.dec := rfl
@[simp] theorem State.withRce_bm (s : State) (r : Rce) :
    (s.withRce r).bm = s.bm := rfl
@[simp] theorem State.withRce_sm (s : State) (r : Rce) :
    (s.withRce r).sm = s.sm := rfl
@[simp] theorem State.withRce_ic (s : State) (r : Rce) :
    (s.withRce r).ic = s.ic := rfl
@[simp] theorem State.withRce_res (s : State) (r : Rce) :
    (s.withRce r).res = s.res := rfl
@[simp] theorem State.withRce_fault (s : State) (r : Rce) :
    (s.withRce r).fault = s.fault := rfl
@[simp] theorem State.withRce_sink (s : State) (r : Rce) :
    (s.withRce r).sink = r.sink := rfl
@[simp] theorem State.withRce_src (s : State) (r : Rce) :
    (s.withRce r).src = s.src := rfl
@[simp] theorem State.withRce_port (s : State) (r : Rce) :
    (s.withRce r).port = s.port := rfl
@[simp] theorem State.withRce_responses (s : State) (r : Rce) :
    (s.withRce r).responses = s.responses := rfl
@[simp] theorem State.withRce_residues (s : State) (r : Rce) :
    (s.withRce r).residues = s.residues := rfl

/-! ### `withRcd` -/

@[simp] theorem State.withRcd_params (s : State) (r : Rcd) :
    (s.withRcd r).params = s.params := rfl
@[simp] theorem State.withRcd_enc (s : State) (r : Rcd) :
    (s.withRcd r).enc = s.enc := rfl
@[simp] theorem State.withRcd_dec (s : State) (r : Rcd) :
    (s.withRcd r).dec = r.dec := rfl
@[simp] theorem State.withRcd_bm (s : State) (r : Rcd) :
    (s.withRcd r).bm = s.bm := rfl
@[simp] theorem State.withRcd_sm (s : State) (r : Rcd) :
    (s.withRcd r).sm = s.sm := rfl
@[simp] theorem State.withRcd_ic (s : State) (r : Rcd) :
    (s.withRcd r).ic = s.ic := rfl
@[simp] theorem State.withRcd_res (s : State) (r : Rcd) :
    (s.withRcd r).res = s.res := rfl
@[simp] theorem State.withRcd_fault (s : State) (r : Rcd) :
    (s.withRcd r).fault = s.fault := rfl
@[simp] theorem State.withRcd_sink (s : State) (r : Rcd) :
    (s.withRcd r).sink = s.sink := rfl
@[simp] theorem State.withRcd_src (s : State) (r : Rcd) :
    (s.withRcd r).src = r.src := rfl
@[simp] theorem State.withRcd_port (s : State) (r : Rcd) :
    (s.withRcd r).port = s.port := rfl
@[simp] theorem State.withRcd_responses (s : State) (r : Rcd) :
    (s.withRcd r).responses = s.responses := rfl
@[simp] theorem State.withRcd_residues (s : State) (r : Rcd) :
    (s.withRcd r).residues = s.residues := rfl

/-! ### `withSink` -/

@[simp] theorem State.withSink_params (s : State) (k : Sink) :
    (s.withSink k).params = s.params := rfl
@[simp] theorem State.withSink_enc (s : State) (k : Sink) :
    (s.withSink k).enc = s.enc := rfl
@[simp] theorem State.withSink_dec (s : State) (k : Sink) :
    (s.withSink k).dec = s.dec := rfl
@[simp] theorem State.withSink_bm (s : State) (k : Sink) :
    (s.withSink k).bm = s.bm := rfl
@[simp] theorem State.withSink_sm (s : State) (k : Sink) :
    (s.withSink k).sm = s.sm := rfl
@[simp] theorem State.withSink_ic (s : State) (k : Sink) :
    (s.withSink k).ic = s.ic := rfl
@[simp] theorem State.withSink_res (s : State) (k : Sink) :
    (s.withSink k).res = s.res := rfl
@[simp] theorem State.withSink_fault (s : State) (k : Sink) :
    (s.withSink k).fault = s.fault := rfl
@[simp] theorem State.withSink_sink (s : State) (k : Sink) :
    (s.withSink k).sink = k := rfl
@[simp] theorem State.withSink_src (s : State) (k : Sink) :
    (s.withSink k).src = s.src := rfl
@[simp] theorem State.withSink_port (s : State) (k : Sink) :
    (s.withSink k).port = s.port := rfl
@[simp] theorem State.withSink_responses (s : State) (k : Sink) :
    (s.withSink k).responses = s.responses := rfl
@[simp] theorem State.withSink_residues (s : State) (k : Sink) :
    (s.withSink k).residues = s.residues := rfl

/-! ### `withSrc` -/

@[simp] theorem State.withSrc_params (s : State) (p : Source) :
    (s.withSrc p).params = s.params := rfl
@[simp] theorem State.withSrc_enc (s : State) (p : Source) :
    (s.withSrc p).enc = s.enc := rfl
@[simp] theorem State.withSrc_dec (s : State) (p : Source) :
    (s.withSrc p).dec = s.dec := rfl
@[simp] theorem State.withSrc_bm (s : State) (p : Source) :
    (s.withSrc p).bm = s.bm := rfl
@[simp] theorem State.withSrc_sm (s : State) (p : Source) :
    (s.withSrc p).sm = s.sm := rfl
@[simp] theorem State.withSrc_ic (s : State) (p : Source) :
    (s.withSrc p).ic = s.ic := rfl
@[simp] theorem State.withSrc_res (s : State) (p : Source) :
    (s.withSrc p).res = s.res := rfl
@[simp] theorem State.withSrc_fault (s : State) (p : Source) :
    (s.withSrc p).fault = s.fault := rfl
@[simp] theorem State.withSrc_sink (s : State) (p : Source) :
    (s.withSrc p).sink = s.sink := rfl
@[simp] theorem State.withSrc_src (s : State) (p : Source) :
    (s.withSrc p).src = p := rfl
@[simp] theorem State.withSrc_port (s : State) (p : Source) :
    (s.withSrc p).port = s.port := rfl
@[simp] theorem State.withSrc_responses (s : State) (p : Source) :
    (s.withSrc p).responses = s.responses := rfl
@[simp] theorem State.withSrc_residues (s : State) (p : Source) :
    (s.withSrc p).residues = s.residues := rfl

/-! ### `withBin` -/

@[simp] theorem State.withBin_params (s : State) (i : Nat) (m : BinModel) :
    (s.withBin i m).params = s.params := rfl
@[simp] theorem State.withBin_enc (s : State) (i : Nat) (m : BinModel) :
    (s.withBin i m).enc = s.enc := rfl
@[simp] theorem State.withBin_dec (s : State) (i : Nat) (m : BinModel) :
    (s.withBin i m).dec = s.dec := rfl
@[simp] theorem State.withBin_bm (s : State) (i : Nat) (m : BinModel) :
    (s.withBin i m).bm = SlotFile.put i m s.bm := rfl
@[simp] theorem State.withBin_sm (s : State) (i : Nat) (m : BinModel) :
    (s.withBin i m).sm = s.sm := rfl
@[simp] theorem State.withBin_ic (s : State) (i : Nat) (m : BinModel) :
    (s.withBin i m).ic = s.ic := rfl
@[simp] theorem State.withBin_res (s : State) (i : Nat) (m : BinModel) :
    (s.withBin i m).res = s.res := rfl
@[simp] theorem State.withBin_fault (s : State) (i : Nat) (m : BinModel) :
    (s.withBin i m).fault = s.fault := rfl
@[simp] theorem State.withBin_sink (s : State) (i : Nat) (m : BinModel) :
    (s.withBin i m).sink = s.sink := rfl
@[simp] theorem State.withBin_src (s : State) (i : Nat) (m : BinModel) :
    (s.withBin i m).src = s.src := rfl
@[simp] theorem State.withBin_port (s : State) (i : Nat) (m : BinModel) :
    (s.withBin i m).port = s.port := rfl
@[simp] theorem State.withBin_responses (s : State) (i : Nat) (m : BinModel) :
    (s.withBin i m).responses = s.responses := rfl
@[simp] theorem State.withBin_residues (s : State) (i : Nat) (m : BinModel) :
    (s.withBin i m).residues = s.residues := rfl

/-! ### `withSym` -/

@[simp] theorem State.withSym_params (s : State) (i : Nat) (m : SymModel) :
    (s.withSym i m).params = s.params := rfl
@[simp] theorem State.withSym_enc (s : State) (i : Nat) (m : SymModel) :
    (s.withSym i m).enc = s.enc := rfl
@[simp] theorem State.withSym_dec (s : State) (i : Nat) (m : SymModel) :
    (s.withSym i m).dec = s.dec := rfl
@[simp] theorem State.withSym_bm (s : State) (i : Nat) (m : SymModel) :
    (s.withSym i m).bm = s.bm := rfl
@[simp] theorem State.withSym_sm (s : State) (i : Nat) (m : SymModel) :
    (s.withSym i m).sm = SlotFile.put i m s.sm := rfl
@[simp] theorem State.withSym_ic (s : State) (i : Nat) (m : SymModel) :
    (s.withSym i m).ic = s.ic := rfl
@[simp] theorem State.withSym_res (s : State) (i : Nat) (m : SymModel) :
    (s.withSym i m).res = s.res := rfl
@[simp] theorem State.withSym_fault (s : State) (i : Nat) (m : SymModel) :
    (s.withSym i m).fault = s.fault := rfl
@[simp] theorem State.withSym_sink (s : State) (i : Nat) (m : SymModel) :
    (s.withSym i m).sink = s.sink := rfl
@[simp] theorem State.withSym_src (s : State) (i : Nat) (m : SymModel) :
    (s.withSym i m).src = s.src := rfl
@[simp] theorem State.withSym_port (s : State) (i : Nat) (m : SymModel) :
    (s.withSym i m).port = s.port := rfl
@[simp] theorem State.withSym_responses (s : State) (i : Nat) (m : SymModel) :
    (s.withSym i m).responses = s.responses := rfl
@[simp] theorem State.withSym_residues (s : State) (i : Nat) (m : SymModel) :
    (s.withSym i m).residues = s.residues := rfl

/-! ### `withInt` -/

@[simp] theorem State.withInt_params (s : State) (i : Nat) (c : IntComp) :
    (s.withInt i c).params = s.params := rfl
@[simp] theorem State.withInt_enc (s : State) (i : Nat) (c : IntComp) :
    (s.withInt i c).enc = s.enc := rfl
@[simp] theorem State.withInt_dec (s : State) (i : Nat) (c : IntComp) :
    (s.withInt i c).dec = s.dec := rfl
@[simp] theorem State.withInt_bm (s : State) (i : Nat) (c : IntComp) :
    (s.withInt i c).bm = s.bm := rfl
@[simp] theorem State.withInt_sm (s : State) (i : Nat) (c : IntComp) :
    (s.withInt i c).sm = s.sm := rfl
@[simp] theorem State.withInt_ic (s : State) (i : Nat) (c : IntComp) :
    (s.withInt i c).ic = SlotFile.put i c s.ic := rfl
@[simp] theorem State.withInt_res (s : State) (i : Nat) (c : IntComp) :
    (s.withInt i c).res = s.res := rfl
@[simp] theorem State.withInt_fault (s : State) (i : Nat) (c : IntComp) :
    (s.withInt i c).fault = s.fault := rfl
@[simp] theorem State.withInt_sink (s : State) (i : Nat) (c : IntComp) :
    (s.withInt i c).sink = s.sink := rfl
@[simp] theorem State.withInt_src (s : State) (i : Nat) (c : IntComp) :
    (s.withInt i c).src = s.src := rfl
@[simp] theorem State.withInt_port (s : State) (i : Nat) (c : IntComp) :
    (s.withInt i c).port = s.port := rfl
@[simp] theorem State.withInt_responses (s : State) (i : Nat) (c : IntComp) :
    (s.withInt i c).responses = s.responses := rfl
@[simp] theorem State.withInt_residues (s : State) (i : Nat) (c : IntComp) :
    (s.withInt i c).residues = s.residues := rfl

/-! ### `respond` -/

@[simp] theorem State.respond_params (s : State) (st : BitVec 8) (d : Dword) :
    (s.respond st d).params = s.params := rfl
@[simp] theorem State.respond_enc (s : State) (st : BitVec 8) (d : Dword) :
    (s.respond st d).enc = s.enc := rfl
@[simp] theorem State.respond_dec (s : State) (st : BitVec 8) (d : Dword) :
    (s.respond st d).dec = s.dec := rfl
@[simp] theorem State.respond_bm (s : State) (st : BitVec 8) (d : Dword) :
    (s.respond st d).bm = s.bm := rfl
@[simp] theorem State.respond_sm (s : State) (st : BitVec 8) (d : Dword) :
    (s.respond st d).sm = s.sm := rfl
@[simp] theorem State.respond_ic (s : State) (st : BitVec 8) (d : Dword) :
    (s.respond st d).ic = s.ic := rfl
@[simp] theorem State.respond_res (s : State) (st : BitVec 8) (d : Dword) :
    (s.respond st d).res = s.res := rfl
@[simp] theorem State.respond_fault (s : State) (st : BitVec 8) (d : Dword) :
    (s.respond st d).fault = s.fault := rfl
@[simp] theorem State.respond_sink (s : State) (st : BitVec 8) (d : Dword) :
    (s.respond st d).sink = s.sink := rfl
@[simp] theorem State.respond_src (s : State) (st : BitVec 8) (d : Dword) :
    (s.respond st d).src = s.src := rfl
@[simp] theorem State.respond_port (s : State) (st : BitVec 8) (d : Dword) :
    (s.respond st d).port = s.port := rfl
@[simp] theorem State.respond_responses (s : State) (st : BitVec 8) (d : Dword) :
    (s.respond st d).responses = s.responses ++ [{ status := st, data := d }] := rfl
@[simp] theorem State.respond_residues (s : State) (st : BitVec 8) (d : Dword) :
    (s.respond st d).residues = s.residues := rfl

/-! ### `complete_some` -/

@[simp] theorem State.complete_some_params (s : State) (d : Dword) :
    (s.complete (some d)).params = s.params := rfl
@[simp] theorem State.complete_some_enc (s : State) (d : Dword) :
    (s.complete (some d)).enc = s.enc := rfl
@[simp] theorem State.complete_some_dec (s : State) (d : Dword) :
    (s.complete (some d)).dec = s.dec := rfl
@[simp] theorem State.complete_some_bm (s : State) (d : Dword) :
    (s.complete (some d)).bm = s.bm := rfl
@[simp] theorem State.complete_some_sm (s : State) (d : Dword) :
    (s.complete (some d)).sm = s.sm := rfl
@[simp] theorem State.complete_some_ic (s : State) (d : Dword) :
    (s.complete (some d)).ic = s.ic := rfl
@[simp] theorem State.complete_some_res (s : State) (d : Dword) :
    (s.complete (some d)).res = d := rfl
@[simp] theorem State.complete_some_fault (s : State) (d : Dword) :
    (s.complete (some d)).fault = s.fault := rfl
@[simp] theorem State.complete_some_sink (s : State) (d : Dword) :
    (s.complete (some d)).sink = s.sink := rfl
@[simp] theorem State.complete_some_src (s : State) (d : Dword) :
    (s.complete (some d)).src = s.src := rfl
@[simp] theorem State.complete_some_port (s : State) (d : Dword) :
    (s.complete (some d)).port = s.port := rfl
@[simp] theorem State.complete_some_responses (s : State) (d : Dword) :
    (s.complete (some d)).responses = s.responses ++ [{ status := 0x00#8, data := d }] := rfl
@[simp] theorem State.complete_some_residues (s : State) (d : Dword) :
    (s.complete (some d)).residues = s.residues := rfl

/-! ### `complete_none` -/

@[simp] theorem State.complete_none_params (s : State) :
    (s.complete none).params = s.params := rfl
@[simp] theorem State.complete_none_enc (s : State) :
    (s.complete none).enc = s.enc := rfl
@[simp] theorem State.complete_none_dec (s : State) :
    (s.complete none).dec = s.dec := rfl
@[simp] theorem State.complete_none_bm (s : State) :
    (s.complete none).bm = s.bm := rfl
@[simp] theorem State.complete_none_sm (s : State) :
    (s.complete none).sm = s.sm := rfl
@[simp] theorem State.complete_none_ic (s : State) :
    (s.complete none).ic = s.ic := rfl
@[simp] theorem State.complete_none_res (s : State) :
    (s.complete none).res = s.res := rfl
@[simp] theorem State.complete_none_fault (s : State) :
    (s.complete none).fault = s.fault := rfl
@[simp] theorem State.complete_none_sink (s : State) :
    (s.complete none).sink = s.sink := rfl
@[simp] theorem State.complete_none_src (s : State) :
    (s.complete none).src = s.src := rfl
@[simp] theorem State.complete_none_port (s : State) :
    (s.complete none).port = s.port := rfl
@[simp] theorem State.complete_none_responses (s : State) :
    (s.complete none).responses = s.responses ++ [{ status := 0x00#8, data := 0#64 }] := rfl
@[simp] theorem State.complete_none_residues (s : State) :
    (s.complete none).residues = s.residues := rfl

/-! ### `refuse` -/

@[simp] theorem State.refuse_params (s : State) :
    (s.refuse).params = s.params := rfl
@[simp] theorem State.refuse_enc (s : State) :
    (s.refuse).enc = s.enc := rfl
@[simp] theorem State.refuse_dec (s : State) :
    (s.refuse).dec = s.dec := rfl
@[simp] theorem State.refuse_bm (s : State) :
    (s.refuse).bm = s.bm := rfl
@[simp] theorem State.refuse_sm (s : State) :
    (s.refuse).sm = s.sm := rfl
@[simp] theorem State.refuse_ic (s : State) :
    (s.refuse).ic = s.ic := rfl
@[simp] theorem State.refuse_res (s : State) :
    (s.refuse).res = s.res := rfl
@[simp] theorem State.refuse_fault (s : State) :
    (s.refuse).fault = s.fault := rfl
@[simp] theorem State.refuse_sink (s : State) :
    (s.refuse).sink = s.sink := rfl
@[simp] theorem State.refuse_src (s : State) :
    (s.refuse).src = s.src := rfl
@[simp] theorem State.refuse_port (s : State) :
    (s.refuse).port = s.port := rfl
@[simp] theorem State.refuse_responses (s : State) :
    (s.refuse).responses = s.responses ++ [{ status := 0xFF#8, data := 0#64 }] := rfl
@[simp] theorem State.refuse_residues (s : State) :
    (s.refuse).residues = s.residues := rfl

/-! ### `raisePrecise` -/

@[simp] theorem State.raisePrecise_params (s : State) (f : FaultCode) :
    (s.raisePrecise f).params = s.params := rfl
@[simp] theorem State.raisePrecise_enc (s : State) (f : FaultCode) :
    (s.raisePrecise f).enc = s.enc := rfl
@[simp] theorem State.raisePrecise_dec (s : State) (f : FaultCode) :
    (s.raisePrecise f).dec = s.dec := rfl
@[simp] theorem State.raisePrecise_bm (s : State) (f : FaultCode) :
    (s.raisePrecise f).bm = s.bm := rfl
@[simp] theorem State.raisePrecise_sm (s : State) (f : FaultCode) :
    (s.raisePrecise f).sm = s.sm := rfl
@[simp] theorem State.raisePrecise_ic (s : State) (f : FaultCode) :
    (s.raisePrecise f).ic = s.ic := rfl
@[simp] theorem State.raisePrecise_res (s : State) (f : FaultCode) :
    (s.raisePrecise f).res = s.res := rfl
@[simp] theorem State.raisePrecise_fault (s : State) (f : FaultCode) :
    (s.raisePrecise f).fault = f.code := rfl
@[simp] theorem State.raisePrecise_sink (s : State) (f : FaultCode) :
    (s.raisePrecise f).sink = s.sink := rfl
@[simp] theorem State.raisePrecise_src (s : State) (f : FaultCode) :
    (s.raisePrecise f).src = s.src := rfl
@[simp] theorem State.raisePrecise_port (s : State) (f : FaultCode) :
    (s.raisePrecise f).port = s.port := rfl
@[simp] theorem State.raisePrecise_responses (s : State) (f : FaultCode) :
    (s.raisePrecise f).responses = s.responses ++ [{ status := f.code, data := 0#64 }] := rfl
@[simp] theorem State.raisePrecise_residues (s : State) (f : FaultCode) :
    (s.raisePrecise f).residues = s.residues := rfl

/-! ### `resetEvent` -/

@[simp] theorem State.resetEvent_params (s : State) :
    (s.resetEvent).params = s.params := rfl
@[simp] theorem State.resetEvent_enc (s : State) :
    (s.resetEvent).enc = Encoder.reset := rfl
@[simp] theorem State.resetEvent_dec (s : State) :
    (s.resetEvent).dec = Decoder.reset := rfl
@[simp] theorem State.resetEvent_bm (s : State) :
    (s.resetEvent).bm = [] := rfl
@[simp] theorem State.resetEvent_sm (s : State) :
    (s.resetEvent).sm = [] := rfl
@[simp] theorem State.resetEvent_ic (s : State) :
    (s.resetEvent).ic = [] := rfl
@[simp] theorem State.resetEvent_res (s : State) :
    (s.resetEvent).res = 0#64 := rfl
@[simp] theorem State.resetEvent_fault (s : State) :
    (s.resetEvent).fault = 0#8 := rfl
@[simp] theorem State.resetEvent_sink (s : State) :
    (s.resetEvent).sink = { s.sink with count := 0#64 } := rfl
@[simp] theorem State.resetEvent_src (s : State) :
    (s.resetEvent).src = { s.src with count := 0#64 } := rfl
@[simp] theorem State.resetEvent_port (s : State) :
    (s.resetEvent).port = s.port := rfl
@[simp] theorem State.resetEvent_responses (s : State) :
    (s.resetEvent).responses = s.responses := rfl
@[simp] theorem State.resetEvent_residues (s : State) :
    (s.resetEvent).residues = s.residues := rfl

/-! ### `cut` -/

@[simp] theorem State.cut_params (s : State) (a b : Nat) :
    (s.cut a b).params = s.params := rfl
@[simp] theorem State.cut_enc (s : State) (a b : Nat) :
    (s.cut a b).enc = s.enc := rfl
@[simp] theorem State.cut_dec (s : State) (a b : Nat) :
    (s.cut a b).dec = s.dec := rfl
@[simp] theorem State.cut_bm (s : State) (a b : Nat) :
    (s.cut a b).bm = s.bm := rfl
@[simp] theorem State.cut_sm (s : State) (a b : Nat) :
    (s.cut a b).sm = s.sm := rfl
@[simp] theorem State.cut_ic (s : State) (a b : Nat) :
    (s.cut a b).ic = s.ic := rfl
@[simp] theorem State.cut_res (s : State) (a b : Nat) :
    (s.cut a b).res = s.res := rfl
@[simp] theorem State.cut_fault (s : State) (a b : Nat) :
    (s.cut a b).fault = s.fault := rfl
@[simp] theorem State.cut_sink (s : State) (a b : Nat) :
    (s.cut a b).sink = s.sink.cut a := rfl
@[simp] theorem State.cut_src (s : State) (a b : Nat) :
    (s.cut a b).src = s.src.cut b := rfl
@[simp] theorem State.cut_port (s : State) (a b : Nat) :
    (s.cut a b).port = s.port := rfl
@[simp] theorem State.cut_responses (s : State) (a b : Nat) :
    (s.cut a b).responses = s.responses := rfl
@[simp] theorem State.cut_residues (s : State) (a b : Nat) :
    (s.cut a b).residues = [] := rfl

/-! ### `abandonedAs` -/

@[simp] theorem State.abandonedAs_params (s t : State) :
    (s.abandonedAs t).params = s.params := rfl
@[simp] theorem State.abandonedAs_enc (s t : State) :
    (s.abandonedAs t).enc = Encoder.reset := rfl
@[simp] theorem State.abandonedAs_dec (s t : State) :
    (s.abandonedAs t).dec = Decoder.reset := rfl
@[simp] theorem State.abandonedAs_bm (s t : State) :
    (s.abandonedAs t).bm = [] := rfl
@[simp] theorem State.abandonedAs_sm (s t : State) :
    (s.abandonedAs t).sm = [] := rfl
@[simp] theorem State.abandonedAs_ic (s t : State) :
    (s.abandonedAs t).ic = [] := rfl
@[simp] theorem State.abandonedAs_res (s t : State) :
    (s.abandonedAs t).res = 0#64 := rfl
@[simp] theorem State.abandonedAs_fault (s t : State) :
    (s.abandonedAs t).fault = 0#8 := rfl
@[simp] theorem State.abandonedAs_sink (s t : State) :
    (s.abandonedAs t).sink = { t.sink with count := 0#64 } := rfl
@[simp] theorem State.abandonedAs_src (s t : State) :
    (s.abandonedAs t).src = { t.src with count := 0#64 } := rfl
@[simp] theorem State.abandonedAs_port (s t : State) :
    (s.abandonedAs t).port = s.port := rfl
@[simp] theorem State.abandonedAs_responses (s t : State) :
    (s.abandonedAs t).responses = s.responses := rfl
@[simp] theorem State.abandonedAs_residues (s t : State) :
    (s.abandonedAs t).residues = t.residues := rfl

/-! ### `seekEvent` -/

@[simp] theorem State.seekEvent_params (s : State) (a : List SrcAnswer) :
    (s.seekEvent a).params = s.params := rfl
@[simp] theorem State.seekEvent_enc (s : State) (a : List SrcAnswer) :
    (s.seekEvent a).enc = s.enc := rfl
@[simp] theorem State.seekEvent_dec (s : State) (a : List SrcAnswer) :
    (s.seekEvent a).dec = s.dec := rfl
@[simp] theorem State.seekEvent_bm (s : State) (a : List SrcAnswer) :
    (s.seekEvent a).bm = s.bm := rfl
@[simp] theorem State.seekEvent_sm (s : State) (a : List SrcAnswer) :
    (s.seekEvent a).sm = s.sm := rfl
@[simp] theorem State.seekEvent_ic (s : State) (a : List SrcAnswer) :
    (s.seekEvent a).ic = s.ic := rfl
@[simp] theorem State.seekEvent_res (s : State) (a : List SrcAnswer) :
    (s.seekEvent a).res = s.res := rfl
@[simp] theorem State.seekEvent_fault (s : State) (a : List SrcAnswer) :
    (s.seekEvent a).fault = s.fault := rfl
@[simp] theorem State.seekEvent_sink (s : State) (a : List SrcAnswer) :
    (s.seekEvent a).sink = s.sink := rfl
@[simp] theorem State.seekEvent_src (s : State) (a : List SrcAnswer) :
    (s.seekEvent a).src = { s.src with answers := a } := rfl
@[simp] theorem State.seekEvent_port (s : State) (a : List SrcAnswer) :
    (s.seekEvent a).port = s.port := rfl
@[simp] theorem State.seekEvent_responses (s : State) (a : List SrcAnswer) :
    (s.seekEvent a).responses = s.responses := rfl
@[simp] theorem State.seekEvent_residues (s : State) (a : List SrcAnswer) :
    (s.seekEvent a).residues = s.residues := rfl

/-! ### `presentNext` -/

@[simp] theorem State.presentNext_params (s : State) (w : Command) :
    (s.presentNext w).params = s.params := rfl
@[simp] theorem State.presentNext_enc (s : State) (w : Command) :
    (s.presentNext w).enc = s.enc := rfl
@[simp] theorem State.presentNext_dec (s : State) (w : Command) :
    (s.presentNext w).dec = s.dec := rfl
@[simp] theorem State.presentNext_bm (s : State) (w : Command) :
    (s.presentNext w).bm = s.bm := rfl
@[simp] theorem State.presentNext_sm (s : State) (w : Command) :
    (s.presentNext w).sm = s.sm := rfl
@[simp] theorem State.presentNext_ic (s : State) (w : Command) :
    (s.presentNext w).ic = s.ic := rfl
@[simp] theorem State.presentNext_res (s : State) (w : Command) :
    (s.presentNext w).res = s.res := rfl
@[simp] theorem State.presentNext_fault (s : State) (w : Command) :
    (s.presentNext w).fault = s.fault := rfl
@[simp] theorem State.presentNext_sink (s : State) (w : Command) :
    (s.presentNext w).sink = s.sink := rfl
@[simp] theorem State.presentNext_src (s : State) (w : Command) :
    (s.presentNext w).src = s.src := rfl
@[simp] theorem State.presentNext_port (s : State) (w : Command) :
    (s.presentNext w).port = PortEvent.command w :: s.port := rfl
@[simp] theorem State.presentNext_responses (s : State) (w : Command) :
    (s.presentNext w).responses = s.responses := rfl
@[simp] theorem State.presentNext_residues (s : State) (w : Command) :
    (s.presentNext w).residues = s.residues := rfl

/-! ### The coders' parts -/

@[simp] theorem State.rce_enc (s : State) : s.rce.enc = s.enc := rfl
@[simp] theorem State.rce_sink (s : State) : s.rce.sink = s.sink := rfl
@[simp] theorem State.rcd_dec (s : State) : s.rcd.dec = s.dec := rfl
@[simp] theorem State.rcd_src (s : State) : s.rcd.src = s.src := rfl
@[simp] theorem Sink.took_bursts (k : Sink) (b : List Byte) : (k.took b).bursts = k.bursts ++ [b] := rfl
@[simp] theorem Sink.took_answers (k : Sink) (b : List Byte) : (k.took b).answers = k.answers := rfl
@[simp] theorem Sink.took_count (k : Sink) (b : List Byte) :
    (k.took b).count = k.count + BitVec.ofNat 64 b.length := rfl
@[simp] theorem Rce.setRange_low (r : Rce) (v : Word) : (r.setRange v).enc.low = r.enc.low := rfl
@[simp] theorem Rce.setRange_range (r : Rce) (v : Word) : (r.setRange v).enc.range = v := rfl
@[simp] theorem Rce.setRange_cache (r : Rce) (v : Word) : (r.setRange v).enc.cache = r.enc.cache := rfl
@[simp] theorem Rce.setRange_cacheValid (r : Rce) (v : Word) :
    (r.setRange v).enc.cacheValid = r.enc.cacheValid := rfl
@[simp] theorem Rce.setRange_pending (r : Rce) (v : Word) :
    (r.setRange v).enc.pending = r.enc.pending := rfl
@[simp] theorem Rce.setRange_outBuf (r : Rce) (v : Word) :
    (r.setRange v).enc.outBuf = r.enc.outBuf := rfl
@[simp] theorem Rce.setRange_active (r : Rce) (v : Word) :
    (r.setRange v).enc.active = r.enc.active := rfl
@[simp] theorem Rce.setRange_sink (r : Rce) (v : Word) : (r.setRange v).sink = r.sink := rfl
@[simp] theorem Rcd.setInterval_dvalue (r : Rcd) (v len : Word) :
    (r.setInterval v len).dec.dvalue = v := rfl
@[simp] theorem Rcd.setInterval_drange (r : Rcd) (v len : Word) :
    (r.setInterval v len).dec.drange = len := rfl
@[simp] theorem Rcd.setInterval_active (r : Rcd) (v len : Word) :
    (r.setInterval v len).dec.active = r.dec.active := rfl
@[simp] theorem Rcd.setInterval_src (r : Rcd) (v len : Word) :
    (r.setInterval v len).src = r.src := rfl

end Sys2Proof.Machine
end

