-- ==== Sys2Proof/Laws/Run.lean ====
section
/-! SUPPORT. What a sequence of micro-operations can do: the small lemmas of `Run`, the order of the
checks and the ways a command ends, each said once. -/

namespace Sys2Proof.Machine

variable {σ τ α β : Type}

@[simp] theorem Run.bind_ok (a : α) (s : σ) (k : α → σ → Run σ β) : (Run.ok a s).bind k = k a s := rfl
@[simp] theorem Run.bind_raised (f : FaultCode) (s : σ) (k : α → σ → Run σ β) :
    (Run.raised f s : Run σ α).bind k = .raised f s := rfl
@[simp] theorem Run.bind_diverged (k : α → σ → Run σ β) :
    (Run.diverged : Run σ α).bind k = .diverged := rfl
@[simp] theorem Run.within_ok (a : α) (s : σ) (g : σ → τ) : (Run.ok a s).within g = .ok a (g s) := rfl
@[simp] theorem Run.within_raised (f : FaultCode) (s : σ) (g : σ → τ) :
    (Run.raised f s : Run σ α).within g = .raised f (g s) := rfl
@[simp] theorem Run.within_diverged (g : σ → τ) :
    (Run.diverged : Run σ α).within g = .diverged := rfl
@[simp] theorem Run.value_ok (a : α) (s : σ) (g : α → β) : (Run.ok a s).value g = .ok (g a) s := rfl
@[simp] theorem Run.value_raised (f : FaultCode) (s : σ) (g : α → β) :
    (Run.raised f s : Run σ α).value g = .raised f s := rfl
@[simp] theorem Run.value_diverged (g : α → β) : (Run.diverged : Run σ α).value g = .diverged := rfl

/-- A sequence that goes on: both parts went on. -/
theorem Run.bind_eq_ok {m : Run σ α} {k : α → σ → Run σ β} {b : β} {s : σ} :
    m.bind k = .ok b s ↔ ∃ a s1, m = .ok a s1 ∧ k a s1 = .ok b s := by
  cases m <;> simp

/-- A sequence that diverges: one of its parts diverged. -/
theorem Run.bind_eq_diverged {m : Run σ α} {k : α → σ → Run σ β} :
    m.bind k = .diverged ↔ m = .diverged ∨ ∃ a s1, m = .ok a s1 ∧ k a s1 = .diverged := by
  cases m <;> simp

/-- A sequence that raises: one of its parts raised. -/
theorem Run.bind_eq_raised {m : Run σ α} {k : α → σ → Run σ β} {f : FaultCode} {s : σ} :
    m.bind k = .raised f s ↔
      m = .raised f s ∨ ∃ a s1, m = .ok a s1 ∧ k a s1 = .raised f s := by
  cases m <;> simp

theorem Run.within_eq_ok {m : Run σ α} {g : σ → τ} {a : α} {t : τ} :
    m.within g = .ok a t ↔ ∃ s, m = .ok a s ∧ g s = t := by
  cases m <;> simp [eq_comm, and_assoc]

theorem Run.within_eq_diverged {m : Run σ α} {g : σ → τ} :
    m.within g = .diverged ↔ m = .diverged := by
  cases m <;> simp

theorem Run.within_eq_raised {m : Run σ α} {g : σ → τ} {f : FaultCode} {t : τ} :
    m.within g = .raised f t ↔ ∃ s, m = .raised f s ∧ g s = t := by
  cases m <;> simp [eq_comm, and_assoc]

theorem Run.value_eq_ok {m : Run σ α} {g : α → β} {b : β} {s : σ} :
    m.value g = .ok b s ↔ ∃ a, m = .ok a s ∧ g a = b := by
  cases m <;> simp [and_comm]

theorem Run.value_eq_diverged {m : Run σ α} {g : α → β} : m.value g = .diverged ↔ m = .diverged := by
  cases m <;> simp

theorem Run.value_eq_raised {m : Run σ α} {g : α → β} {f : FaultCode} {s : σ} :
    m.value g = .raised f s ↔ m = .raised f s := by
  cases m <;> simp

/-! ## The order of the checks -/

@[simp] theorem firstFailure_nil : firstFailure [] = none := rfl

@[simp] theorem firstFailure_require (c : Bool) (f : FaultCode) (rest : List Check) :
    firstFailure (require c f :: rest) = if c then firstFailure rest else some f := rfl

/-- No check fails exactly when every one holds. -/
theorem firstFailure_eq_none {cs : List Check} : firstFailure cs = none ↔ ∀ c ∈ cs, c.1 = true := by
  induction cs with
  | nil => simp
  | cons c rest ih => obtain ⟨b, f⟩ := c; cases b <;> simp [firstFailure, ih]

/-- The fault reported is that of one of the checks. -/
theorem firstFailure_mem {cs : List Check} {f : FaultCode} (h : firstFailure cs = some f) :
    (false, f) ∈ cs := by
  induction cs with
  | nil => simp at h
  | cons c rest ih =>
    obtain ⟨b, g⟩ := c
    cases b
    · simp [firstFailure] at h; simp [h]
    · simp [firstFailure] at h; simp [ih h]

/-! ## The ways a command ends -/

/-- While `FAULT ≠ 0` a command is refused. -/
theorem State.command_refused {s : State} (h : s.fault ≠ 0#8) (cs : List Check) (t : Touch)
    (body : Run State (Option Dword)) : s.command cs t body = .next s.refuse := by
  simp [State.command, h]

/-- A command whose checks fail takes a precise fault. -/
theorem State.command_precise {s : State} (h : s.fault = 0#8) {cs : List Check} {f : FaultCode}
    (hc : firstFailure cs = some f) (t : Touch) (body : Run State (Option Dword)) :
    s.command cs t body = .next (s.raisePrecise f) := by
  simp [State.command, h, hc]

/-- A command whose checks hold runs its body. -/
theorem State.command_runs {s : State} (h : s.fault = 0#8) {cs : List Check} (hc : firstFailure cs = none)
    (t : Touch) (body : Run State (Option Dword)) : s.command cs t body = s.finish t body := by
  simp [State.command, h, hc]

/-- Everything a command can do: refused, a precise fault, success, an execution fault, or no end. -/
theorem State.command_cases (s : State) (cs : List Check) (t : Touch) (body : Run State (Option Dword)) :
    (s.fault ≠ 0#8 ∧ s.command cs t body = .next s.refuse) ∨
    (s.fault = 0#8 ∧ ∃ f, firstFailure cs = some f ∧ s.command cs t body = .next (s.raisePrecise f)) ∨
    (s.fault = 0#8 ∧ firstFailure cs = none ∧ ∃ d s1, body = .ok d s1 ∧
      s.command cs t body = .next (s1.complete d)) ∨
    (s.fault = 0#8 ∧ firstFailure cs = none ∧ ∃ f s1, body = .raised f s1 ∧
      s.command cs t body = .next (s.raiseInExecution t f s1)) ∨
    (s.fault = 0#8 ∧ firstFailure cs = none ∧ body = .diverged ∧
      s.command cs t body = .fault .renormDiverges) := by
  by_cases h : s.fault = 0#8
  · rcases hc : firstFailure cs with _ | f
    · cases body <;> simp [State.command, h, hc, State.finish]
    · simp [State.command, h, hc]
  · simp [State.command, h]

/-- A fault code is never 0, so a command that faults is followed by refusals. -/
theorem FaultCode.code_ne_zero (f : FaultCode) : f.code ≠ 0#8 := by cases f <;> decide

/-- The stored codes are 1 to 8. -/
theorem FaultCode.code_le (f : FaultCode) : f.code.toNat ≤ 8 := by cases f <;> decide

end Sys2Proof.Machine
end

