-- ==== Sys2Proof/Laws/Ports.lean ====
section
/-! SUPPORT. The laws of the two ports: everything a transfer can do. -/

namespace Sys2Proof.Machine

/-! ## The sink -/

@[simp] theorem Sink.took_bytes (k : Sink) (b : List Byte) : (k.took b).bytes = k.bytes ++ b := by
  simp [Sink.bytes]

/-- What the sink takes is counted (10_state.md R34). -/
@[simp] theorem Sink.took_uncounted (k : Sink) (b : List Byte) : (k.took b).uncounted = k.uncounted := by
  simp only [Sink.uncounted, Sink.took_count, Sink.took_bytes, List.length_append, BitVec.ofNat_add]
  ring

@[simp] theorem Sink.uncounted_answers (k : Sink) (l : List SinkAnswer) :
    ({ k with answers := l } : Sink).uncounted = k.uncounted := rfl

/-- A sink that takes the next burst takes it whole. -/
theorem Sink.write_takes {k : Sink} (h : k.TakesNext) (b : List Byte) :
    Sink.write b k = .ok () ({ k with answers := k.answers.tail }.took b) := by
  obtain ⟨bursts, answers, count⟩ := k
  rcases answers with _ | ⟨a, rest⟩
  · rfl
  · have := h a rfl
    subst this
    rfl

theorem Sink.Accepting.takesNext {k : Sink} (h : k.Accepting) : k.TakesNext := by
  intro a ha
  exact h a (List.mem_of_mem_head? ha)

theorem Sink.Accepting.tail {k : Sink} (h : k.Accepting) :
    Sink.Accepting { k with answers := k.answers.tail } := by
  intro a ha
  exact h a (List.mem_of_mem_tail ha)

/-- Everything `MemWrite` can do: the burst taken, or an io-error. -/
theorem Sink.write_cases (b : List Byte) (k : Sink) :
    (∃ k', Sink.write b k = .ok () k' ∧ k'.bursts = k.bursts ++ [b] ∧ k'.uncounted = k.uncounted ∧
      (k.Accepting → k'.Accepting)) ∨
    (∃ k', Sink.write b k = .raised .ioError k' ∧ ¬ k.Accepting) := by
  by_cases h : k.TakesNext
  · exact .inl ⟨_, Sink.write_takes h b, by simp, by simp, fun ha => by
      have := ha.tail
      simpa [Sink.Accepting] using this⟩
  · right
    have hn : ¬ k.Accepting := fun ha => h ha.takesNext
    unfold Sink.write
    rcases ha : k.answers with _ | ⟨a, rest⟩
    · simp [Sink.TakesNext, ha] at h
    · match a with
      | .accept => simp [Sink.TakesNext, ha] at h
      | .ioError 0 => exact ⟨_, rfl, hn⟩
      | .ioError (n + 1) => exact ⟨_, rfl, hn⟩

theorem Sink.Grown.refl (k : Sink) : k.Grown k := ⟨⟨[], by simp⟩, rfl, id⟩

theorem Sink.Grown.trans {a b c : Sink} (h1 : a.Grown b) (h2 : b.Grown c) : a.Grown c := by
  obtain ⟨⟨m1, e1, l1⟩, c1, a1⟩ := h1
  obtain ⟨⟨m2, e2, l2⟩, c2, a2⟩ := h2
  refine ⟨⟨m1 ++ m2, by rw [e2, e1, List.append_assoc], ?_⟩, c2.trans c1, fun h => a2 (a1 h)⟩
  intro b hb
  rcases List.mem_append.mp hb with h | h
  · exact l1 b h
  · exact l2 b h

/-! ## The source -/

/-- A source that has these bytes gives them, one request at a time. -/
theorem Source.read_gives {p : Source} {bs : List Byte} {rest : List SrcAnswer} (h : p.Gives bs rest) :
    Source.read bs.length p =
      .ok bs { answers := rest, count := p.count + BitVec.ofNat 64 bs.length } := by
  obtain ⟨answers, count⟩ := p
  simp only [Source.Gives] at h
  subst h
  induction bs generalizing count with
  | nil => simp [Source.read]
  | cons b bs ih =>
    simp only [List.length_cons, Source.read, Source.next, List.map_cons, List.cons_append, Run.bind_ok]
    rw [ih]
    simp only [Run.value_ok, Nat.add_comm bs.length 1, BitVec.ofNat_add, BitVec.add_assoc]

/-- Everything `MemRead` can do: as many bytes as asked, or one of two faults. -/
theorem Source.read_cases (n : Nat) (p : Source) :
    (∃ bs rest, bs.length = n ∧ p.Gives bs rest) ∨
    (∃ f p', Source.read n p = .raised f p' ∧ (f = .unexpectedEndOfInput ∨ f = .ioError)) := by
  induction n generalizing p with
  | zero => exact .inl ⟨[], p.answers, rfl, by simp [Source.Gives]⟩
  | succ n ih =>
    obtain ⟨answers, count⟩ := p
    match answers with
    | [] => exact .inr ⟨_, _, rfl, .inl rfl⟩
    | .endOfInput :: rest => exact .inr ⟨_, _, rfl, .inl rfl⟩
    | .ioError :: rest => exact .inr ⟨_, _, rfl, .inr rfl⟩
    | .byte b :: rest =>
      rcases ih { answers := rest, count := count + 1#64 } with ⟨bs, r2, hl, hg⟩ | ⟨f, p', he, hf⟩
      · left
        refine ⟨b :: bs, r2, by simp [hl], ?_⟩
        simp only [Source.Gives] at hg ⊢
        simp [hg]
      · right
        exact ⟨f, p', by simp [Source.read, Source.next, he], hf⟩

/-! ## The source after an execution fault -/

/-- A source that breaks off gives no byte there. -/
theorem Source.Breaks.no_byte {p : Source} {came : Nat} {code : BitVec 8} (h : p.Breaks came code) :
    came ≤ p.answers.length ∧ ∀ b, p.answers[came]? ≠ some (SrcAnswer.byte b) := by
  obtain ⟨bs, rest, hg, rfl, hc⟩ := h
  rw [Source.Gives] at hg
  rw [hg]
  refine ⟨by simp, fun b hb => ?_⟩
  rw [List.getElem?_append_right (by simp)] at hb
  rcases hc with ⟨rfl | hr, -⟩ | ⟨hr, -⟩
  · simp at hb
  · rw [List.head?_eq_getElem?] at hr
    simp [hr] at hb
  · rw [List.head?_eq_getElem?] at hr
    simp [hr] at hb

/-- Whatever the free value, the source stands within the bounds of 60_exceptions.md R278: all the bytes
that came were taken, and no answer more. -/
theorem Source.tookAtMost_left {p q : Source} {came : Nat} (hc : q.count = p.count + BitVec.ofNat 64 came)
    (ha : q.answers = p.answers.drop came) (taken : Nat) : p.Left (Source.tookAtMost taken p q) came := by
  unfold Source.tookAtMost
  split_ifs with h
  · rw [ha, List.length_drop] at h
    exact ⟨taken, by omega, rfl, .inl rfl⟩
  · exact ⟨came, le_rfl, hc, .inl ha⟩

/-- Whatever the free value, the source stands within the bounds of 60_exceptions.md R278: all the bytes
that came were taken, and the answer that was no byte. -/
theorem Source.tookAtMost_left_of_break {p q : Source} {came : Nat} {code : BitVec 8} (hb : p.Breaks came code)
    (hc : q.count = p.count + BitVec.ofNat 64 came) (ha : q.answers = p.answers.drop (came + 1)) (taken : Nat) :
    p.Left (Source.tookAtMost taken p q) came := by
  obtain ⟨hl, hn⟩ := hb.no_byte
  unfold Source.tookAtMost
  split_ifs with h
  · rw [ha, List.length_drop] at h
    exact ⟨taken, by omega, rfl, .inl rfl⟩
  · exact ⟨came, le_rfl, hc, .inr ⟨rfl, hn, ha⟩⟩

end Sys2Proof.Machine
end

