-- ==== Sys2Proof/Laws/Rce.lean ====
section
/-! SUPPORT. The laws of the range encoder: what each micro-operation and each coding step can do, said
once, on the exact numbers of the coded stream. -/

namespace Sys2Proof.Machine

/-! ## How an encoder micro-operation ends -/

/-- A micro-operation from `r` ends well with `post`, or with an io-error of a sink that does not take
everything. It never diverges. -/
def Rce.Ends {σ : Type} (r : Rce) (m : Run σ Unit) (post : σ → Prop) : Prop :=
  (∃ t, m = .ok () t ∧ post t) ∨ (∃ t, m = .raised .ioError t ∧ ¬ r.sink.Accepting)

theorem Rce.Ends.ok {σ : Type} {r : Rce} {t : σ} {post : σ → Prop} (h : post t) :
    Rce.Ends r (.ok () t) post := .inl ⟨t, rfl, h⟩

theorem Rce.Ends.mono {σ : Type} {r : Rce} {m : Run σ Unit} {p q : σ → Prop} (h : Rce.Ends r m p)
    (hpq : ∀ t, p t → q t) : Rce.Ends r m q := by
  rcases h with ⟨t, h1, h2⟩ | h
  · exact .inl ⟨t, h1, hpq t h2⟩
  · exact .inr h

theorem Rce.Ends.within {σ τ : Type} {r : Rce} {m : Run σ Unit} {p : σ → Prop} {q : τ → Prop} {g : σ → τ}
    (h : Rce.Ends r m p) (hpq : ∀ t, p t → q (g t)) : Rce.Ends r (m.within g) q := by
  rcases h with ⟨t, h1, h2⟩ | ⟨t, h1, h2⟩
  · exact .inl ⟨g t, by simp [h1], hpq t h2⟩
  · exact .inr ⟨g t, by simp [h1], h2⟩

/-- One micro-operation after another; the encoder that the second one starts from is `at' t`. -/
theorem Rce.Ends.bind_at {σ : Type} {r : Rce} {m : Run σ Unit} {k : Unit → σ → Run σ Unit}
    {p q : σ → Prop} (at' : σ → Rce) (h : Rce.Ends r m p)
    (hport : ∀ t, p t → r.sink.Accepting → (at' t).sink.Accepting)
    (hk : ∀ t, p t → Rce.Ends (at' t) (k () t) q) : Rce.Ends r (m.bind k) q := by
  rcases h with ⟨t, h1, h2⟩ | ⟨t, h1, h2⟩
  · rcases hk t h2 with ⟨t2, h3, h4⟩ | ⟨t2, h3, h4⟩
    · exact .inl ⟨t2, by simp [h1, h3], h4⟩
    · exact .inr ⟨t2, by simp [h1, h3], fun ha => h4 (hport t h2 ha)⟩
  · exact .inr ⟨t, by simp [h1], h2⟩

/-- One micro-operation after another. -/
theorem Rce.Ends.bind {r : Rce} {m : Run Rce Unit} {k : Unit → Rce → Run Rce Unit} {p q : Rce → Prop}
    (h : Rce.Ends r m p) (hport : ∀ r', p r' → r.sink.Accepting → r'.sink.Accepting)
    (hk : ∀ r', p r' → Rce.Ends r' (k () r') q) : Rce.Ends r (m.bind k) q :=
  Rce.Ends.bind_at id h hport hk

/-! ## The output path -/

/-- `bs` went into the output buffer, whole buffers on to the sink; nothing else changed. -/
structure Rce.Put (bs : List Byte) (r r' : Rce) : Prop where
  enc : r'.enc = { r.enc with outBuf := r'.enc.outBuf }
  bytes : r'.sink.bytes ++ r'.enc.outBuf = r.sink.bytes ++ r.enc.outBuf ++ bs
  room : r'.enc.outBuf.length < 4096
  port : r.sink.Grown r'.sink

theorem Rce.Put.nil {r : Rce} (h : r.enc.outBuf.length < 4096) : Rce.Put [] r r :=
  ⟨rfl, by simp, h, Sink.Grown.refl _⟩

theorem Rce.Put.trans {as bs : List Byte} {r1 r2 r3 : Rce} (h1 : Rce.Put as r1 r2)
    (h2 : Rce.Put bs r2 r3) : Rce.Put (as ++ bs) r1 r3 := by
  refine ⟨?_, ?_, h2.room, h1.port.trans h2.port⟩
  · rw [h2.enc, h1.enc]
  · rw [h2.bytes, h1.bytes, List.append_assoc]

/-- `enc_put(b)` (42_range_enc.md R171). -/
theorem Rce.putByte_spec (b : Byte) {r : Rce} (h : r.enc.outBuf.length < 4096) :
    r.Ends (r.putByte b) (Rce.Put [b] r) := by
  unfold Rce.putByte
  simp only [Config.outBufSize]
  split_ifs with hf
  · simp only [List.length_append, List.length_singleton] at hf
    unfold Rce.flush
    rcases Sink.write_cases (r.enc.outBuf ++ [b]) r.sink with ⟨k, h1, h2, h3, h4⟩ | ⟨k, h1, h2⟩
    · left
      refine ⟨{ enc := { r.enc with outBuf := [] }, sink := k }, by simp [h1], ?_⟩
      refine ⟨rfl, by simp [Sink.bytes, h2], by simp, ⟨⟨[r.enc.outBuf ++ [b]], h2, ?_⟩, h3, h4⟩⟩
      simp; omega
    · right
      exact ⟨{ enc := { r.enc with outBuf := r.enc.outBuf ++ [b] }, sink := k }, by simp [h1], h2⟩
  · simp only [List.length_append, List.length_singleton] at hf
    refine Rce.Ends.ok ⟨rfl, by simp, ?_, Sink.Grown.refl _⟩
    simp; omega

theorem Rce.putBytes_spec (bs : List Byte) {r : Rce} (h : r.enc.outBuf.length < 4096) :
    r.Ends (r.putBytes bs) (Rce.Put bs r) := by
  induction bs generalizing r with
  | nil => exact Rce.Ends.ok (Rce.Put.nil h)
  | cons b bs ih =>
    refine (Rce.putByte_spec b h).bind (fun r' hp => hp.port.accepting) fun r1 h1 => ?_
    exact (ih h1.room).mono fun r2 h2 => h1.trans h2

/-! ## The stage -/

/-- What the shared pieces keep between micro-operations: room in the buffer, and nothing pending
behind an empty stage. -/
structure Rce.Ready (r : Rce) : Prop where
  room : r.enc.outBuf.length < 4096
  stage : r.enc.cacheValid = false → r.enc.pending = 0

theorem Rce.stream_eq (r : Rce) : r.stream = r.sink.bytes ++ r.enc.outBuf ++ r.enc.staged := rfl

/-- `enc_shift_out(b)` (42_range_enc.md R172): the stream grows by `b`; `low` and `range` stay. -/
structure Rce.Shifted (b : Byte) (r r' : Rce) : Prop where
  ready : r'.Ready
  low : r'.enc.low = r.enc.low
  range : r'.enc.range = r.enc.range
  active : r'.enc.active = r.enc.active
  stream : r'.stream = r.stream ++ [b]
  port : r.sink.Grown r'.sink
  valid : r'.enc.cacheValid = true
  /-- The oldest staged byte is 0xFF only if every staged byte is. -/
  cache : r'.enc.cache = 0xFF#8 → b = 0xFF#8 ∧ (r.enc.cacheValid = false ∨ r.enc.cache = 0xFF#8)
  /-- A byte that is not 0xFF, shifted out behind another, is alone in the stage. -/
  alone : r.enc.cacheValid = true → b ≠ 0xFF#8 → r'.enc.pending = 0 ∧ r'.enc.cache = b

theorem Rce.shiftOut_spec (b : Byte) {r : Rce} (h : r.Ready) :
    r.Ends (r.shiftOut b) (Rce.Shifted b r) := by
  unfold Rce.shiftOut
  rcases hv : r.enc.cacheValid with _ | _
  · refine Rce.Ends.ok ?_
    have hp := h.stage hv
    exact { ready := ⟨h.room, by simp⟩, low := rfl, range := rfl, active := rfl
            stream := by simp [Rce.stream, Encoder.staged, hv, hp]
            port := Sink.Grown.refl _, valid := rfl
            cache := fun hc => ⟨hc, .inl hv⟩
            alone := by simp [hv] }
  · simp only [Bool.not_true, Bool.false_eq_true, if_false]
    split_ifs with hb
    · refine Rce.Ends.ok ?_
      exact { ready := ⟨h.room, by simp [hv]⟩, low := rfl, range := rfl, active := rfl
              stream := by simp [Rce.stream, Encoder.staged, hv, hb, List.replicate_succ']
              port := Sink.Grown.refl _, valid := hv
              cache := fun hc => ⟨hb, .inr hc⟩
              alone := fun _ hb' => absurd hb hb' }
    · refine (Rce.putBytes_spec _ h.room).bind (fun r' hp => hp.port.accepting) fun r1 h1 => ?_
      refine Rce.Ends.ok ?_
      have he := h1.enc
      have hcv : r1.enc.cacheValid = true := by rw [he]; exact hv
      exact { ready := ⟨h1.room, by simp [hcv]⟩
              low := by show r1.enc.low = _; rw [he]
              range := by show r1.enc.range = _; rw [he]
              active := by show r1.enc.active = _; rw [he]
              stream := by
                simp only [Rce.stream, Encoder.staged, hcv, hv, if_true, h1.bytes]
                simp
              port := h1.port
              valid := hcv
              cache := fun hc => absurd hc hb
              alone := fun _ _ => ⟨rfl, rfl⟩ }

/-- `enc_carry()` (42_range_enc.md R173) under its preconditions: the stream, as a number, grows by
1, and keeps its length. -/
structure Rce.Carried (r r' : Rce) : Prop where
  ready : r'.Ready
  low : r'.enc.low = r.enc.low
  range : r'.enc.range = r.enc.range
  active : r'.enc.active = r.enc.active
  number : bigEndian r'.stream = bigEndian r.stream + 1
  length : r'.stream.length = r.stream.length
  port : r.sink.Grown r'.sink
  valid : r'.enc.cacheValid = true

theorem Rce.carry_spec {r : Rce} (h : r.Ready) (hv : r.enc.cacheValid = true)
    (hc : r.enc.cache ≠ 0xFF#8) : r.Ends r.carry (Rce.Carried r) := by
  have hc1 : (r.enc.cache + 1#8).toNat = r.enc.cache.toNat + 1 := by
    have : r.enc.cache.toNat ≠ 255 := fun he => hc (BitVec.eq_of_toNat_eq he)
    have := r.enc.cache.isLt
    simp only [BitVec.toNat_add, BitVec.toNat_ofNat]
    omega
  unfold Rce.carry
  dsimp only
  split_ifs with hp
  · refine Rce.Ends.ok ?_
    exact { ready := ⟨h.room, by simp [hv]⟩, low := rfl, range := rfl, active := rfl
            number := by
              simp only [Rce.stream, Encoder.staged, hv, hp, if_true, List.replicate_zero,
                bigEndian_append, bigEndian_cons, bigEndian_nil, List.length_nil, hc1,
                List.length_singleton]
              ring
            length := by simp [Rce.stream, Encoder.staged, hv, hp]
            port := Sink.Grown.refl _, valid := hv }
  · change Rce.Ends { r with enc := { r.enc with cache := r.enc.cache + 1#8 } } _ _
    refine (Rce.putBytes_spec _ (r := { r with enc := { r.enc with cache := r.enc.cache + 1#8 } })
      h.room).bind (fun r' hp => hp.port.accepting) fun r1 h1 => ?_
    refine Rce.Ends.ok ?_
    have he := h1.enc
    have hcv : r1.enc.cacheValid = true := by rw [he]; exact hv
    obtain ⟨n, hn⟩ : ∃ n, r.enc.pending = n + 1 := ⟨r.enc.pending - 1, by omega⟩
    have hb := h1.bytes
    simp only [hn, Nat.add_sub_cancel] at hb
    exact { ready := ⟨h1.room, by simp [hcv]⟩
            low := by show r1.enc.low = _; rw [he]
            range := by show r1.enc.range = _; rw [he]
            active := by show r1.enc.active = _; rw [he]
            number := by
              have e1 := bigEndian_replicate_ff n
              simp only [Rce.stream, Encoder.staged, hcv, hv, hn, if_true, hb, List.replicate_zero,
                bigEndian_append, bigEndian_cons, bigEndian_nil, List.length_nil, hc1,
                List.length_cons, List.length_replicate, List.replicate_succ,
                bigEndian_replicate_zero]
              have h255 : (0xFF#8).toNat = 255 := rfl
              have h0 : (0x00#8).toNat = 0 := rfl
              rw [h255, h0]
              generalize bigEndian (List.replicate n 255#8) = X at *
              generalize bigEndian r.sink.bytes = Y
              generalize bigEndian r.enc.outBuf = Z
              simp only [pow_succ, ← e1]
              ring
            length := by
              have := congrArg List.length hb
              simp only [Rce.stream, Encoder.staged, hcv, hv, hn, if_true, List.length_append,
                List.length_cons, List.length_replicate] at this ⊢
              omega
            port := h1.port
            valid := hcv }

/-! ## The interval -/

/-- `enc_add(x)` (42_range_enc.md R174), when the sub-interval of length `w` that begins at `x` is to
follow: the exact base grows by `x`. -/
structure Rce.Added (x w : Nat) (r r' : Rce) : Prop where
  ready : r'.Ready
  range : r'.enc.range = r.enc.range
  active : r'.enc.active = r.enc.active
  value : r'.codeValue = r.codeValue + x
  length : r'.stream.length = r.stream.length
  port : r.sink.Grown r'.sink
  safe : r'.enc.cacheValid = false ∨ r'.enc.cache = 0xFF#8 → r'.enc.low.toNat + w ≤ 2 ^ 32

theorem Rce.add_spec {x : Word} {w : Nat} {r : Rce} (h : r.Ready) (hw : 1 ≤ w)
    (hx : x.toNat + w ≤ 2 ^ 32)
    (hs : r.enc.cacheValid = false ∨ r.enc.cache = 0xFF#8 → r.enc.low.toNat + x.toNat + w ≤ 2 ^ 32) :
    r.Ends (r.add x) (Rce.Added x.toNat w r) := by
  have hl := r.enc.low.isLt
  unfold Rce.add carry32
  dsimp only
  split_ifs with hc
  · simp only [decide_eq_true_eq] at hc
    have hv : r.enc.cacheValid = true := by
      by_contra hv
      have := hs (.inl (by simpa using hv))
      omega
    have hff : r.enc.cache ≠ 0xFF#8 := fun he => by have := hs (.inr he); omega
    change Rce.Ends { r with enc := { r.enc with low := r.enc.low + x } } _ _
    refine (Rce.carry_spec (r := { r with enc := { r.enc with low := r.enc.low + x } })
      ⟨h.room, h.stage⟩ hv hff).mono fun r1 h1 => ?_
    have hlow : r1.enc.low.toNat + 2 ^ 32 = r.enc.low.toNat + x.toNat := by
      rw [h1.low]
      simp only [BitVec.toNat_add]
      omega
    have hst : Rce.stream { r with enc := { r.enc with low := r.enc.low + x } } = r.stream := rfl
    exact { ready := h1.ready, range := h1.range, active := h1.active
            value := by
              unfold Rce.codeValue
              rw [h1.number, hst]
              omega
            length := by rw [h1.length, hst]
            port := h1.port
            safe := fun _ => by omega }
  · simp only [decide_eq_true_eq, not_le] at hc
    have hlow : (r.enc.low + x).toNat = r.enc.low.toNat + x.toNat := by
      simp only [BitVec.toNat_add]
      omega
    refine Rce.Ends.ok ?_
    exact { ready := ⟨h.room, h.stage⟩, range := rfl, active := rfl
            value := by
              show bigEndian r.stream * 2 ^ 32 + (r.enc.low + x).toNat = _
              rw [hlow]
              unfold Rce.codeValue
              omega
            length := rfl
            port := Sink.Grown.refl _
            safe := fun hc' => by
              show (r.enc.low + x).toNat + w ≤ _
              have := hs hc'
              omega }

/-- The shifts that bring the interval length up to 2^24 (42_range_enc.md R178). -/
structure Rce.Renormed (r r' : Rce) : Prop where
  ready : r'.Ready
  active : r'.enc.active = r.enc.active
  turns : ∃ j, r'.codeValue = r.codeValue * 256 ^ j ∧ r'.enc.range.toNat = r.enc.range.toNat * 256 ^ j ∧
    r'.stream.length = r.stream.length + j ∧ ∀ i, i < j → r.enc.range.toNat * 256 ^ i < 2 ^ 24
  range : 2 ^ 24 ≤ r'.enc.range.toNat
  safe : r'.enc.CarrySafe
  port : r.sink.Grown r'.sink
  valid : r.enc.range.toNat < 2 ^ 24 → r'.enc.cacheValid = true

/-- One turn: the top byte of `low` goes out, and everything is worth 256 times as much. -/
theorem Rce.turn_spec {r : Rce} (h : r.Ready) (hs : r.enc.CarrySafe) (h24 : r.enc.range.toNat < 2 ^ 24) :
    r.Ends ((r.shiftOut r.topByte).bind fun _ r1 => .ok () r1.shiftLeft) fun r' =>
      r'.Ready ∧ r'.enc.active = r.enc.active ∧ r'.codeValue = r.codeValue * 256 ∧
        r'.enc.range.toNat = r.enc.range.toNat * 256 ∧ r'.stream.length = r.stream.length + 1 ∧
        r'.enc.CarrySafe ∧ r.sink.Grown r'.sink ∧ r'.enc.cacheValid = true := by
  have hl := r.enc.low.isLt
  have ht : r.topByte.toNat = r.enc.low.toNat / 2 ^ 24 := by
    simp only [Rce.topByte, BitVec.extractLsb'_toNat, Nat.shiftRight_eq_div_pow]
    omega
  refine (Rce.shiftOut_spec r.topByte h).bind (fun r' hp => hp.port.accepting) fun r1 h1 => ?_
  refine Rce.Ends.ok ?_
  have hlow : (r1.enc.low <<< 8).toNat = r.enc.low.toNat % 2 ^ 24 * 256 := by
    rw [h1.low]
    simp only [BitVec.toNat_shiftLeft, Nat.shiftLeft_eq]
    omega
  have hrange : (r1.enc.range <<< 8).toNat = r.enc.range.toNat * 256 := by
    rw [h1.range]
    simp only [BitVec.toNat_shiftLeft, Nat.shiftLeft_eq]
    omega
  have hst : r1.shiftLeft.stream = r1.stream := rfl
  refine ⟨⟨h1.ready.room, h1.ready.stage⟩, h1.active, ?_, hrange, ?_, ?_, h1.port, h1.valid⟩
  · show bigEndian r1.shiftLeft.stream * 2 ^ 32 + (r1.enc.low <<< 8).toNat = _
    rw [hst, h1.stream, hlow, bigEndian_append]
    simp only [bigEndian_cons, bigEndian_nil, List.length_nil, List.length_singleton, ht, Rce.codeValue]
    omega
  · rw [hst, h1.stream]; simp
  · intro hc
    have hc1 : r1.enc.cache = 0xFF#8 := by
      rcases hc with hc | hc
      · have : r1.enc.cacheValid = false := hc
        simp [h1.valid] at this
      · exact hc
    show (r1.enc.low <<< 8).toNat + (r1.enc.range <<< 8).toNat ≤ _
    rw [hlow, hrange]
    obtain ⟨h2, h3⟩ := h1.cache hc1
    have := hs h3
    have h4 : r.enc.low.toNat / 2 ^ 24 = 255 := by rw [← ht, h2]; rfl
    omega

theorem Rce.renormTurns_spec {fuel : Nat} {r : Rce} (h : r.Ready) (hs : r.enc.CarrySafe)
    (h24 : r.enc.range.toNat < 2 ^ 24) (hf : 2 ^ 24 ≤ r.enc.range.toNat * 256 ^ fuel) :
    r.Ends (Rce.renormTurns fuel r) (Rce.Renormed r) := by
  induction fuel generalizing r with
  | zero => simp at hf; omega
  | succ fuel ih =>
    have e : Rce.renormTurns (fuel + 1) r =
        ((r.shiftOut r.topByte).bind fun _ r1 => .ok () r1.shiftLeft).bind fun _ r1 =>
          if Config.top ≤ r1.enc.range.toNat then .ok () r1 else Rce.renormTurns fuel r1 := by
      rw [Rce.renormTurns]
      cases r.shiftOut r.topByte <;> rfl
    rw [e]
    refine (Rce.turn_spec h hs h24).bind (fun r' hp => hp.2.2.2.2.2.2.1.accepting) fun r1 h1 => ?_
    obtain ⟨a1, a2, a3, a4, a5, a6, a7, a8⟩ := h1
    simp only [Config.top]
    split_ifs with hd
    · refine Rce.Ends.ok ⟨a1, a2, ⟨1, by rw [a3, pow_one], by rw [a4, pow_one], a5, ?_⟩, hd, a6, a7,
        fun _ => a8⟩
      intro i hi
      have : i = 0 := by omega
      subst this
      simpa using h24
    · refine (ih a1 a6 (by omega) (by rw [a4, Nat.mul_assoc, ← pow_succ']; exact hf)).mono
        fun r2 h2 => ?_
      obtain ⟨b1, b2, ⟨j, c1, c2, c3, c4⟩, b4, b5, b6, b7⟩ := h2
      refine ⟨b1, b2.trans a2, ⟨j + 1, ?_, ?_, by omega, ?_⟩, b4, b5, a7.trans b6, fun _ => b7 (by omega)⟩
      · rw [c1, a3, pow_succ]; ring
      · rw [c2, a4, pow_succ]; ring
      · intro i hi
        rcases i with _ | i
        · simpa using h24
        · have := c4 i (by omega)
          rw [a4] at this
          rw [pow_succ', ← Nat.mul_assoc]
          exact this

/-- `if range < TOP: enc_renorm()`. -/
theorem Rce.renormIfSmall_spec {r : Rce} (h : r.Ready) (hs : r.enc.CarrySafe) (hw : 1 ≤ r.enc.range.toNat) :
    r.Ends r.renormIfSmall (Rce.Renormed r) := by
  unfold Rce.renormIfSmall Rce.renorm
  simp only [Config.top]
  split_ifs with h24
  · exact Rce.renormTurns_spec h hs h24 (by omega)
  · exact Rce.Ends.ok ⟨h, rfl, ⟨0, by simp, by simp, rfl, by simp⟩, by omega, hs, Sink.Grown.refl _,
      fun h' => absurd h' h24⟩

theorem Encoder.Open.ready {r : Rce} (h : r.enc.Open) : r.Ready := ⟨h.room, h.stage⟩

/-- The coding step all coding commands share: go to the sub-interval of length `w` that begins `x`
above the base. -/
theorem Rce.narrow_spec {x len : Word} {r : Rce} (h : r.enc.Open) (hw : 1 ≤ len.toNat)
    (hx : x.toNat + len.toNat ≤ r.enc.range.toNat) :
    r.Ends (r.narrow x len) (Rce.Narrowed x.toNat len.toNat r) := by
  have hr := r.enc.range.isLt
  unfold Rce.narrow
  refine (Rce.add_spec (w := len.toNat) (Encoder.Open.ready h) hw (by omega)
    (fun hc => by have := h.carrySafe hc; omega)).bind (fun r' hp => hp.port.accepting) fun r1 h1 => ?_
  change Rce.Ends (r1.setRange len) _ _
  refine (Rce.renormIfSmall_spec (r := r1.setRange len) ⟨h1.ready.room, h1.ready.stage⟩ h1.safe hw).mono
    fun r2 h2 => ?_
  obtain ⟨b1, b2, ⟨j, c1, c2, c3, c4⟩, b4, b5, b6, b7⟩ := h2
  have hcode : (r1.setRange len).codeValue = r1.codeValue := rfl
  have hlen : (r1.setRange len).stream = r1.stream := rfl
  refine ⟨⟨j, ⟨c2 ▸ b4, c4⟩, ?_, c2, ?_⟩, ⟨?_, b4, b1.room, b1.stage, b5⟩, h1.port.trans b6⟩
  · rw [c1, hcode, h1.value]
  · rw [c3, hlen, h1.length]
  · rw [b2]; show r1.enc.active = true; rw [h1.active]; exact h.active

/-- A 0 bit is the same step with nothing added. -/
theorem Rce.narrow_zero (len : Word) (r : Rce) : r.narrow 0#32 len = (r.setRange len).renormIfSmall := by
  have hl := r.enc.low.isLt
  unfold Rce.narrow Rce.add carry32
  simp only [BitVec.toNat_ofNat, Nat.zero_mod, Nat.add_zero, BitVec.add_zero]
  rw [if_neg (by simpa using hl)]
  rfl

/-- `enc_lit(n, v)` (42_range_enc.md R180). -/
theorem Rce.lit_spec {n v : Nat} {r : Rce} (h : r.enc.Open) (hn : n ≤ 19) (hv : v < 2 ^ n) :
    r.Ends (r.lit n v)
      (Rce.Narrowed (v * (r.enc.range.toNat / 2 ^ n)) (r.enc.range.toNat / 2 ^ n) r) := by
  have hr := r.enc.range.isLt
  have hlen : (r.enc.range >>> n).toNat = r.enc.range.toNat / 2 ^ n := by
    simp [Nat.shiftRight_eq_div_pow]
  have hpow : 2 ^ n ≤ 2 ^ 19 := Nat.pow_le_pow_right (by omega) hn
  have hw : 1 ≤ r.enc.range.toNat / 2 ^ n := by
    rw [Nat.le_div_iff_mul_le (by positivity)]
    have := h.range
    omega
  have hfit : v * (r.enc.range.toNat / 2 ^ n) + r.enc.range.toNat / 2 ^ n ≤ r.enc.range.toNat := by
    have h1 : r.enc.range.toNat / 2 ^ n * 2 ^ n ≤ r.enc.range.toNat := Nat.div_mul_le_self _ _
    nlinarith
  have hx : (word (mul32 v (r.enc.range.toNat / 2 ^ n))).toNat = v * (r.enc.range.toNat / 2 ^ n) := by
    simp only [word, mul32, BitVec.toNat_ofNat]
    omega
  have he : r.lit n v =
      ((r.setRange (r.enc.range >>> n)).add (word (mul32 v (r.enc.range.toNat / 2 ^ n)))).bind
        fun _ r2 => r2.renormIfSmall := by
    simp only [Rce.lit, Rce.setRange, hlen]
  rw [he]
  change Rce.Ends (r.setRange (r.enc.range >>> n)) _ _
  refine (Rce.add_spec (r := r.setRange (r.enc.range >>> n)) (w := r.enc.range.toNat / 2 ^ n)
    ⟨h.room, h.stage⟩ hw (by rw [hx]; omega) (fun hc => by
      have := h.carrySafe hc
      rw [hx]
      show r.enc.low.toNat + _ + _ ≤ _
      omega)).bind (fun r' hp => hp.port.accepting) fun r1 h1 => ?_
  have hr1 : r1.enc.range.toNat = r.enc.range.toNat / 2 ^ n := by
    rw [h1.range]; exact hlen
  refine (Rce.renormIfSmall_spec (r := r1) h1.ready (fun hc => by rw [hr1]; exact h1.safe hc)
    (by rw [hr1]; exact hw)).mono fun r2 h2 => ?_
  obtain ⟨b1, b2, ⟨j, c1, c2, c3, c4⟩, b4, b5, b6, b7⟩ := h2
  have hcode : (r.setRange (r.enc.range >>> n)).codeValue = r.codeValue := rfl
  have hst : (r.setRange (r.enc.range >>> n)).stream = r.stream := rfl
  rw [hr1] at c2 c4
  refine ⟨⟨j, ⟨c2 ▸ b4, c4⟩, ?_, c2, ?_⟩, ⟨?_, b4, b1.room, b1.stage, b5⟩, h1.port.trans b6⟩
  · rw [c1, h1.value, hcode, hx]
  · rw [c3, h1.length, hst]
  · rw [b2, h1.active]; exact h.active

/-! ## Literals -/

theorem Rce.CodesLiterals.port {ls : List (Nat × Nat)} {r r' : Rce} (h : Rce.CodesLiterals ls r r') :
    r.sink.Grown r'.sink := by
  induction ls generalizing r with
  | nil => rw [show r' = r from h]; exact Sink.Grown.refl _
  | cons l ls ih => obtain ⟨r1, h1, h2⟩ := h; exact h1.port.trans (ih h2)

theorem Rce.CodesLiterals.opened {ls : List (Nat × Nat)} {r r' : Rce} (h : Rce.CodesLiterals ls r r')
    (ho : r.enc.Open) : r'.enc.Open := by
  induction ls generalizing r with
  | nil => rw [show r' = r from h]; exact ho
  | cons l ls ih => obtain ⟨r1, h1, h2⟩ := h; exact ih h2 h1.opened

/-- The body of `ENC.BITS` (42_range_enc.md R179). -/
theorem Rce.bits_spec {n v : Nat} {r : Rce} (h : r.enc.Open) (hn : n ≤ 32) (hv : v < 2 ^ n) :
    r.Ends (r.bits n v) (Rce.CodesLiterals (literalParts n v) r) := by
  unfold Rce.bits literalParts
  simp only [Config.litSplit, Config.halfBits]
  split_ifs with hs
  · have hlow : half v 0 = v % 2 ^ 16 := by simp [half]
    have hhigh : v / 2 ^ 16 < 2 ^ (n - 16) := by
      rw [Nat.div_lt_iff_lt_mul (by positivity), ← pow_add]
      rwa [Nat.sub_add_cancel (by omega)]
    rw [hlow]
    refine (Rce.lit_spec h (by omega) (Nat.mod_lt _ (by positivity))).bind
      (fun r' hp => hp.port.accepting) fun r1 h1 => ?_
    exact (Rce.lit_spec h1.opened (by omega) hhigh).mono fun r2 h2 => ⟨r1, h1, r2, h2, rfl⟩
  · exact (Rce.lit_spec h (by omega) hv).mono fun r1 h1 => ⟨r1, h1, rfl⟩

/-- Half-words coded one after another (42_range_enc.md R182, R183). -/
theorem Rce.halves_spec {hs : List Nat} {r : Rce} (h : r.enc.Open) (hh : ∀ x ∈ hs, x < 2 ^ 16) :
    r.Ends (Rce.halves hs r) (Rce.CodesLiterals (hs.map fun x => (16, x)) r) := by
  induction hs generalizing r with
  | nil => exact Rce.Ends.ok rfl
  | cons x hs ih =>
    simp only [List.mem_cons, forall_eq_or_imp] at hh
    refine (Rce.lit_spec (n := 16) h (by omega) hh.1).bind (fun r' hp => hp.port.accepting)
      fun r1 h1 => ?_
    exact (ih h1.opened hh.2).mono fun r2 h2 => ⟨r1, h1, h2⟩

theorem half_lt (v i : Nat) : half v i < 2 ^ 16 := Nat.mod_lt _ (by positivity)

theorem halfParts_two (v : Nat) : [half v 0, half v 1].map (fun x => (16, x)) = halfParts 2 v := by
  simp [half, halfParts]

theorem halfParts_four (v : Nat) :
    [half v 0, half v 1, half v 2, half v 3].map (fun x => (16, x)) = halfParts 4 v := by
  simp [half, halfParts, Nat.div_div_eq_div_mul]

/-! ## Symbols and bits -/

theorem SymModel.lower_toNat {m : SymModel} (h : m.Wf) {v : Nat} (hv : v < m.n) (len : Word) :
    (m.lower v len).toNat = m.partLow v len.toNat := by
  have hlen := len.isLt
  have h1 : len.toNat / 2 ^ 15 * 2 ^ 15 ≤ len.toNat := Nat.div_mul_le_self _ _
  have h2 : m.distAt v ≤ m.distAt (m.n - 1) := by
    rcases Nat.lt_or_ge v (m.n - 1) with h5 | h5
    · exact le_of_lt (h.rises h5 (by omega))
    · rw [show v = m.n - 1 by omega]
  have h3 := h.last
  simp only [SymModel.lower, SymModel.partLow, word, Config.dmShift, BitVec.toNat_ofNat]
  rw [Nat.mod_eq_of_lt]
  generalize len.toNat / 2 ^ 15 = L at *
  nlinarith

theorem SymModel.upper_toNat {m : SymModel} (h : m.Wf) {v : Nat} (hv : v < m.n) (len : Word) :
    (m.upper v len).toNat = m.partHigh v len.toNat := by
  unfold SymModel.upper SymModel.partHigh
  have := h.alphabet
  by_cases hl : v + 1 = m.n
  · rw [if_pos (by omega), if_pos hl]
  · rw [if_neg (by omega), if_neg hl]
    exact SymModel.lower_toNat h (by omega) len

theorem SymModel.part_word {m : SymModel} (h : m.Wf) {v : Nat} (hv : v < m.n) {len : Word}
    (hl : 2 ^ 24 ≤ len.toNat) :
    (m.upper v len - m.lower v len).toNat = m.partLen v len.toNat := by
  have h1 := SymModel.part_inside h hv hl
  rw [BitVec.toNat_sub_of_le, SymModel.upper_toNat h hv, SymModel.lower_toNat h hv]
  · rfl
  · rw [BitVec.le_def, SymModel.upper_toNat h hv, SymModel.lower_toNat h hv]
    omega

/-- The body of `ENC.SYM` (42_range_enc.md R176). -/
theorem Rce.sym_spec {m : SymModel} (hm : m.Wf) {v : Nat} (hv : v < m.n) {r : Rce} (h : r.enc.Open) :
    r.Ends (r.sym v m) fun p => Rce.CodesSymbol m v r p.1 ∧ p.2 = m.learn v := by
  have h1 := SymModel.part_inside hm hv h.range
  have hlow := SymModel.lower_toNat hm hv r.enc.range
  have hlen := SymModel.part_word hm hv h.range
  unfold Rce.sym
  dsimp only
  refine Rce.Ends.bind_at (σ := Rce × SymModel) (p := fun p => Rce.CodesSymbol m v r p.1 ∧ p.2 = m)
    Prod.fst ?_ (fun t ht => ht.1.port.accepting) fun t ht => ?_
  · refine (Rce.narrow_spec h ?_ ?_).within fun r1 h1 => ⟨?_, rfl⟩
    · rw [hlen]; unfold SymModel.partLen; omega
    · rw [hlen, hlow]; unfold SymModel.partLen; omega
    · rw [hlen, hlow] at h1; exact h1
  · exact Rce.Ends.ok ⟨ht.1, by rw [ht.2]⟩

theorem BinModel.split_toNat {m : BinModel} (h : m.p0 ≤ 8191) (len : Word) :
    (m.split len).toNat = m.p0 * (len.toNat / 2 ^ 13) := by
  have hlen := len.isLt
  have h1 : len.toNat / 2 ^ 13 * 2 ^ 13 ≤ len.toNat := Nat.div_mul_le_self _ _
  simp only [BinModel.split, word, Config.bmShift, BitVec.toNat_ofNat]
  rw [Nat.mod_eq_of_lt]
  generalize len.toNat / 2 ^ 13 = L at *
  nlinarith

/-- The body of `ENC.BIT` (42_range_enc.md R177). -/
theorem Rce.bit_spec {m : BinModel} (hm : m.Wf) (b : Nat) {r : Rce} (h : r.enc.Open) :
    r.Ends (r.bit b m) fun p => Rce.CodesBit m b r p.1 ∧ p.2 = m.learn b := by
  have h1 := BinModel.split_inside hm.prob h.range
  have hx := BinModel.split_toNat hm.prob.2 r.enc.range
  unfold Rce.bit Rce.CodesBit BinModel.partLow BinModel.partLen BinModel.learn
  dsimp only
  split_ifs with hb
  · refine Rce.Ends.bind_at (σ := Rce × BinModel)
      (p := fun p => Rce.Narrowed 0 (m.p0 * (r.enc.range.toNat / 2 ^ 13)) r p.1 ∧ p.2 = m.countZero)
      Prod.fst ?_ (fun t ht => ht.1.port.accepting) fun t ht => ?_
    · rw [← Rce.narrow_zero]
      refine (Rce.narrow_spec h ?_ ?_).within fun r1 h1 => ⟨?_, rfl⟩
      · rw [hx]; omega
      · rw [hx, BitVec.toNat_ofNat, Nat.zero_mod]; omega
      · rw [hx] at h1; exact h1
    · exact Rce.Ends.ok ⟨ht.1, by rw [ht.2]⟩
  · have hlen : (r.enc.range - m.split r.enc.range).toNat =
        r.enc.range.toNat - m.p0 * (r.enc.range.toNat / 2 ^ 13) := by
      rw [BitVec.toNat_sub_of_le, hx]
      · rw [BitVec.le_def]; omega
    refine Rce.Ends.bind_at (σ := Rce × BinModel)
      (p := fun p => Rce.Narrowed (m.p0 * (r.enc.range.toNat / 2 ^ 13))
        (r.enc.range.toNat - m.p0 * (r.enc.range.toNat / 2 ^ 13)) r p.1 ∧ p.2 = m)
      Prod.fst ?_ (fun t ht => ht.1.port.accepting) fun t ht => ?_
    · refine (Rce.narrow_spec h ?_ ?_).within fun r1 h1 => ⟨?_, rfl⟩
      · rw [hlen]; omega
      · rw [hlen, hx]; omega
      · rw [hlen, hx] at h1; exact h1
    · exact Rce.Ends.ok ⟨ht.1, by rw [ht.2]⟩

/-! ## The end of a chunk -/

/-- Zero bytes shifted out. -/
theorem Rce.pad_spec {n : Nat} {r : Rce} (h : r.Ready) (hv : r.enc.cacheValid = true) :
    r.Ends (Rce.pad n r) fun r' => r'.Ready ∧ r'.enc.low = r.enc.low ∧ r'.enc.range = r.enc.range ∧
      r'.stream = r.stream ++ List.replicate n 0#8 ∧ r.sink.Grown r'.sink ∧
      r'.enc.cacheValid = true := by
  induction n generalizing r with
  | zero => exact Rce.Ends.ok ⟨h, rfl, rfl, by simp, Sink.Grown.refl _, hv⟩
  | succ n ih =>
    refine (Rce.shiftOut_spec 0x00#8 h).bind (fun r' hp => hp.port.accepting) fun r1 h1 => ?_
    refine (ih h1.ready h1.valid).mono fun r2 h2 => ?_
    obtain ⟨b1, b2, b3, b4, b5, b6⟩ := h2
    refine ⟨b1, b2.trans h1.low, b3.trans h1.range, ?_, h1.port.trans b5, b6⟩
    rw [b4, h1.stream, List.append_assoc]; rfl

/-- What `ENC.DONE` has done before the stage is drained: four bytes more in the stream. -/
structure Rce.Padded (r r' : Rce) : Prop where
  ready : r'.Ready
  length : r'.stream.length = r.stream.length + 4
  number : bigEndian r'.stream = r.finalCode
  low : r'.enc.low = word r.finalLow
  range : r'.enc.range = 0x80000000#32
  port : r.sink.Grown r'.sink

theorem Rce.codeValue_div (r : Rce) : r.codeValue / 2 ^ 32 = bigEndian r.stream := by
  have := r.enc.low.isLt
  unfold Rce.codeValue
  omega

theorem Rce.codeValue_mod (r : Rce) : r.codeValue % 2 ^ 32 = r.enc.low.toNat := by
  have := r.enc.low.isLt
  unfold Rce.codeValue
  omega

/-- One leading-bytes step of `ENC.DONE`: add, set the interval length, renormalise, pad. -/
theorem Rce.final_step {x len : Word} {j pad : Nat} {r : Rce} (h : r.enc.Open)
    (hx : x.toNat + len.toNat ≤ r.enc.range.toNat) (hw : 1 ≤ len.toNat)
    (hsmall : len.toNat * 256 ^ (j - 1) < 2 ^ 24) (hj : 1 ≤ j) (hbig : len.toNat * 256 ^ j = 2 ^ 31) :
    r.Ends ((r.add x).bind fun _ r1 => (r1.setRange len).renorm.bind fun _ r2 => r2.pad pad) fun r' =>
      r'.Ready ∧ r'.stream.length = r.stream.length + j + pad ∧
      bigEndian r'.stream = (r.codeValue + x.toNat) * 256 ^ j / 2 ^ 32 * 256 ^ pad ∧
      r'.enc.low.toNat = (r.codeValue + x.toNat) * 256 ^ j % 2 ^ 32 ∧ r'.enc.range.toNat = 2 ^ 31 ∧
      r.sink.Grown r'.sink := by
  have hr := r.enc.range.isLt
  have h24 : len.toNat < 2 ^ 24 := by
    have : 1 ≤ 256 ^ (j - 1) := Nat.one_le_pow _ _ (by omega)
    nlinarith
  refine (Rce.add_spec (w := len.toNat) (Encoder.Open.ready h) hw (by omega)
    (fun hc => by have := h.carrySafe hc; omega)).bind (fun r' hp => hp.port.accepting) fun r1 h1 => ?_
  change Rce.Ends (r1.setRange len) _ _
  refine (Rce.renormTurns_spec (fuel := 3) (r := r1.setRange len) ⟨h1.ready.room, h1.ready.stage⟩
    h1.safe h24 (by show 2 ^ 24 ≤ len.toNat * 256 ^ 3; omega)).bind
    (fun r' hp => hp.port.accepting) fun r2 h2 => ?_
  obtain ⟨b1, b2, ⟨i, c1, c2, c3, c4⟩, b4, b5, b6, b7⟩ := h2
  have hcode : (r1.setRange len).codeValue = r1.codeValue := rfl
  have hst : (r1.setRange len).stream = r1.stream := rfl
  have hrange : (r1.setRange len).enc.range = len := rfl
  rw [hrange] at c2 c4 b7
  have hij : i = j := by
    rcases Nat.lt_trichotomy i j with hlt | heq | hgt
    · have h3 : len.toNat * 256 ^ i ≤ len.toNat * 256 ^ (j - 1) :=
        Nat.mul_le_mul_left _ (Nat.pow_le_pow_right (by omega) (by omega))
      omega
    · exact heq
    · have := c4 j hgt
      omega
  subst hij
  rw [hcode, h1.value] at c1
  rw [hst, h1.length] at c3
  refine (Rce.pad_spec (n := pad) b1 (b7 h24)).mono fun r3 h3 => ?_
  obtain ⟨d1, d2, d3, d4, d5, d6⟩ := h3
  refine ⟨d1, ?_, ?_, ?_, ?_, h1.port.trans (b6.trans d5)⟩
  · rw [d4, List.length_append, c3, List.length_replicate]
  · rw [d4, bigEndian_append, bigEndian_replicate_zero, List.length_replicate, ← c1, Rce.codeValue_div,
      Nat.add_zero]
  · rw [d2, ← c1, Rce.codeValue_mod]
  · rw [d3, c2, hbig]

theorem Rce.finalBytes_spec {r : Rce} (h : r.enc.Open) : r.Ends r.finalBytes (Rce.Padded r) := by
  have hr := h.range
  have hl := r.enc.low.isLt
  have hmod := Rce.codeValue_mod r
  unfold Rce.finalBytes
  simp only [Config.top]
  split_ifs with h25
  · refine (Rce.final_step (x := 0x01000000#32) (len := 0x00800000#32) (j := 1) (pad := 3) h
      (by simp; omega) (by simp) (by simp) (by simp) (by simp)).mono fun r' h' => ?_
    obtain ⟨a1, a2, a3, a4, a5, a6⟩ := h'
    have hx : (0x01000000#32).toNat = 2 ^ 24 := rfl
    rw [hx] at a3 a4
    refine ⟨a1, by omega, ?_, ?_, BitVec.eq_of_toNat_eq a5, a6⟩
    · rw [a3, Rce.finalCode, if_pos (by omega)]; omega
    · apply BitVec.eq_of_toNat_eq
      rw [a4, Rce.finalLow, if_pos (by omega)]
      simp only [word, BitVec.toNat_ofNat]
      omega
  · refine (Rce.final_step (x := 0x00800000#32) (len := 0x00008000#32) (j := 2) (pad := 2) h
      (by simp; omega) (by simp) (by simp) (by simp) (by simp)).mono fun r' h' => ?_
    obtain ⟨a1, a2, a3, a4, a5, a6⟩ := h'
    have hx : (0x00800000#32).toNat = 2 ^ 23 := rfl
    rw [hx] at a3 a4
    refine ⟨a1, by omega, ?_, ?_, BitVec.eq_of_toNat_eq a5, a6⟩
    · rw [a3, Rce.finalCode, if_neg (by omega)]; omega
    · apply BitVec.eq_of_toNat_eq
      rw [a4, Rce.finalLow, if_neg (by omega)]
      simp only [word, BitVec.toNat_ofNat]
      omega

/-- The stage drained (42_range_enc.md R184). -/
theorem Rce.drain_spec {r : Rce} (h : r.Ready) :
    r.Ends r.drain fun r' =>
      r'.enc = { r.enc with cache := 0#8, cacheValid := false, pending := 0, outBuf := r'.enc.outBuf } ∧
      r'.sink.bytes ++ r'.enc.outBuf = r.stream ∧ r'.enc.outBuf.length < 4096 ∧
      r.sink.Grown r'.sink := by
  have hp : r.Ends (if r.enc.cacheValid then
      r.putBytes (r.enc.cache :: List.replicate r.enc.pending 0xFF#8) else .ok () r)
      (Rce.Put r.enc.staged r) := by
    unfold Encoder.staged
    rcases r.enc.cacheValid with _ | _
    · exact Rce.Ends.ok (Rce.Put.nil h.room)
    · exact Rce.putBytes_spec _ h.room
  refine hp.bind (fun r' hp => hp.port.accepting) fun r1 h1 => ?_
  refine Rce.Ends.ok ⟨?_, h1.bytes, h1.room, h1.port⟩
  show { r1.enc with cache := 0#8, cacheValid := false, pending := 0 } = _
  rw [h1.enc]

/-- The last burst of a chunk (42_range_enc.md R184). -/
theorem Rce.close_spec {r : Rce} (h : r.enc.outBuf.length < 4096) :
    r.Ends r.close fun r' =>
      r'.enc = { r.enc with outBuf := [], active := false } ∧
      (∃ last, r'.sink.bursts = r.sink.bursts ++ last ∧ last.length ≤ 1 ∧
        ∀ b ∈ last, 1 ≤ b.length ∧ b.length ≤ 4095) ∧
      r'.sink.bytes = r.sink.bytes ++ r.enc.outBuf ∧ r'.sink.uncounted = r.sink.uncounted ∧
      (r.sink.Accepting → r'.sink.Accepting) := by
  unfold Rce.close
  split_ifs with he
  · have he' := List.eq_nil_of_length_eq_zero he
    refine Rce.Ends.ok ⟨?_, ⟨[], by simp, by simp, by simp⟩, by simp [he'], rfl, id⟩
    show { r.enc with active := false } = _
    rw [← he']
  · unfold Rce.flush
    rcases Sink.write_cases r.enc.outBuf r.sink with ⟨k, h1, h2, h3, h4⟩ | ⟨k, h1, h2⟩
    · left
      refine ⟨{ enc := { r.enc with outBuf := [], active := false }, sink := k }, by simp [h1], rfl,
        ⟨[r.enc.outBuf], h2, by simp, ?_⟩, by simp [Sink.bytes, h2], h3, h4⟩
      simp only [List.mem_singleton, forall_eq]
      omega
    · right
      exact ⟨{ r with sink := k }, by simp [h1], h2⟩

/-- The body of `ENC.DONE` (42_range_enc.md R184). -/
theorem Rce.done_spec {r : Rce} (h : r.enc.Open) : r.Ends r.done (Rce.Finished r) := by
  unfold Rce.done
  refine (Rce.finalBytes_spec h).bind (fun r' hp => hp.port.accepting) fun r1 h1 => ?_
  refine (Rce.drain_spec h1.ready).bind (fun r' hp => hp.2.2.2.accepting) fun r2 h2 => ?_
  obtain ⟨b1, b2, b3, b4⟩ := h2
  refine (Rce.close_spec b3).mono fun r3 h3 => ?_
  obtain ⟨c1, ⟨last, c2, c3, c4⟩, c5, c6, c7⟩ := h3
  obtain ⟨⟨more, d1, d2⟩, d3, d4⟩ := h1.port.trans b4
  refine ⟨?_, ⟨more, last, by rw [c2, d1], d2, c3, c4⟩, c6.trans d3, fun ha => c7 (d4 ha), ?_⟩
  · rw [c5, b2]; exact ⟨h1.length, h1.number⟩
  · rw [c1, b1]; simp only [h1.low, h1.range]

end Sys2Proof.Machine
end

