-- ==== Sys2Proof/Laws/Rcd.lean ====
section
/-! SUPPORT. The laws of the range decoder: what each micro-operation and each decoding step can do, said
once, and when each completes. -/

namespace Sys2Proof.Machine

/-! ## The interval -/

theorem needs_unique {w i j : Nat} (hi : Needs w i) (hj : Needs w j) : i = j := by
  rcases Nat.lt_trichotomy i j with h | h | h
  · have := hj.2 i h; have := hi.1; omega
  · exact h
  · have := hi.2 j h; have := hj.1; omega

theorem needs_zero {w : Nat} (h : 2 ^ 24 ≤ w) : Needs w 0 := ⟨by simpa using h, by simp⟩

theorem needs_succ {w j : Nat} (h : w < 2 ^ 24) : Needs w (j + 1) ↔ Needs (w * 256) j := by
  have e : w * 256 ^ (j + 1) = w * 256 * 256 ^ j := by rw [pow_succ', ← Nat.mul_assoc]
  unfold Needs
  rw [e]
  constructor
  · rintro ⟨h1, h2⟩
    refine ⟨h1, fun i hi => ?_⟩
    have := h2 (i + 1) (by omega)
    rwa [pow_succ', ← Nat.mul_assoc] at this
  · rintro ⟨h1, h2⟩
    refine ⟨h1, fun i hi => ?_⟩
    rcases i with _ | i
    · simpa using h
    · rw [pow_succ', ← Nat.mul_assoc]; exact h2 i (by omega)

/-- An interval length that is not 0 needs three bytes at most. -/
theorem needs_exists {w : Nat} (h : 1 ≤ w) : ∃ j, j ≤ 3 ∧ Needs w j := by
  by_cases h0 : 2 ^ 24 ≤ w
  · exact ⟨0, by omega, needs_zero h0⟩
  by_cases h1 : 2 ^ 24 ≤ w * 256
  · exact ⟨1, by omega, (needs_succ (by omega)).mpr (needs_zero h1)⟩
  by_cases h2 : 2 ^ 24 ≤ w * 256 * 256
  · exact ⟨2, by omega, (needs_succ (by omega)).mpr ((needs_succ (by omega)).mpr (needs_zero h2))⟩
  · exact ⟨3, by omega, (needs_succ (by omega)).mpr ((needs_succ (by omega)).mpr
      ((needs_succ (by omega)).mpr (needs_zero (by omega))))⟩

theorem needs_lt {w j : Nat} (h : Needs w j) (hw : w < 2 ^ 32) : w * 256 ^ j < 2 ^ 32 := by
  rcases j with _ | j
  · simpa using hw
  · have := h.2 j (by omega)
    rw [pow_succ, ← Nat.mul_assoc]
    omega

@[simp] theorem word_toNat (x : Word) : word x.toNat = x := by simp [word]

/-- The registers and the source after bytes are shifted in behind a code value and a length. -/
def Rcd.shifted (v w : Nat) (bs : List Byte) (rest : List SrcAnswer) (r : Rcd) : Rcd :=
  { dec :=
      { dvalue := word (v * 256 ^ bs.length + bigEndian bs)
        drange := word (w * 256 ^ bs.length)
        active := r.dec.active }
    src := { answers := rest, count := r.src.count + BitVec.ofNat 64 bs.length } }

theorem shifted_value_lt {v w : Nat} {bs : List Byte} (h : v < w) :
    v * 256 ^ bs.length + bigEndian bs < w * 256 ^ bs.length := by
  have h1 := bigEndian_lt bs
  have h2 : (v + 1) * 256 ^ bs.length ≤ w * 256 ^ bs.length := Nat.mul_le_mul_right _ h
  rw [Nat.add_mul] at h2
  omega

theorem Rcd.shifted_narrowed {x w : Nat} {bs : List Byte} {r r0 : Rcd} {rest : List SrcAnswer}
    (hw : w < 2 ^ 32) (hn : Needs w bs.length) (hg : r.src.Gives bs rest) (hx : x ≤ r.dec.dvalue.toNat)
    (hv : r.dec.dvalue.toNat < x + w) (hr : r0.src.count = r.src.count)
    (ha : r0.dec.active = r.dec.active) :
    Rcd.Narrowed x w r (Rcd.shifted (r.dec.dvalue.toNat - x) w bs rest r0) := by
  have h1 := needs_lt hn hw
  have h2 : (r.dec.dvalue.toNat - x) * 256 ^ bs.length + bigEndian bs < w * 256 ^ bs.length :=
    shifted_value_lt (by omega)
  refine ⟨bs, hn, hg, by rw [← hr]; rfl, ?_, ?_, ha⟩
  · show (word _).toNat = _
    simp only [word, BitVec.toNat_ofNat]
    omega
  · show (word _).toNat = _
    simp only [word, BitVec.toNat_ofNat]
    omega

/-- Everything the turns of `dec_renorm` can do (43_range_dec.md R202): shift in the bytes the length
needs, or a fault of the source. -/
theorem Rcd.renormTurns_cases {d : Decoder} (hv : d.dvalue.toNat < d.drange.toNat)
    (h24 : d.drange.toNat < 2 ^ 24) (answers : List SrcAnswer) (n : Dword) :
    (∃ (bs : List Byte) (rest : List SrcAnswer), answers = bs.map SrcAnswer.byte ++ rest ∧ Needs d.drange.toNat bs.length ∧
      Rcd.renormTurns answers n d = .ok () (Rcd.shifted d.dvalue.toNat d.drange.toNat bs rest
        { dec := d, src := { answers := answers, count := n } })) ∨
    (∃ f r', Rcd.renormTurns answers n d = .raised f r' ∧ (f = .unexpectedEndOfInput ∨ f = .ioError) ∧
      ∀ (bs : List Byte) (rest : List SrcAnswer), answers = bs.map SrcAnswer.byte ++ rest → ¬ Needs d.drange.toNat bs.length) := by
  have hzero : ¬ Needs d.drange.toNat 0 := fun h => by have := h.1; simp at this; omega
  induction answers generalizing d n with
  | nil =>
    right
    refine ⟨_, _, rfl, .inl rfl, fun bs rest h => ?_⟩
    have : bs = [] := by
      rcases bs with _ | ⟨b, bs⟩
      · rfl
      · simp at h
    subst this
    exact hzero
  | cons a answers ih =>
    have hstop : ∀ (a : SrcAnswer), (∀ b, a ≠ .byte b) → ∀ (bs : List Byte) (rest : List SrcAnswer),
        a :: answers = bs.map SrcAnswer.byte ++ rest → ¬ Needs d.drange.toNat bs.length := by
      intro a ha bs rest h
      rcases bs with _ | ⟨b, bs⟩
      · exact hzero
      · simp only [List.map_cons, List.cons_append, List.cons.injEq] at h
        exact absurd h.1 (ha b)
    match a with
    | .endOfInput => exact .inr ⟨_, _, rfl, .inl rfl, hstop _ (by simp)⟩
    | .ioError => exact .inr ⟨_, _, rfl, .inr rfl, hstop _ (by simp)⟩
    | .byte b =>
      have hb := b.isLt
      have hval : (d.shiftIn b).dvalue.toNat = d.dvalue.toNat * 256 + b.toNat := by
        simp only [Decoder.shiftIn, BitVec.toNat_add, BitVec.toNat_shiftLeft, Nat.shiftLeft_eq,
          BitVec.truncate_eq_setWidth, BitVec.toNat_setWidth]
        omega
      have hrange : (d.shiftIn b).drange.toNat = d.drange.toNat * 256 := by
        simp only [Decoder.shiftIn, BitVec.toNat_shiftLeft, Nat.shiftLeft_eq]
        omega
      have hact : (d.shiftIn b).active = d.active := rfl
      rw [Rcd.renormTurns]
      simp only [Config.top]
      split_ifs with hd
      · left
        refine ⟨[b], answers, by simp, ?_, ?_⟩
        · rw [List.length_singleton, needs_succ h24]
          exact needs_zero (by omega)
        · simp only [Rcd.shifted, List.length_singleton, pow_one, bigEndian_cons, List.length_nil,
            bigEndian_nil, pow_zero, Nat.mul_one, Nat.add_zero]
          rw [← hval, ← hrange, word_toNat, word_toNat]
          rfl
      · have ih' := ih (d := d.shiftIn b) (by omega) (by omega) (n + 1#64)
          (fun h => by have := h.1; simp at this; omega)
        rcases ih' with ⟨bs, rest, h1, h2, h3⟩ | ⟨f, r', h1, h2, h3⟩
        · left
          refine ⟨b :: bs, rest, by simp [h1], ?_, ?_⟩
          · rw [List.length_cons, needs_succ h24, ← hrange]; exact h2
          · rw [h3]
            simp only [Rcd.shifted, List.length_cons, bigEndian_cons, hval, hrange, hact]
            congr 2
            · congr 1
              · congr 1; rw [pow_succ]; ring
              · congr 1; rw [pow_succ]; ring
            · congr 1
              rw [Nat.add_comm bs.length 1, BitVec.ofNat_add, BitVec.add_assoc]
        · right
          refine ⟨f, r', h1, h2, fun bs rest h => ?_⟩
          rcases bs with _ | ⟨b', bs⟩
          · exact hzero
          · simp only [List.map_cons, List.cons_append, List.cons.injEq] at h
            rw [List.length_cons, needs_succ h24, ← hrange]
            exact h3 bs rest h.2

/-- The decoding step all decoding commands share (43_range_dec.md R202): `x` taken off the code
value, the length set to `len`, and the bytes it needs shifted in. -/
theorem Rcd.narrow_cases {x : Nat} {v len : Word} {r : Rcd} (hx : x ≤ r.dec.dvalue.toNat)
    (hv : v.toNat = r.dec.dvalue.toNat - x) (hlt : v.toNat < len.toNat) :
    (∃ bs rest, r.src.Gives bs rest ∧ Needs len.toNat bs.length ∧
      (r.setInterval v len).renormIfSmall = .ok () (Rcd.shifted v.toNat len.toNat bs rest r) ∧
      Rcd.Narrowed x len.toNat r (Rcd.shifted v.toNat len.toNat bs rest r)) ∨
    (∃ f r', (r.setInterval v len).renormIfSmall = .raised f r' ∧
      (f = .unexpectedEndOfInput ∨ f = .ioError) ∧
      ∀ bs rest, r.src.Gives bs rest → ¬ Needs len.toNat bs.length) := by
  have hlen := len.isLt
  have key : ∀ bs rest, Needs len.toNat bs.length → r.src.Gives bs rest →
      Rcd.Narrowed x len.toNat r (Rcd.shifted v.toNat len.toNat bs rest r) := by
    intro bs rest hn hg
    rw [hv]
    exact Rcd.shifted_narrowed hlen hn hg hx (by omega) rfl rfl
  unfold Rcd.renormIfSmall
  simp only [Config.top]
  split_ifs with h24
  · unfold Rcd.renorm
    rcases Rcd.renormTurns_cases (d := (r.setInterval v len).dec) hlt h24 r.src.answers r.src.count with
      ⟨bs, rest, h1, h2, h3⟩ | ⟨f, r', h1, h2, h3⟩
    · exact .inl ⟨bs, rest, h1, h2, h3, key bs rest h2 h1⟩
    · exact .inr ⟨f, r', h1, h2, h3⟩
  · left
    have hn : Needs len.toNat ([] : List Byte).length := needs_zero (by
      have : ¬ len.toNat < 16777216 := h24
      omega)
    have hg : r.src.Gives [] r.src.answers := by simp [Source.Gives]
    refine ⟨[], r.src.answers, hg, hn, ?_, key _ _ hn hg⟩
    simp [Rcd.shifted, Rcd.setInterval]

theorem gives_unique {p : Source} {as bs : List Byte} {r1 r2 : List SrcAnswer} (h1 : p.Gives as r1)
    (h2 : p.Gives bs r2) (hl : as.length = bs.length) : as = bs ∧ r1 = r2 := by
  unfold Source.Gives at h1 h2
  rw [h1] at h2
  have h3 := List.append_inj h2 (by simp [hl])
  have hinj : Function.Injective SrcAnswer.byte := by intro a b h; simpa using h
  exact ⟨List.map_injective_iff.mpr hinj h3.1, h3.2⟩

/-- The decoding step completes when the source has the bytes the length needs. -/
theorem Rcd.narrow_gives {v len : Word} {r : Rcd} {bs : List Byte} {rest : List SrcAnswer}
    (hv : v.toNat ≤ r.dec.dvalue.toNat) (hlt : v.toNat < len.toNat) (hg : r.src.Gives bs rest)
    (hn : Needs len.toNat bs.length) :
    (r.setInterval v len).renormIfSmall = .ok () (Rcd.shifted v.toNat len.toNat bs rest r) := by
  rcases Rcd.narrow_cases (x := r.dec.dvalue.toNat - v.toNat) (v := v) (len := len) (r := r) (by omega)
    (by omega) hlt with ⟨bs', rest', h1, h2, h3, h4⟩ | ⟨f, r', h1, h2, h3⟩
  · obtain ⟨e1, e2⟩ := gives_unique h1 hg (needs_unique h2 hn)
    subst e1 e2
    exact h3
  · exact absurd hn (h3 bs rest hg)

/-- The turns of `dec_renorm` where the source stops too early: its fault, with the bytes that came off
the source, and the answer that was no byte (43_range_dec.md R202). -/
theorem Rcd.renormTurns_breaks {d : Decoder} {need : Nat} (hn : Needs d.drange.toNat need) (bs : List Byte)
    (hlt : bs.length < need) {rest : List SrcAnswer} {code : BitVec 8}
    (h : ((rest = [] ∨ rest.head? = some SrcAnswer.endOfInput) ∧ code = 0x07#8) ∨
      (rest.head? = some SrcAnswer.ioError ∧ code = 0x08#8)) (n : Dword) :
    ∃ f r', Rcd.renormTurns (bs.map SrcAnswer.byte ++ rest) n d = .raised f r' ∧ f.code = code ∧
      r'.src = { answers := rest.tail, count := n + BitVec.ofNat 64 bs.length } := by
  induction bs generalizing d need n with
  | nil =>
    rcases h with ⟨rfl | h, rfl⟩ | ⟨h, rfl⟩
    · exact ⟨_, _, rfl, rfl, by simp⟩
    · obtain ⟨_, tail⟩ := List.head?_eq_some_iff.mp h
      subst tail
      exact ⟨_, _, rfl, rfl, by simp⟩
    · obtain ⟨_, tail⟩ := List.head?_eq_some_iff.mp h
      subst tail
      exact ⟨_, _, rfl, rfl, by simp⟩
  | cons b bs ih =>
    obtain ⟨need, rfl⟩ : ∃ k, need = k + 1 := ⟨need - 1, by omega⟩
    have h24 : d.drange.toNat < 2 ^ 24 := by simpa using hn.2 0 (by omega)
    have hrange : (d.shiftIn b).drange.toNat = d.drange.toNat * 256 := by
      simp only [Decoder.shiftIn, BitVec.toNat_shiftLeft, Nat.shiftLeft_eq]
      omega
    rw [needs_succ h24, ← hrange] at hn
    rw [List.length_cons] at hlt
    have hsmall : ¬ Config.top ≤ (d.shiftIn b).drange.toNat := by
      have := hn.2 0 (by omega)
      simp only [Config.top]
      omega
    simp only [List.map_cons, List.cons_append, Rcd.renormTurns, hsmall, if_false]
    obtain ⟨f, r', h1, h2, h3⟩ := ih hn (by omega) (n + 1#64)
    refine ⟨f, r', h1, h2, ?_⟩
    rw [h3, List.length_cons, Nat.add_comm bs.length 1, BitVec.ofNat_add, BitVec.add_assoc]

/-- The decoding step faults as the source does when it lacks a byte the length needs. -/
theorem Rcd.narrow_lacks {v len : Word} {r : Rcd} {code : BitVec 8} {came : Nat}
    (h : r.src.Lacks len.toNat code came) :
    ∃ f r', (r.setInterval v len).renormIfSmall = .raised f r' ∧ f.code = code ∧
      r'.src = { answers := r.src.answers.drop (came + 1), count := r.src.count + BitVec.ofNat 64 came } := by
  obtain ⟨need, hn, hlt, bs, rest, hg, rfl, hb⟩ := h
  have h24 : (r.setInterval v len).dec.drange.toNat < Config.top := by
    simpa [Config.top, Rcd.setInterval] using hn.2 0 (by omega)
  obtain ⟨f, r', h1, h2, h3⟩ :=
    Rcd.renormTurns_breaks (d := (r.setInterval v len).dec) hn bs hlt hb r.src.count
  refine ⟨f, r', ?_, h2, ?_⟩
  · rw [Rcd.renormIfSmall, if_pos h24, ← h1, ← hg]
    rfl
  · rw [h3, hg, List.drop_append, List.drop_eq_nil_of_le (by simp), List.nil_append]
    simp

/-- The step is exact: it leaves one state. -/
theorem Rcd.Narrowed.eq_shifted {x w : Nat} {r r' : Rcd} (h : Rcd.Narrowed x w r r') :
    ∃ bs rest, Needs w bs.length ∧ r.src.Gives bs rest ∧
      r' = Rcd.shifted (r.dec.dvalue.toNat - x) w bs rest r := by
  obtain ⟨bs, h1, h2, h3, h4, h5, h6⟩ := h
  refine ⟨bs, r'.src.answers, h1, h2, ?_⟩
  obtain ⟨⟨dv, dr, a⟩, ⟨ans, cnt⟩⟩ := r'
  simp only at h3 h4 h5 h6
  simp only [Rcd.shifted, ← h4, ← h5, word_toNat, h3, h6]

/-- After the step the code value lies in the interval, and the length is 2^24 at least. -/
theorem Rcd.Narrowed.opened {x w : Nat} {r r' : Rcd} (h : Rcd.Narrowed x w r r')
    (ha : r.dec.active = true) (hv : r.dec.dvalue.toNat < x + w) (hw : 1 ≤ w) :
    r'.dec.Open ∧ r'.dec.dvalue.toNat < r'.dec.drange.toNat := by
  obtain ⟨bs, h1, h2, h3, h4, h5, h6⟩ := h
  have hlt : r'.dec.dvalue.toNat < r'.dec.drange.toNat := by
    rw [h4, h5]; exact shifted_value_lt (by omega)
  exact ⟨⟨h6.trans ha, by rw [h5]; exact h1.1, .inl hlt⟩, hlt⟩

/-! ## Symbols and bits -/

/-- A point of the interval lies in one symbol's part (42_range_enc.md R188). -/
theorem SymModel.part_unique {m : SymModel} (h : m.Wf) {a b len value : Nat} (ha : a < m.n) (hb : b < m.n)
    (h1 : InPart (m.partLow a len) (m.partLen a len) value)
    (h2 : InPart (m.partLow b len) (m.partLen b len) value) : a = b := by
  have key : ∀ {a b : Nat}, a < b → b < m.n →
      InPart (m.partLow a len) (m.partLen a len) value →
      InPart (m.partLow b len) (m.partLen b len) value → False := by
    intro a b hab hb h1 h2
    have h3 : m.distAt (a + 1) ≤ m.distAt b := by
      rcases Nat.lt_or_ge (a + 1) b with h | h
      · exact le_of_lt (‹m.Wf›.rises h hb)
      · rw [show a + 1 = b by omega]
    unfold InPart SymModel.partLen SymModel.partHigh SymModel.partLow at h1 h2
    rw [if_neg (by omega)] at h1
    have h4 : m.distAt (a + 1) * (len / 2 ^ 15) ≤ m.distAt b * (len / 2 ^ 15) :=
      Nat.mul_le_mul_right _ h3
    omega
  rcases Nat.lt_trichotomy a b with hlt | heq | hgt
  · exact absurd (key hlt hb h1 h2) id
  · exact heq
  · exact absurd (key hgt ha h2 h1) id

theorem largestBelow_spec {test : Nat → Bool} (h0 : test 0 = true) {n : Nat} (hn : 1 ≤ n) :
    largestBelow test n < n ∧ test (largestBelow test n) = true ∧
      ∀ k, k < n → test k = true → k ≤ largestBelow test n := by
  induction n with
  | zero => omega
  | succ n ih =>
    rw [largestBelow]
    split_ifs with ht
    · exact ⟨by omega, ht, fun k hk _ => by omega⟩
    · rcases Nat.eq_zero_or_pos n with hz | hz
      · subst hz; exact absurd h0 ht
      · obtain ⟨a, b, c⟩ := ih hz
        refine ⟨by omega, b, fun k hk htk => ?_⟩
        rcases Nat.lt_succ_iff_lt_or_eq.mp hk with h | h
        · exact c k h htk
        · subst h; exact absurd htk ht

/-- The symbol search of 43_range_dec.md R203 finds the symbol whose part holds the code value. -/
theorem SymModel.find_spec {m : SymModel} (h : m.Wf) {d : Decoder} (hv : d.dvalue.toNat < d.drange.toNat) :
    m.find d < m.n ∧
      InPart (m.partLow (m.find d) d.drange.toNat) (m.partLen (m.find d) d.drange.toNat) d.dvalue.toNat := by
  have h0 : decide (m.distAt 0 * (d.drange.toNat / 2 ^ Config.dmShift) ≤ d.dvalue.toNat) = true := by
    rw [h.first]; simp
  have hn := h.alphabet
  obtain ⟨h1, h2, h3⟩ := largestBelow_spec
    (test := fun k => decide (m.distAt k * (d.drange.toNat / 2 ^ Config.dmShift) ≤ d.dvalue.toNat)) h0
    (n := m.n) (by omega)
  change m.find d < m.n at h1
  change ∀ k, k < m.n → _ → k ≤ m.find d at h3
  simp only [decide_eq_true_eq, Config.dmShift] at h2 h3
  change m.distAt (m.find d) * (d.drange.toNat / 2 ^ 15) ≤ d.dvalue.toNat at h2
  refine ⟨h1, h2, ?_⟩
  unfold SymModel.partLen SymModel.partHigh SymModel.partLow
  split_ifs with hl
  · omega
  · have h4 : ¬ m.distAt (m.find d + 1) * (d.drange.toNat / 2 ^ 15) ≤ d.dvalue.toNat := fun h5 => by
      have := h3 (m.find d + 1) (by omega) h5
      omega
    omega

theorem SymModel.find_eq {m : SymModel} (h : m.Wf) {d : Decoder} (hv : d.dvalue.toNat < d.drange.toNat)
    {v : Nat} (hn : v < m.n)
    (hp : InPart (m.partLow v d.drange.toNat) (m.partLen v d.drange.toNat) d.dvalue.toNat) : m.find d = v := by
  obtain ⟨h1, h2⟩ := SymModel.find_spec h hv
  exact SymModel.part_unique h h1 hn h2 hp

/-- How a decoder micro-operation ends: well with `post`, or with one of the three execution faults
(43_range_dec.md R215). It never diverges. -/
def Rcd.Ends {σ α : Type} (m : Run σ α) (post : α → σ → Prop) : Prop :=
  (∃ a t, m = .ok a t ∧ post a t) ∨
    (∃ f t, m = .raised f t ∧ (f = .corruptedStream ∨ f = .unexpectedEndOfInput ∨ f = .ioError))

theorem Rcd.Ends.mono {σ α : Type} {m : Run σ α} {p q : α → σ → Prop} (h : Rcd.Ends m p)
    (hpq : ∀ a t, p a t → q a t) : Rcd.Ends m q := by
  rcases h with ⟨a, t, h1, h2⟩ | h
  · exact .inl ⟨a, t, h1, hpq a t h2⟩
  · exact .inr h

theorem Rcd.Ends.bind {σ α β : Type} {m : Run σ α} {k : α → σ → Run σ β} {p : α → σ → Prop}
    {q : β → σ → Prop} (h : Rcd.Ends m p) (hk : ∀ a t, p a t → Rcd.Ends (k a t) q) :
    Rcd.Ends (m.bind k) q := by
  rcases h with ⟨a, t, h1, h2⟩ | ⟨f, t, h1, h2⟩
  · simpa [h1] using hk a t h2
  · exact .inr ⟨f, t, by simp [h1], h2⟩

theorem Rcd.Ends.within {σ τ α : Type} {m : Run σ α} {p : α → σ → Prop} {q : α → τ → Prop} {g : σ → τ}
    (h : Rcd.Ends m p) (hpq : ∀ a t, p a t → q a (g t)) : Rcd.Ends (m.within g) q := by
  rcases h with ⟨a, t, h1, h2⟩ | ⟨f, t, h1, h2⟩
  · exact .inl ⟨a, g t, by simp [h1], hpq a t h2⟩
  · exact .inr ⟨f, g t, by simp [h1], h2⟩

theorem Rcd.Ends.value {σ α β : Type} {m : Run σ α} {p : α → σ → Prop} {q : β → σ → Prop} {g : α → β}
    (h : Rcd.Ends m p) (hpq : ∀ a t, p a t → q (g a) t) : Rcd.Ends (m.value g) q := by
  rcases h with ⟨a, t, h1, h2⟩ | ⟨f, t, h1, h2⟩
  · exact .inl ⟨g a, t, by simp [h1], hpq a t h2⟩
  · exact .inr ⟨f, t, by simp [h1], h2⟩

theorem Rcd.Ends.of_narrow {x : Nat} {v len : Word} {r : Rcd} (hx : x ≤ r.dec.dvalue.toNat)
    (hv : v.toNat = r.dec.dvalue.toNat - x) (hlt : v.toNat < len.toNat) :
    Rcd.Ends (r.setInterval v len).renormIfSmall fun _ r' => Rcd.Narrowed x len.toNat r r' := by
  rcases Rcd.narrow_cases hx hv hlt with ⟨bs, rest, h1, h2, h3, h4⟩ | ⟨f, r', h1, h2, h3⟩
  · exact .inl ⟨(), _, h3, h4⟩
  · exact .inr ⟨f, r', h1, .inr h2⟩

/-- The interval a symbol's part gives, as the registers hold it. -/
theorem SymModel.part_words {m : SymModel} (h : m.Wf) {v : Nat} (hv : v < m.n) {d : Decoder}
    (hl : 2 ^ 24 ≤ d.drange.toNat)
    (hp : InPart (m.partLow v d.drange.toNat) (m.partLen v d.drange.toNat) d.dvalue.toNat) :
    (d.dvalue - m.lower v d.drange).toNat = d.dvalue.toNat - m.partLow v d.drange.toNat ∧
      (m.upper v d.drange - m.lower v d.drange).toNat = m.partLen v d.drange.toNat := by
  refine ⟨?_, SymModel.part_word h hv hl⟩
  rw [BitVec.toNat_sub_of_le, SymModel.lower_toNat h hv]
  rw [BitVec.le_def, SymModel.lower_toNat h hv]
  exact hp.1

/-- The body of `DEC.SYM` (43_range_dec.md R203). -/
theorem Rcd.sym_spec {m : SymModel} (hm : m.Wf) {r : Rcd} (h : r.dec.Open) :
    Rcd.Ends (r.sym m) fun v p => Rcd.DecodesSymbol m v r p.1 ∧ p.2 = m.learn v ∧ p.1.dec.Open := by
  unfold Rcd.sym
  split_ifs with hin
  · simp only [Decoder.inside, decide_eq_true_eq] at hin
    obtain ⟨h1, h2⟩ := SymModel.find_spec hm hin
    obtain ⟨h3, h4⟩ := SymModel.part_words hm h1 h.range h2
    dsimp only
    refine Rcd.Ends.bind (σ := Rcd × SymModel)
      (p := fun _ p => Rcd.DecodesSymbol m (m.find r.dec) r p.1 ∧ p.2 = m ∧ p.1.dec.Open) ?_ fun _ t ht => ?_
    · refine (Rcd.Ends.of_narrow h2.1 h3 (by rw [h3, h4]; have := h2.2; have := h2.1; omega)).within
        fun _ r1 h5 => ?_
      rw [h4] at h5
      refine ⟨⟨h1, h2, h5⟩, rfl, (h5.opened h.active h2.2 ?_).1⟩
      have := h2.1; have := h2.2; omega
    · exact .inl ⟨_, _, rfl, ht.1, by rw [ht.2.1], ht.2.2⟩
  · exact .inr ⟨_, _, rfl, .inl rfl⟩

/-- `DEC.SYM` completes when the source has the bytes the symbol's part needs. -/
theorem Rcd.sym_gives {m : SymModel} (hm : m.Wf) {r : Rcd} (hl : 2 ^ 24 ≤ r.dec.drange.toNat)
    (hin : r.dec.dvalue.toNat < r.dec.drange.toNat) {v : Nat} (hv : v < m.n)
    (hp : InPart (m.partLow v r.dec.drange.toNat) (m.partLen v r.dec.drange.toNat) r.dec.dvalue.toNat)
    {bs : List Byte} {rest : List SrcAnswer} (hg : r.src.Gives bs rest)
    (hn : Needs (m.partLen v r.dec.drange.toNat) bs.length) :
    r.sym m = .ok v (Rcd.shifted (r.dec.dvalue.toNat - m.partLow v r.dec.drange.toNat)
      (m.partLen v r.dec.drange.toNat) bs rest r, m.learn v) := by
  have hf := SymModel.find_eq hm hin hv hp
  obtain ⟨h3, h4⟩ := SymModel.part_words hm hv hl hp
  unfold Rcd.sym
  rw [if_pos (by simpa [Decoder.inside] using hin)]
  dsimp only
  rw [hf, Rcd.narrow_gives (by omega) (by rw [h3, h4]; have := hp.1; have := hp.2; omega) hg
    (by rw [h4]; exact hn), h3, h4]
  rfl

theorem BinModel.parts {m : BinModel} (h : m.Wf) {r : Rcd} (hl : 2 ^ 24 ≤ r.dec.drange.toNat) :
    (m.split r.dec.drange).toNat = m.p0 * (r.dec.drange.toNat / 2 ^ 13) ∧
      (r.dec.drange - m.split r.dec.drange).toNat =
        r.dec.drange.toNat - m.p0 * (r.dec.drange.toNat / 2 ^ 13) ∧
      1 ≤ m.p0 * (r.dec.drange.toNat / 2 ^ 13) ∧
      m.p0 * (r.dec.drange.toNat / 2 ^ 13) < r.dec.drange.toNat := by
  have h1 := BinModel.split_inside h.prob hl
  have hx := BinModel.split_toNat h.prob.2 r.dec.drange
  refine ⟨hx, ?_, by omega, by omega⟩
  rw [BitVec.toNat_sub_of_le, hx]
  rw [BitVec.le_def]; omega

/-- The body of `DEC.BIT` (43_range_dec.md R205). -/
theorem Rcd.bit_spec {m : BinModel} (hm : m.Wf) {r : Rcd} (h : r.dec.Open) :
    Rcd.Ends (r.bit m) fun b p => Rcd.DecodesBit m b r p.1 ∧ p.2 = m.learn b ∧ p.1.dec.Open := by
  obtain ⟨h1, h2, h3, h4⟩ := BinModel.parts hm h.range
  unfold Rcd.bit
  split_ifs with hin
  · simp only [Decoder.inside, decide_eq_true_eq] at hin
    dsimp only
    split_ifs with hb
    · rw [h1] at hb
      refine Rcd.Ends.bind (σ := Rcd × BinModel)
        (p := fun _ p => Rcd.DecodesBit m 0 r p.1 ∧ p.2 = m.countZero ∧ p.1.dec.Open) ?_ fun _ t ht => ?_
      · refine (Rcd.Ends.of_narrow (x := 0) (by omega) (by omega) (by rw [h1]; exact hb)).within
          fun _ r1 h5 => ?_
        rw [h1] at h5
        refine ⟨⟨by omega, ⟨by simp [BinModel.partLow], ?_⟩, ?_⟩, rfl, (h5.opened h.active ?_ h3).1⟩
        · simp only [BinModel.partLow, BinModel.partLen, if_true]; omega
        · simp only [BinModel.partLow, BinModel.partLen, if_true]; exact h5
        · omega
      · exact .inl ⟨_, _, rfl, ht.1, by rw [ht.2.1]; rfl, ht.2.2⟩
    · rw [h1] at hb
      have hsub : (r.dec.dvalue - m.split r.dec.drange).toNat =
          r.dec.dvalue.toNat - m.p0 * (r.dec.drange.toNat / 2 ^ 13) := by
        rw [BitVec.toNat_sub_of_le, h1]
        rw [BitVec.le_def]; omega
      refine Rcd.Ends.bind (σ := Rcd × BinModel)
        (p := fun _ p => Rcd.DecodesBit m 1 r p.1 ∧ p.2 = m ∧ p.1.dec.Open) ?_ fun _ t ht => ?_
      · refine (Rcd.Ends.of_narrow (x := m.p0 * (r.dec.drange.toNat / 2 ^ 13)) (by omega) hsub
          (by rw [hsub, h2]; omega)).within fun _ r1 h5 => ?_
        rw [h2] at h5
        refine ⟨⟨by omega, ⟨?_, ?_⟩, ?_⟩, rfl, (h5.opened h.active ?_ (by omega)).1⟩
        · simp only [BinModel.partLow, Nat.one_ne_zero, if_false]; omega
        · simp only [BinModel.partLow, BinModel.partLen, Nat.one_ne_zero, if_false]; omega
        · simpa only [BinModel.partLow, BinModel.partLen, Nat.one_ne_zero, if_false] using h5
        · omega
      · exact .inl ⟨_, _, rfl, ht.1, by rw [ht.2.1]; rfl, ht.2.2⟩
  · exact .inr ⟨_, _, rfl, .inl rfl⟩

/-- `DEC.BIT` completes when the source has the bytes the bit's part needs. -/
theorem Rcd.bit_gives {m : BinModel} (hm : m.Wf) {r : Rcd} (hl : 2 ^ 24 ≤ r.dec.drange.toNat)
    (hin : r.dec.dvalue.toNat < r.dec.drange.toNat) {b : Nat} (hb : b < 2)
    (hp : InPart (m.partLow b r.dec.drange.toNat) (m.partLen b r.dec.drange.toNat) r.dec.dvalue.toNat)
    {bs : List Byte} {rest : List SrcAnswer} (hg : r.src.Gives bs rest)
    (hn : Needs (m.partLen b r.dec.drange.toNat) bs.length) :
    r.bit m = .ok b (Rcd.shifted (r.dec.dvalue.toNat - m.partLow b r.dec.drange.toNat)
      (m.partLen b r.dec.drange.toNat) bs rest r, m.learn b) := by
  obtain ⟨h1, h2, h3, h4⟩ := BinModel.parts hm hl
  unfold Rcd.bit
  rw [if_pos (by simpa [Decoder.inside] using hin)]
  dsimp only
  obtain rfl | rfl : b = 0 ∨ b = 1 := by omega
  · simp only [InPart, BinModel.partLow, BinModel.partLen, if_true] at hp hn ⊢
    rw [if_pos (by rw [h1]; omega), Rcd.narrow_gives le_rfl (by rw [h1]; omega) hg (by rw [h1]; exact hn), h1]
    rfl
  · simp only [InPart, BinModel.partLow, BinModel.partLen, Nat.one_ne_zero, if_false] at hp hn ⊢
    have hsub : (r.dec.dvalue - m.split r.dec.drange).toNat =
        r.dec.dvalue.toNat - m.p0 * (r.dec.drange.toNat / 2 ^ 13) := by
      rw [BitVec.toNat_sub_of_le, h1]
      rw [BitVec.le_def]; omega
    rw [if_neg (by rw [h1]; exact not_lt.mpr hp.1), Rcd.narrow_gives (by rw [hsub]; exact Nat.sub_le _ _)
      (by rw [hsub, h2]; omega) hg
      (by rw [h2]; exact hn), hsub, h2]
    rfl

/-! ## Literals -/

/-- The step of a literal as the registers hold it (43_range_dec.md R208). -/
theorem Rcd.lit_words {n : Nat} {d : Decoder} :
    (d.drange >>> n).toNat = d.drange.toNat / 2 ^ n ∧
    (d.dvalue - word (mul32 (d.drange >>> n).toNat (udiv d.dvalue.toNat (d.drange >>> n).toNat))).toNat =
      d.dvalue.toNat - d.dvalue.toNat / (d.drange.toNat / 2 ^ n) * (d.drange.toNat / 2 ^ n) ∧
    d.dvalue.toNat / (d.drange.toNat / 2 ^ n) * (d.drange.toNat / 2 ^ n) ≤ d.dvalue.toNat := by
  have hd := d.dvalue.isLt
  have h1 : (d.drange >>> n).toNat = d.drange.toNat / 2 ^ n := by
    simp [Nat.shiftRight_eq_div_pow]
  have h2 : d.dvalue.toNat / (d.drange.toNat / 2 ^ n) * (d.drange.toNat / 2 ^ n) ≤ d.dvalue.toNat :=
    Nat.div_mul_le_self _ _
  refine ⟨h1, ?_, h2⟩
  have h3 : (word (mul32 (d.drange >>> n).toNat (udiv d.dvalue.toNat (d.drange >>> n).toNat))).toNat =
      d.dvalue.toNat / (d.drange.toNat / 2 ^ n) * (d.drange.toNat / 2 ^ n) := by
    rw [h1]
    simp only [word, mul32, udiv, BitVec.toNat_ofNat]
    rw [Nat.mul_comm]
    omega
  rw [BitVec.toNat_sub_of_le, h3]
  rw [BitVec.le_def, h3]
  exact h2

theorem udiv_eq (a b : Nat) : udiv a b = a / b := rfl

theorem lit_len {n len : Nat} (hl : 2 ^ 24 ≤ len) (hn : n ≤ 19) : 1 ≤ len / 2 ^ n := by
  have hpow : 2 ^ n ≤ 2 ^ 19 := Nat.pow_le_pow_right (by omega) hn
  rw [Nat.le_div_iff_mul_le (by positivity)]
  omega

/-- `dec_lit(n)` (43_range_dec.md R208). -/
theorem Rcd.lit_spec {n : Nat} {r : Rcd} (h : r.dec.Open) (hn : n ≤ 19) :
    Rcd.Ends (r.lit n) fun q r' => Rcd.ReadsLiterals [n] [q] r r' ∧ r'.dec.Open := by
  obtain ⟨h1, h2, h3⟩ := Rcd.lit_words (n := n) (d := r.dec)
  have hlen := lit_len h.range hn
  have hmod : r.dec.dvalue.toNat - r.dec.dvalue.toNat / (r.dec.drange.toNat / 2 ^ n) *
      (r.dec.drange.toNat / 2 ^ n) < r.dec.drange.toNat / 2 ^ n := by
    have := Nat.lt_div_mul_add (a := r.dec.dvalue.toNat) (b := r.dec.drange.toNat / 2 ^ n) (by omega)
    omega
  unfold Rcd.lit
  dsimp only
  refine Rcd.Ends.bind (Rcd.Ends.of_narrow h3 h2 (by rw [h2, h1]; exact hmod)) fun _ r1 h4 => ?_
  rw [h1] at h4 ⊢
  rw [udiv_eq]
  by_cases hq : r.dec.dvalue.toNat / (r.dec.drange.toNat / 2 ^ n) < 2 ^ n
  · rw [if_pos hq]
    exact .inl ⟨_, _, rfl, ⟨rfl, hq, r1, h4, rfl⟩, (h4.opened h.active (by omega) hlen).1⟩
  · rw [if_neg hq]
    exact .inr ⟨_, _, rfl, .inl rfl⟩

/-- A literal completes when the source has the bytes it needs and the quotient is in range. -/
theorem Rcd.lit_reads {n q : Nat} {r r' : Rcd} (hl : 2 ^ 24 ≤ r.dec.drange.toNat) (hn : n ≤ 19)
    (h : Rcd.ReadsLiterals [n] [q] r r') : r.lit n = .ok q r' := by
  obtain ⟨hq, hqn, r1, h4, rfl⟩ := h
  obtain ⟨h1, h2, h3⟩ := Rcd.lit_words (n := n) (d := r.dec)
  have hlen := lit_len hl hn
  have hmod : r.dec.dvalue.toNat - r.dec.dvalue.toNat / (r.dec.drange.toNat / 2 ^ n) *
      (r.dec.drange.toNat / 2 ^ n) < r.dec.drange.toNat / 2 ^ n := by
    have := Nat.lt_div_mul_add (a := r.dec.dvalue.toNat) (b := r.dec.drange.toNat / 2 ^ n) (by omega)
    omega
  obtain ⟨bs, rest, h5, h6, h7⟩ := h4.eq_shifted
  unfold Rcd.lit
  dsimp only
  rw [Rcd.narrow_gives (by rw [h2]; omega) (by rw [h2, h1]; exact hmod) h6 (by rw [h1]; exact h5), h2, h1]
  rw [udiv_eq, Run.bind_ok, ← hq, if_pos hqn, h7]

theorem Rcd.ReadsLiterals.trans {ns ms qs ps : List Nat} {a b c : Rcd} (h1 : Rcd.ReadsLiterals ns qs a b)
    (h2 : Rcd.ReadsLiterals ms ps b c) : Rcd.ReadsLiterals (ns ++ ms) (qs ++ ps) a c := by
  induction ns generalizing qs a with
  | nil =>
    rcases qs with _ | ⟨q, qs⟩
    · rw [show b = a from h1] at h2; exact h2
    · exact absurd h1 id
  | cons n ns ih =>
    rcases qs with _ | ⟨q, qs⟩
    · exact absurd h1 id
    · obtain ⟨a1, a2, r1, a3, a4⟩ := h1
      exact ⟨a1, a2, r1, a3, ih a4⟩

/-- The body of `DEC.BITS` (43_range_dec.md R207). -/
theorem Rcd.bits_spec {n : Nat} {r : Rcd} (h : r.dec.Open) (hn : n ≤ 32) :
    Rcd.Ends (r.bits n) fun v r' =>
      ∃ qs, Rcd.ReadsLiterals (literalWidths n) qs r r' ∧ v = literalValue qs ∧ r'.dec.Open := by
  unfold Rcd.bits literalWidths
  simp only [Config.litSplit, Config.halfBits]
  split_ifs with hs
  · refine Rcd.Ends.bind (Rcd.lit_spec (n := 16) h (by omega)) fun lo r1 h1 => ?_
    refine (Rcd.lit_spec (n := n - 16) h1.2 (by omega)).value fun hi r2 h2 => ?_
    refine ⟨[lo, hi], h1.1.trans h2.1, ?_, h2.2⟩
    simp only [literalValue]; ring
  · exact (Rcd.lit_spec h (by omega)).mono fun q r1 h1 => ⟨[q], h1.1, by simp [literalValue], h1.2⟩

theorem Rcd.Narrowed.range {x w : Nat} {r r' : Rcd} (h : Rcd.Narrowed x w r r') :
    2 ^ 24 ≤ r'.dec.drange.toNat := by
  obtain ⟨bs, h1, _, _, _, h5, _⟩ := h
  rw [h5]; exact h1.1

/-- Two literals are one and then another. -/
theorem Rcd.ReadsLiterals.cons {n q : Nat} {ns qs : List Nat} {r r' : Rcd}
    (h : Rcd.ReadsLiterals (n :: ns) (q :: qs) r r') :
    ∃ r1, Rcd.ReadsLiterals [n] [q] r r1 ∧ Rcd.ReadsLiterals ns qs r1 r' ∧
      2 ^ 24 ≤ r1.dec.drange.toNat := by
  obtain ⟨h1, h2, r1, h3, h4⟩ := h
  exact ⟨r1, ⟨h1, h2, r1, h3, rfl⟩, h4, h3.range⟩

theorem Rcd.ReadsLiterals.length {ns qs : List Nat} {r r' : Rcd} (h : Rcd.ReadsLiterals ns qs r r') :
    qs.length = ns.length := by
  induction ns generalizing qs r with
  | nil =>
    rcases qs with _ | ⟨q, qs⟩
    · rfl
    · exact absurd h id
  | cons n ns ih =>
    rcases qs with _ | ⟨q, qs⟩
    · exact absurd h id
    · obtain ⟨_, _, r1, _, h4⟩ := h
      simp [ih h4]

/-- `DEC.BITS` completes when its literals can be read. -/
theorem Rcd.bits_reads {n : Nat} {qs : List Nat} {r r' : Rcd} (hl : 2 ^ 24 ≤ r.dec.drange.toNat)
    (hn : n ≤ 32) (h : Rcd.ReadsLiterals (literalWidths n) qs r r') :
    r.bits n = .ok (literalValue qs) r' := by
  have hlen := h.length
  unfold Rcd.bits
  unfold literalWidths at h hlen
  simp only [Config.litSplit, Config.halfBits]
  split_ifs at h hlen ⊢ with hs
  · obtain ⟨lo, hi, rfl⟩ : ∃ lo hi, qs = [lo, hi] := by
      match qs, hlen with
      | [lo, hi], _ => exact ⟨lo, hi, rfl⟩
    obtain ⟨r1, h1, h2, h3⟩ := h.cons
    rw [Rcd.lit_reads hl (by omega) h1, Run.bind_ok, Rcd.lit_reads h3 (by omega) h2]
    simp only [Run.value_ok, literalValue]
    congr 1; ring
  · obtain ⟨q, rfl⟩ : ∃ q, qs = [q] := by
      match qs, hlen with
      | [q], _ => exact ⟨q, rfl⟩
    rw [Rcd.lit_reads hl (by omega) h]
    simp [literalValue]

/-- Half-words decoded one after another (43_range_dec.md R209, R210). -/
theorem Rcd.halves_spec {n : Nat} {r : Rcd} (h : r.dec.Open) :
    Rcd.Ends (Rcd.halves n r) fun v r' =>
      ∃ qs, Rcd.ReadsLiterals (List.replicate n 16) qs r r' ∧ v = literalValue qs ∧ r'.dec.Open := by
  induction n generalizing r with
  | zero => exact .inl ⟨0, r, rfl, [], rfl, rfl, h⟩
  | succ n ih =>
    rw [Rcd.halves]
    refine Rcd.Ends.bind (Rcd.lit_spec (n := 16) h (by omega)) fun lo r1 h1 => ?_
    refine (ih h1.2).value fun v r2 h2 => ?_
    obtain ⟨qs, a1, a2, a3⟩ := h2
    exact ⟨lo :: qs, h1.1.trans a1, by rw [a2]; rfl, a3⟩

theorem Rcd.halves_reads {n : Nat} {qs : List Nat} {r r' : Rcd} (hl : 2 ^ 24 ≤ r.dec.drange.toNat)
    (h : Rcd.ReadsLiterals (List.replicate n 16) qs r r') : Rcd.halves n r = .ok (literalValue qs) r' := by
  induction n generalizing qs r with
  | zero =>
    rcases qs with _ | ⟨q, qs⟩
    · rw [show r' = r from h]; rfl
    · exact absurd h id
  | succ n ih =>
    rcases qs with _ | ⟨q, qs⟩
    · exact absurd h id
    · obtain ⟨r1, h1, h2, h3⟩ := Rcd.ReadsLiterals.cons h
      rw [Rcd.halves, Rcd.lit_reads hl (by decide) h1, Run.bind_ok, ih h3 h2]
      rfl

theorem Rcd.ReadsLiterals.range {ns qs : List Nat} {r r' : Rcd} (h : Rcd.ReadsLiterals ns qs r r')
    (hl : 2 ^ 24 ≤ r.dec.drange.toNat) : 2 ^ 24 ≤ r'.dec.drange.toNat := by
  induction ns generalizing qs r with
  | nil =>
    rcases qs with _ | ⟨q, qs⟩
    · rw [show r' = r from h]; exact hl
    · exact absurd h id
  | cons n ns ih =>
    rcases qs with _ | ⟨q, qs⟩
    · exact absurd h id
    · obtain ⟨r1, h1, h2, h3⟩ := Rcd.ReadsLiterals.cons h
      exact ih h2 h3

/-- Values read are below 2 to their widths, the first lowest. -/
theorem Rcd.ReadsLiterals.value_lt {n : Nat} {qs : List Nat} {r r' : Rcd}
    (h : Rcd.ReadsLiterals (literalWidths n) qs r r') : literalValue qs < 2 ^ n := by
  have hlen := h.length
  unfold literalWidths at h hlen
  split_ifs at h hlen with hs
  · obtain ⟨lo, hi, rfl⟩ : ∃ lo hi, qs = [lo, hi] := by
      match qs, hlen with
      | [lo, hi], _ => exact ⟨lo, hi, rfl⟩
    obtain ⟨_, h1, _, _, _, h2, _⟩ := h
    have e : 2 ^ n = 2 ^ 16 * 2 ^ (n - 16) := by rw [← pow_add, Nat.add_sub_cancel' (by omega)]
    simp only [literalValue]
    rw [e]
    have h3 : 2 ^ 16 * (hi + 1) ≤ 2 ^ 16 * 2 ^ (n - 16) := Nat.mul_le_mul_left _ h2
    omega
  · obtain ⟨q, rfl⟩ : ∃ q, qs = [q] := by
      match qs, hlen with
      | [q], _ => exact ⟨q, rfl⟩
    obtain ⟨_, h1, _⟩ := h
    simpa [literalValue] using h1

end Sys2Proof.Machine
end

