-- ==== Sys2Proof/Laws/Int.lean ====
section
/-! SUPPORT. The laws of the integer compressor: its derived fields, the classes of its correctors, its
private models, and the coding of a corrector. -/

namespace Sys2Proof.Machine

/-! ## Correctors -/

theorem bitlen_le {a k : Nat} : bitlen a ≤ k ↔ a < 2 ^ k := by
  unfold bitlen
  split_ifs with h
  · subst h; simp
  · rw [Nat.succ_le_iff, Nat.log2_lt h]

theorem lt_bitlen {a k : Nat} : k < bitlen a ↔ 2 ^ k ≤ a := by
  rw [← not_le, bitlen_le, not_lt]

/-- The magnitude whose bit length is the class of a corrector (44_integer_codec.md R235). -/
def corrMagnitude (corr : Int) : Nat := (if corr ≤ 0 then -corr else corr - 1).toNat

theorem corrClass_eq {corr : Int} (h : -2 ^ 31 ≤ corr ∧ corr ≤ 2 ^ 31 - 1) :
    corrClass corr = bitlen (corrMagnitude corr) := by
  unfold corrClass corrMagnitude u32of
  split_ifs with h0
  · congr 1
    rw [BitVec.toNat_ofInt, Int.emod_eq_of_lt] <;> omega
  · congr 1
    rw [BitVec.toNat_ofInt, Int.emod_eq_of_lt] <;> omega

/-- A class by its corrector's magnitude. -/
theorem inClass_iff {k : Nat} {corr : Int} (h : -2 ^ 31 ≤ corr ∧ corr ≤ 2 ^ 31 - 1) :
    InClass k corr ↔ corrMagnitude corr < 2 ^ k ∧ (k = 0 ∨ 2 ^ (k - 1) ≤ corrMagnitude corr) := by
  have hcast : ∀ j : Nat, ((2 ^ j : Nat) : Int) = 2 ^ j := fun j => by push_cast; rfl
  unfold InClass corrMagnitude
  rcases k with _ | k
  · rw [if_pos rfl]
    split_ifs <;> simp <;> omega
  · rw [if_neg (by omega)]
    have e1 := hcast k
    have e2 := hcast (k + 1)
    have e3 : 2 ^ (k + 1) = 2 * 2 ^ k := pow_succ' 2 k
    simp only [Nat.add_sub_cancel, Nat.succ_ne_zero, false_or]
    split_ifs with h31 h0 h0
    · rw [← e1, ← e2]; omega
    · rw [← e1, ← e2]; omega
    · have h32 : 2 ^ 31 ≤ 2 ^ k := Nat.pow_le_pow_right (by omega) (by omega)
      constructor
      · rintro ⟨hk, hc⟩
        have : k = 31 := by omega
        subst this
        omega
      · rintro ⟨h1, h2⟩
        have h3 : 2 ^ k < 2 ^ 32 := by omega
        have := (Nat.pow_lt_pow_iff_right (by omega : 1 < 2)).mp h3
        have : k = 31 := by omega
        subst this
        omega
    · have h32 : 2 ^ 31 ≤ 2 ^ k := Nat.pow_le_pow_right (by omega) (by omega)
      constructor
      · rintro ⟨hk, hc⟩; omega
      · rintro ⟨h1, h2⟩; omega

/-- Every corrector of 32 bits is in the class its command computes. -/
theorem corrClass_inClass {corr : Int} (h : -2 ^ 31 ≤ corr ∧ corr ≤ 2 ^ 31 - 1) :
    InClass (corrClass corr) corr := by
  rw [inClass_iff h, corrClass_eq h]
  refine ⟨bitlen_le.mp le_rfl, ?_⟩
  rcases Nat.eq_zero_or_pos (bitlen (corrMagnitude corr)) with h0 | h0
  · exact .inl h0
  · exact .inr (lt_bitlen.mp (by omega))

/-- The place of a corrector in its class, as its command computes it. -/
theorem corrOffset_at {k : Nat} {corr : Int} (hk : 1 ≤ k) (hk31 : k ≤ 31) (h : InClass k corr) :
    AtOffset k corr (corrOffset k corr) := by
  unfold InClass at h
  rw [if_neg (by omega), if_pos hk31] at h
  have hcast : ∀ j : Nat, ((2 ^ j : Nat) : Int) = 2 ^ j := fun j => by push_cast; rfl
  obtain ⟨j, rfl⟩ : ∃ j, k = j + 1 := ⟨k - 1, by omega⟩
  have e1 := hcast j
  have e2 := hcast (j + 1)
  have e3 : 2 ^ (j + 1) = 2 * 2 ^ j := pow_succ' 2 j
  have e4 : 1 ≤ 2 ^ j := Nat.one_le_two_pow
  unfold AtOffset corrOffset
  simp only [Nat.add_sub_cancel] at h
  rw [← e1, ← e2] at h
  rw [← e2]
  split_ifs with h0
  · omega
  · omega

/-! ## Integer-compressor instances -/

/-- An instance has its derived fields when the four of them agree. -/
theorem IntComp.derive_eq_iff {c : IntComp} : c.derive = c ↔
    c.derive.corrBits = c.corrBits ∧ c.derive.corrRange = c.corrRange ∧
      c.derive.corrMin = c.corrMin ∧ c.derive.corrMax = c.corrMax := by
  constructor
  · intro h
    exact ⟨congrArg IntComp.corrBits h, congrArg IntComp.corrRange h, congrArg IntComp.corrMin h,
      congrArg IntComp.corrMax h⟩
  · obtain ⟨bits, contexts, bitsHigh, rng, corrBits, corrRange, corrMin, corrMax, k, mbits, bm0, mcorr⟩ := c
    unfold IntComp.derive
    dsimp only
    split_ifs <;> rintro ⟨h1, h2, h3, h4⟩ <;> dsimp only at h1 h2 h3 h4 <;>
      congr 1

/-- The derived fields depend on the configuration alone. -/
theorem IntComp.derive_congr {c c' : IntComp} (hr : c'.rng = c.rng) (hb : c'.bits = c.bits) :
    c'.derive.corrBits = c.derive.corrBits ∧ c'.derive.corrRange = c.derive.corrRange ∧
      c'.derive.corrMin = c.derive.corrMin ∧ c'.derive.corrMax = c.derive.corrMax := by
  unfold IntComp.derive
  rw [hr, hb]
  split_ifs <;> exact ⟨rfl, rfl, rfl, rfl⟩

/-- An instance with the configuration and the derived fields of another has its derived fields. -/
theorem IntComp.derived_congr {c c' : IntComp} (h : c.derive = c) (hr : c'.rng = c.rng)
    (hb : c'.bits = c.bits) (h1 : c'.corrBits = c.corrBits) (h2 : c'.corrRange = c.corrRange)
    (h3 : c'.corrMin = c.corrMin) (h4 : c'.corrMax = c.corrMax) : c'.derive = c' := by
  rw [IntComp.derive_eq_iff] at h ⊢
  obtain ⟨a1, a2, a3, a4⟩ := IntComp.derive_congr hr hb
  rw [a1, a2, a3, a4, h1, h2, h3, h4]
  exact h

/-- A value range fits the bits derived from it (44_integer_codec.md R231). -/
theorem rangeBits_bounds {rng : Nat} (h : 2 ≤ rng ∧ rng ≤ 2 ^ 31 - 1) :
    1 ≤ rangeBits rng ∧ rangeBits rng ≤ 31 ∧ rng ≤ 2 ^ rangeBits rng ∧ 2 ^ rangeBits rng < 2 * rng := by
  have h1 : rng < 2 ^ bitlen rng := bitlen_le.mp le_rfl
  have h2 : 1 < bitlen rng := lt_bitlen.mpr (by omega)
  have h3 : bitlen rng ≤ 31 := bitlen_le.mpr (by omega)
  have h4 : 2 ^ (bitlen rng - 1) ≤ rng := lt_bitlen.mp (by omega)
  have h5 : 2 ^ bitlen rng = 2 * 2 ^ (bitlen rng - 1) := by
    rw [← pow_succ', Nat.sub_add_cancel (by omega)]
  unfold rangeBits
  split_ifs with he
  · refine ⟨by omega, by omega, by omega, by omega⟩
  · refine ⟨by omega, by omega, by omega, by omega⟩

/-- The corrector interval of a configuration (44_integer_codec.md R231). -/
theorem IntComp.derive_interval {c : IntComp}
    (hb : c.bits ≤ 32) (hr : c.rng = 0#32 ∨ (2 ≤ c.rng.toNat ∧ c.rng.toNat ≤ 2 ^ 31 - 1)) :
    (1 ≤ c.derive.corrBits ∧ c.derive.corrBits ≤ 32) ∧
    -2 ^ 31 ≤ c.derive.corrMin ∧ c.derive.corrMax ≤ 2 ^ 31 - 1 ∧
      (c.derive.corrBits < 32 →
        -(2 ^ c.derive.corrBits - 1) ≤ c.derive.corrMin ∧ c.derive.corrMax ≤ 2 ^ c.derive.corrBits) := by
  have hcast : ∀ j : Nat, ((2 ^ j : Nat) : Int) = 2 ^ j := fun j => by push_cast; rfl
  unfold IntComp.derive
  split_ifs with h1 h2
  · rcases hr with hr | hr
    · exact absurd hr h1
    · have h3 := rangeBits_bounds hr
      have h4 : rangeBits c.rng.toNat ≤ 31 := h3.2.1
      have e := hcast (rangeBits c.rng.toNat)
      dsimp only
      rw [← e]
      refine ⟨?_, ?_, ?_, ?_⟩ <;> omega
  · obtain ⟨j, hj⟩ : ∃ j, c.bits = j + 1 := ⟨c.bits - 1, by omega⟩
    have e := hcast j
    have e2 := hcast (j + 1)
    have e3 : 2 ^ (j + 1) = 2 * 2 ^ j := pow_succ' 2 j
    have e4 : 1 ≤ 2 ^ j := Nat.one_le_two_pow
    have e5 : 2 ^ j ≤ 2 ^ 30 := Nat.pow_le_pow_right (by omega) (by omega)
    dsimp only
    rw [hj, Nat.add_sub_cancel, ← e, ← e2]
    refine ⟨?_, ?_, ?_, ?_⟩ <;> omega
  · dsimp only
    refine ⟨by omega, by omega, by omega, by omega⟩

/-- The corrector interval of an instance lies in the classes its prefix models have
(44_integer_codec.md R231, R239). -/
theorem IntComp.Wf.interval {c : IntComp} (h : c.Wf) :
    -2 ^ 31 ≤ c.corrMin ∧ c.corrMax ≤ 2 ^ 31 - 1 ∧
      (c.corrBits < 32 → -(2 ^ c.corrBits - 1) ≤ c.corrMin ∧ c.corrMax ≤ 2 ^ c.corrBits) := by
  have := (IntComp.derive_interval h.bits h.rng).2
  rwa [h.derived] at this

/-- The class of a corrector inside the interval of an instance. -/
theorem IntComp.Wf.class_le {c : IntComp} (h : c.Wf) {corr : Int} (hi : c.inInterval corr = true) :
    -2 ^ 31 ≤ corr ∧ corr ≤ 2 ^ 31 - 1 ∧ corrClass corr ≤ c.corrBits := by
  obtain ⟨h1, h2, h3⟩ := h.interval
  simp only [IntComp.inInterval, Bool.and_eq_true, decide_eq_true_eq] at hi
  have hb : -2 ^ 31 ≤ corr ∧ corr ≤ 2 ^ 31 - 1 := by omega
  refine ⟨hb.1, hb.2, ?_⟩
  rw [corrClass_eq hb, bitlen_le]
  unfold corrMagnitude
  rcases Nat.lt_or_ge c.corrBits 32 with h4 | h4
  · have hcast : ((2 ^ c.corrBits : Nat) : Int) = 2 ^ c.corrBits := by push_cast; rfl
    have := h3 h4
    rw [← hcast] at this
    split_ifs <;> omega
  · have : 2 ^ 32 ≤ 2 ^ c.corrBits := Nat.pow_le_pow_right (by omega) h4
    split_ifs <;> omega

theorem IntComp.Wf.mbitsAt {c : IntComp} (h : c.Wf) {ctx : Nat} (hc : ctx < c.contexts) :
    (c.mbitsAt ctx).Wf ∧ (c.mbitsAt ctx).n = c.corrBits + 1 := by
  have hl : ctx < c.mbits.length := by rw [h.prefixes]; exact hc
  have he : c.mbitsAt ctx = c.mbits[ctx] := by simp [IntComp.mbitsAt, hl]
  rw [he]
  exact h.prefixModels _ (List.getElem_mem _)

/-- A private prefix model replaced by one in its bounds. -/
theorem IntComp.Wf.setMbits {c : IntComp} (h : c.Wf) (ctx : Nat) {m : SymModel} (hm : m.Wf)
    (hn : m.n = c.corrBits + 1) : (c.setMbits ctx m).Wf :=
  { bits := h.bits, contexts := h.contexts, high := h.high, rng := h.rng
    derived := IntComp.derived_congr h.derived rfl rfl rfl rfl rfl rfl
    corrBits := h.corrBits, k := h.k
    prefixes := by simp [IntComp.setMbits, h.prefixes]
    prefixModels := by
      intro m' hm'
      rcases List.mem_or_eq_of_mem_set hm' with h1 | h1
      · exact h.prefixModels m' h1
      · rw [h1]; exact ⟨hm, hn⟩
    bm0 := h.bm0, payloads := h.payloads, payloadModels := h.payloadModels }

/-- A private payload model replaced by one in its bounds. -/
theorem IntComp.Wf.setMcorr {c : IntComp} (h : c.Wf) {q : Nat} (hq : 1 ≤ q) {m : SymModel} (hm : m.Wf)
    (hn : m.n = 2 ^ min q c.bitsHigh) : (c.setMcorr q m).Wf :=
  { bits := h.bits, contexts := h.contexts, high := h.high, rng := h.rng
    derived := IntComp.derived_congr h.derived rfl rfl rfl rfl rfl rfl
    corrBits := h.corrBits, k := h.k, prefixes := h.prefixes, prefixModels := h.prefixModels
    bm0 := h.bm0
    payloads := by simp [IntComp.setMcorr, h.payloads]
    payloadModels := by
      intro p hp1 hp2
      by_cases hpq : p = q
      · subst hpq
        have he : (c.setMcorr p m).mcorrAt p = m := by
          have hl : p - 1 < c.mcorr.length := by
            rw [h.payloads]
            have : p ≤ c.corrBits := hp2
            omega
          simp [IntComp.mcorrAt, IntComp.setMcorr, hl]
        rw [he]
        exact ⟨hm, hn⟩
      · have he : (c.setMcorr q m).mcorrAt p = c.mcorrAt p := by
          simp only [IntComp.mcorrAt, IntComp.setMcorr, List.getD_eq_getElem?_getD]
          rw [List.getElem?_set_ne (by omega)]
        rw [he]
        exact h.payloadModels p hp1 hp2 }

theorem IntComp.Wf.setBm0 {c : IntComp} (h : c.Wf) {m : BinModel} (hm : m.Wf) : (c.setBm0 m).Wf :=
  { bits := h.bits, contexts := h.contexts, high := h.high, rng := h.rng
    derived := IntComp.derived_congr h.derived rfl rfl rfl rfl rfl rfl
    corrBits := h.corrBits, k := h.k, prefixes := h.prefixes, prefixModels := h.prefixModels
    bm0 := hm, payloads := h.payloads, payloadModels := h.payloadModels }

theorem IntComp.Wf.setK {c : IntComp} (h : c.Wf) {k : Nat} (hk : k ≤ c.corrBits) : (c.setK k).Wf :=
  { bits := h.bits, contexts := h.contexts, high := h.high, rng := h.rng
    derived := IntComp.derived_congr h.derived rfl rfl rfl rfl rfl rfl
    corrBits := h.corrBits, k := hk, prefixes := h.prefixes, prefixModels := h.prefixModels
    bm0 := h.bm0, payloads := h.payloads, payloadModels := h.payloadModels }

/-- `ic_reset` puts an instance with a legal configuration in its bounds (44_integer_codec.md R233). -/
theorem IntComp.reset_wf {c : IntComp} (hb : c.bits ≤ 32) (hc : 1 ≤ c.contexts)
    (hh : 1 ≤ c.bitsHigh ∧ c.bitsHigh ≤ 11)
    (hr : c.rng = 0#32 ∨ (2 ≤ c.rng.toNat ∧ c.rng.toNat ≤ 2 ^ 31 - 1)) (hd : c.derive = c) :
    c.reset.Wf := by
  have hbits := (IntComp.derive_interval hb hr).1
  rw [hd] at hbits
  exact
    { bits := hb, contexts := hc, high := hh, rng := hr
      derived := IntComp.derived_congr hd rfl rfl rfl rfl rfl rfl
      corrBits := hbits, k := Nat.zero_le _
      prefixes := by simp [IntComp.reset]
      prefixModels := by
        intro m hm
        rw [List.eq_of_mem_replicate hm]
        exact SymModel.fresh_wf (by omega)
      bm0 := BinModel.fresh_wf
      payloads := by simp [IntComp.reset]
      payloadModels := by
        intro q hq1 hq2
        have hq : q ≤ c.corrBits := hq2
        have he : c.reset.mcorrAt q = SymModel.fresh (2 ^ min q c.bitsHigh) := by
          have hl : q - 1 < c.corrBits := by omega
          simp [IntComp.mcorrAt, IntComp.reset, hl, Nat.sub_add_cancel hq1]
        rw [he]
        have h1 : 2 ^ 1 ≤ 2 ^ min q c.bitsHigh := Nat.pow_le_pow_right (by omega) (by omega)
        have h2 : 2 ^ min q c.bitsHigh ≤ 2 ^ 11 := Nat.pow_le_pow_right (by omega) (by omega)
        exact SymModel.fresh_wf (by omega) }

theorem IntComp.derive_derive (c : IntComp) : c.derive.derive = c.derive := by
  have hr : c.derive.rng = c.rng := by unfold IntComp.derive; split_ifs <;> rfl
  have hb : c.derive.bits = c.bits := by unfold IntComp.derive; split_ifs <;> rfl
  exact IntComp.derive_eq_iff.mpr (IntComp.derive_congr hr hb)

/-- What `IC.CFG` makes is in its bounds (44_integer_codec.md R231). -/
theorem IntComp.configure_wf {bits contexts bitsHigh : Nat} {rng : Word} (hb : bits ≤ 32)
    (hc : 1 ≤ contexts) (hh : 1 ≤ bitsHigh ∧ bitsHigh ≤ 11)
    (hr : rng = 0#32 ∨ (2 ≤ rng.toNat ∧ rng.toNat ≤ 2 ^ 31 - 1)) :
    (IntComp.configure bits contexts bitsHigh rng).Wf := by
  unfold IntComp.configure
  set c : IntComp :=
    { IntComp.empty with bits := bits, contexts := contexts, bitsHigh := bitsHigh, rng := rng } with hcdef
  have e1 : c.derive.rng = rng := by unfold IntComp.derive; split_ifs <;> rfl
  have e2 : c.derive.bits = bits := by unfold IntComp.derive; split_ifs <;> rfl
  have e3 : c.derive.contexts = contexts := by unfold IntComp.derive; split_ifs <;> rfl
  have e4 : c.derive.bitsHigh = bitsHigh := by unfold IntComp.derive; split_ifs <;> rfl
  exact IntComp.reset_wf (by rw [e2]; exact hb) (by rw [e3]; exact hc) (by rw [e4]; exact hh)
    (by rw [e1]; exact hr) (IntComp.derive_derive c)

/-! ## Coding a corrector -/

theorem IntComp.Wf.mcorrAt {c : IntComp} (h : c.Wf) {k : Nat} (h1 : 1 ≤ k) (h2 : k ≤ c.corrBits) :
    (c.mcorrAt k).Wf ∧ (c.mcorrAt k).n = 2 ^ min k c.bitsHigh := h.payloadModels k h1 h2

/-- The part of an offset that a payload model codes is a symbol of the model. -/
theorem payload_symbol {k h u : Nat} (hk : h < k) (hu : u < 2 ^ k) : u / 2 ^ (k - h) < 2 ^ h := by
  rw [Nat.div_lt_iff_lt_mul (by positivity), ← pow_add, Nat.add_sub_cancel' (le_of_lt hk)]
  exact hu

/-- The payload of `ic_put_corr` (44_integer_codec.md R235). -/
theorem IntComp.putPayload_spec {c : IntComp} (hc : c.Wf) {k u : Nat} (hk1 : 1 ≤ k) (hk : k ≤ c.corrBits)
    (hu : u < 2 ^ k) {r : Rce} (h : r.enc.Open) :
    r.Ends (c.putPayload k u r) fun p =>
      Rce.CodesPayload c k u r p.1 p.2 ∧ p.2.Wf ∧ p.1.enc.Open ∧ r.sink.Grown p.1.sink := by
  obtain ⟨hm, hn⟩ := hc.mcorrAt hk1 hk
  unfold IntComp.putPayload
  split_ifs with hh
  · have hu' : u < (c.mcorrAt k).n := by rw [hn, Nat.min_eq_left hh]; exact hu
    refine (Rce.sym_spec hm hu' h).within fun p hp => ?_
    obtain ⟨h1, h2⟩ := hp
    have hl := SymModel.learn_wf hm hu'
    refine ⟨?_, ?_, h1.opened, h1.port⟩
    · unfold Rce.CodesPayload
      rw [if_pos hh]
      exact ⟨h1, by rw [h2]⟩
    · rw [h2]
      exact hc.setMcorr hk1 hl.1 (hl.2.trans hn)
  · have hlt : c.bitsHigh < k := by omega
    have hv := payload_symbol hlt hu
    have hu' : u / 2 ^ (k - c.bitsHigh) < (c.mcorrAt k).n := by
      rw [hn, Nat.min_eq_right (by omega)]; exact hv
    have hl := SymModel.learn_wf hm hu'
    have hk32 := hc.corrBits.2
    have hw : (c.setMcorr k ((c.mcorrAt k).learn (u / 2 ^ (k - c.bitsHigh)))).Wf :=
      hc.setMcorr hk1 hl.1 (hl.2.trans hn)
    dsimp only
    refine Rce.Ends.bind_at (σ := Rce × IntComp)
      (p := fun p => Rce.CodesSymbol (c.mcorrAt k) (u / 2 ^ (k - c.bitsHigh)) r p.1 ∧
        p.2 = c.setMcorr k ((c.mcorrAt k).learn (u / 2 ^ (k - c.bitsHigh))))
      Prod.fst ?_ (fun t ht => ht.1.port.accepting) fun t ht => ?_
    · exact (Rce.sym_spec hm hu' h).within fun p hp => ⟨hp.1, by rw [hp.2]⟩
    · refine (Rce.bits_spec (n := k - c.bitsHigh) (v := u % 2 ^ (k - c.bitsHigh)) ht.1.opened (by omega)
        (Nat.mod_lt _ (by positivity))).within fun r2 h2 => ?_
      refine ⟨?_, by rw [ht.2]; exact hw, h2.opened ht.1.opened, ht.1.port.trans h2.port⟩
      unfold Rce.CodesPayload
      rw [if_neg hh]
      exact ⟨t.1, ht.1, h2, ht.2⟩

/-- `ic_put_corr` (44_integer_codec.md R235). -/
theorem IntComp.putCorr_spec {c : IntComp} (hc : c.Wf) {ctx : Nat} (hx : ctx < c.contexts) {corr : Int}
    (hi : c.inInterval corr = true) {r : Rce} (h : r.enc.Open) :
    r.Ends (c.putCorr ctx corr r) fun p =>
      Rce.CodesCorrector c ctx corr r p.1 p.2 ∧ p.2.Wf ∧ p.2.contexts = c.contexts ∧ p.1.enc.Open := by
  obtain ⟨hb1, hb2, hk⟩ := hc.class_le hi
  have hcl := corrClass_inClass ⟨hb1, hb2⟩
  obtain ⟨hm, hn⟩ := hc.mbitsAt hx
  have hv : corrClass corr < (c.mbitsAt ctx).n := by omega
  have hl := SymModel.learn_wf hm hv
  have hw : ((c.setK (corrClass corr)).setMbits ctx ((c.mbitsAt ctx).learn (corrClass corr))).Wf :=
    (hc.setK hk).setMbits ctx hl.1 (hl.2.trans hn)
  unfold IntComp.putCorr
  dsimp only
  refine Rce.Ends.bind_at (σ := Rce × IntComp)
    (p := fun p => Rce.CodesSymbol (c.mbitsAt ctx) (corrClass corr) r p.1 ∧
      p.2 = (c.setK (corrClass corr)).setMbits ctx ((c.mbitsAt ctx).learn (corrClass corr)))
    Prod.fst ?_ (fun t ht => ht.1.port.accepting) fun t ht => ?_
  · exact (Rce.sym_spec hm hv h).within fun p hp => ⟨hp.1, by rw [hp.2]⟩
  · obtain ⟨r1, c1⟩ := t
    obtain ⟨ht1, rfl⟩ := ht
    split_ifs with h0 h32
    · refine (Rce.bit_spec hc.bm0 corr.toNat ht1.opened).within fun q hq => ?_
      refine ⟨⟨corrClass corr, r1, hcl, hk, ht1, ?_⟩, ?_, rfl, hq.1.opened⟩
      · rw [if_pos h0]; exact ⟨hq.1, by rw [hq.2]⟩
      · rw [hq.2]; exact hw.setBm0 (BinModel.learn_wf hc.bm0 _)
    · have ho := corrOffset_at (by omega) (by omega : corrClass corr ≤ 31) hcl
      refine (IntComp.putPayload_spec hw (by omega) hk ho.1 ht1.opened).mono fun q hq => ?_
      have hctx : q.2.contexts = c.contexts := by
        have hq1 := hq.1
        unfold Rce.CodesPayload at hq1
        split_ifs at hq1
        · rw [hq1.2]; rfl
        · obtain ⟨_, _, _, e⟩ := hq1; rw [e]; rfl
      refine ⟨⟨corrClass corr, r1, hcl, hk, ht1, ?_⟩, hq.2.1, hctx, hq.2.2.1⟩
      rw [if_neg h0, if_pos (by omega)]
      exact ⟨_, ho, hq.1⟩
    · refine Rce.Ends.ok ⟨⟨corrClass corr, r1, hcl, hk, ht1, ?_⟩, hw, rfl, ht1.opened⟩
      rw [if_neg h0, if_neg (by omega)]
      exact ⟨rfl, rfl⟩

/-! ## Decoding a corrector -/

/-- The corrector of a class at an offset (44_integer_codec.md R237) is the one at that offset in the
class (R235). -/
theorem corrValue_at {k u : Nat} (hk : 1 ≤ k) (hk31 : k ≤ 31) (hu : u < 2 ^ k) :
    InClass k (corrValue k u) ∧ AtOffset k (corrValue k u) u := by
  have hcast : ∀ j : Nat, ((2 ^ j : Nat) : Int) = 2 ^ j := fun j => by push_cast; rfl
  obtain ⟨j, rfl⟩ : ∃ j, k = j + 1 := ⟨k - 1, by omega⟩
  have e1 := hcast j
  have e2 := hcast (j + 1)
  have e3 : 2 ^ (j + 1) = 2 * 2 ^ j := pow_succ' 2 j
  have e4 : 1 ≤ 2 ^ j := Nat.one_le_two_pow
  unfold InClass AtOffset corrValue
  rw [if_neg (by omega), if_pos hk31]
  simp only [Nat.add_sub_cancel]
  rw [← e1, ← e2]
  split_ifs with h1 h2 h2 <;> omega

/-- A class and an offset name one corrector. -/
theorem atOffset_unique {k u : Nat} {corr : Int} (hk : 1 ≤ k) (hk31 : k ≤ 31) (hc : InClass k corr)
    (ho : AtOffset k corr u) : corrValue k u = corr := by
  have hcast : ∀ j : Nat, ((2 ^ j : Nat) : Int) = 2 ^ j := fun j => by push_cast; rfl
  obtain ⟨j, rfl⟩ : ∃ j, k = j + 1 := ⟨k - 1, by omega⟩
  have e1 := hcast j
  have e2 := hcast (j + 1)
  have e3 : 2 ^ (j + 1) = 2 * 2 ^ j := pow_succ' 2 j
  have e4 : 1 ≤ 2 ^ j := Nat.one_le_two_pow
  unfold InClass at hc
  unfold AtOffset at ho
  unfold corrValue
  rw [if_neg (by omega), if_pos hk31] at hc
  simp only [Nat.add_sub_cancel] at hc ⊢
  rw [← e1, ← e2] at hc
  rw [← e2] at ho
  rw [← e2]
  split_ifs at ho ⊢ with h1 h2 h2 <;> omega

theorem payload_value {k h hi lo : Nat} (hk : h < k) (hhi : hi < 2 ^ h) (hlo : lo < 2 ^ (k - h)) :
    hi * 2 ^ (k - h) + lo < 2 ^ k := by
  have e : 2 ^ k = 2 ^ h * 2 ^ (k - h) := by rw [← pow_add, Nat.add_sub_cancel' (le_of_lt hk)]
  have h1 : (hi + 1) * 2 ^ (k - h) ≤ 2 ^ h * 2 ^ (k - h) := Nat.mul_le_mul_right _ hhi
  rw [e]
  rw [Nat.add_mul] at h1
  omega

/-- The payload of `ic_get_corr` (44_integer_codec.md R237). -/
theorem IntComp.getPayload_spec {c : IntComp} (hc : c.Wf) {k : Nat} (hk1 : 1 ≤ k) (hk : k ≤ c.corrBits)
    {r : Rcd} (h : r.dec.Open) :
    Rcd.Ends (c.getPayload k r) fun u p =>
      Rcd.DecodesPayload c k u r p.1 p.2 ∧ u < 2 ^ k ∧ p.2.Wf ∧ p.2.contexts = c.contexts ∧ p.1.dec.Open := by
  obtain ⟨hm, hn⟩ := hc.mcorrAt hk1 hk
  unfold IntComp.getPayload
  split_ifs with hh
  · rw [Nat.min_eq_left hh] at hn
    refine (Rcd.sym_spec hm h).within fun u p hp => ?_
    obtain ⟨h1, h2, h3⟩ := hp
    have hl := SymModel.learn_wf hm h1.1
    refine ⟨?_, by rw [← hn]; exact h1.1, ?_, rfl, h3⟩
    · unfold Rcd.DecodesPayload
      rw [if_pos hh]
      exact ⟨h1, by rw [h2]⟩
    · rw [h2]
      exact hc.setMcorr hk1 hl.1 (hl.2.trans (by rw [hn, Nat.min_eq_left hh]))
  · rw [Nat.min_eq_right (by omega)] at hn
    have hk32 := hc.corrBits.2
    dsimp only
    refine Rcd.Ends.bind (σ := Rcd × IntComp) (p := fun hi p =>
      Rcd.DecodesSymbol (c.mcorrAt k) hi r p.1 ∧ p.2 = c.setMcorr k ((c.mcorrAt k).learn hi) ∧
        p.1.dec.Open) ?_ fun hi p hp => ?_
    · exact (Rcd.sym_spec hm h).within fun u p hp => ⟨hp.1, by rw [hp.2.1], hp.2.2⟩
    · obtain ⟨h1, h2, h3⟩ := hp
      have hl := SymModel.learn_wf hm h1.1
      refine Rcd.Ends.value (p := fun low q => ∃ qs,
        Rcd.ReadsLiterals (literalWidths (k - c.bitsHigh)) qs p.1 q.1 ∧ low = literalValue qs ∧
          q.2 = p.2 ∧ q.1.dec.Open) ?_ fun low q hq => ?_
      · exact (Rcd.bits_spec (n := k - c.bitsHigh) h3 (by omega)).within fun low r2 h4 => by
          obtain ⟨qs, a1, a2, a3⟩ := h4
          exact ⟨qs, a1, a2, rfl, a3⟩
      · obtain ⟨qs, a1, a2, a3, a4⟩ := hq
        refine ⟨?_, ?_, ?_, by rw [a3, h2]; rfl, a4⟩
        · unfold Rcd.DecodesPayload
          rw [if_neg hh]
          exact ⟨p.1, hi, qs, h1, a1, by rw [a2], by rw [a3, h2]⟩
        · rw [a2]
          exact payload_value (by omega) (by rw [← hn]; exact h1.1) a1.value_lt
        · rw [a3, h2]
          exact hc.setMcorr hk1 hl.1 (hl.2.trans (by rw [hn, Nat.min_eq_right (by omega)]))

/-- An instance whose class can be 32 has the full corrector interval (44_integer_codec.md R231). -/
theorem IntComp.Wf.full {c : IntComp} (h : c.Wf) (h32 : c.corrBits = 32) :
    c.corrMin = -2 ^ 31 ∧ c.corrRange = 0#32 := by
  have hd := IntComp.derive_eq_iff.mp h.derived
  rw [h32] at hd
  unfold IntComp.derive at hd
  split_ifs at hd with h1 h2
  · have hr := h.rng
    simp only [h1, false_or] at hr
    have := (rangeBits_bounds hr).2.1
    have := hd.1
    dsimp only at this
    omega
  · have := hd.1
    dsimp only at this
    omega
  · exact ⟨hd.2.2.1.symm, hd.2.1.symm⟩

/-- `ic_get_corr` (44_integer_codec.md R237). -/
theorem IntComp.getCorr_spec {c : IntComp} (hc : c.Wf) {ctx : Nat} (hx : ctx < c.contexts) {r : Rcd}
    (h : r.dec.Open) :
    Rcd.Ends (c.getCorr ctx r) fun corr p =>
      Rcd.DecodesCorrector c ctx corr r p.1 p.2 ∧ p.2.Wf ∧ p.2.contexts = c.contexts ∧ p.1.dec.Open := by
  obtain ⟨hm, hn⟩ := hc.mbitsAt hx
  unfold IntComp.getCorr
  refine Rcd.Ends.bind (σ := Rcd × IntComp) (p := fun k p =>
    Rcd.DecodesSymbol (c.mbitsAt ctx) k r p.1 ∧ p.2 = c.setMbits ctx ((c.mbitsAt ctx).learn k) ∧
      p.1.dec.Open) ?_ fun k p hp => ?_
  · exact (Rcd.sym_spec hm h).within fun u p hp => ⟨hp.1, by rw [hp.2.1], hp.2.2⟩
  · obtain ⟨r1, c1⟩ := p
    obtain ⟨h1, rfl, h3⟩ := hp
    have hl := SymModel.learn_wf hm h1.1
    have hk : k ≤ c.corrBits := by have := h1.1; omega
    have hk32 := hc.corrBits.2
    have hw : ((c.setMbits ctx ((c.mbitsAt ctx).learn k)).setK k).Wf :=
      (hc.setMbits ctx hl.1 (hl.2.trans hn)).setK hk
    dsimp only
    split_ifs with h0 h32
    · refine Rcd.Ends.value (p := fun b (q : Rcd × IntComp) => Rcd.DecodesBit c.bm0 b r1 q.1 ∧
        q.2 = ((c.setMbits ctx ((c.mbitsAt ctx).learn k)).setK k).setBm0 (c.bm0.learn b) ∧
          q.1.dec.Open) ?_ fun b q hq => ?_
      · exact (Rcd.bit_spec hc.bm0 h3).within fun b q hq => ⟨hq.1, by rw [hq.2.1], hq.2.2⟩
      · obtain ⟨a1, a2, a3⟩ := hq
        refine ⟨⟨k, r1, ?_, h1, ?_⟩, ?_, by rw [a2]; rfl, a3⟩
        · unfold InClass
          rw [if_pos h0]
          have := a1.1
          omega
        · rw [if_pos h0]
          exact ⟨a1, a2⟩
        · rw [a2]; exact hw.setBm0 (BinModel.learn_wf hc.bm0 _)
    · refine (IntComp.getPayload_spec hw (k := k) (by omega) hk h3).value fun u q hq => ?_
      obtain ⟨a1, a2, a3, a4, a5⟩ := hq
      obtain ⟨b1, b2⟩ := corrValue_at (k := k) (by omega) (by omega) a2
      refine ⟨⟨k, r1, b1, h1, ?_⟩, a3, a4, a5⟩
      rw [if_neg h0, if_pos (by omega)]
      exact ⟨u, b2, a1⟩
    · refine .inl ⟨_, _, rfl, ⟨k, r1, ?_, h1, ?_⟩, hw, rfl, h3⟩
      · unfold InClass
        rw [if_neg h0, if_neg (by omega)]
        exact ⟨by omega, (hc.full (by omega)).1⟩
      · rw [if_neg h0, if_neg (by omega)]
        exact ⟨rfl, rfl⟩

/-- A decoding step with a symbol model is the one the model takes. -/
theorem Rcd.DecodesSymbol.sym_eq {m : SymModel} (hm : m.Wf) {v : Nat} {r r' : Rcd}
    (hl : 2 ^ 24 ≤ r.dec.drange.toNat) (h : Rcd.DecodesSymbol m v r r') : r.sym m = .ok v (r', m.learn v) := by
  obtain ⟨h1, h2, h3⟩ := h
  obtain ⟨bs, rest, h4, h5, h6⟩ := h3.eq_shifted
  have hin : r.dec.dvalue.toNat < r.dec.drange.toNat := by
    have h7 := SymModel.part_inside hm h1 hl
    have h8 := h2.2
    unfold SymModel.partLen at h8
    omega
  rw [h6]
  exact Rcd.sym_gives hm hl hin h1 h2 h5 h4

/-- A decoding step with a binary model is the one the model takes. -/
theorem Rcd.DecodesBit.bit_eq {m : BinModel} (hm : m.Wf) {b : Nat} {r r' : Rcd}
    (hl : 2 ^ 24 ≤ r.dec.drange.toNat) (h : Rcd.DecodesBit m b r r') : r.bit m = .ok b (r', m.learn b) := by
  obtain ⟨h1, h2, h3⟩ := h
  obtain ⟨bs, rest, h4, h5, h6⟩ := h3.eq_shifted
  have hin : r.dec.dvalue.toNat < r.dec.drange.toNat := by
    have h7 := BinModel.split_inside hm.prob hl
    have h8 := h2.2
    unfold BinModel.partLow BinModel.partLen at h8
    split_ifs at h8 <;> omega
  rw [h6]
  exact Rcd.bit_gives hm hl hin h1 h2 h5 h4

/-- The payload completes when it can be decoded. -/
theorem IntComp.getPayload_eq {c c' : IntComp} (hc : c.Wf) {k u : Nat} (hk1 : 1 ≤ k) (hk : k ≤ c.corrBits)
    {r r' : Rcd} (hl : 2 ^ 24 ≤ r.dec.drange.toNat) (h : Rcd.DecodesPayload c k u r r' c') :
    c.getPayload k r = .ok u (r', c') := by
  obtain ⟨hm, hn⟩ := hc.mcorrAt hk1 hk
  have hk32 := hc.corrBits.2
  unfold Rcd.DecodesPayload at h
  unfold IntComp.getPayload
  split_ifs at h ⊢ with hh
  · obtain ⟨h1, rfl⟩ := h
    rw [h1.sym_eq hm hl]
    rfl
  · obtain ⟨r1, hi, qs, h1, h2, rfl, rfl⟩ := h
    dsimp only
    rw [h1.sym_eq hm hl, Run.within_ok, Run.bind_ok]
    dsimp only
    rw [Rcd.bits_reads h1.2.2.range (by omega) h2]
    rfl

/-- `ic_get_corr` completes when a corrector can be decoded. -/
theorem IntComp.getCorr_eq {c c' : IntComp} (hc : c.Wf) {ctx : Nat} (hx : ctx < c.contexts) {corr : Int}
    {r r' : Rcd} (hl : 2 ^ 24 ≤ r.dec.drange.toNat) (h : Rcd.DecodesCorrector c ctx corr r r' c') :
    c.getCorr ctx r = .ok corr (r', c') := by
  obtain ⟨hm, hn⟩ := hc.mbitsAt hx
  obtain ⟨k, r1, h1, h2, h3⟩ := h
  have hk : k ≤ c.corrBits := by have := h2.1; omega
  have hlw := SymModel.learn_wf hm h2.1
  have hw : ((c.setMbits ctx ((c.mbitsAt ctx).learn k)).setK k).Wf :=
    (hc.setMbits ctx hlw.1 (hlw.2.trans hn)).setK hk
  have hk32 := hc.corrBits.2
  unfold IntComp.getCorr
  rw [h2.sym_eq hm hl, Run.within_ok, Run.bind_ok]
  dsimp only
  split_ifs at h3 ⊢ with h0 h31 h32
  · obtain ⟨a1, rfl⟩ := h3
    have e : (((c.setMbits ctx ((c.mbitsAt ctx).learn k)).setK k).bm0) = c.bm0 := rfl
    rw [e, a1.bit_eq hc.bm0 h2.2.2.range]
    unfold InClass at h1
    rw [if_pos h0] at h1
    simp only [Run.within_ok, Run.value_ok]
    congr 1
    omega
  · obtain ⟨u, a1, a2⟩ := h3
    rw [IntComp.getPayload_eq hw (by omega) hk h2.2.2.range a2, Run.value_ok,
      atOffset_unique (by omega) (by omega) h1 a1]
  · omega
  · omega
  · obtain ⟨rfl, rfl⟩ := h3
    unfold InClass at h1
    rw [if_neg h0, if_neg (by omega)] at h1
    have e : ((c.setMbits ctx ((c.mbitsAt ctx).learn k)).setK k).corrMin = c.corrMin := rfl
    rw [e, (hc.full (by omega)).1, h1.2]

end Sys2Proof.Machine
end

