-- ==== Sys2Proof/Laws/Slots.lean ====
section
/-! SUPPORT. The laws of the slot files: read after write, and the canonical form every write keeps. -/

namespace Sys2Proof.Machine

variable {α : Type}

@[simp] theorem SlotFile.slot?_nil (i : Nat) : SlotFile.slot? ([] : SlotFile α) i = none := rfl

/-- A slot just written reads as it was written. -/
@[simp] theorem SlotFile.slot?_put_self (i : Nat) (x : α) (f : SlotFile α) :
    SlotFile.slot? (SlotFile.put i x f) i = some x := by
  induction f with
  | nil => simp [SlotFile.put, SlotFile.slot?]
  | cons p rest ih =>
    obtain ⟨j, y⟩ := p
    simp only [SlotFile.put]
    split_ifs with h1 h2
    · simp [SlotFile.slot?]
    · simp [SlotFile.slot?]
    · simp [SlotFile.slot?, h2, ih]

/-- Writing a slot leaves every other slot as it was. -/
theorem SlotFile.slot?_put_of_ne {i k : Nat} (h : k ≠ i) (x : α) (f : SlotFile α) :
    SlotFile.slot? (SlotFile.put i x f) k = SlotFile.slot? f k := by
  induction f with
  | nil => simp [SlotFile.put, SlotFile.slot?, h]
  | cons p rest ih =>
    obtain ⟨j, y⟩ := p
    simp only [SlotFile.put]
    split_ifs with h1 h2
    · simp [SlotFile.slot?, h]
    · subst h2; simp [SlotFile.slot?, h]
    · simp [SlotFile.slot?, ih]

theorem SlotFile.risingAbove_put {b i : Nat} {x : α} {f : SlotFile α} (hb : b < i)
    (h : SlotFile.risingAbove b f = true) : SlotFile.risingAbove b (SlotFile.put i x f) = true := by
  induction f generalizing b with
  | nil => simp [SlotFile.put, SlotFile.risingAbove, hb]
  | cons p rest ih =>
    obtain ⟨j, y⟩ := p
    simp only [SlotFile.risingAbove, Bool.and_eq_true, decide_eq_true_eq] at h
    simp only [SlotFile.put]
    split_ifs with h1 h2
    · simp [SlotFile.risingAbove, hb, h1, h.2]
    · subst h2; simp [SlotFile.risingAbove, hb, h.2]
    · simp [SlotFile.risingAbove, h.1, ih (by omega : j < i) h.2]

/-- Writing a slot keeps the canonical form. -/
theorem SlotFile.wf_put {i : Nat} {x : α} {f : SlotFile α} (h : SlotFile.wf f = true) :
    SlotFile.wf (SlotFile.put i x f) = true := by
  cases f with
  | nil => rfl
  | cons p rest =>
    obtain ⟨j, y⟩ := p
    simp only [SlotFile.wf] at h
    simp only [SlotFile.put]
    split_ifs with h1 h2
    · simp [SlotFile.wf, SlotFile.risingAbove, h1, h]
    · subst h2; simpa [SlotFile.wf] using h
    · simpa [SlotFile.wf] using SlotFile.risingAbove_put (by omega) h

/-- What is listed after a write: the slot written, and slots listed before. -/
theorem SlotFile.mem_put {i : Nat} {x : α} {f : SlotFile α} {p : Nat × α}
    (h : p ∈ SlotFile.put i x f) : p = (i, x) ∨ p ∈ f := by
  induction f with
  | nil => simpa [SlotFile.put] using h
  | cons q rest ih =>
    obtain ⟨j, y⟩ := q
    simp only [SlotFile.put] at h
    split_ifs at h with h1 h2
    · simpa using h
    · simp at h; rcases h with h | h <;> simp [h]
    · simp at h; rcases h with h | h
      · simp [h]
      · rcases ih h with h | h <;> simp [h]

/-- A slot that reads as valid is listed. -/
theorem SlotFile.mem_of_slot? {i : Nat} {x : α} {f : SlotFile α}
    (h : SlotFile.slot? f i = some x) : (i, x) ∈ f := by
  induction f with
  | nil => simp at h
  | cons q rest ih =>
    obtain ⟨j, y⟩ := q
    simp only [SlotFile.slot?] at h
    split_ifs at h with h1
    · simp at h; simp [h1, h]
    · exact List.mem_cons_of_mem _ (ih h)

end Sys2Proof.Machine
end

