-- ==== Sys2Proof/Laws/Exec.lean ====
section
/-! SUPPORT. Every command but `CSR.RD` as its checks, its footprint and its body, and what is true of
all of them at once: which check fails first, which faults a body raises, what a body leaves alone. -/

namespace Sys2Proof.Machine

/-! ## The commands in one form -/

/-- The checks of a command. -/
def checksOf (s : State) : Instr → List Check
  | .bioWr8 v => [require (decide (v.toNat < 2 ^ (8 * 1))) .operandRange]
  | .bioWr16le v | .bioWr16be v => [require (decide (v.toNat < 2 ^ (8 * 2))) .operandRange]
  | .bioWr32le v | .bioWr32be v => [require (decide (v.toNat < 2 ^ (8 * 4))) .operandRange]
  | .bioWr64le v | .bioWr64be v => [require (decide (v.toNat < 2 ^ (8 * 8))) .operandRange]
  | .bioRd8 | .bioRd16le | .bioRd16be | .bioRd32le | .bioRd32be | .bioRd64le | .bioRd64be => []
  | .bmInit i => [s.binIndex i]
  | .smCfg i n =>
    [s.symIndex i,
      require (decide (Config.smMinSymbols ≤ n.toNat) && decide (n.toNat ≤ Config.smMaxSymbols)) .configError]
  | .smInit i => [s.symIndex i, s.symValid i]
  | .encInit => [s.encoderOff]
  | .encSym i v =>
    [s.encoderOn, s.symIndex i, s.symValid i, require (decide (v.toNat < (s.symAt i).n)) .operandRange]
  | .encBit i v => [s.encoderOn, s.binIndex i, s.binValid i, require (decide (v.toNat < 2)) .operandRange]
  | .encBits n v =>
    [s.encoderOn, require (decide (1 ≤ n.toNat) && decide (n.toNat ≤ 32)) .operandRange,
      require (decide (v.toNat < 2 ^ n.toNat)) .operandRange]
  | .encFloat v => [s.encoderOn, require (decide (v.toNat < 2 ^ 32)) .operandRange]
  | .encDouble _ | .encDone => [s.encoderOn]
  | .decInit => []
  | .decSym i => [s.decoderOn, s.symIndex i, s.symValid i, require s.dec.inside .corruptedStream]
  | .decBit i => [s.decoderOn, s.binIndex i, s.binValid i, require s.dec.inside .corruptedStream]
  | .decBits n => [s.decoderOn, require (decide (1 ≤ n.toNat) && decide (n.toNat ≤ 32)) .operandRange]
  | .decFloat | .decDouble | .decDone => [s.decoderOn]
  | .icCfg i bits contexts bitsHigh rng =>
    [s.intIndex i,
      require (decide (bits.toNat ≤ 32)) .configError,
      require (decide (1 ≤ contexts.toNat) && decide (contexts.toNat ≤ s.params.icMaxCtx)) .configError,
      require (decide (1 ≤ bitsHigh.toNat) && decide (bitsHigh.toNat ≤ 11)) .configError,
      require (decide (rng = 0#32) || (decide (2 ≤ rng.toNat) && decide (rng.toNat ≤ 2 ^ 31 - 1))) .configError]
  | .icInit i | .icGetk i => [s.intIndex i, s.intValid i]
  | .icEnc i ctx pred real =>
    [s.encoderOn, s.intIndex i, s.intValid i,
      require (decide (ctx.toNat < (s.intAt i).contexts)) .operandRange,
      require ((s.intAt i).inInterval ((s.intAt i).fold pred real)) .operandRange]
  | .icDec i ctx _ =>
    [s.decoderOn, s.intIndex i, s.intValid i,
      require (decide (ctx.toNat < (s.intAt i).contexts)) .corruptedStream]
  | .csrRd _ => []

/-- The footprint of a command. -/
def touchOf : Instr → Touch
  | .bioWr8 _ | .bioWr16le _ | .bioWr16be _ | .bioWr32le _ | .bioWr32be _ | .bioWr64le _ | .bioWr64be _
  | .bioRd8 | .bioRd16le | .bioRd16be | .bioRd32le | .bioRd32be | .bioRd64le | .bioRd64be
  | .bmInit _ | .smCfg _ _ | .smInit _ | .encInit | .decDone | .icCfg _ _ _ _ _ | .icInit _ | .icGetk _
  | .csrRd _ => {}
  | .encSym i _ => { enc := true, slot := .sym i.toNat }
  | .encBit i _ => { enc := true, slot := .bin i.toNat }
  | .encBits _ _ | .encFloat _ | .encDouble _ => { enc := true }
  | .encDone => { enc := true, encActive := true }
  | .decInit => { dec := true, decActive := true }
  | .decSym i => { dec := true, slot := .sym i.toNat }
  | .decBit i => { dec := true, slot := .bin i.toNat }
  | .decBits _ | .decFloat | .decDouble => { dec := true }
  | .icEnc i _ _ _ => { enc := true, slot := .int i.toNat }
  | .icDec i _ _ => { dec := true, slot := .int i.toNat }

/-- The body of a `BIO` write. -/
def writeBody (nb : Nat) (o : Order) (v : Dword) (s : State) : Run State (Option Dword) :=
  ((Sink.write (toBytes o nb v.toNat) s.sink).within s.withSink).value fun _ => none

/-- The body of a `BIO` read. -/
def readBody (nb : Nat) (o : Order) (s : State) : Run State (Option Dword) :=
  ((Source.read nb s.src).within s.withSrc).value fun bs => some (BitVec.ofNat 64 (ofBytes o bs))

/-- The body of a command. -/
def bodyOf (s : State) : Instr → Run State (Option Dword)
  | .bioWr8 v => writeBody 1 .little v s
  | .bioWr16le v => writeBody 2 .little v s
  | .bioWr16be v => writeBody 2 .big v s
  | .bioWr32le v => writeBody 4 .little v s
  | .bioWr32be v => writeBody 4 .big v s
  | .bioWr64le v => writeBody 8 .little v s
  | .bioWr64be v => writeBody 8 .big v s
  | .bioRd8 => readBody 1 .little s
  | .bioRd16le => readBody 2 .little s
  | .bioRd16be => readBody 2 .big s
  | .bioRd32le => readBody 4 .little s
  | .bioRd32be => readBody 4 .big s
  | .bioRd64le => readBody 8 .little s
  | .bioRd64be => readBody 8 .big s
  | .bmInit i => .ok none (s.withBin i.toNat BinModel.fresh)
  | .smCfg i n => .ok none (s.withSym i.toNat (SymModel.fresh n.toNat))
  | .smInit i => .ok none (s.withSym i.toNat (SymModel.fresh (s.symAt i).n))
  | .encInit => .ok none { s with enc := Encoder.start }
  | .encSym i v =>
    ((s.rce.sym v.toNat (s.symAt i)).within fun p => (s.withRce p.1).withSym i.toNat p.2).value fun _ => none
  | .encBit i v =>
    ((s.rce.bit v.toNat (s.binAt i)).within fun p => (s.withRce p.1).withBin i.toNat p.2).value fun _ => none
  | .encBits n v => ((s.rce.bits n.toNat v.toNat).within s.withRce).value fun _ => none
  | .encFloat v => ((s.rce.halves [half v.toNat 0, half v.toNat 1]).within s.withRce).value fun _ => none
  | .encDouble v =>
    ((s.rce.halves [half v.toNat 0, half v.toNat 1, half v.toNat 2, half v.toNat 3]).within
      s.withRce).value fun _ => none
  | .encDone => (s.rce.done.within s.withRce).value fun _ => none
  | .decInit => (s.rcd.init.within s.withRcd).value fun _ => none
  | .decSym i =>
    ((s.rcd.sym (s.symAt i)).within fun p => (s.withRcd p.1).withSym i.toNat p.2).value
      fun v => some (BitVec.ofNat 64 v)
  | .decBit i =>
    ((s.rcd.bit (s.binAt i)).within fun p => (s.withRcd p.1).withBin i.toNat p.2).value
      fun b => some (BitVec.ofNat 64 b)
  | .decBits n => ((s.rcd.bits n.toNat).within s.withRcd).value fun v => some (BitVec.ofNat 64 v)
  | .decFloat => ((s.rcd.halves 2).within s.withRcd).value fun v => some (BitVec.ofNat 64 v)
  | .decDouble => ((s.rcd.halves 4).within s.withRcd).value fun v => some (BitVec.ofNat 64 v)
  | .decDone => .ok none { s with dec := { s.dec with active := false } }
  | .icCfg i bits contexts bitsHigh rng =>
    .ok none (s.withInt i.toNat (IntComp.configure bits.toNat contexts.toNat bitsHigh.toNat rng))
  | .icInit i => .ok none (s.withInt i.toNat (s.intAt i).reset)
  | .icEnc i ctx pred real =>
    (((s.intAt i).putCorr ctx.toNat ((s.intAt i).fold pred real) s.rce).within
      fun p => (s.withRce p.1).withInt i.toNat p.2).value fun _ => none
  | .icDec i ctx pred =>
    (((s.intAt i).getCorr ctx.toNat s.rcd).within fun p => (s.withRcd p.1).withInt i.toNat p.2).value
      fun corr => some (((s.intAt i).unfold pred corr).zeroExtend 64)
  | .icGetk i => .ok (some (BitVec.ofNat 64 (s.intAt i).k)) s
  | .csrRd _ => .ok none s

/-- Every command but `CSR.RD` is its checks, its footprint and its body. -/
theorem exec_command (s : State) (i : Instr) (h : ∀ a, i ≠ .csrRd a) :
    exec i s = s.command (checksOf s i) (touchOf i) (bodyOf s i) := by
  cases i with
  | csrRd a => exact absurd rfl (h a)
  | _ => rfl

/-- `CSR.RD` at a listed address completes, whatever `FAULT` holds. -/
theorem exec_csrRd {s : State} {a : Index} {c : Csr} (h : Csr.ofAddress a = some c) :
    exec (.csrRd a) s = .next (s.complete (some (s.csr c))) := by
  simp [exec, execCsrRd, h]

/-- The folding of `IC.ENC` as the statements write it. -/
theorem folded_eq (c : IntComp) (pred real : Word) : c.folded pred real = c.fold pred real := rfl

/-! ## The first check that fails -/

set_option linter.unusedSimpArgs false in
/-- Whether every check after the activity, index and configuration checks holds, and which fault is
raised when one does not (60_exceptions.md R275). -/
theorem firstFailure_checksOf (s : State) (i : Instr) (h : ∀ a, i ≠ .csrRd a) :
    firstFailure (checksOf s i) =
      if sequenceOk s i = false then some .sequenceError
      else if indexOk s.params i = false ∨ configOk s.params i = false then some .configError
      else if slotOk s i = false then some .notInitialised
      else if operandsOk s i = false then some .operandRange
      else if streamOk s i = false then some .corruptedStream
      else none := by
  cases i
  case csrRd a => exact absurd rfl (h a)
  case encSym i v | decSym i | smInit i =>
    rcases h0 : SlotFile.slot? s.sm i.toNat with _ | m <;>
      simp [checksOf, State.encoderOn, State.encoderOff, State.decoderOn, State.symIndex, State.binIndex, State.intIndex,
    State.symValid, State.binValid, State.intValid, firstFailure_require, firstFailure_nil, sequenceOk, indexOk, configOk, slotOk,
    operandsOk, streamOk, State.symAt, State.binAt, State.intAt, Decoder.inside, folded_eq, IntComp.inInterval, h0] <;>
      split_ifs <;> first | (simp_all; done) | omega
  case encBit i v | decBit i =>
    rcases h0 : SlotFile.slot? s.bm i.toNat with _ | m <;>
      simp [checksOf, State.encoderOn, State.encoderOff, State.decoderOn, State.symIndex, State.binIndex, State.intIndex,
    State.symValid, State.binValid, State.intValid, firstFailure_require, firstFailure_nil, sequenceOk, indexOk, configOk, slotOk,
    operandsOk, streamOk, State.symAt, State.binAt, State.intAt, Decoder.inside, folded_eq, IntComp.inInterval, h0] <;>
      split_ifs <;> first | (simp_all; done) | omega
  case icInit i | icGetk i | icEnc i ctx pred real | icDec i ctx pred =>
    rcases h0 : SlotFile.slot? s.ic i.toNat with _ | m <;>
      simp [checksOf, State.encoderOn, State.encoderOff, State.decoderOn, State.symIndex, State.binIndex, State.intIndex,
    State.symValid, State.binValid, State.intValid, firstFailure_require, firstFailure_nil, sequenceOk, indexOk, configOk, slotOk,
    operandsOk, streamOk, State.symAt, State.binAt, State.intAt, Decoder.inside, folded_eq, IntComp.inInterval, h0] <;>
      split_ifs <;> first | (simp_all; done) | (simp_all; omega) | (simp_all; rename_i hd; have := of_decide_eq_true hd; omega)
  case icCfg i bits contexts bitsHigh rng =>
    have hr : rng = 0#32 ↔ rng.toNat = 0 := by constructor <;> intro h <;> bv_omega
    simp [checksOf, State.intIndex, firstFailure_require, sequenceOk, indexOk, configOk, slotOk, operandsOk,
      streamOk, hr]
    split_ifs <;> first | rfl | omega
  case bioWr64le v | bioWr64be v =>
    have := v.isLt
    simp [checksOf, sequenceOk, indexOk, configOk, slotOk, operandsOk, streamOk]
    omega
  all_goals
    simp [checksOf, State.encoderOn, State.encoderOff, State.decoderOn, State.symIndex, State.binIndex, State.intIndex,
    State.symValid, State.binValid, State.intValid, firstFailure_require, firstFailure_nil, sequenceOk, indexOk, configOk, slotOk,
    operandsOk, streamOk, State.symAt, State.binAt, State.intAt, Decoder.inside, folded_eq, IntComp.inInterval] <;>
      split_ifs <;> first | (simp_all; done) | omega

/-! ## Which faults a body raises -/

/-- A micro-operation raises none but these faults. -/
def Run.RaisesOnly {σ α : Type} (good : FaultCode → Prop) (m : Run σ α) : Prop :=
  ∀ f s, m = .raised f s → good f

section
variable {σ τ α β : Type} {good : FaultCode → Prop}

theorem Run.RaisesOnly.ok (a : α) (s : σ) : Run.RaisesOnly good (.ok a s) := by intro f s h; cases h

theorem Run.RaisesOnly.bind {m : Run σ α} {k : α → σ → Run σ β} (h : m.RaisesOnly good)
    (hk : ∀ a s, (k a s).RaisesOnly good) : (m.bind k).RaisesOnly good := by
  intro f s hb
  rcases Run.bind_eq_raised.1 hb with h1 | ⟨a, s1, _, h1⟩
  · exact h f s h1
  · exact hk a s1 f s h1

theorem Run.RaisesOnly.within {m : Run σ α} (g : σ → τ) (h : m.RaisesOnly good) :
    (m.within g).RaisesOnly good := by
  intro f s hb
  obtain ⟨s1, h1, _⟩ := Run.within_eq_raised.1 hb
  exact h f s1 h1

theorem Run.RaisesOnly.value {m : Run σ α} (g : α → β) (h : m.RaisesOnly good) :
    (m.value g).RaisesOnly good := fun f s hb => h f s (Run.value_eq_raised.1 hb)

theorem Run.RaisesOnly.mono {good' : FaultCode → Prop} {m : Run σ α} (h : m.RaisesOnly good)
    (hg : ∀ f, good f → good' f) : m.RaisesOnly good' := fun f s hb => hg f (h f s hb)

end

/-- The faults an execution can raise (60_exceptions.md R278). -/
def InExecution (f : FaultCode) : Prop := f = .corruptedStream ∨ f = .unexpectedEndOfInput ∨ f = .ioError

/-- The faults a source can raise (60_exceptions.md R290, R291). -/
def AtSource (f : FaultCode) : Prop := f = .unexpectedEndOfInput ∨ f = .ioError

theorem Sink.write_raises (b : List Byte) (k : Sink) : (Sink.write b k).RaisesOnly (· = .ioError) := by
  intro f s h
  unfold Sink.write at h
  split at h <;> simp_all

theorem Source.next_raises (p : Source) : p.next.RaisesOnly AtSource := by
  intro f s h
  unfold Source.next at h
  split at h <;> simp_all [AtSource]

theorem Source.read_raises (n : Nat) (p : Source) : (Source.read n p).RaisesOnly AtSource := by
  induction n generalizing p with
  | zero => exact .ok _ _
  | succ n ih => exact (Source.next_raises p).bind fun b p1 => (ih p1).value _

theorem Rce.flush_raises (r : Rce) : r.flush.RaisesOnly (· = .ioError) :=
  ((Sink.write_raises _ _).within _).bind fun _ _ => .ok _ _

theorem Rce.putByte_raises (b : Byte) (r : Rce) : (r.putByte b).RaisesOnly (· = .ioError) := by
  unfold Rce.putByte
  dsimp only
  split
  · exact Rce.flush_raises _
  · exact .ok _ _

theorem Rce.putBytes_raises (bs : List Byte) (r : Rce) : (Rce.putBytes bs r).RaisesOnly (· = .ioError) := by
  induction bs generalizing r with
  | nil => exact .ok _ _
  | cons b bs ih => exact (Rce.putByte_raises b r).bind fun _ r1 => ih r1

theorem Rce.shiftOut_raises (b : Byte) (r : Rce) : (r.shiftOut b).RaisesOnly (· = .ioError) := by
  unfold Rce.shiftOut
  split_ifs
  · exact .ok _ _
  · exact .ok _ _
  · exact (Rce.putBytes_raises _ _).bind fun _ _ => .ok _ _

theorem Rce.add_raises (x : Word) (r : Rce) : (r.add x).RaisesOnly (· = .ioError) := by
  unfold Rce.add Rce.carry
  dsimp only
  split_ifs
  · exact .ok _ _
  · exact (Rce.putBytes_raises _ _).bind fun _ _ => .ok _ _
  · exact .ok _ _

theorem Rce.renormTurns_raises (n : Nat) (r : Rce) : (Rce.renormTurns n r).RaisesOnly (· = .ioError) := by
  induction n generalizing r with
  | zero => intro f s h; cases h
  | succ n ih =>
    refine (Rce.shiftOut_raises _ _).bind fun _ r1 => ?_
    split_ifs
    · exact .ok _ _
    · exact ih _

theorem Rce.renormIfSmall_raises (r : Rce) : r.renormIfSmall.RaisesOnly (· = .ioError) := by
  unfold Rce.renormIfSmall
  split_ifs
  · exact Rce.renormTurns_raises _ _
  · exact .ok _ _

theorem Rce.narrow_raises (x len : Word) (r : Rce) : (r.narrow x len).RaisesOnly (· = .ioError) :=
  (Rce.add_raises _ _).bind fun _ _ => Rce.renormIfSmall_raises _

theorem Rce.lit_raises (n v : Nat) (r : Rce) : (r.lit n v).RaisesOnly (· = .ioError) :=
  (Rce.add_raises _ _).bind fun _ _ => Rce.renormIfSmall_raises _

theorem Rce.halves_raises (hs : List Nat) (r : Rce) : (Rce.halves hs r).RaisesOnly (· = .ioError) := by
  induction hs generalizing r with
  | nil => exact .ok _ _
  | cons h hs ih => exact (Rce.lit_raises _ _ _).bind fun _ r1 => ih r1

theorem Rce.bits_raises (n v : Nat) (r : Rce) : (r.bits n v).RaisesOnly (· = .ioError) := by
  unfold Rce.bits
  split_ifs
  · exact (Rce.lit_raises _ _ _).bind fun _ _ => Rce.lit_raises _ _ _
  · exact Rce.lit_raises _ _ _

theorem Rce.sym_raises (v : Nat) (m : SymModel) (r : Rce) : (r.sym v m).RaisesOnly (· = .ioError) :=
  ((Rce.narrow_raises _ _ _).within _).bind fun _ _ => .ok _ _

theorem Rce.bit_raises (b : Nat) (m : BinModel) (r : Rce) : (r.bit b m).RaisesOnly (· = .ioError) := by
  unfold Rce.bit
  dsimp only
  split_ifs
  · exact ((Rce.renormIfSmall_raises _).within _).bind fun _ _ => .ok _ _
  · exact ((Rce.narrow_raises _ _ _).within _).bind fun _ _ => .ok _ _

theorem Rce.pad_raises (n : Nat) (r : Rce) : (Rce.pad n r).RaisesOnly (· = .ioError) := by
  induction n generalizing r with
  | zero => exact .ok _ _
  | succ n ih => exact (Rce.shiftOut_raises _ _).bind fun _ r1 => ih r1

theorem Rce.done_raises (r : Rce) : r.done.RaisesOnly (· = .ioError) := by
  refine .bind ?_ fun _ r1 => .bind ?_ fun _ r2 => ?_
  · unfold Rce.finalBytes
    split_ifs
    · exact (Rce.add_raises _ _).bind fun _ _ => (Rce.renormTurns_raises _ _).bind fun _ _ => Rce.pad_raises _ _
    · exact (Rce.add_raises _ _).bind fun _ _ => (Rce.renormTurns_raises _ _).bind fun _ _ => Rce.pad_raises _ _
  · refine .bind ?_ fun _ _ => .ok _ _
    split_ifs
    · exact Rce.putBytes_raises _ _
    · exact .ok _ _
  · refine .bind ?_ fun _ _ => .ok _ _
    split_ifs
    · exact .ok _ _
    · exact Rce.flush_raises _

theorem Rcd.renormTurns_raises (l : List SrcAnswer) (n : Dword) (d : Decoder) :
    (Rcd.renormTurns l n d).RaisesOnly AtSource := by
  induction l generalizing n d with
  | nil => intro f s h; cases h; exact .inl rfl
  | cons a l ih =>
    cases a with
    | byte b =>
      unfold Rcd.renormTurns
      split_ifs
      · exact .ok _ _
      · exact ih _ _
    | endOfInput => intro f s h; cases h; exact .inl rfl
    | ioError => intro f s h; cases h; exact .inr rfl

theorem Rcd.renormIfSmall_raises (r : Rcd) : r.renormIfSmall.RaisesOnly InExecution := by
  unfold Rcd.renormIfSmall
  split_ifs
  · exact (Rcd.renormTurns_raises _ _ _).mono fun _ h => .inr h
  · exact .ok _ _

theorem Rcd.init_raises (r : Rcd) : r.init.RaisesOnly InExecution :=
  (((Source.read_raises _ _).mono fun _ h => .inr h).within _).bind fun _ _ => .ok _ _

theorem Rcd.lit_raises (n : Nat) (r : Rcd) : (r.lit n).RaisesOnly InExecution := by
  refine (Rcd.renormIfSmall_raises _).bind fun _ r1 => ?_
  split_ifs
  · exact .ok _ _
  · intro f s h; cases h; exact .inl rfl

theorem Rcd.halves_raises (n : Nat) (r : Rcd) : (Rcd.halves n r).RaisesOnly InExecution := by
  induction n generalizing r with
  | zero => exact .ok _ _
  | succ n ih => exact (Rcd.lit_raises _ _).bind fun _ r1 => (ih r1).value _

theorem Rcd.bits_raises (n : Nat) (r : Rcd) : (r.bits n).RaisesOnly InExecution := by
  unfold Rcd.bits
  split_ifs
  · exact (Rcd.lit_raises _ _).bind fun _ _ => (Rcd.lit_raises _ _).value _
  · exact Rcd.lit_raises _ _

theorem Rcd.sym_raises (m : SymModel) (r : Rcd) : (r.sym m).RaisesOnly InExecution := by
  unfold Rcd.sym
  split_ifs
  · exact ((Rcd.renormIfSmall_raises _).within _).bind fun _ _ => .ok _ _
  · intro f s h; cases h; exact .inl rfl

theorem Rcd.bit_raises (m : BinModel) (r : Rcd) : (r.bit m).RaisesOnly InExecution := by
  unfold Rcd.bit
  dsimp only
  split_ifs
  · exact ((Rcd.renormIfSmall_raises _).within _).bind fun _ _ => .ok _ _
  · exact ((Rcd.renormIfSmall_raises _).within _).bind fun _ _ => .ok _ _
  · intro f s h; cases h; exact .inl rfl

theorem IntComp.putPayload_raises (c : IntComp) (k u : Nat) (r : Rce) :
    (c.putPayload k u r).RaisesOnly (· = .ioError) := by
  unfold IntComp.putPayload
  split_ifs
  · exact (Rce.sym_raises _ _ _).within _
  · exact ((Rce.sym_raises _ _ _).within _).bind fun _ _ => (Rce.bits_raises _ _ _).within _

theorem IntComp.putCorr_raises (c : IntComp) (ctx : Nat) (corr : Int) (r : Rce) :
    (c.putCorr ctx corr r).RaisesOnly (· = .ioError) := by
  refine ((Rce.sym_raises _ _ _).within _).bind fun _ p => ?_
  split_ifs
  · exact (Rce.bit_raises _ _ _).within _
  · exact IntComp.putPayload_raises _ _ _ _
  · exact .ok _ _

theorem IntComp.getPayload_raises (c : IntComp) (k : Nat) (r : Rcd) :
    (c.getPayload k r).RaisesOnly InExecution := by
  unfold IntComp.getPayload
  split_ifs
  · exact (Rcd.sym_raises _ _).within _
  · exact ((Rcd.sym_raises _ _).within _).bind fun _ _ => ((Rcd.bits_raises _ _).within _).value _

theorem IntComp.getCorr_raises (c : IntComp) (ctx : Nat) (r : Rcd) :
    (c.getCorr ctx r).RaisesOnly InExecution := by
  refine ((Rcd.sym_raises _ _).within _).bind fun _ p => ?_
  dsimp only
  split_ifs
  · exact ((Rcd.bit_raises _ _).within _).value _
  · exact (IntComp.getPayload_raises _ _ _).value _
  · exact .ok _ _

/-- A body raises none but the three execution faults. -/
theorem bodyOf_raises (s : State) (i : Instr) : (bodyOf s i).RaisesOnly InExecution := by
  have hw : ∀ {σ α : Type} {m : Run σ α}, m.RaisesOnly (· = .ioError) → m.RaisesOnly InExecution :=
    fun h => h.mono fun _ h => .inr (.inr h)
  cases i with
  | bioWr8 | bioWr16le | bioWr16be | bioWr32le | bioWr32be | bioWr64le | bioWr64be =>
    exact hw (((Sink.write_raises _ _).within _).value _)
  | bioRd8 | bioRd16le | bioRd16be | bioRd32le | bioRd32be | bioRd64le | bioRd64be =>
    exact (((Source.read_raises _ _).mono fun _ h => .inr h).within _).value _
  | encSym => exact hw (((Rce.sym_raises _ _ _).within _).value _)
  | encBit => exact hw (((Rce.bit_raises _ _ _).within _).value _)
  | encBits => exact hw (((Rce.bits_raises _ _ _).within _).value _)
  | encFloat | encDouble => exact hw (((Rce.halves_raises _ _).within _).value _)
  | encDone => exact hw (((Rce.done_raises _).within _).value _)
  | decInit => exact ((Rcd.init_raises _).within _).value _
  | decSym => exact ((Rcd.sym_raises _ _).within _).value _
  | decBit => exact ((Rcd.bit_raises _ _).within _).value _
  | decBits => exact ((Rcd.bits_raises _ _).within _).value _
  | decFloat | decDouble => exact ((Rcd.halves_raises _ _).within _).value _
  | icEnc => exact hw (((IntComp.putCorr_raises _ _ _ _).within _).value _)
  | icDec => exact ((IntComp.getCorr_raises _ _ _).within _).value _
  | _ => exact .ok _ _

/-! ## What a body leaves alone -/

/-- A state that differs from another at most in what a command reaches (20_memory.md R73, R74,
60_exceptions.md R278). -/
structure Kept (i : Instr) (s t : State) : Prop where
  params : t.params = s.params
  res : t.res = s.res
  fault : t.fault = s.fault
  port : t.port = s.port
  responses : t.responses = s.responses
  enc : usesEncoder i = false → t.enc = s.enc
  dec : usesDecoder i = false → t.dec = s.dec
  sink : usesSink i = false → t.sink = s.sink
  src : usesSource i = false → t.src = s.src
  bm : ∀ k, binWritten i ≠ some k → SlotFile.slot? t.bm k = SlotFile.slot? s.bm k
  sm : ∀ k, symWritten i ≠ some k → SlotFile.slot? t.sm k = SlotFile.slot? s.sm k
  ic : ∀ k, intWritten i ≠ some k → SlotFile.slot? t.ic k = SlotFile.slot? s.ic k

theorem Kept.rfl {i : Instr} {s : State} : Kept i s s :=
  ⟨by rfl, by rfl, by rfl, by rfl, by rfl, fun _ => by rfl, fun _ => by rfl, fun _ => by rfl, fun _ => by rfl,
    fun _ _ => by rfl, fun _ _ => by rfl, fun _ _ => by rfl⟩

/-- Where a micro-operation ended, well or not. -/
def Run.EndsAt {σ α : Type} (m : Run σ α) (t : σ) : Prop := (∃ a, m = .ok a t) ∨ ∃ f, m = .raised f t

theorem Run.EndsAt.of_value {σ α β : Type} {m : Run σ α} {g : α → β} {t : σ} (h : (m.value g).EndsAt t) :
    m.EndsAt t := by
  rcases h with ⟨a, h⟩ | ⟨f, h⟩
  · obtain ⟨b, h, _⟩ := Run.value_eq_ok.1 h; exact .inl ⟨b, h⟩
  · exact .inr ⟨f, Run.value_eq_raised.1 h⟩

theorem Run.EndsAt.of_within {σ τ α : Type} {m : Run σ α} {g : σ → τ} {t : τ} (h : (m.within g).EndsAt t) :
    ∃ s, g s = t := by
  rcases h with ⟨a, h⟩ | ⟨f, h⟩
  · obtain ⟨b, _, h⟩ := Run.within_eq_ok.1 h; exact ⟨b, h⟩
  · obtain ⟨b, _, h⟩ := Run.within_eq_raised.1 h; exact ⟨b, h⟩

theorem Kept.withRce {i : Instr} {s : State} (h : usesEncoder i = true) (h' : usesSink i = true) (r : Rce) :
    Kept i s (s.withRce r) := by
  constructor <;> simp [h, h']

theorem Kept.withRcd {i : Instr} {s : State} (h : usesDecoder i = true) (h' : usesSource i = true) (r : Rcd) :
    Kept i s (s.withRcd r) := by
  constructor <;> simp [h, h']

theorem Kept.withSink {i : Instr} {s : State} (h : usesSink i = true) (k : Sink) : Kept i s (s.withSink k) := by
  constructor <;> simp [h]

theorem Kept.withSrc {i : Instr} {s : State} (h : usesSource i = true) (p : Source) : Kept i s (s.withSrc p) := by
  constructor <;> simp [h]

theorem Kept.withBin {i : Instr} {s t : State} (h : Kept i s t) {j : Nat} (hj : binWritten i = some j)
    (m : BinModel) : Kept i s (t.withBin j m) := by
  obtain ⟨h1, h2, h3, h4, h5, h6, h7, h8, h9, h10, h11, h12⟩ := h
  refine ⟨h1, h2, h3, h4, h5, h6, h7, h8, h9, fun k hk => ?_, h11, h12⟩
  rw [State.withBin_bm, SlotFile.slot?_put_of_ne (fun he => hk (by rw [hj, he])), h10 k hk]

theorem Kept.withSym {i : Instr} {s t : State} (h : Kept i s t) {j : Nat} (hj : symWritten i = some j)
    (m : SymModel) : Kept i s (t.withSym j m) := by
  obtain ⟨h1, h2, h3, h4, h5, h6, h7, h8, h9, h10, h11, h12⟩ := h
  refine ⟨h1, h2, h3, h4, h5, h6, h7, h8, h9, h10, fun k hk => ?_, h12⟩
  rw [State.withSym_sm, SlotFile.slot?_put_of_ne (fun he => hk (by rw [hj, he])), h11 k hk]

theorem Kept.withInt {i : Instr} {s t : State} (h : Kept i s t) {j : Nat} (hj : intWritten i = some j)
    (m : IntComp) : Kept i s (t.withInt j m) := by
  obtain ⟨h1, h2, h3, h4, h5, h6, h7, h8, h9, h10, h11, h12⟩ := h
  refine ⟨h1, h2, h3, h4, h5, h6, h7, h8, h9, h10, h11, fun k hk => ?_⟩
  rw [State.withInt_ic, SlotFile.slot?_put_of_ne (fun he => hk (by rw [hj, he])), h12 k hk]

/-- A body leaves alone what its command does not reach, whether it completes or raises. -/
theorem bodyOf_kept {s t : State} {i : Instr} (h : (bodyOf s i).EndsAt t) : Kept i s t := by
  have hok : ∀ {d : Option Dword} {u : State}, (Run.ok d u : Run State (Option Dword)).EndsAt t → t = u := by
    rintro d u (⟨a, h⟩ | ⟨f, h⟩) <;> cases h
    rfl
  have hv : ∀ {σ α : Type} {m : Run σ α} {g : σ → State} {k : α → Option Dword},
      ((m.within g).value k).EndsAt t → (∀ r, Kept i s (g r)) → Kept i s t := by
    intro σ α m g k h hg
    obtain ⟨r, rfl⟩ := (Run.EndsAt.of_value h).of_within
    exact hg r
  cases i with
  | bmInit j => rw [hok h]; exact Kept.rfl.withBin rfl _
  | smCfg j n | smInit j => rw [hok h]; exact Kept.rfl.withSym rfl _
  | icCfg | icInit => rw [hok h]; exact Kept.rfl.withInt rfl _
  | icGetk | csrRd => rw [hok h]; exact Kept.rfl
  | encInit | decDone => rw [hok h]; constructor <;> simp [usesEncoder, usesDecoder]
  | bioWr8 | bioWr16le | bioWr16be | bioWr32le | bioWr32be | bioWr64le | bioWr64be =>
    exact hv h fun _ => .withSink rfl _
  | bioRd8 | bioRd16le | bioRd16be | bioRd32le | bioRd32be | bioRd64le | bioRd64be =>
    exact hv h fun _ => .withSrc rfl _
  | encSym => exact hv h fun _ => (Kept.withRce rfl rfl _).withSym rfl _
  | encBit => exact hv h fun _ => (Kept.withRce rfl rfl _).withBin rfl _
  | icEnc => exact hv h fun _ => (Kept.withRce rfl rfl _).withInt rfl _
  | encBits | encFloat | encDouble | encDone => exact hv h fun _ => .withRce rfl rfl _
  | decSym => exact hv h fun _ => (Kept.withRcd rfl rfl _).withSym rfl _
  | decBit => exact hv h fun _ => (Kept.withRcd rfl rfl _).withBin rfl _
  | icDec => exact hv h fun _ => (Kept.withRcd rfl rfl _).withInt rfl _
  | decInit | decBits | decFloat | decDouble => exact hv h fun _ => .withRcd rfl rfl _

/-- An execution fault leaves alone what its command does not reach, for every free value
(60_exceptions.md R278). -/
theorem State.settle_kept {s t : State} {i : Instr} (h : Kept i s t) : Kept i s (s.settle (touchOf i) t) := by
  have key : ∀ (u : Residue) (rest : List Residue), Kept i s
      { t with
        residues := rest
        enc := (touchOf i).encoder t.enc u.enc
        dec := (touchOf i).decoder t.dec u.dec
        src := Source.tookAtMost u.srcTaken s.src t.src } := by
    intro u rest
    obtain ⟨h1, h2, h3, h4, h5, h6, h7, h8, h9, h10, h11, h12⟩ := h
    refine ⟨h1, h2, h3, h4, h5, fun he => ?_, fun he => ?_, h8, fun he => ?_, h10, h11, h12⟩
    · have : (touchOf i).enc = false := by cases i <;> simp_all [usesEncoder, touchOf]
      simp [Touch.encoder, this, h6 he]
    · have : (touchOf i).dec = false := by cases i <;> simp_all [usesDecoder, touchOf]
      simp [Touch.decoder, this, h7 he]
    · simp [Source.tookAtMost, h9 he]
  unfold State.settle
  split
  · exact h
  · rename_i u rest _
    unfold Touch.slots
    split
    · exact key _ _
    · rename_i j hj
      exact (key u rest).withBin (by revert hj; clear h key; cases i <;> intro hj <;> cases hj; all_goals rfl) _
    · rename_i j hj
      exact (key u rest).withSym (by revert hj; clear h key; cases i <;> intro hj <;> cases hj; all_goals rfl) _
    · rename_i j hj
      exact (key u rest).withInt (by revert hj; clear h key; cases i <;> intro hj <;> cases hj; all_goals rfl) _

/-! ## Everything a command can do -/

/-- Everything a command but `CSR.RD` can do, in one list: refused; a precise fault, in the order of the
checks; success; an execution fault; or a renormalisation that never ends (60_exceptions.md R275 to
R278). -/
theorem exec_cases (s : State) (i : Instr) (h : ∀ a, i ≠ .csrRd a) :
    (s.fault ≠ 0#8 ∧ exec i s = .next s.refuse) ∨
    (s.fault = 0#8 ∧ ∃ f, firstFailure (checksOf s i) = some f ∧ exec i s = .next (s.raisePrecise f)) ∨
    (s.fault = 0#8 ∧ firstFailure (checksOf s i) = none ∧ ∃ d t, bodyOf s i = .ok d t ∧ Kept i s t ∧
      exec i s = .next (t.complete d)) ∨
    (s.fault = 0#8 ∧ firstFailure (checksOf s i) = none ∧ ∃ f t, bodyOf s i = .raised f t ∧ InExecution f ∧
      Kept i s (s.settle (touchOf i) t) ∧ exec i s = .next ((s.settle (touchOf i) t).raisePrecise f)) ∨
    (s.fault = 0#8 ∧ firstFailure (checksOf s i) = none ∧ bodyOf s i = .diverged ∧
      exec i s = .fault .renormDiverges) := by
  rw [exec_command s i h]
  rcases s.command_cases (checksOf s i) (touchOf i) (bodyOf s i) with
    h1 | ⟨h1, f, h2, h3⟩ | ⟨h1, h2, d, t, h3, h4⟩ | ⟨h1, h2, f, t, h3, h4⟩ | h1
  · exact .inl h1
  · exact .inr (.inl ⟨h1, f, h2, h3⟩)
  · exact .inr (.inr (.inl ⟨h1, h2, d, t, h3, bodyOf_kept (.inl ⟨d, h3⟩), h4⟩))
  · exact .inr (.inr (.inr (.inl ⟨h1, h2, f, t, h3, bodyOf_raises s i f t h3,
      State.settle_kept (bodyOf_kept (.inr ⟨f, h3⟩)), h4⟩)))
  · exact .inr (.inr (.inr (.inr h1)))

end Sys2Proof.Machine
end

