-- ==== Sys2Proof/Laws/Activity.lean ====
section
/-! SUPPORT. No coding step touches the activity of its coder, whether it goes on or raises
(60_exceptions.md R272, R278): only the commands that start and end a chunk write it. -/

namespace Sys2Proof.Machine

variable {σ τ α β : Type}

/-- Wherever a micro-operation ends, well or not, this holds there. -/
def Run.EndsIn (m : Run σ α) (good : σ → Prop) : Prop := ∀ t, m.EndsAt t → good t

theorem Run.EndsIn.ok {good : σ → Prop} {a : α} {t : σ} (h : good t) : (Run.ok a t).EndsIn good := by
  rintro u (⟨b, e⟩ | ⟨f, e⟩) <;> cases e
  exact h

theorem Run.EndsIn.raised {good : σ → Prop} {f : FaultCode} {t : σ} (h : good t) :
    (Run.raised f t : Run σ α).EndsIn good := by
  rintro u (⟨b, e⟩ | ⟨g, e⟩) <;> cases e
  exact h

theorem Run.EndsIn.diverged {good : σ → Prop} : (Run.diverged : Run σ α).EndsIn good := by
  rintro u (⟨b, e⟩ | ⟨f, e⟩) <;> cases e

theorem Run.EndsIn.bind {good : σ → Prop} {m : Run σ α} {k : α → σ → Run σ β} (hm : m.EndsIn good)
    (hk : ∀ a s, good s → (k a s).EndsIn good) : (m.bind k).EndsIn good := by
  cases m with
  | ok a s => exact hk a s (hm s (.inl ⟨a, rfl⟩))
  | raised f s => exact .raised (hm s (.inr ⟨f, rfl⟩))
  | diverged => exact .diverged

theorem Run.EndsIn.within {good : σ → Prop} {good' : τ → Prop} {m : Run σ α} {g : σ → τ} (hm : m.EndsIn good)
    (hg : ∀ s, good s → good' (g s)) : (m.within g).EndsIn good' := by
  cases m with
  | ok a s => exact .ok (hg s (hm s (.inl ⟨a, rfl⟩)))
  | raised f s => exact .raised (hg s (hm s (.inr ⟨f, rfl⟩)))
  | diverged => exact .diverged

theorem Run.EndsIn.value {good : σ → Prop} {m : Run σ α} {g : α → β} (hm : m.EndsIn good) :
    (m.value g).EndsIn good := by
  cases m with
  | ok a s => exact .ok (hm s (.inl ⟨a, rfl⟩))
  | raised f s => exact .raised (hm s (.inr ⟨f, rfl⟩))
  | diverged => exact .diverged

/-! ## The encoder -/

/-- The activity is `b`. -/
abbrev Rce.Acts (b : Bool) (r : Rce) : Prop := r.enc.active = b

variable {b : Bool}

theorem Rce.flush_acts {r : Rce} (h : r.Acts b) : r.flush.EndsIn (Rce.Acts b) :=
  Run.EndsIn.bind (Run.EndsIn.within (good := fun _ => True) (fun _ _ => trivial) fun _ _ => h)
    fun _ _ h1 => .ok h1

theorem Rce.putByte_acts (x : Byte) {r : Rce} (h : r.Acts b) : (r.putByte x).EndsIn (Rce.Acts b) := by
  unfold Rce.putByte
  dsimp only
  split
  · exact Rce.flush_acts h
  · exact .ok h

theorem Rce.putBytes_acts (xs : List Byte) {r : Rce} (h : r.Acts b) : (Rce.putBytes xs r).EndsIn (Rce.Acts b) := by
  induction xs generalizing r with
  | nil => exact .ok h
  | cons x xs ih => exact (Rce.putByte_acts x h).bind fun _ _ h1 => ih h1

theorem Rce.shiftOut_acts (x : Byte) {r : Rce} (h : r.Acts b) : (r.shiftOut x).EndsIn (Rce.Acts b) := by
  unfold Rce.shiftOut
  split_ifs
  · exact .ok h
  · exact .ok h
  · exact (Rce.putBytes_acts _ h).bind fun _ _ h1 => .ok h1

theorem Rce.add_acts (x : Word) {r : Rce} (h : r.Acts b) : (r.add x).EndsIn (Rce.Acts b) := by
  unfold Rce.add Rce.carry
  dsimp only
  split_ifs
  · exact .ok h
  · refine Run.EndsIn.bind (good := Rce.Acts b) ?_ fun _ _ h1 => .ok h1
    exact Rce.putBytes_acts _ h
  · exact .ok h

theorem Rce.renormTurns_acts (fuel : Nat) {r : Rce} (h : r.Acts b) :
    (Rce.renormTurns fuel r).EndsIn (Rce.Acts b) := by
  induction fuel generalizing r with
  | zero => exact .diverged
  | succ n ih =>
    refine (Rce.shiftOut_acts _ h).bind fun _ r1 h1 => ?_
    split
    · exact .ok h1
    · exact ih h1

theorem Rce.renormIfSmall_acts {r : Rce} (h : r.Acts b) : r.renormIfSmall.EndsIn (Rce.Acts b) := by
  unfold Rce.renormIfSmall
  split
  · exact Rce.renormTurns_acts 3 h
  · exact .ok h

theorem Rce.narrow_acts (x len : Word) {r : Rce} (h : r.Acts b) : (r.narrow x len).EndsIn (Rce.Acts b) :=
  (Rce.add_acts x h).bind fun _ _ h1 => Rce.renormIfSmall_acts h1

theorem Rce.lit_acts (n v : Nat) {r : Rce} (h : r.Acts b) : (r.lit n v).EndsIn (Rce.Acts b) :=
  Run.EndsIn.bind (Rce.add_acts _ h) fun _ _ h1 => Rce.renormIfSmall_acts h1

theorem Rce.halves_acts (hs : List Nat) {r : Rce} (h : r.Acts b) : (Rce.halves hs r).EndsIn (Rce.Acts b) := by
  induction hs generalizing r with
  | nil => exact .ok h
  | cons x hs ih => exact (Rce.lit_acts _ x h).bind fun _ _ h1 => ih h1

theorem Rce.bits_acts (n v : Nat) {r : Rce} (h : r.Acts b) : (r.bits n v).EndsIn (Rce.Acts b) := by
  unfold Rce.bits
  split
  · exact (Rce.lit_acts _ _ h).bind fun _ _ h1 => Rce.lit_acts _ _ h1
  · exact Rce.lit_acts n v h

/-- The same with a model or an instance beside the encoder. -/
abbrev Rce.ActsWith (b : Bool) (p : Rce × α) : Prop := p.1.enc.active = b

theorem Rce.sym_acts (v : Nat) (m : SymModel) {r : Rce} (h : r.Acts b) :
    (r.sym v m).EndsIn (Rce.ActsWith b) := by
  refine Run.EndsIn.bind (Run.EndsIn.within (good := Rce.Acts b) ?_ fun _ h1 => h1) fun _ _ h1 => .ok h1
  exact Rce.narrow_acts _ _ h

theorem Rce.bit_acts (v : Nat) (m : BinModel) {r : Rce} (h : r.Acts b) :
    (r.bit v m).EndsIn (Rce.ActsWith b) := by
  unfold Rce.bit
  dsimp only
  split
  · refine Run.EndsIn.bind (Run.EndsIn.within (good := Rce.Acts b) ?_ fun _ h1 => h1) fun _ _ h1 => .ok h1
    exact Rce.renormIfSmall_acts h
  · refine Run.EndsIn.bind (Run.EndsIn.within (good := Rce.Acts b) ?_ fun _ h1 => h1) fun _ _ h1 => .ok h1
    exact Rce.narrow_acts _ _ h

theorem IntComp.putCorr_acts (c : IntComp) (ctx : Nat) (corr : Int) {r : Rce} (h : r.Acts b) :
    (c.putCorr ctx corr r).EndsIn (Rce.ActsWith b) := by
  refine Run.EndsIn.bind ((Rce.sym_acts _ _ h).within fun _ h1 => h1) fun _ p h1 => ?_
  split_ifs
  · exact (Rce.bit_acts _ _ h1).within fun _ h2 => h2
  · unfold IntComp.putPayload
    split_ifs
    · exact (Rce.sym_acts _ _ h1).within fun _ h2 => h2
    · exact Run.EndsIn.bind ((Rce.sym_acts _ _ h1).within fun _ h2 => h2) fun _ q h2 =>
        (Rce.bits_acts _ _ h2).within fun _ h3 => h3
  · exact .ok h1

/-! ## The decoder -/

/-- The activity is `b`. -/
abbrev Rcd.Acts (b : Bool) (r : Rcd) : Prop := r.dec.active = b

theorem Rcd.renormTurns_acts (l : List SrcAnswer) (n : Dword) {d : Decoder} (h : d.active = b) :
    (Rcd.renormTurns l n d).EndsIn (Rcd.Acts b) := by
  induction l generalizing n d with
  | nil => exact .raised h
  | cons a l ih =>
    match a with
    | .endOfInput => exact .raised h
    | .ioError => exact .raised h
    | .byte x =>
      rw [Rcd.renormTurns]
      split
      · exact .ok h
      · exact ih _ h

theorem Rcd.renormIfSmall_acts {r : Rcd} (h : r.Acts b) : r.renormIfSmall.EndsIn (Rcd.Acts b) := by
  unfold Rcd.renormIfSmall
  split
  · exact Rcd.renormTurns_acts _ _ h
  · exact .ok h

theorem Rcd.lit_acts (n : Nat) {r : Rcd} (h : r.Acts b) : (r.lit n).EndsIn (Rcd.Acts b) := by
  refine Run.EndsIn.bind (Rcd.renormIfSmall_acts (r := r.setInterval _ _) h) fun _ r1 h1 => ?_
  split
  · exact .ok h1
  · exact .raised h1

theorem Rcd.halves_acts (n : Nat) {r : Rcd} (h : r.Acts b) : (Rcd.halves n r).EndsIn (Rcd.Acts b) := by
  induction n generalizing r with
  | zero => exact .ok h
  | succ n ih => exact (Rcd.lit_acts _ h).bind fun _ _ h1 => (ih h1).value

theorem Rcd.bits_acts (n : Nat) {r : Rcd} (h : r.Acts b) : (r.bits n).EndsIn (Rcd.Acts b) := by
  unfold Rcd.bits
  split
  · exact (Rcd.lit_acts _ h).bind fun _ _ h1 => (Rcd.lit_acts _ h1).value
  · exact Rcd.lit_acts n h

/-- The same with a model or an instance beside the decoder. -/
abbrev Rcd.ActsWith (b : Bool) (p : Rcd × α) : Prop := p.1.dec.active = b

theorem Rcd.sym_acts (m : SymModel) {r : Rcd} (h : r.Acts b) : (r.sym m).EndsIn (Rcd.ActsWith b) := by
  unfold Rcd.sym
  split
  · refine Run.EndsIn.bind (Run.EndsIn.within (good := Rcd.Acts b) ?_ fun _ h1 => h1) fun _ _ h1 => .ok h1
    exact Rcd.renormIfSmall_acts h
  · exact .raised h

theorem Rcd.bit_acts (m : BinModel) {r : Rcd} (h : r.Acts b) : (r.bit m).EndsIn (Rcd.ActsWith b) := by
  unfold Rcd.bit
  dsimp only
  split
  · split
    all_goals
      refine Run.EndsIn.bind (Run.EndsIn.within (good := Rcd.Acts b) ?_ fun _ h1 => h1) fun _ _ h1 => .ok h1
      exact Rcd.renormIfSmall_acts h
  · exact .raised h

theorem IntComp.getCorr_acts (c : IntComp) (ctx : Nat) {r : Rcd} (h : r.Acts b) :
    (c.getCorr ctx r).EndsIn (Rcd.ActsWith b) := by
  refine Run.EndsIn.bind ((Rcd.sym_acts _ h).within fun _ h1 => h1) fun k p h1 => ?_
  dsimp only
  split_ifs
  · exact Run.EndsIn.value (Run.EndsIn.within (Rcd.bit_acts _ h1) fun _ h2 => h2)
  · refine Run.EndsIn.value ?_
    unfold IntComp.getPayload
    split_ifs
    · exact (Rcd.sym_acts _ h1).within fun _ h2 => h2
    · exact Run.EndsIn.bind ((Rcd.sym_acts _ h1).within fun _ h2 => h2) fun _ q h2 =>
        Run.EndsIn.value (Run.EndsIn.within (Rcd.bits_acts _ h2) fun _ h3 => h3)
  · exact .ok h1

/-! ## The commands -/

/-- What an execution fault leaves of the activity of a coder: what it was at the `raise`, unless the
command's footprint names it. -/
theorem State.settle_active (s t : State) (f : Touch) :
    (f.encActive = false → (s.settle f t).enc.active = t.enc.active) ∧
      (f.decActive = false → (s.settle f t).dec.active = t.dec.active) := by
  have hslots : ∀ (u : Residue) (v : State), (f.slots u v).enc = v.enc ∧ (f.slots u v).dec = v.dec := by
    intro u v
    unfold Touch.slots
    split <;> exact ⟨rfl, rfl⟩
  unfold State.settle
  split
  · exact ⟨fun _ => rfl, fun _ => rfl⟩
  · rw [(hslots _ _).1, (hslots _ _).2]
    refine ⟨fun h => ?_, fun h => ?_⟩
    · simp only [Touch.encoder]
      split
      · simp [h]
      · rfl
    · simp only [Touch.decoder]
      split
      · simp [h]
      · rfl

/-- The body of every command but the two that start and end a chunk leaves the encoder's activity. -/
theorem bodyOf_encActive {s : State} {i : Instr} (h1 : i ≠ .encInit) (h2 : i ≠ .encDone) :
    (bodyOf s i).EndsIn fun t => t.enc.active = s.enc.active := by
  by_cases hu : usesEncoder i = true
  · have hr : s.rce.Acts s.enc.active := rfl
    cases i with
    | encInit => exact absurd rfl h1
    | encDone => exact absurd rfl h2
    | encSym idx v => exact Run.EndsIn.value (Run.EndsIn.within (Rce.sym_acts _ _ hr) fun _ h => h)
    | encBit idx v => exact Run.EndsIn.value (Run.EndsIn.within (Rce.bit_acts _ _ hr) fun _ h => h)
    | encBits n v => exact Run.EndsIn.value (Run.EndsIn.within (Rce.bits_acts _ _ hr) fun _ h => h)
    | encFloat v | encDouble v => exact Run.EndsIn.value (Run.EndsIn.within (Rce.halves_acts _ hr) fun _ h => h)
    | icEnc idx ctx pred real => exact Run.EndsIn.value (Run.EndsIn.within (IntComp.putCorr_acts _ _ _ hr) fun _ h => h)
    | _ => exact absurd hu Bool.false_ne_true
  · intro t ht
    rw [(bodyOf_kept ht).enc (by simpa using hu)]

/-- The body of every command but the two that start and end decoding leaves the decoder's activity. -/
theorem bodyOf_decActive {s : State} {i : Instr} (h1 : i ≠ .decInit) (h2 : i ≠ .decDone) :
    (bodyOf s i).EndsIn fun t => t.dec.active = s.dec.active := by
  by_cases hu : usesDecoder i = true
  · have hr : s.rcd.Acts s.dec.active := rfl
    cases i with
    | decInit => exact absurd rfl h1
    | decDone => exact absurd rfl h2
    | decSym idx => exact Run.EndsIn.value (Run.EndsIn.within (Rcd.sym_acts _ hr) fun _ h => h)
    | decBit idx => exact Run.EndsIn.value (Run.EndsIn.within (Rcd.bit_acts _ hr) fun _ h => h)
    | decBits n => exact Run.EndsIn.value (Run.EndsIn.within (Rcd.bits_acts _ hr) fun _ h => h)
    | decFloat | decDouble => exact Run.EndsIn.value (Run.EndsIn.within (Rcd.halves_acts _ hr) fun _ h => h)
    | icDec idx ctx pred => exact Run.EndsIn.value (Run.EndsIn.within (IntComp.getCorr_acts _ _ hr) fun _ h => h)
    | _ => exact absurd hu Bool.false_ne_true
  · intro t ht
    rw [(bodyOf_kept ht).dec (by simpa using hu)]

end Sys2Proof.Machine
end

