-- ==== Sys2Proof/Laws/Answers.lean ====
section
/-! SUPPORT. How a command depends on the answers of its port: what it does with one list of answers
says what it does with every other that begins alike, and what it does where the port breaks off
(60_exceptions.md R278, R291; 70_reset_and_hazards.md R300). -/

namespace Sys2Proof.Machine

variable {σ τ α β : Type}

/-! ## The sink -/

/-- A part of the state that holds the sink: the sink in it, and its answers replaced. -/
structure SinkView (σ : Type) where
  port : σ → Sink
  answered : List SinkAnswer → σ → σ

/-- Replacing the answers does that and nothing else. -/
structure SinkView.Lawful (v : SinkView σ) : Prop where
  port_answered : ∀ l t, v.port (v.answered l t) = { v.port t with answers := l }
  answered_answered : ∀ l l' t, v.answered l (v.answered l' t) = v.answered l t
  answered_port : ∀ t, v.answered (v.port t).answers t = t

/-- The encoder's part of the state. -/
def Rce.sinkView : SinkView Rce :=
  { port := Rce.sink, answered := fun l r => { r with sink := { r.sink with answers := l } } }

/-- The encoder's part of the state with a model or an instance beside it. -/
def Rce.sinkViewWith (α : Type) : SinkView (Rce × α) :=
  { port := fun p => p.1.sink, answered := fun l p => (Rce.sinkView.answered l p.1, p.2) }

theorem Rce.sinkView_lawful : Rce.sinkView.Lawful := ⟨fun _ _ => rfl, fun _ _ _ => rfl, fun _ => rfl⟩

theorem Rce.sinkViewWith_lawful : (Rce.sinkViewWith α).Lawful :=
  ⟨fun _ _ => rfl, fun _ _ _ => rfl, fun _ => rfl⟩

/-- The run of a micro-operation for each list of answers of the sink, from a sink that holds `start`:
where it goes on it has made some bursts, each accepted; it goes on so for all answers that accept
these; and where one of them is refused it raises `IoError`, with the bursts before it and some prefix
of it at the sink (60_exceptions.md R278, R291). -/
def SinkView.Scripted (v : SinkView σ) (start : List (List Byte)) (m : List SinkAnswer → Run σ α) : Prop :=
  ∀ as a t, m as = .ok a t → ∃ made, (v.port t).bursts = start ++ made ∧
    (v.port t).answers = as.drop made.length ∧ (∀ x ∈ as.take made.length, x = .accept) ∧
    (∀ bs, (∀ x ∈ bs.take made.length, x = .accept) →
      m bs = .ok a (v.answered (bs.drop made.length) t)) ∧
    ∀ n kept rest, n < made.length → ∃ t' taken missing,
      m (List.replicate n .accept ++ .ioError kept :: rest) = .raised .ioError t' ∧
        made[n]? = some (taken ++ missing) ∧
        (v.port t').bursts = start ++ made.take n ++ (if kept = 0 then [] else [taken]) ∧
        (kept = 0 → taken = []) ∧ (v.port t').answers = rest

/-- A micro-operation that makes no burst. -/
theorem SinkView.Scripted.ok {v : SinkView σ} (hv : v.Lawful) (a : α) (t : σ) :
    v.Scripted (v.port t).bursts fun l => .ok a (v.answered l t) := by
  intro as a' t' h
  cases h
  refine ⟨[], by simp [hv.port_answered], by simp [hv.port_answered], by simp, ?_, by simp⟩
  intro bs _
  simp [hv.answered_answered]

/-- One after another. -/
theorem SinkView.Scripted.bind {v : SinkView σ} (hv : v.Lawful) {start : List (List Byte)}
    {m : List SinkAnswer → Run σ α} {k : α → σ → Run σ β} (hm : v.Scripted start m)
    (hk : ∀ a t, v.Scripted (v.port t).bursts fun l => k a (v.answered l t)) :
    v.Scripted start fun l => (m l).bind k := by
  intro as b u h
  obtain ⟨a, t, hma, hku⟩ := Run.bind_eq_ok.mp h
  obtain ⟨made, e1, e2, e3, e4, e5⟩ := hm as a t hma
  obtain ⟨made', g1, g2, g3, g4, g5⟩ := hk a t (v.port t).answers b u (by simpa [hv.answered_port] using hku)
  refine ⟨made ++ made', by rw [g1, e1, List.append_assoc], ?_, ?_, ?_, ?_⟩
  · rw [g2, e2, List.drop_drop, List.length_append]
  · intro x hx
    rw [List.length_append, List.take_add, List.mem_append] at hx
    rcases hx with hx | hx
    · exact e3 x hx
    · exact g3 x (by rwa [e2])
  · intro bs hbs
    rw [List.length_append, List.take_add] at hbs
    have := g4 (bs.drop made.length) fun x hx => hbs x (List.mem_append_right _ hx)
    simp only [e4 bs fun x hx => hbs x (List.mem_append_left _ hx), Run.bind_ok]
    exact this.trans (by rw [List.drop_drop, List.length_append])
  · intro n kept rest hn
    by_cases hlt : n < made.length
    · obtain ⟨t', taken, missing, f1, f2, f3, f4⟩ := e5 n kept rest hlt
      refine ⟨t', taken, missing, by simp only [f1, Run.bind_raised], ?_, ?_, f4⟩
      · rw [List.getElem?_append_left hlt]; exact f2
      · rw [f3, List.take_append_of_le_length (by omega)]
    · have hge : made.length ≤ n := by omega
      rw [List.length_append] at hn
      obtain ⟨t', taken, missing, f1, f2, f3, f4⟩ := g5 (n - made.length) kept rest (by omega)
      have hs : (List.replicate n SinkAnswer.accept ++ .ioError kept :: rest).drop made.length =
          List.replicate (n - made.length) .accept ++ .ioError kept :: rest := by
        rw [List.drop_append_of_le_length (by simpa using hge)]
        simp
      have ht : ∀ x ∈ (List.replicate n SinkAnswer.accept ++ .ioError kept :: rest).take made.length,
          x = SinkAnswer.accept := by
        rw [List.take_append_of_le_length (by simpa using hge)]
        intro x hx
        exact List.eq_of_mem_replicate (List.mem_of_mem_take hx)
      refine ⟨t', taken, missing, ?_, ?_, ?_, f4⟩
      · simp only [e4 _ ht, hs, Run.bind_ok]; exact f1
      · rw [List.getElem?_append_right hge]; exact f2
      · rw [f3, e1, List.take_append, List.take_of_length_le hge]
        simp [List.append_assoc]

/-- In a larger part of the state. -/
theorem SinkView.Scripted.within {v : SinkView σ} {w : SinkView τ} {start : List (List Byte)}
    {m : List SinkAnswer → Run σ α} {g : σ → τ} (hm : v.Scripted start m)
    (hp : ∀ t, w.port (g t) = v.port t) (ha : ∀ l t, w.answered l (g t) = g (v.answered l t)) :
    w.Scripted start fun l => (m l).within g := by
  intro as a u h
  obtain ⟨t, hma, rfl⟩ := Run.within_eq_ok.mp h
  obtain ⟨made, e1, e2, e3, e4, e5⟩ := hm as a t hma
  refine ⟨made, by rw [hp, e1], by rw [hp, e2], e3, fun bs hbs => by simp [e4 bs hbs, ha], ?_⟩
  intro n kept rest hn
  obtain ⟨t', taken, missing, f1, f2, f3, f4, f5⟩ := e5 n kept rest hn
  exact ⟨g t', taken, missing, by simp [f1], f2, by rw [hp, f3], f4, by rw [hp, f5]⟩

/-- With its result computed further. -/
theorem SinkView.Scripted.value {v : SinkView σ} {start : List (List Byte)} {m : List SinkAnswer → Run σ α}
    {g : α → β} (hm : v.Scripted start m) : v.Scripted start fun l => (m l).value g := by
  intro as b t h
  obtain ⟨a, hma, rfl⟩ := Run.value_eq_ok.mp h
  obtain ⟨made, e1, e2, e3, e4, e5⟩ := hm as a t hma
  refine ⟨made, e1, e2, e3, fun bs hbs => by simp [e4 bs hbs], ?_⟩
  intro n kept rest hn
  obtain ⟨t', taken, missing, f1, f2⟩ := e5 n kept rest hn
  exact ⟨t', taken, missing, by simp [f1], f2⟩

/-! ## The micro-operations of the encoder -/

/-- The sink alone. -/
def Sink.view : SinkView Sink := { port := id, answered := fun l k => { k with answers := l } }

/-- One burst. -/
theorem Sink.write_scripted (b : List Byte) (k : Sink) :
    Sink.view.Scripted k.bursts fun l => Sink.write b { k with answers := l } := by
  have htakes : ∀ l : List SinkAnswer, (∀ x ∈ l.take 1, x = .accept) →
      Sink.write b { k with answers := l } = .ok () ({ k with answers := l.drop 1 }.took b) := by
    rintro (_ | ⟨a, rest⟩) h
    · rfl
    · rw [h a (by simp)]; rfl
  intro as a t h
  have hacc : ∀ x ∈ as.take 1, x = .accept := by
    rcases as with _ | ⟨x, rest⟩
    · simp
    · match x with
      | .accept => simp
      | .ioError 0 => simp [Sink.write] at h
      | .ioError (n + 1) => simp [Sink.write] at h
  replace h := (htakes as hacc).symm.trans h
  cases h
  refine ⟨[b], rfl, rfl, hacc, fun bs hbs => htakes bs hbs, ?_⟩
  intro n kept rest hn
  obtain rfl : n = 0 := by simpa using hn
  rcases kept with _ | kept
  · exact ⟨_, [], b, rfl, by simp, by simp [Sink.view], by simp, rfl⟩
  · exact ⟨_, b.take (kept + 1), b.drop (kept + 1), rfl, by simp, by simp [Sink.view, Sink.took], by simp, rfl⟩

/-- A micro-operation of the encoder is scripted, whatever state it begins in. -/
abbrev Rce.Scripted (f : Rce → Run Rce Unit) : Prop :=
  ∀ r, Rce.sinkView.Scripted r.sink.bursts fun l => f (Rce.sinkView.answered l r)

theorem Rce.Scripted.ok {g : Rce → Rce} (hs : ∀ r, (g r).sink = r.sink)
    (hg : ∀ l r, g (Rce.sinkView.answered l r) = Rce.sinkView.answered l (g r)) :
    Rce.Scripted fun r => .ok () (g r) := by
  intro r
  have := SinkView.Scripted.ok Rce.sinkView_lawful () (g r)
  simp only [hg]
  rwa [show (Rce.sinkView.port (g r)).bursts = r.sink.bursts from congrArg Sink.bursts (hs r)] at this

theorem Rce.Scripted.bind {f : Rce → Run Rce Unit} {k : Unit → Rce → Run Rce Unit} (hf : Rce.Scripted f)
    (hk : Rce.Scripted (k ())) : Rce.Scripted fun r => (f r).bind k :=
  fun r => (hf r).bind Rce.sinkView_lawful fun _ t => hk t

/-- A case distinction that does not look at the sink, and a register written first. -/
theorem Rce.Scripted.ite {c : Rce → Prop} [DecidablePred c] {f g : Rce → Run Rce Unit}
    (hc : ∀ l r, c (Rce.sinkView.answered l r) ↔ c r) (hf : Rce.Scripted f) (hg : Rce.Scripted g) :
    Rce.Scripted fun r => if c r then f r else g r := by
  intro r
  simp only [hc]
  split
  · exact hf r
  · exact hg r

theorem Rce.Scripted.after {f : Rce → Run Rce Unit} {g : Rce → Rce} (hf : Rce.Scripted f)
    (hs : ∀ r, (g r).sink = r.sink)
    (hg : ∀ l r, g (Rce.sinkView.answered l r) = Rce.sinkView.answered l (g r)) :
    Rce.Scripted fun r => f (g r) := by
  intro r
  have := hf (g r)
  simpa only [hg, hs] using this

theorem Rce.flush_scripted : Rce.Scripted Rce.flush := by
  apply Rce.Scripted.bind
  · intro r
    exact (Sink.write_scripted r.enc.outBuf r.sink).within (w := Rce.sinkView)
      (g := fun k => ({ r with sink := k } : Rce)) (fun _ => rfl) fun _ _ => rfl
  · exact Rce.Scripted.ok (fun _ => rfl) fun _ _ => rfl

theorem Rce.putByte_scripted (b : Byte) : Rce.Scripted (Rce.putByte b) := by
  apply Rce.Scripted.ite (fun _ _ => Iff.rfl)
  · exact Rce.flush_scripted.after (fun _ => rfl) fun _ _ => rfl
  · exact Rce.Scripted.ok (fun _ => rfl) fun _ _ => rfl

theorem Rce.putBytes_scripted (bs : List Byte) : Rce.Scripted (Rce.putBytes bs) := by
  induction bs with
  | nil => exact Rce.Scripted.ok (g := id) (fun _ => rfl) fun _ _ => rfl
  | cons b rest ih => exact (Rce.putByte_scripted b).bind ih

/-- A value of the registers used. -/
theorem Rce.Scripted.reading {γ : Type} {f : γ → Rce → Run Rce Unit} {h : Rce → γ}
    (hf : ∀ c, Rce.Scripted (f c)) (hh : ∀ l r, h (Rce.sinkView.answered l r) = h r) :
    Rce.Scripted fun r => f (h r) r := by
  intro r
  simp only [hh]
  exact hf (h r) r

theorem Rce.shiftOut_scripted (b : Byte) : Rce.Scripted (Rce.shiftOut b) := by
  apply Rce.Scripted.ite (fun _ _ => Iff.rfl)
  · exact Rce.Scripted.ok (fun _ => rfl) fun _ _ => rfl
  · apply Rce.Scripted.ite (c := fun _ => b = 0xFF#8) (fun _ _ => Iff.rfl)
    · exact Rce.Scripted.ok (fun _ => rfl) fun _ _ => rfl
    · intro r
      exact (Rce.putBytes_scripted (r.enc.cache :: List.replicate r.enc.pending 0xFF#8)).bind
        (k := fun _ r1 => .ok () { r1 with enc := { r1.enc with pending := 0, cache := b } })
        (Rce.Scripted.ok (fun _ => rfl) fun _ _ => rfl) r

theorem Rce.carry_scripted : Rce.Scripted Rce.carry := by
  apply Rce.Scripted.ite (fun _ _ => Iff.rfl)
  · exact Rce.Scripted.ok (fun _ => rfl) fun _ _ => rfl
  · intro r
    exact ((Rce.putBytes_scripted ((r.enc.cache + 1#8) :: List.replicate (r.enc.pending - 1) 0x00#8)).after
      (g := fun r => { r with enc := { r.enc with cache := r.enc.cache + 1#8 } })
      (fun _ => rfl) fun _ _ => rfl).bind
        (k := fun _ r2 => .ok () { r2 with enc := { r2.enc with cache := 0x00#8, pending := 0 } })
        (Rce.Scripted.ok (fun _ => rfl) fun _ _ => rfl) r

theorem Rce.add_scripted (x : Word) : Rce.Scripted (Rce.add x) := by
  apply Rce.Scripted.ite (fun _ _ => Iff.rfl)
  · exact Rce.carry_scripted.after (fun _ => rfl) fun _ _ => rfl
  · exact Rce.Scripted.ok (fun _ => rfl) fun _ _ => rfl

theorem Rce.renormTurns_scripted (fuel : Nat) : Rce.Scripted (Rce.renormTurns fuel) := by
  induction fuel with
  | zero => intro r as a t h; cases h
  | succ n ih =>
    refine Rce.Scripted.bind (f := fun r => r.shiftOut r.topByte) ?_ ?_
    · exact Rce.Scripted.reading (f := Rce.shiftOut) Rce.shiftOut_scripted fun _ _ => rfl
    · apply Rce.Scripted.ite (fun _ _ => Iff.rfl)
      · exact Rce.Scripted.ok (fun _ => rfl) fun _ _ => rfl
      · exact ih.after (fun _ => rfl) fun _ _ => rfl

theorem Rce.renormIfSmall_scripted : Rce.Scripted Rce.renormIfSmall := by
  apply Rce.Scripted.ite (fun _ _ => Iff.rfl)
  · exact Rce.renormTurns_scripted 3
  · exact Rce.Scripted.ok (g := id) (fun _ => rfl) fun _ _ => rfl

theorem Rce.narrow_scripted (x len : Word) : Rce.Scripted (Rce.narrow x len) :=
  (Rce.add_scripted x).bind (Rce.renormIfSmall_scripted.after (fun _ => rfl) fun _ _ => rfl)

theorem Rce.lit_scripted (n v : Nat) : Rce.Scripted (Rce.lit n v) := by
  refine Rce.Scripted.bind ?_ Rce.renormIfSmall_scripted
  refine Rce.Scripted.reading (h := fun r => word (mul32 v (r.setRange (r.enc.range >>> n)).enc.range.toNat))
    (f := fun c r => (r.setRange (r.enc.range >>> n)).add c) ?_ fun _ _ => rfl
  intro c
  exact (Rce.add_scripted c).after (g := fun r => r.setRange (r.enc.range >>> n)) (fun _ => rfl) fun _ _ => rfl

theorem Rce.halves_scripted (hs : List Nat) : Rce.Scripted (Rce.halves hs) := by
  induction hs with
  | nil => exact Rce.Scripted.ok (g := id) (fun _ => rfl) fun _ _ => rfl
  | cons h rest ih => exact (Rce.lit_scripted _ h).bind ih

theorem Rce.bits_scripted (n v : Nat) : Rce.Scripted (Rce.bits n v) := by
  apply Rce.Scripted.ite (c := fun _ => Config.litSplit < n) (fun _ _ => Iff.rfl)
  · exact (Rce.lit_scripted _ _).bind (Rce.lit_scripted _ _)
  · exact Rce.lit_scripted n v

theorem Rce.pad_scripted (n : Nat) : Rce.Scripted (Rce.pad n) := by
  induction n with
  | zero => exact Rce.Scripted.ok (g := id) (fun _ => rfl) fun _ _ => rfl
  | succ n ih => exact (Rce.shiftOut_scripted 0x00#8).bind ih

theorem Rce.done_scripted : Rce.Scripted Rce.done := by
  have hfinal : ∀ (x len : Word) (n : Nat), Rce.Scripted fun r =>
      (r.add x).bind fun _ r1 => (r1.setRange len).renorm.bind fun _ r2 => r2.pad n := fun x len n =>
    (Rce.add_scripted x).bind (((Rce.renormTurns_scripted 3).after (g := fun r => r.setRange len)
      (fun _ => rfl) fun _ _ => rfl).bind (Rce.pad_scripted n))
  refine Rce.Scripted.bind (f := Rce.finalBytes) ?_ (Rce.Scripted.bind (f := Rce.drain) ?_ ?_)
  · exact Rce.Scripted.ite (fun _ _ => Iff.rfl) (hfinal _ _ 3) (hfinal _ _ 2)
  · refine Rce.Scripted.bind ?_ (Rce.Scripted.ok (fun _ => rfl) fun _ _ => rfl)
    apply Rce.Scripted.ite (fun _ _ => Iff.rfl)
    · exact Rce.Scripted.reading (f := Rce.putBytes) Rce.putBytes_scripted fun _ _ => rfl
    · exact Rce.Scripted.ok (g := id) (fun _ => rfl) fun _ _ => rfl
  · refine Rce.Scripted.bind ?_ (Rce.Scripted.ok (fun _ => rfl) fun _ _ => rfl)
    apply Rce.Scripted.ite (fun _ _ => Iff.rfl)
    · exact Rce.Scripted.ok (g := id) (fun _ => rfl) fun _ _ => rfl
    · exact Rce.flush_scripted

/-! ## With a model or an instance beside the encoder -/

/-- A step on a model: the interval first, then the model. -/
theorem Rce.Scripted.beside {f : Rce → Run Rce Unit} (hf : Rce.Scripted f) (c : α) (g : α → α) (r : Rce) :
    (Rce.sinkViewWith α).Scripted r.sink.bursts fun l =>
      ((f (Rce.sinkView.answered l r)).within fun r1 => (r1, c)).bind fun _ p => .ok () (p.1, g p.2) := by
  refine SinkView.Scripted.bind Rce.sinkViewWith_lawful ((hf r).within (fun _ => rfl) fun _ _ => rfl) ?_
  intro _ t
  exact SinkView.Scripted.ok Rce.sinkViewWith_lawful () (t.1, g t.2)

theorem Rce.sym_scripted (v : Nat) (m : SymModel) (r : Rce) :
    (Rce.sinkViewWith SymModel).Scripted r.sink.bursts fun l => (Rce.sinkView.answered l r).sym v m :=
  (Rce.narrow_scripted (m.lower v r.enc.range)
    (m.upper v r.enc.range - m.lower v r.enc.range)).beside m (·.learn v) r

theorem Rce.bit_scripted (b : Nat) (m : BinModel) (r : Rce) :
    (Rce.sinkViewWith BinModel).Scripted r.sink.bursts fun l => (Rce.sinkView.answered l r).bit b m := by
  by_cases hb : b = 0
  · subst hb
    exact (Rce.renormIfSmall_scripted.after (g := fun q => q.setRange (m.split r.enc.range)) (fun _ => rfl)
      fun _ _ => rfl).beside m.countZero (·.tick) r
  · have := (Rce.narrow_scripted (m.split r.enc.range) (r.enc.range - m.split r.enc.range)).beside m (·.tick) r
    simp only [Rce.bit, hb, if_false]
    exact this

theorem IntComp.putPayload_scripted (c : IntComp) (k u : Nat) (r : Rce) :
    (Rce.sinkViewWith IntComp).Scripted r.sink.bursts fun l => c.putPayload k u (Rce.sinkView.answered l r) := by
  unfold IntComp.putPayload
  split
  · exact (Rce.sym_scripted u _ r).within (fun _ => rfl) fun _ _ => rfl
  · refine SinkView.Scripted.bind Rce.sinkViewWith_lawful
      ((Rce.sym_scripted _ _ r).within (fun _ => rfl) fun _ _ => rfl) ?_
    intro _ t
    exact (Rce.bits_scripted _ _ t.1).within (g := fun r1 => (r1, t.2)) (fun _ => rfl) fun _ _ => rfl

theorem IntComp.putCorr_scripted (c : IntComp) (ctx : Nat) (corr : Int) (r : Rce) :
    (Rce.sinkViewWith IntComp).Scripted r.sink.bursts fun l => c.putCorr ctx corr (Rce.sinkView.answered l r) := by
  refine SinkView.Scripted.bind Rce.sinkViewWith_lawful
    ((Rce.sym_scripted _ _ r).within (fun _ => rfl) fun _ _ => rfl) ?_
  rintro - ⟨r1, c1⟩
  by_cases h0 : corrClass corr = 0
  · have := (Rce.bit_scripted corr.toNat c1.bm0 r1).within (w := Rce.sinkViewWith IntComp)
      (g := fun q => (q.1, c1.setBm0 q.2)) (fun _ => rfl) fun _ _ => rfl
    simp only [h0, if_true]
    exact this
  · by_cases h32 : corrClass corr < 32
    · have := IntComp.putPayload_scripted c1 (corrClass corr) (corrOffset (corrClass corr) corr) r1
      simp only [h0, h32, if_true, if_false]
      exact this
    · have := SinkView.Scripted.ok (Rce.sinkViewWith_lawful (α := IntComp)) () (r1, c1)
      simp only [h0, h32, if_false]
      exact this

/-! ## The commands -/

/-- The whole state. -/
def State.sinkView : SinkView State :=
  { port := State.sink, answered := fun l s => { s with sink := { s.sink with answers := l } } }

theorem State.sinkView_lawful : State.sinkView.Lawful := ⟨fun _ _ => rfl, fun _ _ _ => rfl, fun _ => rfl⟩

/-- The body of every command that writes to the sink is scripted. -/
theorem bodyOf_scripted (s : State) {i : Instr} (h : usesSink i = true) :
    State.sinkView.Scripted s.sink.bursts fun l => bodyOf (State.sinkView.answered l s) i := by
  have hw : ∀ nb o v, State.sinkView.Scripted s.sink.bursts fun l =>
      writeBody nb o v (State.sinkView.answered l s) := fun nb o v =>
    ((Sink.write_scripted _ s.sink).within (w := State.sinkView) (g := s.withSink) (fun _ => rfl)
      fun _ _ => rfl).value
  have hr : ∀ f : Rce → Run Rce Unit, Rce.Scripted f → State.sinkView.Scripted s.sink.bursts fun l =>
      ((f (Rce.sinkView.answered l s.rce)).within s.withRce).value fun _ => (none : Option Dword) := fun f hf =>
    ((hf s.rce).within (w := State.sinkView) (g := s.withRce) (fun _ => rfl) fun _ _ => rfl).value
  cases i with
  | bioWr8 | bioWr16le | bioWr16be | bioWr32le | bioWr32be | bioWr64le | bioWr64be => exact hw _ _ _
  | encSym idx v =>
    exact ((Rce.sym_scripted v.toNat (s.symAt idx) s.rce).within (w := State.sinkView)
      (g := fun p => (s.withRce p.1).withSym idx.toNat p.2) (fun _ => rfl) fun _ _ => rfl).value
  | encBit idx v =>
    exact ((Rce.bit_scripted v.toNat (s.binAt idx) s.rce).within (w := State.sinkView)
      (g := fun p => (s.withRce p.1).withBin idx.toNat p.2) (fun _ => rfl) fun _ _ => rfl).value
  | encBits n v => exact hr _ (Rce.bits_scripted _ _)
  | encFloat v | encDouble v => exact hr _ (Rce.halves_scripted _)
  | encDone => exact hr _ Rce.done_scripted
  | icEnc idx ctx pred real =>
    exact ((IntComp.putCorr_scripted (s.intAt idx) ctx.toNat ((s.intAt idx).fold pred real) s.rce).within
      (w := State.sinkView) (g := fun p => (s.withRce p.1).withInt idx.toNat p.2) (fun _ => rfl)
      fun _ _ => rfl).value
  | _ => exact absurd h Bool.false_ne_true

/-! ## The source -/

/-- A part of the state that holds the source: the source in it, and its answers replaced. -/
structure SourceView (σ : Type) where
  port : σ → Source
  answered : List SrcAnswer → σ → σ

/-- Replacing the answers does that and nothing else. -/
structure SourceView.Lawful (v : SourceView σ) : Prop where
  port_answered : ∀ l t, v.port (v.answered l t) = { v.port t with answers := l }
  answered_answered : ∀ l l' t, v.answered l (v.answered l' t) = v.answered l t
  answered_port : ∀ t, v.answered (v.port t).answers t = t

/-- The run of a micro-operation for each list of answers of the source: where it goes on it has taken
some of them; it goes on so for all answers that begin with these; and where the source breaks off
before the last of them it raises `IoError` there (60_exceptions.md R291). -/
def SourceView.Scripted (v : SourceView σ) (m : List SrcAnswer → Run σ α) : Prop :=
  ∀ as a t, m as = .ok a t → ∃ k, k ≤ as.length ∧ (v.port t).answers = as.drop k ∧
    (∀ bs, bs.take k = as.take k → m bs = .ok a (v.answered (bs.drop k) t)) ∧
    ∀ n, n < k → ∃ t', m (as.take n ++ [.ioError]) = .raised .ioError t' ∧ (v.port t').answers = []

theorem SourceView.Scripted.ok {v : SourceView σ} (hv : v.Lawful) (a : α) (t : σ) :
    v.Scripted fun l => .ok a (v.answered l t) := by
  intro as a' t' h
  cases h
  exact ⟨0, by simp, by simp [hv.port_answered], by simp [hv.answered_answered], by simp⟩

theorem SourceView.Scripted.raised {v : SourceView σ} (f : FaultCode) (g : List SrcAnswer → σ) :
    v.Scripted fun l => (.raised f (g l) : Run σ α) := by
  intro as a' t' h
  cases h

/-- One after another. -/
theorem SourceView.Scripted.bind {v : SourceView σ} (hv : v.Lawful) {m : List SrcAnswer → Run σ α}
    {k : α → σ → Run σ β} (hm : v.Scripted m) (hk : ∀ a t, v.Scripted fun l => k a (v.answered l t)) :
    v.Scripted fun l => (m l).bind k := by
  intro as b u h
  obtain ⟨a, t, hma, hku⟩ := Run.bind_eq_ok.mp h
  obtain ⟨i, e1, e2, e3, e4⟩ := hm as a t hma
  obtain ⟨j, g1, g2, g3, g4⟩ := hk a t (v.port t).answers b u (by simpa [hv.answered_port] using hku)
  rw [e2] at g1 g2 g3 g4
  rw [List.length_drop] at g1
  refine ⟨i + j, by omega, by rw [g2, List.drop_drop], ?_, ?_⟩
  · intro bs hbs
    have h1 : bs.take i = as.take i := by
      have := congrArg (List.take i) hbs
      simpa [List.take_take, Nat.min_eq_left (Nat.le_add_right i j)] using this
    have h2 : (bs.drop i).take j = (as.drop i).take j := by
      have := congrArg (List.drop i) hbs
      simpa [List.drop_take] using this
    simp only [e3 bs h1, Run.bind_ok]
    exact (g3 _ h2).trans (by rw [List.drop_drop])
  · intro n hn
    by_cases hlt : n < i
    · obtain ⟨t', f1, f2⟩ := e4 n hlt
      exact ⟨t', by simp only [f1, Run.bind_raised], f2⟩
    · have hge : i ≤ n := by omega
      have hlen : i ≤ (as.take n).length := by rw [List.length_take]; omega
      obtain ⟨t', f1, f2⟩ := g4 (n - i) (by omega)
      refine ⟨t', ?_, f2⟩
      have h1 : (as.take n ++ [SrcAnswer.ioError]).take i = as.take i := by
        rw [List.take_append_of_le_length hlen, List.take_take, Nat.min_eq_left hge]
      have h2 : (as.take n ++ [SrcAnswer.ioError]).drop i = (as.drop i).take (n - i) ++ [.ioError] := by
        rw [List.drop_append_of_le_length hlen, List.drop_take]
      simp only [e3 _ h1, h2, Run.bind_ok]
      exact f1

/-- In a larger part of the state. -/
theorem SourceView.Scripted.within {v : SourceView σ} {w : SourceView τ} {m : List SrcAnswer → Run σ α}
    {g : σ → τ} (hm : v.Scripted m) (hp : ∀ t, w.port (g t) = v.port t)
    (ha : ∀ l t, w.answered l (g t) = g (v.answered l t)) : w.Scripted fun l => (m l).within g := by
  intro as a u h
  obtain ⟨t, hma, rfl⟩ := Run.within_eq_ok.mp h
  obtain ⟨k, e1, e2, e3, e4⟩ := hm as a t hma
  refine ⟨k, e1, by rw [hp, e2], fun bs hbs => by simp [e3 bs hbs, ha], ?_⟩
  intro n hn
  obtain ⟨t', f1, f2⟩ := e4 n hn
  exact ⟨g t', by simp [f1], by rw [hp, f2]⟩

/-- With its result computed further. -/
theorem SourceView.Scripted.value {v : SourceView σ} {m : List SrcAnswer → Run σ α} {g : α → β}
    (hm : v.Scripted m) : v.Scripted fun l => (m l).value g := by
  intro as b t h
  obtain ⟨a, hma, rfl⟩ := Run.value_eq_ok.mp h
  obtain ⟨k, e1, e2, e3, e4⟩ := hm as a t hma
  refine ⟨k, e1, e2, fun bs hbs => by simp [e3 bs hbs], ?_⟩
  intro n hn
  obtain ⟨t', f1, f2⟩ := e4 n hn
  exact ⟨t', by simp [f1], f2⟩

/-- The source alone. -/
def Source.view : SourceView Source := { port := id, answered := fun l p => { p with answers := l } }

/-- The decoder's part of the state. -/
def Rcd.srcView : SourceView Rcd :=
  { port := Rcd.src, answered := fun l r => { r with src := { r.src with answers := l } } }

/-- The decoder's part of the state with a model or an instance beside it. -/
def Rcd.srcViewWith (α : Type) : SourceView (Rcd × α) :=
  { port := fun p => p.1.src, answered := fun l p => (Rcd.srcView.answered l p.1, p.2) }

theorem Source.view_lawful : Source.view.Lawful := ⟨fun _ _ => rfl, fun _ _ _ => rfl, fun _ => rfl⟩
theorem Rcd.srcView_lawful : Rcd.srcView.Lawful := ⟨fun _ _ => rfl, fun _ _ _ => rfl, fun _ => rfl⟩
theorem Rcd.srcViewWith_lawful : (Rcd.srcViewWith α).Lawful :=
  ⟨fun _ _ => rfl, fun _ _ _ => rfl, fun _ => rfl⟩

/-! ## The micro-operations of the decoder -/

theorem Source.next_scripted (p : Source) :
    Source.view.Scripted fun l => Source.next { p with answers := l } := by
  intro as a t h
  match as, h with
  | [], h => cases h
  | .endOfInput :: _, h => cases h
  | .ioError :: _, h => cases h
  | .byte b :: rest, h =>
    cases h
    refine ⟨1, by simp, rfl, ?_, ?_⟩
    · intro bs hbs
      match bs, hbs with
      | c :: cs, hbs =>
        obtain rfl : c = .byte _ := by simpa using hbs
        rfl
    · intro n hn
      obtain rfl : n = 0 := by omega
      exact ⟨_, rfl, rfl⟩

theorem Source.read_scripted (n : Nat) (p : Source) :
    Source.view.Scripted fun l => Source.read n { p with answers := l } := by
  induction n generalizing p with
  | zero => exact SourceView.Scripted.ok Source.view_lawful [] p
  | succ n ih => exact (Source.next_scripted p).bind Source.view_lawful fun b t => (ih t).value (g := (b :: ·))

/-- A micro-operation of the decoder is scripted, whatever state it begins in. -/
abbrev Rcd.Scripted (f : Rcd → Run Rcd α) : Prop :=
  ∀ r, Rcd.srcView.Scripted fun l => f (Rcd.srcView.answered l r)

theorem Rcd.renormTurns_scripted (n : Dword) (d : Decoder) :
    Rcd.srcView.Scripted fun l => Rcd.renormTurns l n d := by
  intro as
  induction as generalizing n d with
  | nil => intro a t h; cases h
  | cons x rest ih =>
    intro a t h
    match x, h with
    | .endOfInput, h => cases h
    | .ioError, h => cases h
    | .byte b, h =>
      have cut : ∃ t', Rcd.renormTurns ((SrcAnswer.byte b :: rest).take 0 ++ [.ioError]) n d =
          .raised .ioError t' ∧ (Rcd.srcView.port t').answers = [] := ⟨_, rfl, rfl⟩
      by_cases ht : Config.top ≤ (d.shiftIn b).drange.toNat
      · simp only [Rcd.renormTurns, ht, if_true] at h
        cases h
        refine ⟨1, by simp, rfl, ?_, ?_⟩
        · intro bs hbs
          match bs, hbs with
          | c :: cs, hbs =>
            obtain rfl : c = .byte b := by simpa using hbs
            simp only [Rcd.renormTurns, ht, if_true]
            rfl
        · intro k hk
          obtain rfl : k = 0 := by omega
          exact cut
      · simp only [Rcd.renormTurns, ht, if_false] at h
        obtain ⟨k, e1, e2, e3, e4⟩ := ih (n + 1#64) (d.shiftIn b) a t h
        refine ⟨k + 1, by simpa using e1, by simpa using e2, ?_, ?_⟩
        · intro bs hbs
          match bs, hbs with
          | c :: cs, hbs =>
            rw [List.take_succ_cons, List.take_succ_cons, List.cons.injEq] at hbs
            obtain ⟨rfl, hbs⟩ := hbs
            simp only [Rcd.renormTurns, ht, if_false]
            exact e3 cs hbs
        · intro i hi
          rcases i with _ | i
          · exact cut
          · obtain ⟨t', f1, f2⟩ := e4 i (by omega)
            exact ⟨t', by simpa only [List.take_succ_cons, List.cons_append, Rcd.renormTurns, ht, if_false] using f1, f2⟩

theorem Rcd.renormIfSmall_scripted : Rcd.Scripted Rcd.renormIfSmall := by
  intro r
  by_cases h : r.dec.drange.toNat < Config.top
  · have := Rcd.renormTurns_scripted r.src.count r.dec
    simpa only [Rcd.renormIfSmall, Rcd.renorm, Rcd.srcView, h, if_true] using this
  · have := SourceView.Scripted.ok Rcd.srcView_lawful () r
    simpa only [Rcd.renormIfSmall, Rcd.srcView, h, if_false] using this

theorem Rcd.lit_scripted (n : Nat) : Rcd.Scripted (Rcd.lit n) := by
  intro r
  refine SourceView.Scripted.bind Rcd.srcView_lawful (k := fun _ r1 =>
      if udiv r.dec.dvalue.toNat (r.dec.drange >>> n).toNat < 2 ^ n then
        .ok (udiv r.dec.dvalue.toNat (r.dec.drange >>> n).toNat) r1 else .raised .corruptedStream r1)
    (Rcd.renormIfSmall_scripted (r.setInterval (r.dec.dvalue -
      word (mul32 (r.dec.drange >>> n).toNat (udiv r.dec.dvalue.toNat (r.dec.drange >>> n).toNat)))
        (r.dec.drange >>> n))) ?_
  intro _ t
  by_cases h : udiv r.dec.dvalue.toNat (r.dec.drange >>> n).toNat < 2 ^ n
  · have := SourceView.Scripted.ok Rcd.srcView_lawful (udiv r.dec.dvalue.toNat (r.dec.drange >>> n).toNat) t
    simp only [h, if_true]
    exact this
  · simp only [h, if_false]
    exact SourceView.Scripted.raised _ _

theorem Rcd.halves_scripted (n : Nat) : Rcd.Scripted (Rcd.halves n) := by
  induction n with
  | zero => exact fun r => SourceView.Scripted.ok Rcd.srcView_lawful 0 r
  | succ n ih =>
    exact fun r => (Rcd.lit_scripted _ r).bind Rcd.srcView_lawful fun _ t => (ih t).value

theorem Rcd.bits_scripted (n : Nat) : Rcd.Scripted (Rcd.bits n) := by
  intro r
  unfold Rcd.bits
  split
  · exact (Rcd.lit_scripted _ r).bind Rcd.srcView_lawful fun _ t => (Rcd.lit_scripted _ t).value
  · exact Rcd.lit_scripted n r

theorem Rcd.init_scripted : Rcd.Scripted Rcd.init := by
  intro r
  refine SourceView.Scripted.bind Rcd.srcView_lawful
    ((Source.read_scripted 4 r.src).within (g := fun p => ({ r with src := p } : Rcd)) (fun _ => rfl)
      fun _ _ => rfl) ?_
  intro bs t
  exact SourceView.Scripted.ok Rcd.srcView_lawful () { t with dec := Decoder.start bs }

/-- A decoding step on a model: the interval first, then the model. -/
theorem Rcd.Scripted.beside {f : Rcd → Run Rcd Unit} (hf : Rcd.Scripted f) (c : α) (v : β) (g : α → α)
    (r : Rcd) : (Rcd.srcViewWith α).Scripted fun l =>
      ((f (Rcd.srcView.answered l r)).within fun r1 => (r1, c)).bind fun _ p => .ok v (p.1, g p.2) := by
  refine SourceView.Scripted.bind Rcd.srcViewWith_lawful ((hf r).within (fun _ => rfl) fun _ _ => rfl) ?_
  intro _ t
  exact SourceView.Scripted.ok Rcd.srcViewWith_lawful v (t.1, g t.2)

theorem Rcd.sym_scripted (m : SymModel) (r : Rcd) :
    (Rcd.srcViewWith SymModel).Scripted fun l => (Rcd.srcView.answered l r).sym m := by
  by_cases h : r.dec.inside = true
  · have := Rcd.renormIfSmall_scripted.beside m (m.find r.dec) (·.learn (m.find r.dec))
      (r.setInterval (r.dec.dvalue - m.lower (m.find r.dec) r.dec.drange)
        (m.upper (m.find r.dec) r.dec.drange - m.lower (m.find r.dec) r.dec.drange))
    simp only [Rcd.sym, show ∀ l, (Rcd.srcView.answered l r).dec = r.dec from fun _ => rfl, h, if_true]
    exact this
  · simp only [Rcd.sym, show ∀ l, (Rcd.srcView.answered l r).dec = r.dec from fun _ => rfl, h]
    exact SourceView.Scripted.raised _ _

theorem Rcd.bit_scripted (m : BinModel) (r : Rcd) :
    (Rcd.srcViewWith BinModel).Scripted fun l => (Rcd.srcView.answered l r).bit m := by
  have hd : ∀ l, (Rcd.srcView.answered l r).dec = r.dec := fun _ => rfl
  by_cases h : r.dec.inside = true
  · by_cases hx : r.dec.dvalue.toNat < (m.split r.dec.drange).toNat
    · have := Rcd.renormIfSmall_scripted.beside m.countZero 0 (·.tick)
        (r.setInterval r.dec.dvalue (m.split r.dec.drange))
      simp only [Rcd.bit, hd, h, hx, if_true]
      exact this
    · have := Rcd.renormIfSmall_scripted.beside m 1 (·.tick)
        (r.setInterval (r.dec.dvalue - m.split r.dec.drange) (r.dec.drange - m.split r.dec.drange))
      simp only [Rcd.bit, hd, h, hx, if_true, if_false]
      exact this
  · simp only [Rcd.bit, hd, h]
    exact SourceView.Scripted.raised _ _

theorem IntComp.getPayload_scripted (c : IntComp) (k : Nat) (r : Rcd) :
    (Rcd.srcViewWith IntComp).Scripted fun l => c.getPayload k (Rcd.srcView.answered l r) := by
  unfold IntComp.getPayload
  split
  · exact (Rcd.sym_scripted _ r).within (fun _ => rfl) fun _ _ => rfl
  · refine SourceView.Scripted.bind Rcd.srcViewWith_lawful
      ((Rcd.sym_scripted _ r).within (fun _ => rfl) fun _ _ => rfl) ?_
    intro _ t
    exact ((Rcd.bits_scripted _ t.1).within (g := fun r1 => (r1, t.2)) (fun _ => rfl) fun _ _ => rfl).value

theorem IntComp.getCorr_scripted (c : IntComp) (ctx : Nat) (r : Rcd) :
    (Rcd.srcViewWith IntComp).Scripted fun l => c.getCorr ctx (Rcd.srcView.answered l r) := by
  refine SourceView.Scripted.bind Rcd.srcViewWith_lawful
    ((Rcd.sym_scripted _ r).within (fun _ => rfl) fun _ _ => rfl) ?_
  rintro k ⟨r1, c1⟩
  by_cases h0 : k = 0
  · have := SourceView.Scripted.value (g := fun b : Nat => (b : Int))
      ((Rcd.bit_scripted (c1.setK k).bm0 r1).within (w := Rcd.srcViewWith IntComp)
        (g := fun q => (q.1, (c1.setK k).setBm0 q.2)) (fun _ => rfl) fun _ _ => rfl)
    simp only [h0, if_true] at this ⊢
    exact this
  · by_cases h32 : k < 32
    · have := (IntComp.getPayload_scripted (c1.setK k) k r1).value (g := corrValue k)
      simp only [h0, h32, if_true, if_false]
      exact this
    · have := SourceView.Scripted.ok (Rcd.srcViewWith_lawful (α := IntComp)) (c1.setK k).corrMin (r1, c1.setK k)
      simp only [h0, h32, if_false]
      exact this

/-! ## The commands that read -/

/-- The whole state. -/
def State.srcView : SourceView State :=
  { port := State.src, answered := fun l s => { s with src := { s.src with answers := l } } }

theorem State.srcView_lawful : State.srcView.Lawful := ⟨fun _ _ => rfl, fun _ _ _ => rfl, fun _ => rfl⟩

/-- The body of every command that reads the source is scripted. -/
theorem bodyOf_srcScripted (s : State) {i : Instr} (h : usesSource i = true) :
    State.srcView.Scripted fun l => bodyOf (State.srcView.answered l s) i := by
  have hb : ∀ nb o, State.srcView.Scripted fun l => readBody nb o (State.srcView.answered l s) := fun nb o =>
    ((Source.read_scripted nb s.src).within (w := State.srcView) (g := s.withSrc) (fun _ => rfl)
      fun _ _ => rfl).value
  have hr : ∀ (f : Rcd → Run Rcd Nat), Rcd.Scripted f → State.srcView.Scripted fun l =>
      ((f (Rcd.srcView.answered l s.rcd)).within s.withRcd).value fun v => some (BitVec.ofNat 64 v) := fun f hf =>
    ((hf s.rcd).within (w := State.srcView) (g := s.withRcd) (fun _ => rfl) fun _ _ => rfl).value
  cases i with
  | bioRd8 | bioRd16le | bioRd16be | bioRd32le | bioRd32be | bioRd64le | bioRd64be => exact hb _ _
  | decInit =>
    exact ((Rcd.init_scripted s.rcd).within (w := State.srcView) (g := s.withRcd) (fun _ => rfl)
      fun _ _ => rfl).value
  | decSym idx =>
    exact ((Rcd.sym_scripted (s.symAt idx) s.rcd).within (w := State.srcView)
      (g := fun p => (s.withRcd p.1).withSym idx.toNat p.2) (fun _ => rfl) fun _ _ => rfl).value
  | decBit idx =>
    exact ((Rcd.bit_scripted (s.binAt idx) s.rcd).within (w := State.srcView)
      (g := fun p => (s.withRcd p.1).withBin idx.toNat p.2) (fun _ => rfl) fun _ _ => rfl).value
  | decBits n => exact hr _ (Rcd.bits_scripted _)
  | decFloat | decDouble => exact hr _ (Rcd.halves_scripted _)
  | icDec idx ctx pred =>
    exact ((IntComp.getCorr_scripted (s.intAt idx) ctx.toNat s.rcd).within (w := State.srcView)
      (g := fun p => (s.withRcd p.1).withInt idx.toNat p.2) (fun _ => rfl) fun _ _ => rfl).value
      (g := fun corr => some (((s.intAt idx).unfold pred corr).zeroExtend 64))
  | _ => exact absurd h Bool.false_ne_true

end Sys2Proof.Machine
end

