-- ==== Sys2Proof/Laws/Chunk.lean ====
section
/-! SUPPORT. The decoder beside the encoder (43_range_dec.md R212): a coding step lies inside the interval
it narrows, and a decoder that stands as far into the interval as the bytes to come say takes the same
step and stays in step. -/

namespace Sys2Proof.Machine

/-! ## Coding steps nest -/

/-- The interval of `r'` lies inside that of `r`, on the exact numbers. -/
def Rce.Nests (r r' : Rce) : Prop :=
  ∃ j, r'.stream.length = r.stream.length + j ∧ r.codeValue * 256 ^ j ≤ r'.codeValue ∧
    r'.codeValue + r'.enc.range.toNat ≤ (r.codeValue + r.enc.range.toNat) * 256 ^ j

theorem Rce.Nests.refl (r : Rce) : r.Nests r := ⟨0, by simp⟩

theorem Rce.Nests.trans {a b c : Rce} (h1 : a.Nests b) (h2 : b.Nests c) : a.Nests c := by
  obtain ⟨i, a1, a2, a3⟩ := h1
  obtain ⟨j, b1, b2, b3⟩ := h2
  refine ⟨i + j, by omega, ?_, ?_⟩
  · rw [pow_add, ← Nat.mul_assoc]
    exact (Nat.mul_le_mul_right _ a2).trans b2
  · rw [pow_add, ← Nat.mul_assoc]
    exact b3.trans (Nat.mul_le_mul_right _ a3)

theorem Rce.Narrowed.nests {x w : Nat} {r r' : Rce} (h : Rce.Narrowed x w r r')
    (hx : x + w ≤ r.enc.range.toNat) : r.Nests r' := by
  obtain ⟨j, _, h1, h2, h3⟩ := h.turns
  refine ⟨j, h3, ?_, ?_⟩
  · rw [h1]; exact Nat.mul_le_mul_right _ (by omega)
  · rw [h1, h2, ← Nat.add_mul]; exact Nat.mul_le_mul_right _ (by omega)

/-! ## Decoding steps that stay in step -/

/-- What happens to a decoder in step with the encoder at `r`, when the source holds the bytes `more` and
the number they complete lies in the interval at `r'`: it takes the step `D`, takes just those bytes, and
is in step with the encoder at `r'`. -/
def Mirrors (r r' : Rce) (D : Rcd → Rcd → Prop) : Prop :=
  ∀ (q : Rcd) (more : List Byte) (rest : List SrcAnswer), q.dec.drange = r.enc.range → q.src.Gives more rest →
    r'.stream.length = r.stream.length + more.length →
    r'.codeValue ≤ (r.codeValue + q.dec.dvalue.toNat) * 256 ^ more.length + bigEndian more →
    (r.codeValue + q.dec.dvalue.toNat) * 256 ^ more.length + bigEndian more <
      r'.codeValue + r'.enc.range.toNat →
      ∃ q', D q q' ∧ q'.dec.drange = r'.enc.range ∧ q'.src.answers = rest ∧
        q'.src.count = q.src.count + BitVec.ofNat 64 more.length ∧ q'.dec.active = q.dec.active ∧
        r'.codeValue + q'.dec.dvalue.toNat =
          (r.codeValue + q.dec.dvalue.toNat) * 256 ^ more.length + bigEndian more

theorem Mirrors.mono {r r' : Rce} {D E : Rcd → Rcd → Prop} (h : Mirrors r r' D)
    (hde : ∀ q q', q.dec.drange = r.enc.range → D q q' → E q q') : Mirrors r r' E := by
  intro q more rest h1 h2 h3 h4 h5
  obtain ⟨q', a, b⟩ := h q more rest h1 h2 h3 h4 h5
  exact ⟨q', hde q q' h1 a, b⟩

theorem Mirrors.refl (r : Rce) : Mirrors r r fun q q' => q' = q := by
  intro q more rest h1 h2 h3 h4 h5
  have : more = [] := List.length_eq_zero_iff.mp (by omega)
  subst this
  refine ⟨q, rfl, h1, by simpa [Source.Gives] using h2, by simp, rfl, by simp⟩

theorem gives_append {p : Source} {as bs : List Byte} {rest : List SrcAnswer} (h : p.Gives (as ++ bs) rest) :
    p.Gives as (bs.map SrcAnswer.byte ++ rest) := by
  simpa [Source.Gives] using h

theorem Mirrors.trans {a b c : Rce} {D E : Rcd → Rcd → Prop} (h1 : Mirrors a b D) (n1 : a.Nests b)
    (h2 : Mirrors b c E) (n2 : b.Nests c) : Mirrors a c fun q q' => ∃ q1, D q q1 ∧ E q1 q' := by
  intro q more rest hq hg hl hlo hhi
  obtain ⟨i, a1, a2, a3⟩ := n1
  obtain ⟨j, b1, b2, b3⟩ := n2
  obtain ⟨m1, m2, rfl, hm1⟩ : ∃ m1 m2 : List Byte, more = m1 ++ m2 ∧ m1.length = i :=
    ⟨more.take i, more.drop i, (List.take_append_drop i more).symm, by rw [List.length_take]; omega⟩
  have hm2 : m2.length = j := by rw [List.length_append] at hl; omega
  have hbe := bigEndian_lt m2
  have e : (a.codeValue + q.dec.dvalue.toNat) * 256 ^ (m1 ++ m2).length + bigEndian (m1 ++ m2) =
      ((a.codeValue + q.dec.dvalue.toNat) * 256 ^ m1.length + bigEndian m1) * 256 ^ m2.length + bigEndian m2 := by
    rw [bigEndian_append, List.length_append, pow_add]; ring
  rw [e] at hlo hhi
  obtain ⟨q1, c1, c2, c3, c4, c5, c6⟩ := h1 q m1 _ hq (gives_append hg) (by omega)
    (by
      by_contra hn
      have h3 := Nat.mul_le_mul_right (256 ^ m2.length) (Nat.succ_le_of_lt (Nat.lt_of_not_le hn))
      rw [Nat.succ_mul] at h3
      rw [hm2] at h3 hbe hlo
      omega)
    (by
      refine Nat.lt_of_mul_lt_mul_right (a := 256 ^ m2.length) ?_
      rw [hm2] at hhi ⊢
      omega)
  obtain ⟨q', d1, d2, d3, d4, d5, d6⟩ := h2 q1 m2 rest c2 c3 (by omega) (by rw [c6]; exact hlo)
    (by rw [c6]; exact hhi)
  refine ⟨q', ⟨q1, c1, d1⟩, d2, d3, ?_, d5.trans c5, by rw [d6, c6, e]⟩
  rw [d4, c4, List.length_append, BitVec.ofNat_add, BitVec.add_assoc]

/-- A narrowing of the encoder is mirrored by the narrowing of the decoder, which finds its code value in
the same part (43_range_dec.md R202, R212). -/
theorem Rce.Narrowed.mirrors {x w : Nat} {r r' : Rce} (h : Rce.Narrowed x w r r') :
    Mirrors r r' fun q q' => InPart x w q.dec.dvalue.toNat ∧ Rcd.Narrowed x w q q' := by
  intro q more rest hq hg hl hlo hhi
  obtain ⟨j, h1, h2, h3, h4⟩ := h.turns
  have hj : more.length = j := by omega
  subst hj
  have hbe := bigEndian_lt more
  have hw := r'.enc.range.isLt
  have hin : InPart x w q.dec.dvalue.toNat := by
    constructor
    · by_contra hn
      have h5 := Nat.mul_le_mul_right (256 ^ more.length)
        (show r.codeValue + q.dec.dvalue.toNat + 1 ≤ r.codeValue + x by omega)
      rw [Nat.add_mul _ 1] at h5
      omega
    · have h5 : (r.codeValue + q.dec.dvalue.toNat) * 256 ^ more.length < (r.codeValue + x + w) * 256 ^ more.length := by
        rw [Nat.add_mul _ w]; omega
      have := Nat.lt_of_mul_lt_mul_right h5
      omega
  have hw32 : w < 2 ^ 32 := by
    exact lt_of_le_of_lt (Nat.le_mul_of_pos_right w (by positivity)) (h3 ▸ hw)
  have hn := Rcd.shifted_narrowed (r0 := q) hw32 h1 hg hin.1 hin.2 rfl rfl
  have hv : (q.dec.dvalue.toNat - x) * 256 ^ more.length + bigEndian more < w * 256 ^ more.length :=
    shifted_value_lt (by have := hin.1; have := hin.2; omega)
  refine ⟨_, ⟨hin, hn⟩, ?_, rfl, rfl, rfl, ?_⟩
  · show word (w * 256 ^ more.length) = _
    rw [← h3]; exact word_toNat _
  · have e : (Rcd.shifted (q.dec.dvalue.toNat - x) w more rest q).dec.dvalue.toNat =
        (q.dec.dvalue.toNat - x) * 256 ^ more.length + bigEndian more := by
      show (word _).toNat = _
      simp only [word, BitVec.toNat_ofNat]
      exact Nat.mod_eq_of_lt (hv.trans (h3 ▸ hw))
    rw [e, h2, ← Nat.add_assoc, ← Nat.add_mul]
    rw [show r.codeValue + x + (q.dec.dvalue.toNat - x) = r.codeValue + q.dec.dvalue.toNat by
      have := hin.1; omega]

/-! ## Symbols, bits and literals -/

theorem Rce.CodesSymbol.nests {m : SymModel} (hm : m.Wf) {v : Nat} (hv : v < m.n) {r r' : Rce}
    (ho : r.enc.Open) (h : Rce.CodesSymbol m v r r') : r.Nests r' := by
  have h1 := SymModel.part_inside hm hv ho.range
  exact Rce.Narrowed.nests h (by unfold SymModel.partLen; omega)

theorem Rce.CodesSymbol.mirrors {m : SymModel} {v : Nat} (hv : v < m.n) {r r' : Rce}
    (h : Rce.CodesSymbol m v r r') : Mirrors r r' (Rcd.DecodesSymbol m v) :=
  (Rce.Narrowed.mirrors h).mono fun q q' hq h1 => ⟨hv, by rw [hq]; exact h1.1, by rw [hq]; exact h1.2⟩

theorem Rce.CodesBit.nests {m : BinModel} (hm : m.Wf) {b : Nat} {r r' : Rce} (ho : r.enc.Open)
    (h : Rce.CodesBit m b r r') : r.Nests r' := by
  have h1 := BinModel.split_inside hm.prob ho.range
  refine Rce.Narrowed.nests h ?_
  unfold BinModel.partLow BinModel.partLen
  split_ifs <;> omega

theorem Rce.CodesBit.mirrors {m : BinModel} {b : Nat} (hb : b < 2) {r r' : Rce}
    (h : Rce.CodesBit m b r r') : Mirrors r r' (Rcd.DecodesBit m b) :=
  (Rce.Narrowed.mirrors h).mono fun q q' hq h1 => ⟨hb, by rw [hq]; exact h1.1, by rw [hq]; exact h1.2⟩

/-- Literals whose values fit their widths. -/
def Fit (ls : List (Nat × Nat)) : Prop := ∀ l ∈ ls, l.1 ≤ 19 ∧ l.2 < 2 ^ l.1

theorem Rce.CodesLiterals.nests {ls : List (Nat × Nat)} (hf : Fit ls) {r r' : Rce}
    (h : Rce.CodesLiterals ls r r') : r.Nests r' := by
  induction ls generalizing r with
  | nil => rw [show r' = r from h]; exact .refl r
  | cons l ls ih =>
    obtain ⟨r1, h1, h2⟩ := h
    have hl := (hf l (by simp)).2
    refine (h1.nests ?_).trans (ih (fun x hx => hf x (by simp [hx])) h2)
    have h3 : (l.2 + 1) * (r.enc.range.toNat / 2 ^ l.1) ≤ 2 ^ l.1 * (r.enc.range.toNat / 2 ^ l.1) :=
      Nat.mul_le_mul_right _ hl
    have h4 := Nat.mul_div_le r.enc.range.toNat (2 ^ l.1)
    rw [Nat.add_mul, Nat.one_mul] at h3
    omega

theorem Rce.CodesLiterals.mirrors {ls : List (Nat × Nat)} (hf : Fit ls) {r r' : Rce}
    (ho : r.enc.Open) (h : Rce.CodesLiterals ls r r') :
    Mirrors r r' (Rcd.ReadsLiterals (ls.map (·.1)) (ls.map (·.2))) := by
  induction ls generalizing r with
  | nil => rw [show r' = r from h]; exact .refl r
  | cons l ls ih =>
    obtain ⟨r1, h1, h2⟩ := h
    obtain ⟨hn, hl⟩ := hf l (by simp)
    have hf' : Fit ls := fun x hx => hf x (by simp [hx])
    have hlen := lit_len ho.range hn
    have hnest : r.Nests r1 := by
      have h1' : Rce.CodesLiterals [l] r r1 := ⟨r1, h1, rfl⟩
      exact h1'.nests fun x hx => by simp at hx; subst hx; exact ⟨hn, hl⟩
    refine (h1.mirrors.trans hnest (ih hf' h1.opened h2) (h2.nests hf')).mono ?_
    rintro q q' hq ⟨q1, ⟨h3, h4⟩, h5⟩
    have hdiv : q.dec.dvalue.toNat / (r.enc.range.toNat / 2 ^ l.1) = l.2 := by
      refine Nat.div_eq_of_lt_le ?_ ?_
      · exact h3.1
      · rw [Nat.succ_mul]; exact h3.2
    refine ⟨?_, hl, q1, ?_, h5⟩
    · rw [hq]; exact hdiv.symm
    · rw [hq]; exact h4

theorem literalParts_fit {n v : Nat} (hn : n ≤ 32) (hv : v < 2 ^ n) : Fit (literalParts n v) := by
  unfold literalParts
  intro l hl
  split_ifs at hl with hs
  · simp only [List.mem_cons, List.not_mem_nil, or_false] at hl
    rcases hl with rfl | rfl
    · exact ⟨by dsimp only; omega, Nat.mod_lt _ (by positivity)⟩
    · refine ⟨by dsimp only; omega, ?_⟩
      dsimp only
      rw [Nat.div_lt_iff_lt_mul (by positivity), ← pow_add, Nat.sub_add_cancel (by omega)]
      exact hv
  · simp only [List.mem_cons, List.not_mem_nil, or_false] at hl
    subst hl
    exact ⟨by dsimp only; omega, hv⟩

theorem literalParts_widths (n v : Nat) : (literalParts n v).map (·.1) = literalWidths n := by
  unfold literalParts literalWidths; split_ifs <;> rfl

theorem literalParts_value (n v : Nat) : literalValue ((literalParts n v).map (·.2)) = v := by
  unfold literalParts
  split_ifs
  · simp only [List.map_cons, List.map_nil, literalValue]
    omega
  · simp [literalValue]

theorem halfParts_fit (n v : Nat) : Fit (halfParts n v) := by
  induction n generalizing v with
  | zero => intro l hl; cases hl
  | succ n ih =>
    intro l hl
    rcases List.mem_cons.mp hl with rfl | hl
    · exact ⟨by dsimp only; omega, Nat.mod_lt _ (by positivity)⟩
    · exact ih _ l hl

theorem halfParts_widths (n v : Nat) : (halfParts n v).map (·.1) = List.replicate n 16 := by
  induction n generalizing v with
  | zero => rfl
  | succ n ih => simp [halfParts, ih, List.replicate_succ]

theorem halfParts_value (n v : Nat) : literalValue ((halfParts n v).map (·.2)) = v % 2 ^ (16 * n) := by
  induction n generalizing v with
  | zero => simp [halfParts, literalValue, Nat.mod_one]
  | succ n ih =>
    simp only [halfParts, List.map_cons, literalValue, ih]
    rw [Nat.mul_succ, Nat.add_comm (16 * n), pow_add, Nat.mod_mul]

/-! ## Correctors -/

theorem Rce.CodesPayload.nests {c c' : IntComp} (hc : c.Wf) {k u : Nat} (hk1 : 1 ≤ k) (hk : k ≤ c.corrBits)
    (hu : u < 2 ^ k) {r r' : Rce} (ho : r.enc.Open) (h : Rce.CodesPayload c k u r r' c') : r.Nests r' := by
  obtain ⟨hm, hn⟩ := hc.mcorrAt hk1 hk
  have hk32 := hc.corrBits.2
  unfold Rce.CodesPayload at h
  split_ifs at h with hh
  · exact h.1.nests hm (by rw [hn, Nat.min_eq_left hh]; exact hu) ho
  · obtain ⟨r1, h1, h2, _⟩ := h
    have hv := payload_symbol (h := c.bitsHigh) (by omega) hu
    refine (h1.nests hm (by rw [hn, Nat.min_eq_right (by omega)]; exact hv) ho).trans (h2.nests ?_)
    exact literalParts_fit (by omega) (Nat.mod_lt _ (by positivity))

theorem Rce.CodesPayload.mirrors {c c' : IntComp} (hc : c.Wf) {k u : Nat} (hk1 : 1 ≤ k) (hk : k ≤ c.corrBits)
    (hu : u < 2 ^ k) {r r' : Rce} (ho : r.enc.Open) (h : Rce.CodesPayload c k u r r' c') :
    Mirrors r r' fun q q' => Rcd.DecodesPayload c k u q q' c' := by
  obtain ⟨hm, hn⟩ := hc.mcorrAt hk1 hk
  have hk32 := hc.corrBits.2
  unfold Rce.CodesPayload at h
  unfold Rcd.DecodesPayload
  split_ifs at h ⊢ with hh
  · obtain ⟨h1, rfl⟩ := h
    exact (h1.mirrors (by rw [hn, Nat.min_eq_left hh]; exact hu)).mono fun q q' _ h2 => ⟨h2, rfl⟩
  · obtain ⟨r1, h1, h2, rfl⟩ := h
    have hv := payload_symbol (h := c.bitsHigh) (by omega) hu
    have hv' : u / 2 ^ (k - c.bitsHigh) < (c.mcorrAt k).n := by rw [hn, Nat.min_eq_right (by omega)]; exact hv
    have hf : Fit (literalParts (k - c.bitsHigh) (u % 2 ^ (k - c.bitsHigh))) :=
      literalParts_fit (by omega) (Nat.mod_lt _ (by positivity))
    refine ((h1.mirrors hv').trans (h1.nests hm hv' ho) (h2.mirrors hf h1.opened) (h2.nests hf)).mono ?_
    rintro q q' _ ⟨q1, h3, h4⟩
    rw [literalParts_widths] at h4
    refine ⟨q1, _, _, h3, h4, ?_, rfl⟩
    rw [literalParts_value, Nat.mul_comm]
    exact (Nat.div_add_mod _ _).symm

/-- A corrector coded is mirrored by the same corrector decoded (44_integer_codec.md R239). -/
theorem Rce.CodesCorrector.mirrors {c c' : IntComp} (hc : c.Wf) {ctx : Nat} (hx : ctx < c.contexts) {corr : Int}
    {r r' : Rce} (ho : r.enc.Open) (h : Rce.CodesCorrector c ctx corr r r' c') :
    r.Nests r' ∧ Mirrors r r' fun q q' => Rcd.DecodesCorrector c ctx corr q q' c' := by
  obtain ⟨hm, hn⟩ := hc.mbitsAt hx
  obtain ⟨k, r1, hk, hkb, h1, h2⟩ := h
  have hv : k < (c.mbitsAt ctx).n := by omega
  have hlw := SymModel.learn_wf hm hv
  have hw : ((c.setK k).setMbits ctx ((c.mbitsAt ctx).learn k)).Wf :=
    (hc.setK hkb).setMbits ctx hlw.1 (hlw.2.trans hn)
  have hk32 := hc.corrBits.2
  have n1 := h1.nests hm hv ho
  have m1 := h1.mirrors hv
  unfold Rcd.DecodesCorrector
  split_ifs at h2 with h0 h31
  · obtain ⟨h3, rfl⟩ := h2
    have hb : corr.toNat < 2 := by
      unfold InClass at hk; rw [if_pos h0] at hk; omega
    have n2 := h3.nests hc.bm0 h1.opened
    refine ⟨n1.trans n2, (m1.trans n1 (h3.mirrors hb) n2).mono ?_⟩
    rintro q q' _ ⟨q1, a1, a2⟩
    exact ⟨k, q1, hk, a1, by rw [if_pos h0]; exact ⟨a2, rfl⟩⟩
  · obtain ⟨u, hu, h3⟩ := h2
    have n2 := Rce.CodesPayload.nests hw (by omega) hkb hu.1 h1.opened h3
    refine ⟨n1.trans n2, (m1.trans n1 (Rce.CodesPayload.mirrors hw (by omega) hkb hu.1 h1.opened h3) n2).mono ?_⟩
    rintro q q' _ ⟨q1, a1, a2⟩
    exact ⟨k, q1, hk, a1, by rw [if_neg h0, if_pos h31]; exact ⟨u, hu, a2⟩⟩
  · obtain ⟨rfl, rfl⟩ := h2
    refine ⟨n1, m1.mono fun q q' _ a1 => ⟨k, q', hk, a1, ?_⟩⟩
    rw [if_neg h0, if_neg h31]
    exact ⟨rfl, rfl⟩

/-! ## The end of a chunk -/

/-- The number a finished chunk writes lies in the interval it was finished from (42_range_enc.md R184). -/
theorem Rce.finalCode_inside {r : Rce} (ho : r.enc.Open) :
    r.codeValue ≤ r.finalCode ∧ r.finalCode < r.codeValue + r.enc.range.toNat := by
  have h := ho.range
  unfold Rce.finalCode
  split_ifs <;> omega

end Sys2Proof.Machine
end

