-- ==== Sys2Proof/Laws/Encoding.lean ====
section
/-! SUPPORT. Lemmas about the fields of a command: splitting and joining are inverse, a format accepts
what has its must-be-zero fields zero, and a row is tested field by field. -/

namespace Sys2Proof

set_option maxRecDepth 20000 in
/-- The fields of joined fields. -/
@[simp] theorem Fields.split_join (x : Fields) : Fields.split x.join = x := by
  obtain ⟨op, f, idx, ctx, g, z, dw⟩ := x
  simp only [Fields.split, Fields.join, Fields.mk.injEq]
  refine ⟨?_, ?_, ?_, ?_, ?_, ?_, ?_⟩ <;>
    (apply BitVec.eq_of_getLsbD_eq; intro i hi
     simp only [BitVec.getLsbD_append, BitVec.getLsbD_extractLsb', hi, decide_true, Bool.true_and]
     split_ifs <;> first | omega | (congr 1; omega))

set_option maxRecDepth 20000 in
/-- The 128 bits of split bits. -/
@[simp] theorem Fields.join_split (w : Command) : (Fields.split w).join = w := by
  apply BitVec.eq_of_getLsbD_eq; intro i hi
  simp only [Fields.split, Fields.join, BitVec.getLsbD_append, BitVec.getLsbD_extractLsb']
  split_ifs <;> first | omega | (rw [decide_eq_true (by omega), Bool.true_and]; congr 1; omega)

/-- The data word is its two halves. -/
theorem Fields.dw_halves (x : Fields) : x.dwHigh ++ x.dwLow = x.dw := by
  apply BitVec.eq_of_getLsbD_eq; intro i hi
  simp only [Fields.dwHigh, Fields.dwLow, BitVec.getLsbD_append, BitVec.getLsbD_extractLsb']
  split_ifs <;> first | omega | (rw [decide_eq_true (by omega), Bool.true_and]; congr 1; omega)

/-- A format accepts a command whose must-be-zero fields are zero, and answers it. -/
theorem Format.accept_eq_ok {fmt : Format} {x : Fields} {i j : Instr} :
    fmt.accept x i = .ok j ↔ fmt.clean x = true ∧ j = i := by
  unfold Format.accept
  cases fmt.clean x <;> simp [eq_comm]

/-- The fields masked one by one. -/
def Fields.and (x m : Fields) : Fields :=
  ⟨x.op &&& m.op, x.f &&& m.f, x.idx &&& m.idx, x.ctx &&& m.ctx, x.g &&& m.g, x.z &&& m.z, x.dw &&& m.dw⟩

set_option maxRecDepth 20000 in
/-- Masking 128 bits is masking their fields. -/
theorem Fields.join_and (x m : Fields) : x.join &&& m.join = (Fields.and x m).join := by
  apply BitVec.eq_of_getLsbD_eq; intro i hi
  simp only [Fields.join, Fields.and, BitVec.getLsbD_and, BitVec.getLsbD_append]
  split_ifs <;> rfl

/-- Fields are of a row when each field masked is the field of the pattern. -/
theorem Row.holds_join {r : Row} {x : Fields} (h0 : x.op &&& (Fields.split r.mask).op = (Fields.split r.pattern).op)
    (h1 : x.f &&& (Fields.split r.mask).f = (Fields.split r.pattern).f)
    (h2 : x.idx &&& (Fields.split r.mask).idx = (Fields.split r.pattern).idx)
    (h3 : x.ctx &&& (Fields.split r.mask).ctx = (Fields.split r.pattern).ctx)
    (h4 : x.g &&& (Fields.split r.mask).g = (Fields.split r.pattern).g)
    (h5 : x.z &&& (Fields.split r.mask).z = (Fields.split r.pattern).z)
    (h6 : x.dw &&& (Fields.split r.mask).dw = (Fields.split r.pattern).dw) : r.holds x.join = true := by
  have h : Fields.and x (Fields.split r.mask) = Fields.split r.pattern := by
    unfold Fields.and
    rw [h0, h1, h2, h3, h4, h5, h6]
  unfold Row.holds
  rw [← Fields.join_split r.mask, Fields.join_and, h, Fields.join_split, beq_self_eq_true]

/-- A field the mask leaves out. -/
theorem and_masked {n : Nat} {x m p : BitVec n} (hm : m = 0#n) (hp : p = 0#n) : x &&& m = p := by
  rw [hm, hp, BitVec.and_zero]

/-- A data word of which the mask keeps the upper half, where that half is zero. -/
theorem and_low {x : Word} {m p : Dword} (hm : m = 0xFFFFFFFF00000000#64) (hp : p = 0#64) :
    (0#32 ++ x) &&& m = p := by
  rw [hm, hp, show 0xFFFFFFFF00000000#64 = 0xFFFFFFFF#32 ++ 0#32 from by decide, BitVec.and_append]
  simp

end Sys2Proof
end

