-- ==== Sys2Proof/Laws/Invariant.lean ====
section
/-! SUPPORT. What the body of a command keeps of the machine's invariant: the form of the slot files, also
in an execution fault, and everything that holds between commands, when it completes. -/

namespace Sys2Proof.Machine

/-! ## Slot files -/

theorem SlotFile.Bounded.put {α : Type} {f : SlotFile α} {b j : Nat} {x : α} (h : SlotFile.Bounded f b)
    (hj : j < b) : SlotFile.Bounded (SlotFile.put j x f) b := by
  intro p hp
  rcases SlotFile.mem_put hp with rfl | h1
  · exact hj
  · exact h p h1

theorem SlotFile.All.put {α : Type} {f : SlotFile α} {j : Nat} {x : α} {P : α → Prop} (h : SlotFile.All f P)
    (hj : P x) : SlotFile.All (SlotFile.put j x f) P := by
  intro p hp
  rcases SlotFile.mem_put hp with rfl | h1
  · exact hj
  · exact h p h1

theorem SlotFile.All.at_slot {α : Type} {f : SlotFile α} {P : α → Prop} (h : SlotFile.All f P) {i : Nat} {x : α}
    (hx : SlotFile.slot? f i = some x) : P x := h _ (SlotFile.mem_of_slot? hx)

/-- The form of the three slot files, a part of `State.Form`. -/
structure FilesOk (s : State) : Prop where
  bmForm : SlotFile.wf s.bm = true
  smForm : SlotFile.wf s.sm = true
  icForm : SlotFile.wf s.ic = true
  bmIndex : SlotFile.Bounded s.bm s.params.nBm
  smIndex : SlotFile.Bounded s.sm s.params.nSm
  icIndex : SlotFile.Bounded s.ic s.params.nIc

theorem State.Form.files {s : State} (h : s.Form) : FilesOk s :=
  ⟨h.bmForm, h.smForm, h.icForm, h.bmIndex, h.smIndex, h.icIndex⟩

theorem FilesOk.withBin {s : State} (h : FilesOk s) {j : Nat} (hj : j < s.params.nBm) (m : BinModel) :
    FilesOk (s.withBin j m) :=
  ⟨SlotFile.wf_put h.1, h.2, h.3, h.4.put hj, h.5, h.6⟩

theorem FilesOk.withSym {s : State} (h : FilesOk s) {j : Nat} (hj : j < s.params.nSm) (m : SymModel) :
    FilesOk (s.withSym j m) :=
  ⟨h.1, SlotFile.wf_put h.2, h.3, h.4, h.5.put hj, h.6⟩

theorem FilesOk.withInt {s : State} (h : FilesOk s) {j : Nat} (hj : j < s.params.nIc) (c : IntComp) :
    FilesOk (s.withInt j c) :=
  ⟨h.1, h.2, SlotFile.wf_put h.3, h.4, h.5, h.6.put hj⟩

theorem FilesOk.of_eq {s t : State} (h : FilesOk s) (h1 : t.bm = s.bm) (h2 : t.sm = s.sm) (h3 : t.ic = s.ic)
    (h4 : t.params = s.params) : FilesOk t := by
  obtain ⟨a, b, c, d, e, f⟩ := h
  constructor <;> simp_all

/-- A body keeps the form of the slot files, whether it completes or raises. -/
theorem bodyOf_files {s t : State} {i : Instr} (hs : FilesOk s) (hx : indexOk s.params i = true)
    (h : (bodyOf s i).EndsAt t) : FilesOk t := by
  have hok : ∀ {d : Option Dword} {u : State}, (Run.ok d u : Run State (Option Dword)).EndsAt t → t = u := by
    rintro d u (⟨a, h⟩ | ⟨f, h⟩) <;> cases h
    rfl
  have hv : ∀ {σ α : Type} {m : Run σ α} {g : σ → State} {k : α → Option Dword},
      ((m.within g).value k).EndsAt t → (∀ r, FilesOk (g r)) → FilesOk t := by
    intro σ α m g k h hg
    obtain ⟨r, rfl⟩ := (Run.EndsAt.of_value h).of_within
    exact hg r
  have hr : ∀ r, FilesOk (s.withRce r) := fun r => hs.of_eq rfl rfl rfl rfl
  have hd : ∀ r, FilesOk (s.withRcd r) := fun r => hs.of_eq rfl rfl rfl rfl
  cases i <;> simp only [indexOk, decide_eq_true_eq] at hx
  case bmInit => rw [hok h]; exact hs.withBin hx _
  case smCfg | smInit => rw [hok h]; exact hs.withSym hx _
  case icCfg | icInit => rw [hok h]; exact hs.withInt hx _
  case encInit | decDone | icGetk | csrRd => rw [hok h]; exact hs.of_eq rfl rfl rfl rfl
  case encSym => exact hv h fun r => (hr r.1).withSym hx _
  case encBit => exact hv h fun r => (hr r.1).withBin hx _
  case icEnc => exact hv h fun r => (hr r.1).withInt hx _
  case decSym => exact hv h fun r => (hd r.1).withSym hx _
  case decBit => exact hv h fun r => (hd r.1).withBin hx _
  case icDec => exact hv h fun r => (hd r.1).withInt hx _
  all_goals exact hv h fun r => hs.of_eq rfl rfl rfl rfl

/-- An execution fault keeps the form of the slot files, for every free value. -/
theorem State.settle_files {s t : State} {i : Instr} (hp : t.params = s.params) (ht : FilesOk t)
    (hx : indexOk s.params i = true) : FilesOk (s.settle (touchOf i) t) := by
  unfold State.settle
  split
  · exact ht
  · rename_i u rest _
    have key : FilesOk
        { t with
          residues := rest
          enc := (touchOf i).encoder t.enc u.enc
          dec := (touchOf i).decoder t.dec u.dec
          src := Source.tookAtMost u.srcTaken s.src t.src } := ht.of_eq rfl rfl rfl rfl
    rw [← hp] at hx
    unfold Touch.slots
    split
    · exact key
    · rename_i j hj
      refine key.withBin ?_ _
      revert hj hx; clear key; cases i <;> intro hx hj <;> cases hj <;> simpa [indexOk] using hx
    · rename_i j hj
      refine key.withSym ?_ _
      revert hj hx; clear key; cases i <;> intro hx hj <;> cases hj <;> simpa [indexOk] using hx
    · rename_i j hj
      refine key.withInt ?_ _
      revert hj hx; clear key; cases i <;> intro hx hj <;> cases hj <;> simpa [indexOk] using hx

/-! ## Between commands -/

/-- When no check fails, every check of the statements holds. -/
theorem checks_hold {s : State} {i : Instr} (hi : ∀ a, i ≠ .csrRd a)
    (h : firstFailure (checksOf s i) = none) :
    sequenceOk s i = true ∧ indexOk s.params i = true ∧ configOk s.params i = true ∧ slotOk s i = true ∧
      operandsOk s i = true ∧ streamOk s i = true := by
  rw [firstFailure_checksOf s i hi] at h
  split_ifs at h
  all_goals simp_all

/-- A micro-operation does not diverge, and completes in a state that is sound between commands. -/
def Run.Sound (m : Run State (Option Dword)) : Prop := m ≠ .diverged ∧ ∀ d t, m = .ok d t → t.Sound

theorem Run.Sound.ok {d : Option Dword} {t : State} (h : t.Sound) : Run.Sound (.ok d t) :=
  ⟨by simp, fun d u h => by cases h; assumption⟩

theorem Rce.Ends.sound {s : State} {σ : Type} {m : Run σ Unit} {post : σ → Prop} {g : σ → State}
    (h : s.rce.Ends m post) (hg : ∀ t, post t → (g t).Sound) :
    Run.Sound ((m.within g).value fun _ => none) := by
  rcases h with ⟨t, rfl, h⟩ | ⟨t, rfl, _⟩
  · exact .ok (hg t h)
  · exact ⟨by simp, fun d u h => by simp at h⟩

theorem Rcd.Ends.sound {σ α : Type} {m : Run σ α} {post : α → σ → Prop} {g : σ → State} {k : α → Option Dword}
    (h : Rcd.Ends m post) (hg : ∀ a t, post a t → (g t).Sound) : Run.Sound ((m.within g).value k) := by
  rcases h with ⟨a, t, rfl, h⟩ | ⟨f, t, rfl, _⟩
  · exact .ok (hg a t h)
  · exact ⟨by simp, fun d u h => by simp at h⟩

theorem State.Sound.withRce {s : State} (h : s.Sound) {r : Rce} (hr : r.enc.Open ∨ r.enc.Closed) :
    (s.withRce r).Sound := ⟨hr, h.2, h.3, h.4, h.5⟩

theorem State.Sound.withRcd {s : State} (h : s.Sound) {r : Rcd} (hr : r.dec.Open) : (s.withRcd r).Sound :=
  ⟨h.1, .inl hr, h.3, h.4, h.5⟩

theorem State.Sound.withBin {s : State} (h : s.Sound) (j : Nat) {m : BinModel} (hm : m.Wf) :
    (s.withBin j m).Sound := ⟨h.1, h.2, h.3.put hm, h.4, h.5⟩

theorem State.Sound.withSym {s : State} (h : s.Sound) (j : Nat) {m : SymModel} (hm : m.Wf) :
    (s.withSym j m).Sound := ⟨h.1, h.2, h.3, h.4.put hm, h.5⟩

theorem State.Sound.withInt {s : State} (h : s.Sound) (j : Nat) {c : IntComp} (hc : c.Wf)
    (hx : c.contexts ≤ s.params.icMaxCtx) : (s.withInt j c).Sound :=
  ⟨h.1, h.2, h.3, h.4, h.5.put ⟨hc, hx⟩⟩

theorem State.Sound.encoder_open {s : State} (h : s.Sound) (ha : s.enc.active = true) : s.rce.enc.Open :=
  h.encoder.resolve_right fun hc => by simp [hc.inactive] at ha

theorem State.Sound.decoder_open {s : State} (h : s.Sound) (ha : s.dec.active = true) : s.rcd.dec.Open :=
  h.decoder.resolve_right fun hc => by simp [hc] at ha

/-- A read of the source ends. -/
theorem Source.read_ends (n : Nat) (p : Source) : Source.read n p ≠ .diverged := by
  induction n generalizing p with
  | zero => intro h; cases h
  | succ n ih =>
    intro h
    unfold Source.read at h
    rcases Run.bind_eq_diverged.1 h with h1 | ⟨a, p1, _, h1⟩
    · unfold Source.next at h1; split at h1 <;> cases h1
    · exact ih p1 (Run.value_eq_diverged.1 h1)

/-- Loading four bytes opens the decoder (43_range_dec.md R201). -/
theorem Rcd.init_ends (r : Rcd) : Rcd.Ends r.init fun _ r' => r'.dec.Open := by
  unfold Rcd.init
  rcases hr : Source.read 4 r.src with ⟨bs, p⟩ | ⟨f, p⟩ | _
  · refine .inl ⟨(), _, rfl, rfl, by simp [Decoder.start, word], ?_⟩
    show (Decoder.start bs).dvalue.toNat < (Decoder.start bs).drange.toNat ∨
      ((Decoder.start bs).dvalue = _ ∧ (Decoder.start bs).drange = _)
    have := (Decoder.start bs).dvalue.isLt
    have hd : (Decoder.start bs).drange = 0xFFFFFFFF#32 := rfl
    by_cases h : (Decoder.start bs).dvalue = 0xFFFFFFFF#32
    · exact .inr ⟨h, hd⟩
    · refine .inl ?_
      rw [hd]
      bv_omega
  · exact .inr ⟨f, _, rfl, .inr (Source.read_raises 4 r.src f p hr)⟩
  · exact absurd hr (Source.read_ends 4 r.src)

/-- A transfer of a `BIO` write ends. -/
theorem writeBody_sound {s : State} (h : s.Sound) (nb : Nat) (o : Order) (v : Dword) :
    Run.Sound (writeBody nb o v s) := by
  unfold writeBody
  rcases Sink.write_cases (toBytes o nb v.toNat) s.sink with ⟨k, h1, _⟩ | ⟨k, h1, _⟩
  · rw [h1]; exact .ok ⟨h.1, h.2, h.3, h.4, h.5⟩
  · rw [h1]; exact ⟨by simp, fun d u h => by simp at h⟩

/-- A transfer of a `BIO` read ends. -/
theorem readBody_sound {s : State} (h : s.Sound) (nb : Nat) (o : Order) : Run.Sound (readBody nb o s) := by
  unfold readBody
  rcases hr : Source.read nb s.src with ⟨bs, p⟩ | ⟨f, p⟩ | _
  · exact .ok ⟨h.1, h.2, h.3, h.4, h.5⟩
  · exact ⟨by simp, fun d u h => by simp at h⟩
  · exact absurd hr (Source.read_ends nb s.src)

/-- From a state that is sound between commands, the body of a command whose checks hold does not
diverge, and completes in a state that is sound. -/
theorem bodyOf_sound {s : State} {i : Instr} (hi : ∀ a, i ≠ .csrRd a) (hs : s.Sound)
    (h : firstFailure (checksOf s i) = none) : Run.Sound (bodyOf s i) := by
  obtain ⟨h1, h2, h3, h4, h5, h6⟩ := checks_hold hi h
  cases i
  case csrRd a => exact absurd rfl (hi a)
  case bioWr8 | bioWr16le | bioWr16be | bioWr32le | bioWr32be | bioWr64le | bioWr64be =>
    exact writeBody_sound hs _ _ _
  case bioRd8 | bioRd16le | bioRd16be | bioRd32le | bioRd32be | bioRd64le | bioRd64be =>
    exact readBody_sound hs _ _
  case bmInit j => exact .ok (hs.withBin _ BinModel.fresh_wf)
  case smCfg j n =>
    simp only [configOk, decide_eq_true_eq] at h3
    exact .ok (hs.withSym _ (SymModel.fresh_wf h3).1)
  case smInit j =>
    obtain ⟨m, hm⟩ := Option.isSome_iff_exists.1 h4
    refine .ok (hs.withSym _ ?_)
    rw [State.symAt, hm]
    exact (SymModel.fresh_wf (hs.sm.at_slot hm).alphabet).1
  case encInit =>
    exact .ok ⟨.inl ⟨rfl, by simp [Encoder.start, word], by simp [Encoder.start], fun _ => rfl,
      fun _ => by simp [Encoder.start, word]⟩, hs.2, hs.3, hs.4, hs.5⟩
  case decDone => exact .ok ⟨hs.1, .inr rfl, hs.3, hs.4, hs.5⟩
  case icGetk => exact .ok hs
  case icInit j =>
    obtain ⟨c, hc⟩ := Option.isSome_iff_exists.1 h4
    obtain ⟨w, hw⟩ := hs.ic.at_slot hc
    have hr : s.intAt j = c := by rw [State.intAt, hc]; rfl
    refine .ok (hs.withInt _ (IntComp.reset_wf ?_ ?_ ?_ ?_ ?_) ?_) <;> rw [hr]
    · exact w.bits
    · exact w.contexts
    · exact w.high
    · exact w.rng
    · exact w.derived
    · exact hw
  case icCfg j b c hb r =>
    simp only [configOk, decide_eq_true_eq] at h3
    have hr : r = 0#32 ↔ r.toNat = 0 := by constructor <;> intro h <;> bv_omega
    refine .ok (hs.withInt _ (IntComp.configure_wf (by omega) (by omega) (by omega) (by rw [hr]; omega)) ?_)
    unfold IntComp.configure IntComp.reset IntComp.derive
    split_ifs <;> simp <;> omega
  case encSym j v =>
    obtain ⟨m, hm⟩ := Option.isSome_iff_exists.1 h4
    simp only [operandsOk, hm, Option.any_some, decide_eq_true_eq] at h5
    have hw := hs.sm.at_slot hm
    simp only [bodyOf, State.symAt, hm, Option.getD_some]
    exact (Rce.sym_spec hw h5 (hs.encoder_open h1)).sound fun p hp =>
      (hs.withRce (.inl hp.1.opened)).withSym _ (by rw [hp.2]; exact (SymModel.learn_wf hw h5).1)
  case encBit j v =>
    obtain ⟨m, hm⟩ := Option.isSome_iff_exists.1 h4
    have hw := hs.bm.at_slot hm
    simp only [bodyOf, State.binAt, hm, Option.getD_some]
    exact (Rce.bit_spec hw v.toNat (hs.encoder_open h1)).sound fun p hp =>
      (hs.withRce (.inl hp.1.opened)).withBin _ (by rw [hp.2]; exact BinModel.learn_wf hw _)
  case encBits n v =>
    simp only [operandsOk, decide_eq_true_eq] at h5
    exact (Rce.bits_spec (hs.encoder_open h1) h5.2.1 h5.2.2).sound fun p hp =>
      hs.withRce (.inl (hp.opened (hs.encoder_open h1)))
  case encFloat v | encDouble v =>
    exact (Rce.halves_spec (hs.encoder_open h1) (by
      have := half_lt v.toNat; simp only [List.forall_mem_cons, this, true_and]; simp)).sound fun p hp =>
      hs.withRce (.inl (hp.opened (hs.encoder_open h1)))
  case encDone =>
    exact (Rce.done_spec (hs.encoder_open h1)).sound fun p hp =>
      hs.withRce (.inr (by rw [hp.registers]; exact ⟨rfl, ⟨rfl, rfl⟩, rfl⟩))
  case icEnc j ctx pred real =>
    obtain ⟨c, hc⟩ := Option.isSome_iff_exists.1 h4
    obtain ⟨w, hw⟩ := hs.ic.at_slot hc
    rw [operandsOk, hc, Option.any_some, decide_eq_true_eq, folded_eq] at h5
    simp only [bodyOf, State.intAt, hc, Option.getD_some]
    exact (IntComp.putCorr_spec w h5.1 (by simp [IntComp.inInterval, h5.2]) (hs.encoder_open h1)).sound
      fun p hp => (hs.withRce (.inl hp.2.2.2)).withInt _ hp.2.1 (by rw [hp.2.2.1]; exact hw)
  case decInit => exact (Rcd.init_ends _).sound fun a t ht => hs.withRcd ht
  case decSym j =>
    obtain ⟨m, hm⟩ := Option.isSome_iff_exists.1 h4
    have hw := hs.sm.at_slot hm
    simp only [bodyOf, State.symAt, hm, Option.getD_some]
    exact (Rcd.sym_spec hw (hs.decoder_open h1)).sound fun v p hp =>
      (hs.withRcd hp.2.2).withSym _ (by rw [hp.2.1]; exact (SymModel.learn_wf hw hp.1.1).1)
  case decBit j =>
    obtain ⟨m, hm⟩ := Option.isSome_iff_exists.1 h4
    have hw := hs.bm.at_slot hm
    simp only [bodyOf, State.binAt, hm, Option.getD_some]
    exact (Rcd.bit_spec hw (hs.decoder_open h1)).sound fun v p hp =>
      (hs.withRcd hp.2.2).withBin _ (by rw [hp.2.1]; exact BinModel.learn_wf hw _)
  case decBits n =>
    simp only [operandsOk, decide_eq_true_eq] at h5
    exact (Rcd.bits_spec (hs.decoder_open h1) h5.2).sound fun v p ⟨_, _, _, hp⟩ => hs.withRcd hp
  case decFloat | decDouble =>
    exact (Rcd.halves_spec (hs.decoder_open h1)).sound fun v p ⟨_, _, _, hp⟩ => hs.withRcd hp
  case icDec j ctx pred =>
    obtain ⟨c, hc⟩ := Option.isSome_iff_exists.1 h4
    obtain ⟨w, hw⟩ := hs.ic.at_slot hc
    simp only [streamOk, hc, Option.any_some, decide_eq_true_eq] at h6
    simp only [bodyOf, State.intAt, hc, Option.getD_some]
    exact (IntComp.getCorr_spec w h6 (hs.decoder_open h1)).sound fun v p hp =>
      (hs.withRcd hp.2.2.2).withInt _ hp.2.1 (by rw [hp.2.2.1]; exact hw)

/-! ## Reset, also in the midst of a command (70_reset_and_hazards.md R300, R301) -/

/-- The ports do not enter the invariant, so a command may be run on ports that are cut off. -/
theorem State.Inv.cut {s : State} (h : s.Inv) (a b : Nat) : (s.cut a b).Inv :=
  ⟨⟨h.form.params, h.form.fault, h.form.bmForm, h.form.smForm, h.form.icForm, h.form.bmIndex, h.form.smIndex,
    h.form.icIndex⟩, fun hf =>
    ⟨(h.sound hf).encoder, (h.sound hf).decoder, (h.sound hf).bm, (h.sound hf).sm, (h.sound hf).ic⟩⟩

/-- Everything that `abandon` can do when it goes on: nothing but the reset event, for bits that are no
command; the command's run up to the cut, where it came to it; and its whole run, where it did not. -/
theorem State.abandon_cases {s t : State} {w : Command} {n : Nat} (h : s.abandon w n = .next t) :
    ((∃ e, decode w = .error e) ∧ t = s.resetEvent) ∨
    ∃ i v, decode w = .ok i ∧ exec i (s.cut n (bytesRead i n)) = .next v ∧
      ((v.sink.answers = [] ∧
          t = s.abandonedAs { s with sink := { v.sink with answers := s.sink.answers.drop n } }) ∨
        (v.src.answers = [] ∧
          t = s.abandonedAs { s with src := { v.src with answers := s.src.answers.drop (bytesRead i n) } }) ∨
        ∃ u, exec i s = .next u ∧ t = s.abandonedAs u) := by
  unfold State.abandon at h
  split at h
  · rename_i i hd
    right
    unfold State.abandonCommand at h
    split at h
    · rename_i v hv
      refine ⟨i, v, hd, hv, ?_⟩
      split at h
      · exact .inl ⟨by assumption, by cases h; rfl⟩
      · split at h
        · exact .inr (.inl ⟨by assumption, by cases h; rfl⟩)
        · unfold State.abandonWhole at h
          split at h
          · exact .inr (.inr ⟨_, by assumption, by cases h; rfl⟩)
          · cases h
          · cases h
    · cases h
    · cases h
  · rename_i e hd
    exact .inl ⟨⟨e, hd⟩, by cases h; rfl⟩

end Sys2Proof.Machine
end

