-- ==== Sys2Proof/Laws/PerInstr.lean ====
section
/-! SUPPORT. One lemma per command: the bits the encoder writes are of the command's own row of
spec/opcode_table.json. -/

namespace Sys2Proof.Laws.EncodesInRow

/-- The bits of a command are of its row of the opcode table (30_encoding.md R95). -/
def Statement (i : Instr) : Prop := i.row.holds (encode i) = true

theorem bioWr8 (v : Dword) : Statement (.bioWr8 v) := by
  apply Row.holds_join <;>
    dsimp only [Instr.row, Instr.fields, Fields.ofOp, Fields.bioWrite, Fields.split] <;>
    first
      | decide
      | (refine and_masked ?_ ?_ <;> decide)

theorem bioWr16le (v : Dword) : Statement (.bioWr16le v) := by
  apply Row.holds_join <;>
    dsimp only [Instr.row, Instr.fields, Fields.ofOp, Fields.bioWrite, Fields.split] <;>
    first
      | decide
      | (refine and_masked ?_ ?_ <;> decide)

theorem bioWr16be (v : Dword) : Statement (.bioWr16be v) := by
  apply Row.holds_join <;>
    dsimp only [Instr.row, Instr.fields, Fields.ofOp, Fields.bioWrite, Fields.split] <;>
    first
      | decide
      | (refine and_masked ?_ ?_ <;> decide)

theorem bioWr32le (v : Dword) : Statement (.bioWr32le v) := by
  apply Row.holds_join <;>
    dsimp only [Instr.row, Instr.fields, Fields.ofOp, Fields.bioWrite, Fields.split] <;>
    first
      | decide
      | (refine and_masked ?_ ?_ <;> decide)

theorem bioWr32be (v : Dword) : Statement (.bioWr32be v) := by
  apply Row.holds_join <;>
    dsimp only [Instr.row, Instr.fields, Fields.ofOp, Fields.bioWrite, Fields.split] <;>
    first
      | decide
      | (refine and_masked ?_ ?_ <;> decide)

theorem bioWr64le (v : Dword) : Statement (.bioWr64le v) := by
  apply Row.holds_join <;>
    dsimp only [Instr.row, Instr.fields, Fields.ofOp, Fields.bioWrite, Fields.split] <;>
    first
      | decide
      | (refine and_masked ?_ ?_ <;> decide)

theorem bioWr64be (v : Dword) : Statement (.bioWr64be v) := by
  apply Row.holds_join <;>
    dsimp only [Instr.row, Instr.fields, Fields.ofOp, Fields.bioWrite, Fields.split] <;>
    first
      | decide
      | (refine and_masked ?_ ?_ <;> decide)

theorem bioRd8 : Statement .bioRd8 := by unfold Statement; decide

theorem bioRd16le : Statement .bioRd16le := by unfold Statement; decide

theorem bioRd16be : Statement .bioRd16be := by unfold Statement; decide

theorem bioRd32le : Statement .bioRd32le := by unfold Statement; decide

theorem bioRd32be : Statement .bioRd32be := by unfold Statement; decide

theorem bioRd64le : Statement .bioRd64le := by unfold Statement; decide

theorem bioRd64be : Statement .bioRd64be := by unfold Statement; decide

theorem bmInit (idx : Index) : Statement (.bmInit idx) := by
  apply Row.holds_join <;>
    dsimp only [Instr.row, Instr.fields, Fields.ofOp, Fields.bioWrite, Fields.split] <;>
    first
      | decide
      | (refine and_masked ?_ ?_ <;> decide)

theorem smCfg (idx : Index) (n : BitVec 16) : Statement (.smCfg idx n) := by
  apply Row.holds_join <;>
    dsimp only [Instr.row, Instr.fields, Fields.ofOp, Fields.bioWrite, Fields.split] <;>
    first
      | decide
      | (refine and_masked ?_ ?_ <;> decide)

theorem smInit (idx : Index) : Statement (.smInit idx) := by
  apply Row.holds_join <;>
    dsimp only [Instr.row, Instr.fields, Fields.ofOp, Fields.bioWrite, Fields.split] <;>
    first
      | decide
      | (refine and_masked ?_ ?_ <;> decide)

theorem encInit : Statement .encInit := by unfold Statement; decide

theorem encSym (idx : Index) (v : Dword) : Statement (.encSym idx v) := by
  apply Row.holds_join <;>
    dsimp only [Instr.row, Instr.fields, Fields.ofOp, Fields.bioWrite, Fields.split] <;>
    first
      | decide
      | (refine and_masked ?_ ?_ <;> decide)

theorem encBit (idx : Index) (v : Dword) : Statement (.encBit idx v) := by
  apply Row.holds_join <;>
    dsimp only [Instr.row, Instr.fields, Fields.ofOp, Fields.bioWrite, Fields.split] <;>
    first
      | decide
      | (refine and_masked ?_ ?_ <;> decide)

theorem encBits (n : BitVec 8) (v : Dword) : Statement (.encBits n v) := by
  apply Row.holds_join <;>
    dsimp only [Instr.row, Instr.fields, Fields.ofOp, Fields.bioWrite, Fields.split] <;>
    first
      | decide
      | (refine and_masked ?_ ?_ <;> decide)

theorem encFloat (v : Dword) : Statement (.encFloat v) := by
  apply Row.holds_join <;>
    dsimp only [Instr.row, Instr.fields, Fields.ofOp, Fields.bioWrite, Fields.split] <;>
    first
      | decide
      | (refine and_masked ?_ ?_ <;> decide)

theorem encDouble (v : Dword) : Statement (.encDouble v) := by
  apply Row.holds_join <;>
    dsimp only [Instr.row, Instr.fields, Fields.ofOp, Fields.bioWrite, Fields.split] <;>
    first
      | decide
      | (refine and_masked ?_ ?_ <;> decide)

theorem encDone : Statement .encDone := by unfold Statement; decide

theorem decInit : Statement .decInit := by unfold Statement; decide

theorem decSym (idx : Index) : Statement (.decSym idx) := by
  apply Row.holds_join <;>
    dsimp only [Instr.row, Instr.fields, Fields.ofOp, Fields.bioWrite, Fields.split] <;>
    first
      | decide
      | (refine and_masked ?_ ?_ <;> decide)

theorem decBit (idx : Index) : Statement (.decBit idx) := by
  apply Row.holds_join <;>
    dsimp only [Instr.row, Instr.fields, Fields.ofOp, Fields.bioWrite, Fields.split] <;>
    first
      | decide
      | (refine and_masked ?_ ?_ <;> decide)

theorem decBits (n : BitVec 8) : Statement (.decBits n) := by
  apply Row.holds_join <;>
    dsimp only [Instr.row, Instr.fields, Fields.ofOp, Fields.bioWrite, Fields.split] <;>
    first
      | decide
      | (refine and_masked ?_ ?_ <;> decide)

theorem decFloat : Statement .decFloat := by unfold Statement; decide

theorem decDouble : Statement .decDouble := by unfold Statement; decide

theorem decDone : Statement .decDone := by unfold Statement; decide

theorem icCfg (idx : Index) (bits : BitVec 8) (contexts : BitVec 16) (bitsHigh : BitVec 8) (rng : Word) : Statement (.icCfg idx bits contexts bitsHigh rng) := by
  apply Row.holds_join <;>
    dsimp only [Instr.row, Instr.fields, Fields.ofOp, Fields.bioWrite, Fields.split] <;>
    first
      | decide
      | (refine and_masked ?_ ?_ <;> decide)
      | (refine and_low ?_ ?_ <;> decide)

theorem icInit (idx : Index) : Statement (.icInit idx) := by
  apply Row.holds_join <;>
    dsimp only [Instr.row, Instr.fields, Fields.ofOp, Fields.bioWrite, Fields.split] <;>
    first
      | decide
      | (refine and_masked ?_ ?_ <;> decide)

theorem icEnc (idx : Index) (ctx : BitVec 16) (pred real : Word) : Statement (.icEnc idx ctx pred real) := by
  apply Row.holds_join <;>
    dsimp only [Instr.row, Instr.fields, Fields.ofOp, Fields.bioWrite, Fields.split] <;>
    first
      | decide
      | (refine and_masked ?_ ?_ <;> decide)

theorem icDec (idx : Index) (ctx : BitVec 16) (pred : Word) : Statement (.icDec idx ctx pred) := by
  apply Row.holds_join <;>
    dsimp only [Instr.row, Instr.fields, Fields.ofOp, Fields.bioWrite, Fields.split] <;>
    first
      | decide
      | (refine and_masked ?_ ?_ <;> decide)
      | (refine and_low ?_ ?_ <;> decide)

theorem icGetk (idx : Index) : Statement (.icGetk idx) := by
  apply Row.holds_join <;>
    dsimp only [Instr.row, Instr.fields, Fields.ofOp, Fields.bioWrite, Fields.split] <;>
    first
      | decide
      | (refine and_masked ?_ ?_ <;> decide)

theorem csrRd (addr : Index) : Statement (.csrRd addr) := by
  apply Row.holds_join <;>
    dsimp only [Instr.row, Instr.fields, Fields.ofOp, Fields.bioWrite, Fields.split] <;>
    first
      | decide
      | (refine and_masked ?_ ?_ <;> decide)

end Sys2Proof.Laws.EncodesInRow
end

