-- ==== Sys2Proof/Machine/Assembly.lean ====
section
/-! DEFINITION. The assembler text of the commands (30_encoding.md R99), pseudo-instructions among
them (R100): one line of text to one command, and a command to its line. No other definition uses
this file: commands reach the LEC as 128 bits. -/

namespace Sys2Proof.Machine

/-- A piece of assembler text. -/
abbrev Text := List Char

/-! ## Pieces of a line -/

/-- The characters between words. -/
def isBlank (c : Char) : Bool := c = ' ' || c = '\t' || c = '\n' || c = '\r'

/-- Text without blanks at either end. -/
def trimBlanks (t : Text) : Text := ((t.dropWhile isBlank).reverse.dropWhile isBlank).reverse

/-- The pieces of a text between its commas. -/
def splitCommas : Text → List Text
  | [] => [[]]
  | c :: rest =>
    match splitCommas rest with
    | [] => [[c]]
    | piece :: pieces => if c = ',' then [] :: piece :: pieces else (c :: piece) :: pieces

/-- The value of a digit. -/
def digitValue (c : Char) : Option Nat :=
  if '0' ≤ c ∧ c ≤ '9' then some (c.toNat - '0'.toNat)
  else if 'a' ≤ c ∧ c ≤ 'f' then some (c.toNat - 'a'.toNat + 10)
  else if 'A' ≤ c ∧ c ≤ 'F' then some (c.toNat - 'A'.toNat + 10)
  else none

/-- Digits of a base, on top of the value of those before. -/
def readDigits (base acc : Nat) : Text → Option Nat
  | [] => some acc
  | c :: rest =>
    match digitValue c with
    | some d => if d < base then readDigits base (acc * base + d) rest else none
    | none => none

/-- A number, decimal or `0x` hexadecimal. -/
def readNumber : Text → Option Nat
  | [] => none
  | '0' :: 'x' :: [] => none
  | '0' :: 'x' :: digits => readDigits 16 0 digits
  | digits => readDigits 10 0 digits

/-- A number for a field of `w` bits; one that does not fit is no operand (log 24). -/
def readField (w : Nat) (t : Text) : Option (BitVec w) :=
  match readNumber t with
  | some v => if v < 2 ^ w then some (BitVec.ofNat w v) else none
  | none => none

/-- An `i32` operand: a pattern, or a number with a minus sign, encoded as `u32of()`. -/
def readSigned : Text → Option Word
  | '-' :: digits =>
    match readNumber digits with
    | some v => if v ≤ 2 ^ 31 then some (BitVec.ofInt 32 (-(v : Int))) else none
    | none => none
  | t => readField 32 t

/-- A slot or an instance: two letters and a decimal index. -/
def readSlot (a b : Char) : Text → Option Index
  | x :: y :: d :: digits =>
    if x = a ∧ y = b then
      match readDigits 10 0 (d :: digits) with
      | some v => if v < 2 ^ 16 then some (BitVec.ofNat 16 v) else none
      | none => none
    else none
  | _ => none

/-- The name of a CSR (10_state.md R35). -/
def csrName : Csr → String
  | .fault => "FAULT"
  | .status => "STATUS"
  | .res => "RES"
  | .sinkCount => "SINK_COUNT"
  | .srcCount => "SRC_COUNT"
  | .encLow => "ENC_LOW"
  | .encRange => "ENC_RANGE"
  | .encStage => "ENC_STAGE"
  | .encPending => "ENC_PENDING"
  | .encOutIdx => "ENC_OUTIDX"
  | .decValue => "DEC_VALUE"
  | .decRange => "DEC_RANGE"

/-- The addresses of the CSRs, each under its name (10_state.md R35). -/
def csrNames : List (String × Index) :=
  [0x00#16, 0x01#16, 0x02#16, 0x03#16, 0x04#16, 0x08#16, 0x09#16, 0x0A#16, 0x0B#16, 0x0C#16, 0x10#16,
    0x11#16].filterMap fun a => (Csr.ofAddress a).map fun c => (csrName c, a)

/-- A CSR by its name. -/
def readCsr (t : Text) : Option Index :=
  (csrNames.find? fun entry => entry.1 = String.ofList t).map Prod.snd

/-! ## A line to a command -/

/-- A command without operands. -/
def operands0 (i : Instr) : List Text → Option Instr
  | [] => some i
  | _ => none

/-- A command with one operand. -/
def operands1 {α : Type} (ra : Text → Option α) (k : α → Instr) : List Text → Option Instr
  | [a] => (ra a).map k
  | _ => none

/-- A command with two operands. -/
def operands2 {α β : Type} (ra : Text → Option α) (rb : Text → Option β) (k : α → β → Instr) :
    List Text → Option Instr
  | [a, b] =>
    match ra a, rb b with
    | some x, some y => some (k x y)
    | _, _ => none
  | _ => none

/-- `IC.CFG ic<j>, bits, contexts, bits_high, rng`. -/
def operandsIcCfg : List Text → Option Instr
  | [a, b, c, d, e] =>
    match readSlot 'i' 'c' a, readField 8 b, readField 16 c, readField 8 d, readField 32 e with
    | some j, some bits, some contexts, some high, some rng => some (.icCfg j bits contexts high rng)
    | _, _, _, _, _ => none
  | _ => none

/-- `IC.ENC ic<j>, ctx, pred, real`. -/
def operandsIcEnc : List Text → Option Instr
  | [a, b, c, d] =>
    match readSlot 'i' 'c' a, readField 16 b, readSigned c, readSigned d with
    | some j, some ctx, some pred, some real => some (.icEnc j ctx pred real)
    | _, _, _, _ => none
  | _ => none

/-- `IC.DEC ic<j>, ctx, pred`. -/
def operandsIcDec : List Text → Option Instr
  | [a, b, c] =>
    match readSlot 'i' 'c' a, readField 16 b, readSigned c with
    | some j, some ctx, some pred => some (.icDec j ctx pred)
    | _, _, _ => none
  | _ => none

/-- The bit I/O mnemonics. -/
def assembleBio (mnemonic : String) (ops : List Text) : Option Instr :=
  match mnemonic with
  | "BIO.WR8" => operands1 (readField 64) .bioWr8 ops
  | "BIO.WR16LE" => operands1 (readField 64) .bioWr16le ops
  | "BIO.WR16BE" => operands1 (readField 64) .bioWr16be ops
  | "BIO.WR32LE" => operands1 (readField 64) .bioWr32le ops
  | "BIO.WR32BE" => operands1 (readField 64) .bioWr32be ops
  | "BIO.WR64LE" => operands1 (readField 64) .bioWr64le ops
  | "BIO.WR64BE" => operands1 (readField 64) .bioWr64be ops
  | "BIO.RD8" => operands0 .bioRd8 ops
  | "BIO.RD16LE" => operands0 .bioRd16le ops
  | "BIO.RD16BE" => operands0 .bioRd16be ops
  | "BIO.RD32LE" => operands0 .bioRd32le ops
  | "BIO.RD32BE" => operands0 .bioRd32be ops
  | "BIO.RD64LE" => operands0 .bioRd64le ops
  | "BIO.RD64BE" => operands0 .bioRd64be ops
  | _ => none

/-- The model, coder and system mnemonics. -/
def assembleCore (mnemonic : String) (ops : List Text) : Option Instr :=
  match mnemonic with
  | "BM.INIT" => operands1 (readSlot 'b' 'm') .bmInit ops
  | "SM.CFG" => operands2 (readSlot 's' 'm') (readField 16) .smCfg ops
  | "SM.INIT" => operands1 (readSlot 's' 'm') .smInit ops
  | "ENC.INIT" => operands0 .encInit ops
  | "ENC.SYM" => operands2 (readSlot 's' 'm') (readField 64) .encSym ops
  | "ENC.BIT" => operands2 (readSlot 'b' 'm') (readField 64) .encBit ops
  | "ENC.BITS" => operands2 (readField 8) (readField 64) .encBits ops
  | "ENC.FLOAT" => operands1 (readField 64) .encFloat ops
  | "ENC.DOUBLE" => operands1 (readField 64) .encDouble ops
  | "ENC.DONE" => operands0 .encDone ops
  | "DEC.INIT" => operands0 .decInit ops
  | "DEC.SYM" => operands1 (readSlot 's' 'm') .decSym ops
  | "DEC.BIT" => operands1 (readSlot 'b' 'm') .decBit ops
  | "DEC.BITS" => operands1 (readField 8) .decBits ops
  | "DEC.FLOAT" => operands0 .decFloat ops
  | "DEC.DOUBLE" => operands0 .decDouble ops
  | "DEC.DONE" => operands0 .decDone ops
  | "IC.CFG" => operandsIcCfg ops
  | "IC.INIT" => operands1 (readSlot 'i' 'c') .icInit ops
  | "IC.ENC" => operandsIcEnc ops
  | "IC.DEC" => operandsIcDec ops
  | "IC.GETK" => operands1 (readSlot 'i' 'c') .icGetk ops
  | "CSR.RD" => operands1 readCsr .csrRd ops
  | _ => none

/-- The pseudo-instructions (R100). -/
def assemblePseudo (mnemonic : String) (ops : List Text) : Option Instr :=
  match mnemonic with
  | "ENC.BYTE" => operands1 (readField 64) (fun v => (Pseudo.encByte v).expand) ops
  | "ENC.SHORT" => operands1 (readField 64) (fun v => (Pseudo.encShort v).expand) ops
  | "ENC.INT" => operands1 (readField 64) (fun v => (Pseudo.encInt v).expand) ops
  | "ENC.INT64" => operands1 (readField 64) (fun v => (Pseudo.encInt64 v).expand) ops
  | "ENC.WBIT" => operands1 (readField 64) (fun v => (Pseudo.encWbit v).expand) ops
  | "DEC.BYTE" => operands0 Pseudo.decByte.expand ops
  | "DEC.SHORT" => operands0 Pseudo.decShort.expand ops
  | "DEC.INT" => operands0 Pseudo.decInt.expand ops
  | "DEC.INT64" => operands0 Pseudo.decInt64.expand ops
  | "DEC.RBIT" => operands0 Pseudo.decRbit.expand ops
  | _ => none

/-- The command a line of assembler text stands for (R99): a mnemonic in either case, operands
between commas, and a comment after a semicolon. -/
def assemble (line : Text) : Option Instr :=
  let code := trimBlanks (line.takeWhile fun c => c ≠ ';')
  let mnemonic := String.ofList ((code.takeWhile fun c => !isBlank c).map Char.toUpper)
  let rest := trimBlanks (code.dropWhile fun c => !isBlank c)
  let ops := if rest.isEmpty then [] else (splitCommas rest).map trimBlanks
  (assembleBio mnemonic ops).or ((assembleCore mnemonic ops).or (assemblePseudo mnemonic ops))

/-! ## A command to its line -/

/-- A slot or an instance in assembler text. -/
def slotText (file : String) (idx : Index) : String := file ++ toString idx.toNat

/-- The operands of a command in assembler text, in the order of R99. -/
def operandTexts : Instr → List String
  | .bioWr8 v | .bioWr16le v | .bioWr16be v | .bioWr32le v | .bioWr32be v | .bioWr64le v | .bioWr64be v =>
    [toString v.toNat]
  | .bioRd8 | .bioRd16le | .bioRd16be | .bioRd32le | .bioRd32be | .bioRd64le | .bioRd64be => []
  | .bmInit idx | .decBit idx => [slotText "bm" idx]
  | .smCfg idx n => [slotText "sm" idx, toString n.toNat]
  | .smInit idx | .decSym idx => [slotText "sm" idx]
  | .encInit | .encDone | .decInit | .decFloat | .decDouble | .decDone => []
  | .encSym idx v => [slotText "sm" idx, toString v.toNat]
  | .encBit idx v => [slotText "bm" idx, toString v.toNat]
  | .encBits n v => [toString n.toNat, toString v.toNat]
  | .encFloat v | .encDouble v => [toString v.toNat]
  | .decBits n => [toString n.toNat]
  | .icCfg idx bits contexts bitsHigh rng =>
    [slotText "ic" idx, toString bits.toNat, toString contexts.toNat, toString bitsHigh.toNat,
      toString rng.toNat]
  | .icInit idx | .icGetk idx => [slotText "ic" idx]
  | .icEnc idx ctx pred real =>
    [slotText "ic" idx, toString ctx.toNat, toString pred.toInt, toString real.toInt]
  | .icDec idx ctx pred => [slotText "ic" idx, toString ctx.toNat, toString pred.toInt]
  | .csrRd addr => [((Csr.ofAddress addr).map csrName).getD ""]

/-- The line of a command (R99). -/
def lineOf (i : Instr) : String :=
  let ops := operandTexts i
  if ops.isEmpty then i.row.mnemonic else i.row.mnemonic ++ " " ++ String.intercalate ", " ops

end Sys2Proof.Machine
end

