-- ==== Sys2Proof/Tests/Slice0.lean ====
section
/-! SUPPORT. Tests. The expected values are those of spec/95_test_vectors.md (section and row in the
docstrings) and of the rules' own tables; the witnesses at the end show, for each statement with
hypotheses, a concrete state and operands that meet them. -/

namespace Sys2Proof.Tests

open Sys2Proof Sys2Proof.Machine

/-! ## Well-formed commands (30_encoding.md R95, 10_state.md R35) -/

/-- The one check of `wellFormed`: the address of `CSR.RD` must be listed. -/
theorem test_unlisted_csr_is_ill_formed :
    Instr.wellFormed (.csrRd 0x05#16) = false ∧ Instr.wellFormed (.csrRd 0x0D#16) = false ∧
      Instr.wellFormed (.csrRd 0x12#16) = false ∧ Instr.wellFormed (.csrRd 0xFFFF#16) = false := by
  decide

theorem test_listed_csr_is_well_formed :
    Instr.wellFormed (.csrRd 0x00#16) = true ∧ Instr.wellFormed (.csrRd 0x11#16) = true := by decide

/-! ## Decoding (30_encoding.md R90 to R96): the words of spec/95, CW then DW -/

/-- These bits decode to this command. -/
def reads (w : Command) (i : Instr) : Bool :=
  match decode w with
  | .ok j => decide (j = i)
  | .error _ => false

/-- These bits are no command, for this reason. -/
def rejects (w : Command) (why : Illegal) : Bool :=
  match decode w with
  | .ok _ => false
  | .error e => decide (e = why)

/-- spec/95 section 2. -/
theorem test_decode_bio_writes :
    reads 0x100000000000000000000000000000A5#128 (.bioWr8 0xA5#64) = true ∧
    reads 0x10010000000000000000000000001234#128 (.bioWr16le 0x1234#64) = true ∧
    reads 0x10050000000000000000000000001234#128 (.bioWr16be 0x1234#64) = true ∧
    reads 0x10020000000000000000000012345678#128 (.bioWr32le 0x12345678#64) = true ∧
    reads 0x10060000000000000000000012345678#128 (.bioWr32be 0x12345678#64) = true ∧
    reads 0x10030000000000000102030405060708#128 (.bioWr64le 0x0102030405060708#64) = true ∧
    reads 0x10070000000000000102030405060708#128 (.bioWr64be 0x0102030405060708#64) = true := by
  decide

/-- spec/95 section 2. -/
theorem test_decode_bio_reads :
    reads 0x11000000000000000000000000000000#128 .bioRd8 = true ∧
    reads 0x11010000000000000000000000000000#128 .bioRd16le = true ∧
    reads 0x11050000000000000000000000000000#128 .bioRd16be = true ∧
    reads 0x11020000000000000000000000000000#128 .bioRd32le = true ∧
    reads 0x11060000000000000000000000000000#128 .bioRd32be = true ∧
    reads 0x11030000000000000000000000000000#128 .bioRd64le = true ∧
    reads 0x11070000000000000000000000000000#128 .bioRd64be = true := by
  decide

/-- spec/95 sections 3 and 5.3. -/
theorem test_decode_models :
    reads 0x20000400000000000000000000000000#128 (.bmInit 1024#16) = true ∧
    reads 0x21000400000400000000000000000000#128 (.smCfg 1024#16 4#16) = true ∧
    reads 0x21000000080100000000000000000000#128 (.smCfg 0#16 2049#16) = true ∧
    reads 0x22000000000000000000000000000000#128 (.smInit 0#16) = true := by
  decide

/-- spec/95 sections 4 and 5.3. -/
theorem test_decode_encoder :
    reads 0x30000000000000000000000000000000#128 .encInit = true ∧
    reads 0x310003FF000000000000000000000004#128 (.encSym 1023#16 4#64) = true ∧
    reads 0x32000000000000000000000000000002#128 (.encBit 0#16 2#64) = true ∧
    reads 0x3313000000000000000000000007FFFF#128 (.encBits 19#8 0x7FFFF#64) = true ∧
    reads 0x340000000000000000000000DEADBEEF#128 (.encFloat 0xDEADBEEF#64) = true ∧
    reads 0x3500000000000000400921FB54442D18#128 (.encDouble 0x400921FB54442D18#64) = true ∧
    reads 0x36000000000000000000000000000000#128 .encDone = true := by
  decide

/-- spec/95 section 4. -/
theorem test_decode_decoder :
    reads 0x40000000000000000000000000000000#128 .decInit = true ∧
    reads 0x41000000000000000000000000000000#128 (.decSym 0#16) = true ∧
    reads 0x42000000000000000000000000000000#128 (.decBit 0#16) = true ∧
    reads 0x43200000000000000000000000000000#128 (.decBits 32#8) = true ∧
    reads 0x44000000000000000000000000000000#128 .decFloat = true ∧
    reads 0x45000000000000000000000000000000#128 .decDouble = true ∧
    reads 0x46000000000000000000000000000000#128 .decDone = true := by
  decide

/-- spec/95 sections 5.1, 5.2 and program P3. -/
theorem test_decode_integer_codec_and_csr :
    reads 0x50210040010108000000000080000000#128 (.icCfg 0x40#16 33#8 257#16 8#8 0x80000000#32) = true ∧
    reads 0x51000003000000000000000000000000#128 (.icInit 3#16) = true ∧
    reads 0x52000000000100000000005D00000445#128 (.icEnc 0#16 1#16 93#32 1093#32) = true ∧
    reads 0x53000000000100000000000000000064#128 (.icDec 0#16 1#16 100#32) = true ∧
    reads 0x54000000000000000000000000000000#128 (.icGetk 0#16) = true ∧
    reads 0x6000000A000000000000000000000000#128 (.csrRd 0x0A#16) = true := by
  decide

/-- The rows of spec/95 section 5.3 with code 01, each with the field that makes it illegal. -/
theorem test_decode_illegal :
    rejects 0x70000000000000000000000000000000#128 .unassignedOpcode = true ∧
    rejects 0x00000000000000000000000000000000#128 .unassignedOpcode = true ∧
    rejects 0x30000000000000010000000000000000#128 .mustBeZero = true ∧
    rejects 0x30000000000000000000000000000001#128 .mustBeZero = true ∧
    rejects 0x30010000000000000000000000000000#128 .mustBeZero = true ∧
    rejects 0x10040000000000000000000000000000#128 .unassignedFunction = true ∧
    rejects 0x11040000000000000000000000000000#128 .unassignedFunction = true ∧
    rejects 0x10080000000000000000000000000000#128 .unassignedFunction = true ∧
    rejects 0x20000000000100000000000000000000#128 .mustBeZero = true ∧
    rejects 0x60000005000000000000000000000000#128 .unassignedCsr = true ∧
    rejects 0x6000000D000000000000000000000000#128 .unassignedCsr = true ∧
    rejects 0x53000000000000000000000100000000#128 .mustBeZero = true ∧
    rejects 0x43080000000000000000000000000001#128 .mustBeZero = true := by
  decide

/-- What the host's two readers of table words do (30_encoding.md R90). -/
theorem test_table_words :
    decodeTableWord 128 0x36000000000000000000000000000000 = some .encDone ∧
      decodeTableWord 128 0x70000000000000000000000000000000 = none := by
  decide

/-! ## Assembler text (30_encoding.md R99, R100): the rule's own examples -/

theorem test_assembler_reads_the_examples :
    assemble "ENC.SYM sm3, 5".toList = some (.encSym 3#16 5#64) ∧
    assemble "enc.bits 12, 0xABC ; a comment".toList = some (.encBits 12#8 0xABC#64) ∧
    assemble "IC.CFG ic0, 32, 2, 8, 0".toList = some (.icCfg 0#16 32#8 2#16 8#8 0#32) ∧
    assemble "IC.ENC ic0, 1, 100, -7".toList = some (.icEnc 0#16 1#16 100#32 0xFFFFFFF9#32) ∧
    assemble "CSR.RD FAULT".toList = some (.csrRd 0#16) ∧
    assemble "ENC.WBIT 1".toList = some (.encBits 1#8 1#64) ∧
    assemble "ENC.SYM bm3, 5".toList = none := by
  decide

theorem test_assembler_writes_an_example :
    lineOf (.icEnc 0#16 1#16 100#32 0xFFFFFFF9#32) = "IC.ENC ic0, 1, 100, -7" := by decide

/-! ## One command on a small state -/

/-- A command goes on to a state that passes a test. -/
def after (i : Instr) (s : State) (ok : State → Bool) : Bool :=
  match exec i s with
  | .next t => ok t
  | .fault _ => false
  | .refused _ => false

/-- A command takes a precise fault: the code in `FAULT` and in the response, and nothing else. -/
def faults (i : Instr) (s : State) (code : BitVec 8) : Bool :=
  after i s fun t => decide (t = s.faulted code)

/-- The last response. -/
def answered (t : State) (status : BitVec 8) (data : Dword) : Bool :=
  decide (t.responses.getLast? = some { status := status, data := data })

/-- A source that holds these bytes and then ends. -/
def sourceOf (bs : List Byte) : Source := { answers := bs.map .byte, count := 0#64 }

/-- After reset, with these bytes at the source. -/
def fed (bs : List Byte) : State := { State.reset with src := sourceOf bs }

/-- An open chunk with this interval, stage and output buffer. -/
def coding (low range : Word) (cache : Option Byte) (pending : Nat) (outBuf : List Byte) : State :=
  { State.reset with
    enc :=
      { low := low, range := range, cache := cache.getD 0#8, cacheValid := cache.isSome
        pending := pending, outBuf := outBuf, active := true } }

/-- The interval, stage and output buffer are these. -/
def isCoding (t : State) (low range : Word) (cache : Byte) (pending : Nat) (outBuf : List Byte) : Bool :=
  decide (t.enc =
    { low := low, range := range, cache := cache, cacheValid := true, pending := pending
      outBuf := outBuf, active := true })

/-- Decoding with this interval and code value, and these bytes at the source. -/
def decoding (dvalue drange : Word) (bs : List Byte) : State :=
  { State.reset with
    dec := { dvalue := dvalue, drange := drange, active := true }
    src := sourceOf bs }

/-- A decoding command answered with this value, and left this code value and interval. -/
def isDecoding (t : State) (data : Dword) (dvalue drange : Word) (taken : Dword) : Bool :=
  answered t 0x00#8 data && decide (t.res = data) &&
    decide (t.dec = { dvalue := dvalue, drange := drange, active := true }) &&
    decide (t.src.count = taken)

/-- A binary model, in the order of spec/95 section 3. -/
def bin (c0 cnt p0 cycle left : Nat) : BinModel :=
  { c0 := c0, cnt := cnt, p0 := p0, cycle := cycle, untilUpdate := left }

/-! ### Bit I/O (spec/95 section 2) -/

/-- A `BIO` write leaves these bytes at the sink, in one burst. -/
def writes (i : Instr) (bs : List Byte) : Bool :=
  after i State.reset fun t =>
    decide (t.sink.bursts = [bs]) && decide (t.sink.count.toNat = bs.length) && answered t 0x00#8 0#64

theorem test_bio_writes :
    writes (.bioWr8 0xA5#64) [0xA5#8] = true ∧
    writes (.bioWr16le 0x1234#64) [0x34#8, 0x12#8] = true ∧
    writes (.bioWr16be 0x1234#64) [0x12#8, 0x34#8] = true ∧
    writes (.bioWr32le 0x12345678#64) [0x78#8, 0x56#8, 0x34#8, 0x12#8] = true ∧
    writes (.bioWr32be 0x12345678#64) [0x12#8, 0x34#8, 0x56#8, 0x78#8] = true ∧
    writes (.bioWr64le 0x0102030405060708#64)
      [0x08#8, 0x07#8, 0x06#8, 0x05#8, 0x04#8, 0x03#8, 0x02#8, 0x01#8] = true ∧
    writes (.bioWr64be 0x0102030405060708#64)
      [0x01#8, 0x02#8, 0x03#8, 0x04#8, 0x05#8, 0x06#8, 0x07#8, 0x08#8] = true := by
  decide

/-- Section 5.3: the corner values that do not fit. -/
theorem test_bio_write_ranges :
    faults (.bioWr8 0x100#64) State.reset 0x05#8 = true ∧
    faults (.bioWr16le 0x10000#64) State.reset 0x05#8 = true ∧
    faults (.bioWr16be 0x10000#64) State.reset 0x05#8 = true ∧
    faults (.bioWr32le 0x100000000#64) State.reset 0x05#8 = true ∧
    faults (.bioWr32be 0x100000000#64) State.reset 0x05#8 = true := by
  decide

/-- A `BIO` read of the source 78 56 34 12 80 FF ... answers so. -/
def readsValue (i : Instr) (data : Dword) (taken : Dword) : Bool :=
  after i (fed [0x78#8, 0x56#8, 0x34#8, 0x12#8, 0x80#8, 0xFF#8, 0x01#8, 0x02#8]) fun t =>
    answered t 0x00#8 data && decide (t.res = data) && decide (t.src.count = taken)

theorem test_bio_reads :
    readsValue .bioRd8 0x78#64 1#64 = true ∧
    readsValue .bioRd16le 0x5678#64 2#64 = true ∧
    readsValue .bioRd16be 0x7856#64 2#64 = true ∧
    readsValue .bioRd32le 0x12345678#64 4#64 = true ∧
    readsValue .bioRd32be 0x78563412#64 4#64 = true ∧
    readsValue .bioRd64le 0x0201FF8012345678#64 8#64 = true ∧
    readsValue .bioRd64be 0x7856341280FF0102#64 8#64 = true := by
  decide

/-- No sign extension; and section 5.4: a source that ends too early. -/
theorem test_bio_read_edges :
    (after .bioRd16le (fed [0x80#8, 0xFF#8]) fun t => decide (t.res = 0xFF80#64)) = true ∧
    (after .bioRd8 (fed []) fun t => decide (t.fault = 0x07#8) && answered t 0x07#8 0#64) = true ∧
    (after .bioRd32le (fed [1#8, 2#8, 3#8]) fun t => decide (t.fault = 0x07#8) && decide (t.res = 0#64))
      = true := by
  decide

/-- Section 5.4: a sink that refuses its first write. -/
theorem test_bio_write_io_error :
    (after (.bioWr8 0#64)
      { State.reset with sink := { bursts := [], answers := [.ioError 0], count := 0#64 } } fun t =>
        decide (t.fault = 0x08#8) && answered t 0x08#8 0#64 && decide (t.sink.bytes = [])) = true := by
  decide

/-! ### Models (spec/95 section 3) -/

theorem test_bm_init :
    (after (.bmInit 0#16) State.reset fun t => decide (t.bm = [(0, bin 1 2 4096 4 4)])) = true ∧
      faults (.bmInit 1024#16) State.reset 0x03#8 = true := by
  decide

/-- Section 3.2, the initial table of four symbols; section 5.3, the illegal alphabets. -/
theorem test_sm_cfg :
    (after (.smCfg 0#16 4#16) State.reset fun t => decide (t.sm =
      [(0, { n := 4, count := [1, 1, 1, 1], dist := [0, 8192, 16384, 24576], total := 4, cycle := 5
             untilUpdate := 5 })])) = true ∧
      faults (.smCfg 0#16 1#16) State.reset 0x03#8 = true ∧
      faults (.smCfg 0#16 2049#16) State.reset 0x03#8 = true ∧
      faults (.smCfg 1024#16 4#16) State.reset 0x03#8 = true := by
  decide

/-- A model of four symbols that has seen 0, 0, 1, 0 (section 3.2). -/
def seenFour : SymModel :=
  { n := 4, count := [4, 2, 1, 1], dist := [0, 8192, 16384, 24576], total := 4, cycle := 5, untilUpdate := 1 }

/-- The same model after the symbol 3 and its update (section 3.2). -/
def seenFive : SymModel :=
  { n := 4, count := [4, 2, 1, 2], dist := [0, 14563, 21845, 25486], total := 9, cycle := 6, untilUpdate := 6 }

theorem test_sm_init :
    (after (.smInit 0#16) { State.reset with sm := [(0, seenFive)] } fun t =>
      decide (t.sm = [(0, SymModel.fresh 4)])) = true ∧
      faults (.smInit 0#16) State.reset 0x04#8 = true := by
  decide

/-- Sections 3.1 and 3.2: the updates at which the counts are halved. -/
theorem test_halving :
    (bin 8195 8132 8189 64 0).update = bin 4098 4099 8189 64 64 ∧
      SymModel.update
        { n := 2, count := [32771, 1], dist := [0, 16384], total := 32708, cycle := 64, untilUpdate := 0 } =
        { n := 2, count := [16386, 1], dist := [0, 32765], total := 16387, cycle := 64, untilUpdate := 64 } := by
  decide

/-! ### Range encoder (spec/95 sections 3 and 4) -/

theorem test_enc_init :
    (after .encInit State.reset fun t =>
      decide (t.enc = (coding 0#32 0xFFFFFFFF#32 none 0 []).enc)) = true ∧
      faults .encInit (coding 0#32 0xFFFFFFFF#32 none 0 []) 0x02#8 = true := by
  decide

/-- Section 4.1, the last symbol; section 3.2, the fifth: a carry, and the model's update. -/
theorem test_enc_sym :
    (after (.encSym 0#16 3#64)
      { coding 0#32 0xFFFFFFFF#32 none 0 [] with sm := [(0, SymModel.fresh 4)] } fun t =>
        decide (t.enc = (coding 0xBFFFA000#32 0x40005FFF#32 none 0 []).enc)) = true ∧
    (after (.encSym 0#16 3#64)
      { coding 0xFFE00000#32 0xFFE00000#32 (some 0x03#8) 0 [] with sm := [(0, seenFour)] } fun t =>
        isCoding t 0xBFC80000#32 0x3FF80000#32 0x04#8 0 [] && decide (t.sm = [(0, seenFive)])) = true := by
  decide

/-- Section 5.3: the checks of `ENC.SYM` in their order. -/
theorem test_enc_sym_checks :
    faults (.encSym 2000#16 0#64) State.reset 0x02#8 = true ∧
    faults (.encSym 1024#16 0#64) (coding 0#32 0xFFFFFFFF#32 none 0 []) 0x03#8 = true ∧
    faults (.encSym 1023#16 0#64) (coding 0#32 0xFFFFFFFF#32 none 0 []) 0x04#8 = true ∧
    faults (.encSym 0#16 4#64)
      { coding 0#32 0xFFFFFFFF#32 none 0 [] with sm := [(0, SymModel.fresh 4)] } 0x05#8 = true := by
  decide

/-- Section 3.1, the fourth bit and the model's first update; section 5.3, a bit that is none. -/
theorem test_enc_bit :
    (after (.encBit 0#16 0#64)
      { coding 0x5FFFF000#32 0x20000000#32 none 0 [] with bm := [(0, bin 2 2 4096 4 1)] } fun t =>
        decide (t.enc = (coding 0x5FFFF000#32 0x10000000#32 none 0 []).enc) &&
          decide (t.bm = [(0, bin 3 6 4095 5 5)])) = true ∧
    faults (.encBit 0#16 2#64)
      { coding 0#32 0xFFFFFFFF#32 none 0 [] with bm := [(0, bin 1 2 4096 4 4)] } 0x05#8 = true := by
  decide

/-- Section 4.1, `ENC.BITS 20, 0x80001`: two literals; section 4.3 (a), the fourth command: a carry
through a pending 0xFF. -/
theorem test_enc_bits :
    (after (.encBits 20#8 0x80001#64) (coding 0#32 0xFFFFFFFF#32 none 0 []) fun t =>
      isCoding t 0x7FFE8000#32 0x0FFFF000#32 0x01#8 0 [0x00#8]) = true ∧
    (after (.encBits 8#8 0xFF#64) (coding 0xFFFF0000#32 0xFFFFFF00#32 (some 0x00#8) 1 [0x00#8]) fun t =>
      isCoding t 0xFEFF0100#32 0xFFFFFF00#32 0xFE#8 0 [0x00#8, 0x01#8, 0x00#8]) = true := by
  decide

/-- Section 5.3. -/
theorem test_enc_bits_ranges :
    faults (.encBits 0#8 0#64) (coding 0#32 0xFFFFFFFF#32 none 0 []) 0x05#8 = true ∧
    faults (.encBits 33#8 0#64) (coding 0#32 0xFFFFFFFF#32 none 0 []) 0x05#8 = true ∧
    faults (.encBits 8#8 0x100#64) (coding 0#32 0xFFFFFFFF#32 none 0 []) 0x05#8 = true := by
  decide

/-- Sections 4.1 and 5.3. -/
theorem test_enc_float :
    (after (.encFloat 0xDEADBEEF#64) (coding 0#32 0xFFFFFFFF#32 none 0 []) fun t =>
      isCoding t 0x21530000#32 0xFFFF0000#32 0xBD#8 0 [0xBE#8, 0xEF#8, 0x1F#8]) = true ∧
    faults (.encFloat 0x100000000#64) (coding 0#32 0xFFFFFFFF#32 none 0 []) 0x05#8 = true := by
  decide

/-- Section 4.1. -/
theorem test_enc_double :
    (after (.encDouble 0x400921FB54442D18#64) (coding 0#32 0xFFFFFFFF#32 none 0 []) fun t =>
      isCoding t 0xBFF70000#32 0xFFFF0000#32 0x0D#8 0
        [0x2D#8, 0x18#8, 0x27#8, 0x2B#8, 0xCD#8, 0xB7#8, 0x1E#8]) = true ∧
    (after (.encDouble 0xFFFFFFFFFFFFFFFF#64) (coding 0#32 0xFFFFFFFF#32 none 0 []) fun t =>
      isCoding t 0x00010000#32 0xFFFF0000#32 0xFE#8 6 [0xFF#8]) = true := by
  decide

/-- Section 7, program P1 step 8: the branch for a short interval; section 4.1, the empty chunk. -/
theorem test_enc_done :
    (after .encDone (coding 0#32 0x02000000#32 (some 0x7F#8) 0 [0xD5#8, 0x77#8, 0xF0#8, 0x00#8]) fun t =>
      decide (t.sink.bursts =
        [[0xD5#8, 0x77#8, 0xF0#8, 0x00#8, 0x7F#8, 0x00#8, 0x80#8, 0x00#8, 0x00#8]]) &&
        decide (t.enc.range = 0x80000000#32 ∧ t.enc.low = 0#32 ∧ t.enc.active = false ∧
          t.enc.cacheValid = false ∧ t.enc.outBuf = [])) = true ∧
    (after .encDone (coding 0#32 0xFFFFFFFF#32 none 0 []) fun t =>
      decide (t.sink.bursts = [[0x01#8, 0x00#8, 0x00#8, 0x00#8]])) = true := by
  decide

/-! ### Range decoder (spec/95 sections 4 and 5.4) -/

theorem test_dec_init :
    (after .decInit (fed [0x12#8, 0x34#8, 0x56#8, 0x78#8, 0x9A#8]) fun t =>
      decide (t.dec = (decoding 0x12345678#32 0xFFFFFFFF#32 []).dec) && decide (t.src.count = 4#64) &&
        decide (t.src.answers = [.byte 0x9A#8])) = true ∧
    (after .decInit (fed [1#8, 2#8, 3#8]) fun t =>
      decide (t.fault = 0x07#8) && decide (t.dec.active = false)) = true := by
  decide

/-- Section 4.2, the fifth symbol; section 5.3, the entry check. -/
theorem test_dec_sym :
    (after (.decSym 0#16) { decoding 0xC0200000#32 0xFFE00000#32 [] with sm := [(0, seenFour)] } fun t =>
      isDecoding t 3#64 0x00380000#32 0x3FF80000#32 0#64 && decide (t.sm = [(0, seenFive)])) = true ∧
    faults (.decSym 0#16) { decoding 0xFFFFFFFF#32 0xFFFFFFFF#32 [] with sm := [(0, SymModel.fresh 4)] }
      0x06#8 = true := by
  decide

/-- Section 4.2, the fourth bit; section 5.3, the entry check. -/
theorem test_dec_bit :
    (after (.decBit 0#16) { decoding 0x00001000#32 0x20000000#32 [] with bm := [(0, bin 2 2 4096 4 1)] }
      fun t => isDecoding t 0#64 0x00001000#32 0x10000000#32 0#64 &&
        decide (t.bm = [(0, bin 3 6 4095 5 5)])) = true ∧
    faults (.decBit 0#16) { decoding 0xFFFFFFFF#32 0xFFFFFFFF#32 [] with bm := [(0, bin 1 2 4096 4 4)] }
      0x06#8 = true := by
  decide

/-- Section 4.1, `DEC.BITS 20`; section 5.4: out of range with the byte of the renormalisation, and
without it. -/
theorem test_dec_bits :
    (after (.decBits 20#8) (decoding 0x00018000#32 0xFFFFFFFF#32 [0x00#8, 0x00#8]) fun t =>
      isDecoding t 0x80001#64 0x00018000#32 0x0FFFF000#32 2#64) = true ∧
    (after (.decBits 8#8) (decoding 0xFFFFFF80#32 0xFFFFFFFF#32 [0x00#8]) fun t =>
      decide (t.fault = 0x06#8) && decide (t.dec = (decoding 0x00008000#32 0xFFFFFF00#32 []).dec)) = true ∧
    (after (.decBits 8#8) (decoding 0xFFFFFFFE#32 0xFFFFFFFF#32 []) fun t =>
      decide (t.fault = 0x07#8) && decide (t.dec = (decoding 0x000000FE#32 0x00FFFFFF#32 []).dec)) = true := by
  decide

/-- Section 5.3. -/
theorem test_dec_bits_ranges :
    faults (.decBits 0#8) (decoding 0#32 0xFFFFFFFF#32 []) 0x05#8 = true ∧
      faults (.decBits 33#8) (decoding 0#32 0xFFFFFFFF#32 []) 0x05#8 = true := by
  decide

theorem test_dec_float :
    (after .decFloat (decoding 0xBEEF1FBD#32 0xFFFFFFFF#32 [0x22#8, 0#8, 0#8, 0#8]) fun t =>
      isDecoding t 0xDEADBEEF#64 0x00AD0000#32 0xFFFF0000#32 4#64) = true := by
  decide

theorem test_dec_double :
    (after .decDouble
      (decoding 0x2D18272B#32 0xFFFFFFFF#32 [0xCD#8, 0xB7#8, 0x1E#8, 0x0D#8, 0xC0#8, 0#8, 0#8, 0#8]) fun t =>
      isDecoding t 0x400921FB54442D18#64 0x00090000#32 0xFFFF0000#32 8#64) = true := by
  decide

theorem test_dec_done :
    (after .decDone (decoding 0x00800000#32 0x02000000#32 []) fun t =>
      decide (t.dec = { dvalue := 0x00800000#32, drange := 0x02000000#32, active := false })) = true ∧
      faults .decDone State.reset 0x02#8 = true := by
  decide

/-! ### Integer compressor (spec/95 sections 5.1 and 5.3) -/

/-- R231 with 8 bits; section 5.3, the illegal configurations. -/
theorem test_ic_cfg :
    (after (.icCfg 0#16 8#8 2#16 8#8 0#32) State.reset fun t =>
      (SlotFile.slot? t.ic 0).any fun c =>
        decide (c.corrBits = 8 ∧ c.corrRange = 256#32 ∧ c.corrMin = -128 ∧ c.corrMax = 127 ∧ c.k = 0 ∧
          c.mbits.length = 2 ∧ c.mcorr.length = 8)) = true ∧
    faults (.icCfg 64#16 32#8 1#16 8#8 0#32) State.reset 0x03#8 = true ∧
    faults (.icCfg 0#16 33#8 1#16 8#8 0#32) State.reset 0x03#8 = true ∧
    faults (.icCfg 0#16 32#8 0#16 8#8 0#32) State.reset 0x03#8 = true ∧
    faults (.icCfg 0#16 32#8 257#16 8#8 0#32) State.reset 0x03#8 = true ∧
    faults (.icCfg 0#16 32#8 1#16 0#8 0#32) State.reset 0x03#8 = true ∧
    faults (.icCfg 0#16 32#8 1#16 12#8 0#32) State.reset 0x03#8 = true ∧
    faults (.icCfg 0#16 32#8 1#16 8#8 1#32) State.reset 0x03#8 = true ∧
    faults (.icCfg 0#16 32#8 1#16 8#8 0x80000000#32) State.reset 0x03#8 = true := by
  decide

/-- An instance of 3-bit values whose payloads are small alphabets. -/
def smallInt : IntComp := IntComp.configure 3 1 2 0#32

/-- The models of an instance that has coded something go back; an absent instance faults. -/
theorem test_ic_init :
    (after (.icInit 0#16)
      { State.reset with ic := [(0, { smallInt with k := 2, bm0 := bin 2 2 4096 4 3 })] } fun t =>
        decide (t.ic = [(0, smallInt)])) = true ∧
      faults (.icInit 0#16) State.reset 0x04#8 = true := by
  decide

/-- Section 5.1, the pair (100, 93): the code after the command, and the class. -/
theorem test_ic_enc :
    (after (.icEnc 0#16 0#16 100#32 93#32)
      { coding 0#32 0xFFFFFFFF#32 none 0 [] with ic := [(0, IntComp.configure 32 1 8 0#32)] } fun t =>
        isCoding t 0x43F45E00#32 0xF8300000#32 0x17#8 0 [] &&
          (SlotFile.slot? t.ic 0).any fun c => decide (c.k = 3)) = true := by
  decide

/-- Section 5.1, the faults of `IC.ENC` and `IC.DEC`. -/
theorem test_ic_faults :
    faults (.icEnc 0#16 0#16 0#32 1000#32)
      { coding 0#32 0xFFFFFFFF#32 none 0 [] with ic := [(0, smallInt)] } 0x05#8 = true ∧
    faults (.icEnc 0#16 1#16 0#32 0#32)
      { coding 0#32 0xFFFFFFFF#32 none 0 [] with ic := [(0, smallInt)] } 0x05#8 = true ∧
    faults (.icDec 0#16 1#16 0#32)
      { decoding 0#32 0xFFFFFFFF#32 [] with ic := [(0, smallInt)] } 0x06#8 = true := by
  decide

/-- Section 5.1, the mirror of (100, 93), and program P3 step 5. -/
theorem test_ic_dec :
    (after (.icDec 0#16 0#16 100#32)
      { decoding 0x17967E5B#32 0xFFFFFFFF#32 [0#8] with ic := [(0, IntComp.configure 32 1 8 0#32)] } fun t =>
        isDecoding t 93#64 0x5289FD00#32 0xF8300000#32 1#64) = true := by
  decide

theorem test_ic_getk :
    (after (.icGetk 0#16) { State.reset with ic := [(0, { smallInt with k := 3 })] } fun t =>
      answered t 0x00#8 3#64 && decide (t.res = 3#64)) = true ∧
      faults (.icGetk 0#16) State.reset 0x04#8 = true := by
  decide

/-! ### System (spec/95 section 5.2 and program P5) -/

/-- `CSR.RD` answers so after `ENC.INIT`; `ENC.BITS 8, 0xA5`. -/
def shows (addr : Index) (d : Dword) : Bool :=
  after (.csrRd addr) (coding 0xFFFF5B00#32 0xFFFFFF00#32 (some 0xA4#8) 0 []) fun t =>
    answered t 0x00#8 d && decide (t.res = d)

theorem test_csr_rd :
    shows 0x08#16 0xFFFF5B00#64 = true ∧ shows 0x09#16 0xFFFFFF00#64 = true ∧
    shows 0x0A#16 0x1A4#64 = true ∧ shows 0x0B#16 0#64 = true ∧ shows 0x0C#16 0#64 = true ∧
    shows 0x01#16 0x9#64 = true ∧ shows 0x03#16 0#64 = true ∧ shows 0x00#16 0#64 = true := by
  decide

/-- P5 steps 5 to 7: a recorded fault refuses every command but `CSR.RD`. -/
theorem test_fault_is_sticky :
    (after (.decBit 0#16) { decoding 0x00568ACE#32 0x00FFFFFF#32 [] with fault := 0x07#8 } fun t =>
      decide (t.fault = 0x07#8) && answered t 0xFF#8 0#64) = true ∧
    (after (.csrRd 0x01#16) { decoding 0x00568ACE#32 0x00FFFFFF#32 [] with fault := 0x07#8 } fun t =>
      decide (t.fault = 0x07#8) && answered t 0x00#8 6#64) = true := by
  decide

/-! ### The step -/

/-- A step goes on to a state that passes a test. -/
def stepped (s : State) (ok : State → Bool) : Bool :=
  match step s with
  | .next t => ok t
  | .fault _ => false
  | .refused _ => false

/-- 70_reset_and_hazards.md R300; P5 steps 10 and 11; 60_exceptions.md R294. -/
theorem test_step_events :
    stepped { coding 1#32 0xFFFFFF00#32 none 0 [] with fault := 0x07#8, port := [.reset] } (fun t =>
      decide (t = State.reset)) = true ∧
    stepped { State.reset with fault := 0x07#8, port := [.command 0x60000005000000000000000000000000#128] }
      (fun t => decide (t.fault = 0x07#8) && answered t 0xFF#8 0#64) = true ∧
    stepped { State.reset with port := [.command 0x70000000000000000000000000000000#128] }
      (fun t => decide (t.fault = 0x01#8) && answered t 0x01#8 0#64) = true ∧
    stepped State.reset (fun t => decide (t = State.reset)) = true := by
  decide

/-- A command presented and abandoned when it has made so many transfers. -/
def abandoning (i : Instr) (transfers : Nat) (s : State) (ok : State → Bool) : Bool :=
  stepped { s with port := [.abandoned (encode i) transfers] } ok

/-- 70_reset_and_hazards.md R300: no response; what was delivered stays delivered, what was consumed
stays consumed; everything else has its reset value. -/
theorem test_abandoned_commands :
    abandoning (.bioWr16le 0x1234#64) 0 State.reset (fun t => decide (t = State.reset)) = true ∧
    abandoning (.bioWr16le 0x1234#64) 1 State.reset (fun t =>
      decide (t = { State.reset with
        sink := { bursts := [[0x34#8, 0x12#8]], answers := [], count := 0#64 } })) = true ∧
    abandoning .decInit 0 (fed [1#8, 2#8, 3#8, 4#8, 5#8]) (fun t =>
      decide (t = fed [1#8, 2#8, 3#8, 4#8, 5#8])) = true ∧
    abandoning .decInit 1 (fed [1#8, 2#8, 3#8, 4#8, 5#8]) (fun t => decide (t = fed [5#8])) = true := by
  decide

/-- A renormalisation is one transfer a byte (20_memory.md R67), and a source that ends first faults
nowhere: the reset event follows at once. -/
theorem test_abandoned_renormalisation :
    abandoning (.decBits 16#8) 1 (decoding 0#32 0xFFFFFFFF#32 [1#8, 2#8, 3#8]) (fun t =>
      decide (t = fed [2#8, 3#8])) = true ∧
    abandoning (.decBits 16#8) 9 (decoding 0#32 0xFFFFFFFF#32 [1#8, 2#8, 3#8]) (fun t =>
      decide (t = fed [3#8])) = true ∧
    abandoning (.decBits 16#8) 9 (decoding 0#32 0xFFFFFFFF#32 [1#8]) (fun t => decide (t = fed [])) = true := by
  decide

/-! ## Witnesses: the hypotheses of each statement, met by a concrete state and operands

Each is named after its statement; the clauses of a statement are witnessed one by one, at the ends of
their ranges. -/

/-- A command that passes a test has a next state that passes it. -/
theorem next_of_after {i : Instr} {s : State} {ok : State → Bool} (h : after i s ok = true) :
    ∃ t, exec i s = .next t ∧ ok t = true := by
  unfold after at h
  split at h
  · exact ⟨_, ‹_›, h⟩
  · cases h
  · cases h

/-- A run of commands ends in a state that passes a test. -/
def ran (cmds : List Instr) (s : State) (ok : State → Bool) : Bool :=
  match State.runs cmds s with
  | some t => ok t
  | none => false

theorem some_of_ran {cmds : List Instr} {s : State} {ok : State → Bool} (h : ran cmds s ok = true) :
    ∃ t, State.runs cmds s = some t ∧ ok t = true := by
  unfold ran at h
  split at h
  · exact ⟨_, ‹_›, h⟩
  · cases h

/-- A micro-operation completes. -/
def completes {σ α : Type} (m : Run σ α) : Bool :=
  match m with
  | .ok _ _ => true
  | .raised _ _ => false
  | .diverged => false

theorem ok_of_completes {σ α : Type} {m : Run σ α} {post : α → σ → Prop} (h : Rcd.Ends m post)
    (hc : completes m = true) : ∃ a t, m = .ok a t ∧ post a t := by
  rcases h with ⟨a, t, h1, h2⟩ | ⟨f, t, h1, h2⟩
  · exact ⟨a, t, h1, h2⟩
  · rw [h1] at hc
    cases hc

/-- Both coders at work, one slot of each file in use, eight bytes at the source. -/
def sample : State :=
  { State.reset with
    enc := (coding 0x00001234#32 0xFFFFFFFF#32 (some 0x12#8) 0 [0xAB#8]).enc
    dec := (decoding 0x60000000#32 0xFFFFFFFF#32 []).dec
    src := sourceOf [0x12#8, 0x34#8, 0x56#8, 0x78#8, 0x9A#8, 0xBC#8, 0xDE#8, 0xF0#8]
    bm := [(0, BinModel.fresh)]
    sm := [(0, SymModel.fresh 4)]
    ic := [(0, smallInt)] }

/-- The same machine with no chunk open. -/
def quiet : State := { sample with enc := Encoder.reset, dec := Decoder.reset }

theorem small_int_wf : smallInt.Wf :=
  IntComp.configure_wf (by decide) (by decide) (by decide) (.inl rfl)

theorem opened : (coding 0x00001234#32 0xFFFFFFFF#32 (some 0x12#8) 0 [0xAB#8]).enc.Open :=
  { active := rfl, range := by decide, room := by decide, stage := by decide
    carrySafe := by unfold Encoder.CarrySafe; decide }

theorem started : (coding 0#32 0xFFFFFFFF#32 none 0 []).enc.Open :=
  { active := rfl, range := by decide, room := by decide, stage := by decide
    carrySafe := by unfold Encoder.CarrySafe; decide }

theorem accepts : (State.reset.sink).Accepting := by intro a h; cases h

theorem sample_sound {s : State} (he : s.enc.Open ∨ s.enc.Closed) (hd : s.dec.Open ∨ s.dec.active = false)
    (hp : s.params = Config.Params.default) (hb : s.bm = sample.bm) (hm : s.sm = sample.sm)
    (hi : s.ic = sample.ic) (hf : s.fault = 0#8) : s.Inv := by
  have hall : SlotFile.All s.ic fun c => c.Wf ∧ c.contexts ≤ s.params.icMaxCtx := by
    rw [hi, hp]
    intro p h
    cases List.mem_singleton.mp h
    exact ⟨small_int_wf, by decide⟩
  refine
    { form := ⟨by rw [hp]; decide, by rw [hf]; decide, by rw [hb]; rfl, by rw [hm]; rfl, by rw [hi]; rfl, ?_, ?_, ?_⟩
      sound := fun _ => ⟨he, hd, ?_, ?_, hall⟩ }
  · rw [hb, hp]; intro p h; cases List.mem_singleton.mp h; decide
  · rw [hm, hp]; intro p h; cases List.mem_singleton.mp h; decide
  · rw [hi, hp]; intro p h; cases List.mem_singleton.mp h; decide
  · rw [hb]; intro p h; cases List.mem_singleton.mp h; exact BinModel.fresh_wf
  · rw [hm]; intro p h; cases List.mem_singleton.mp h; exact (SymModel.fresh_wf (by decide)).1

theorem sample_inv : sample.Inv :=
  sample_sound (.inl opened) (.inl ⟨rfl, by decide, .inl (by decide)⟩) rfl rfl rfl rfl rfl

theorem quiet_inv (p : Source) : State.Inv { quiet with src := p } :=
  sample_sound (.inr ⟨rfl, ⟨rfl, rfl⟩, rfl⟩) (.inr rfl) rfl rfl rfl rfl rfl

/-! ### Encoding and the step -/

theorem witness_DecodeOfEncode : Instr.wellFormed (.csrRd 0x11#16) = true := by decide

theorem witness_EncodeOfDecode :
    decode 0x6000000A000000000000000000000000#128 = .ok (.csrRd 0x0A#16) := by decide

theorem witness_RowsAreDisjoint :
    decode 0x21000003000400000000000000000000#128 = .ok (.smCfg 3#16 4#16) ∧
      (Instr.row (.smCfg 0#16 0#16)).holds 0x21000003000400000000000000000000#128 = true ∧
      (Instr.row (.smCfg 3#16 4#16)).holds 0x21000003000400000000000000000000#128 = true := by decide

theorem witness_StepRunsTheDecodedCommand :
    State.port { State.reset with port := [.command 0x36000000000000000000000000000000#128, .reset] } =
        .command 0x36000000000000000000000000000000#128 :: [.reset] ∧
      decode 0x36000000000000000000000000000000#128 = .ok .encDone ∧
      Instr.wellFormed .encDone = true ∧ State.reset.port = [] ∧
      State.port { State.reset with port := [.seek [.byte 5#8], .reset] } = .seek [.byte 5#8] :: [.reset] := by
  decide

/-- No command is written as 128 zero bits: they are of no row of the table. -/
theorem witness_OtherBitsAreIllegal :
    State.port { State.reset with port := [.command 0#128] } = .command 0#128 :: [] ∧
      (∀ i : Instr, i.wellFormed = true → encode i ≠ 0#128) ∧
      State.fault { State.reset with port := [.command 0#128] } = 0#8 := by
  refine ⟨rfl, fun i _ h => ?_, rfl⟩
  have hr : i.row.holds 0#128 = true := by
    rw [← h]
    cases i
    case bioWr8 => exact Laws.EncodesInRow.bioWr8 _
    case bioWr16le => exact Laws.EncodesInRow.bioWr16le _
    case bioWr16be => exact Laws.EncodesInRow.bioWr16be _
    case bioWr32le => exact Laws.EncodesInRow.bioWr32le _
    case bioWr32be => exact Laws.EncodesInRow.bioWr32be _
    case bioWr64le => exact Laws.EncodesInRow.bioWr64le _
    case bioWr64be => exact Laws.EncodesInRow.bioWr64be _
    case bioRd8 => exact Laws.EncodesInRow.bioRd8
    case bioRd16le => exact Laws.EncodesInRow.bioRd16le
    case bioRd16be => exact Laws.EncodesInRow.bioRd16be
    case bioRd32le => exact Laws.EncodesInRow.bioRd32le
    case bioRd32be => exact Laws.EncodesInRow.bioRd32be
    case bioRd64le => exact Laws.EncodesInRow.bioRd64le
    case bioRd64be => exact Laws.EncodesInRow.bioRd64be
    case bmInit => exact Laws.EncodesInRow.bmInit _
    case smCfg => exact Laws.EncodesInRow.smCfg _ _
    case smInit => exact Laws.EncodesInRow.smInit _
    case encInit => exact Laws.EncodesInRow.encInit
    case encSym => exact Laws.EncodesInRow.encSym _ _
    case encBit => exact Laws.EncodesInRow.encBit _ _
    case encBits => exact Laws.EncodesInRow.encBits _ _
    case encFloat => exact Laws.EncodesInRow.encFloat _
    case encDouble => exact Laws.EncodesInRow.encDouble _
    case encDone => exact Laws.EncodesInRow.encDone
    case decInit => exact Laws.EncodesInRow.decInit
    case decSym => exact Laws.EncodesInRow.decSym _
    case decBit => exact Laws.EncodesInRow.decBit _
    case decBits => exact Laws.EncodesInRow.decBits _
    case decFloat => exact Laws.EncodesInRow.decFloat
    case decDouble => exact Laws.EncodesInRow.decDouble
    case decDone => exact Laws.EncodesInRow.decDone
    case icCfg => exact Laws.EncodesInRow.icCfg _ _ _ _ _
    case icInit => exact Laws.EncodesInRow.icInit _
    case icEnc => exact Laws.EncodesInRow.icEnc _ _ _ _
    case icDec => exact Laws.EncodesInRow.icDec _ _ _
    case icGetk => exact Laws.EncodesInRow.icGetk _
    case csrRd => exact Laws.EncodesInRow.csrRd _
  cases i <;> (dsimp only [Instr.row] at hr; revert hr; decide)

/-! ### Reset and the invariant -/

/-- Reset between commands; then a command abandoned, before, within and after its transfers: one that
writes, and one that reads. -/
theorem witness_ResetEventRestores :
    State.port { sample with port := [.reset] } = .reset :: [] ∧
      (∀ n ∈ [0, 1, 2], ∃ u delivered,
        State.port { sample with port := [.abandoned (encode .encDone) n] } =
          .abandoned (encode .encDone) n :: [] ∧
        (∃ t, step { sample with port := [.abandoned (encode .encDone) n] } = .next t) ∧
        decode (encode .encDone) = .ok .encDone ∧ exec .encDone { sample with port := [] } = .next u ∧
        u.fault = 0#8 ∧ u.sink.bursts = sample.sink.bursts ++ delivered ∧ delivered.length = 1 ∧
        u.src.answers = sample.src.answers.drop 0) ∧
      ∀ n ∈ [0, 1, 2], ∃ u,
        (∃ t, step { sample with port := [.abandoned (encode .decInit) n] } = .next t) ∧
        decode (encode .decInit) = .ok .decInit ∧ exec .decInit { sample with port := [] } = .next u ∧
        u.fault = 0#8 ∧ u.sink.bursts = sample.sink.bursts ++ [] ∧ 4 ≤ sample.src.answers.length ∧
        u.src.answers = sample.src.answers.drop 4 := by
  have hs : ∀ i ∈ [Instr.encDone, .decInit], ∀ n ∈ [0, 1, 2],
      stepped { sample with port := [.abandoned (encode i) n] } (fun _ => true) = true := by decide
  have hn : ∀ (i : Instr) (n : Nat), i ∈ [Instr.encDone, .decInit] → n ∈ [0, 1, 2] →
      ∃ t, step { sample with port := [.abandoned (encode i) n] } = .next t := by
    intro i n hi h
    have := hs i hi n h
    unfold stepped at this
    split at this
    · exact ⟨_, ‹_›⟩
    · cases this
    · cases this
  refine ⟨rfl, fun n h => ?_, fun n h => ?_⟩
  · obtain ⟨u, h1, h2⟩ := next_of_after (i := .encDone) (s := { sample with port := [] })
      (ok := fun t => decide (t.fault = 0#8 ∧ t.sink.bursts.length = 1 ∧ t.src.answers = sample.src.answers))
      (by decide)
    obtain ⟨e1, e2, e3⟩ := of_decide_eq_true h2
    exact ⟨u, u.sink.bursts, rfl, hn _ _ (by decide) h, rfl, h1, e1, rfl, e2, e3⟩
  · obtain ⟨u, h1, h2⟩ := next_of_after (i := .decInit) (s := { sample with port := [] })
      (ok := fun t => decide (t.fault = 0#8 ∧ t.sink.bursts = [] ∧ t.src.answers = sample.src.answers.drop 4))
      (by decide)
    obtain ⟨e1, e2, e3⟩ := of_decide_eq_true h2
    exact ⟨u, hn _ _ (by decide) h, rfl, h1, e1, e2, by decide, e3⟩

theorem witness_WhatWorksAfterReset :
    State.sink (sample.resetEvent) = State.reset.sink ∧ sample.resetEvent.sink.TakesNext ∧
    BitVec.toNat 0xFF#64 < 2 ^ 8 ∧ BitVec.toNat 0xFFFF#64 < 2 ^ 16 ∧ BitVec.toNat 0xFFFFFFFF#64 < 2 ^ 32 ∧
    plainReads .bioRd64be = some 8 ∧ plainReads .decInit = some 4 ∧
    sample.resetEvent.src.Gives [0x12#8, 0x34#8, 0x56#8, 0x78#8, 0x9A#8, 0xBC#8, 0xDE#8, 0xF0#8] [] ∧
    (Csr.ofAddress 0x11#16).isSome = true ∧
    BitVec.toNat 1023#16 < sample.resetEvent.params.nBm ∧ BitVec.toNat 1023#16 < sample.resetEvent.params.nSm ∧
    BitVec.toNat 63#16 < sample.resetEvent.params.nIc ∧
    configOk sample.resetEvent.params (.smCfg 0#16 2#16) = true ∧
    configOk sample.resetEvent.params (.smCfg 0#16 2048#16) = true ∧
    configOk sample.resetEvent.params (.icCfg 0#16 0#8 1#16 1#8 0#32) = true ∧
    configOk sample.resetEvent.params (.icCfg 63#16 32#8 256#16 11#8 0x7FFFFFFF#32) = true := by
  refine ⟨rfl, fun _ h => (nomatch h), by decide, by decide, by decide, by decide,
    by decide, rfl, by decide, by decide, by decide, by decide, by decide, by decide, by decide, by decide⟩

theorem witness_StepKeepsTheInvariant :
    State.Inv { sample with port := [.command 0x11000000000000000000000000000000#128] } ∧
      ∃ t, step { sample with port := [.command 0x11000000000000000000000000000000#128] } = .next t := by
  refine ⟨sample_sound (.inl opened) (.inl ⟨rfl, by decide, .inl (by decide)⟩) rfl rfl rfl rfl rfl, ?_⟩
  have h : stepped { sample with port := [.command 0x11000000000000000000000000000000#128] } (fun _ => true)
      = true := by decide
  unfold stepped at h
  split at h
  · exact ⟨_, ‹_›⟩
  · cases h
  · cases h

theorem witness_StepNeverStops : sample.Inv := sample_inv

/-! ### Faults -/

theorem witness_SequenceErrorWhen :
    sample.fault = 0#8 ∧ Instr.wellFormed .encInit = true ∧ sequenceOk sample .encInit = false ∧
      sequenceOk sample .encDone = true ∧ (∃ t, exec .encDone sample = .next t) :=
  ⟨rfl, rfl, rfl, rfl,
    have ⟨t, h, _⟩ := next_of_after (i := .encDone) (s := sample) (ok := fun _ => true) (by decide)
    ⟨t, h⟩⟩

/-- The checks before `ConfigError` hold in this state for a command of any kind that names no coder. -/
abbrev reachesConfig (s : State) (i : Instr) : Prop :=
  s.fault = 0#8 ∧ i.wellFormed = true ∧ sequenceOk s i = true

theorem witness_ConfigErrorWhen :
    (∀ i ∈ [Instr.smCfg 1024#16 4#16, .bmInit 1024#16, .icInit 64#16, .encSym 1024#16 0#64],
      reachesConfig sample i ∧ indexOk sample.params i = false) ∧
    (∀ i ∈ [Instr.smCfg 0#16 1#16, .smCfg 0#16 2049#16, .icCfg 0#16 33#8 1#16 8#8 0#32,
        .icCfg 0#16 32#8 0#16 8#8 0#32, .icCfg 0#16 32#8 257#16 8#8 0#32, .icCfg 0#16 32#8 1#16 0#8 0#32,
        .icCfg 0#16 32#8 1#16 12#8 0#32, .icCfg 0#16 32#8 1#16 8#8 1#32,
        .icCfg 0#16 32#8 1#16 8#8 0x80000000#32],
      reachesConfig sample i ∧ configOk sample.params i = false) ∧
    reachesConfig sample (.smCfg 1023#16 2#16) ∧ indexOk sample.params (.smCfg 1023#16 2#16) = true ∧
      configOk sample.params (.smCfg 1023#16 2#16) = true ∧
      ∃ t, exec (.smCfg 1023#16 2#16) sample = .next t :=
  ⟨by decide, by decide, by decide, by decide, by decide,
    have ⟨t, h, _⟩ := next_of_after (i := .smCfg 1023#16 2#16) (s := sample) (ok := fun _ => true) (by decide)
    ⟨t, h⟩⟩

/-- The checks before `NotInitialised` hold. -/
abbrev reachesSlot (s : State) (i : Instr) : Prop :=
  reachesConfig s i ∧ indexOk s.params i = true ∧ configOk s.params i = true

theorem witness_NotInitialisedWhen :
    (∀ i ∈ [Instr.encSym 1023#16 0#64, .decBit 1#16, .smInit 1#16, .icGetk 63#16],
      reachesSlot sample i ∧ slotOk sample i = false) ∧
    reachesSlot sample (.encSym 0#16 0#64) ∧ slotOk sample (.encSym 0#16 0#64) = true ∧
      ∃ t, exec (.encSym 0#16 0#64) sample = .next t :=
  ⟨by decide, by decide, by decide,
    have ⟨t, h, _⟩ := next_of_after (i := .encSym 0#16 0#64) (s := sample) (ok := fun _ => true) (by decide)
    ⟨t, h⟩⟩

theorem witness_OperandRangeWhen :
    (∀ i ∈ [Instr.encSym 0#16 4#64, .encBit 0#16 2#64, .encBits 0#8 0#64, .encBits 33#8 0#64,
        .encBits 1#8 2#64, .encFloat 0x100000000#64, .decBits 0#8, .decBits 33#8, .bioWr8 0x100#64,
        .icEnc 0#16 1#16 0#32 0#32, .icEnc 0#16 0#16 0#32 12#32],
      reachesSlot sample i ∧ slotOk sample i = true ∧ operandsOk sample i = false) ∧
    (∀ i ∈ [Instr.encSym 0#16 3#64, .encBits 32#8 0xFFFFFFFF#64, .icEnc 0#16 0#16 0#32 11#32],
      reachesSlot sample i ∧ slotOk sample i = true ∧ operandsOk sample i = true) ∧
      ∃ t, exec (.encSym 0#16 3#64) sample = .next t :=
  ⟨by decide, by decide,
    have ⟨t, h, _⟩ := next_of_after (i := .encSym 0#16 3#64) (s := sample) (ok := fun _ => true) (by decide)
    ⟨t, h⟩⟩

theorem witness_ChecksBeforeExecution :
    (reachesSlot sample (.icDec 0#16 1#16 0#32) ∧ slotOk sample (.icDec 0#16 1#16 0#32) = true ∧
      operandsOk sample (.icDec 0#16 1#16 0#32) = true ∧ streamOk sample (.icDec 0#16 1#16 0#32) = false) ∧
    (∀ i ∈ [Instr.decSym 0#16, .decBit 0#16],
      reachesSlot { sample with dec := (decoding 0xFFFFFFFF#32 0xFFFFFFFF#32 []).dec } i ∧
      slotOk { sample with dec := (decoding 0xFFFFFFFF#32 0xFFFFFFFF#32 []).dec } i = true ∧
      operandsOk { sample with dec := (decoding 0xFFFFFFFF#32 0xFFFFFFFF#32 []).dec } i = true ∧
      streamOk { sample with dec := (decoding 0xFFFFFFFF#32 0xFFFFFFFF#32 []).dec } i = false) ∧
    reachesSlot sample (.decSym 0#16) ∧ checksOk sample (.decSym 0#16) = true ∧
      ∃ t, exec (.decSym 0#16) sample = .next t :=
  ⟨by decide, by decide, by decide, by decide,
    have ⟨t, h, _⟩ := next_of_after (i := .decSym 0#16) (s := sample) (ok := fun _ => true) (by decide)
    ⟨t, h⟩⟩

/-- The bits 0 are no command's: `witness_OtherBitsAreIllegal`. -/
theorem witness_FaultIsSticky :
    State.fault { sample with fault := 0x07#8, port := [.command 0#128] } ≠ 0#8 ∧
      (∀ a, Instr.encDone ≠ .csrRd a) ∧
      State.port { sample with fault := 0x07#8, port := [.command 0#128] } = .command 0#128 :: [] ∧
      (∀ i : Instr, i.wellFormed = true → encode i ≠ 0#128) ∧
      (∀ rest, State.port { sample with fault := 0x07#8, port := [.command 0#128] } ≠ .reset :: rest) ∧
      (∀ w n rest, State.port { sample with fault := 0x07#8, port := [.command 0#128] } ≠
        .abandoned w n :: rest) ∧
      ∃ t, step { sample with fault := 0x07#8, port := [.command 0#128] } = .next t := by
  refine ⟨by decide, fun _ h => (nomatch h), rfl, witness_OtherBitsAreIllegal.2.1, fun rest h => (nomatch h),
    fun w n rest h => (nomatch h), ?_⟩
  have h : stepped { sample with fault := 0x07#8, port := [.command 0#128] } (fun _ => true) = true := by decide
  unfold stepped at h
  split at h
  · exact ⟨_, ‹_›⟩
  · cases h
  · cases h

/-- A success with a result, a success without one, a fault, a refusal. -/
theorem witness_OneResponsePerCommand :
    Instr.wellFormed .bioRd8 = true ∧ (∃ t, exec .bioRd8 sample = .next t ∧ t.res = 0x12#64) ∧
      (∃ t, exec .encDone sample = .next t ∧ t.fault = 0#8) ∧
      (∃ t, exec .encInit sample = .next t ∧ t.fault = 0x02#8) ∧
      ∃ t, exec .encInit { sample with fault := 0x07#8 } = .next t ∧ t.fault = 0x07#8 := by
  refine ⟨rfl, ?_, ?_, ?_, ?_⟩
  · obtain ⟨t, h1, h2⟩ := next_of_after (i := .bioRd8) (s := sample)
      (ok := fun t => decide (t.res = 0x12#64)) (by decide)
    exact ⟨t, h1, of_decide_eq_true h2⟩
  · obtain ⟨t, h1, h2⟩ := next_of_after (i := .encDone) (s := sample)
      (ok := fun t => decide (t.fault = 0#8)) (by decide)
    exact ⟨t, h1, of_decide_eq_true h2⟩
  · obtain ⟨t, h1, h2⟩ := next_of_after (i := .encInit) (s := sample)
      (ok := fun t => decide (t.fault = 0x02#8)) (by decide)
    exact ⟨t, h1, of_decide_eq_true h2⟩
  · obtain ⟨t, h1, h2⟩ := next_of_after (i := .encInit) (s := { sample with fault := 0x07#8 })
      (ok := fun t => decide (t.fault = 0x07#8)) (by decide)
    exact ⟨t, h1, of_decide_eq_true h2⟩

/-- Two bytes at the source, and a free value in wait for the next execution fault. -/
def loose (dec : Decoder) (taken : Nat) : State :=
  { fed [1#8, 2#8] with
    dec := { dvalue := 0#32, drange := 0xFFFFFFFF#32, active := true }
    residues := [{ enc := Encoder.reset, dec := dec, bin := BinModel.fresh, sym := SymModel.fresh 2
                   int := IntComp.empty, srcTaken := taken }] }

/-- An execution fault after which a free value stands in the decoder, and what the command cannot
write is as it was, its activity among it (spec/95 P5, step 7). -/
theorem witness_CommandsKeepToTheirState :
    (∃ t, exec .decInit (loose { dvalue := 7#32, drange := 9#32, active := true } 1) = .next t ∧
      t.dec.dvalue = 7#32 ∧ t.src.count = 1#64) ∧
    (∃ t, exec .decFloat (loose { dvalue := 7#32, drange := 9#32, active := false } 1) = .next t ∧
      t.fault = 0x07#8 ∧ t.dec = { dvalue := 7#32, drange := 9#32, active := true } ∧
      t.src = { answers := [.byte 2#8], count := 1#64 }) ∧
      usesEncoder .decInit = false ∧ usesSink .decInit = false ∧ returnsData .decInit = false ∧
      binWritten .decInit ≠ some 0 ∧ symWritten .decInit ≠ some 0 ∧ intWritten .decInit ≠ some 0 ∧
      usesDecoder .encDone = false ∧ usesSource .encDone = false ∧
      Instr.decFloat ≠ .encInit ∧ Instr.decFloat ≠ .encDone ∧ Instr.decFloat ≠ .decInit ∧
      Instr.decFloat ≠ .decDone := by
  refine ⟨?_, ?_, rfl, rfl, rfl, by decide, by decide, by decide, rfl, rfl, by decide⟩
  · obtain ⟨t, h1, h2⟩ := next_of_after (i := .decInit)
      (s := loose { dvalue := 7#32, drange := 9#32, active := true } 1)
      (ok := fun t => decide (t.dec.dvalue = 7#32 ∧ t.src.count = 1#64)) (by decide)
    exact ⟨t, h1, of_decide_eq_true h2⟩
  · obtain ⟨t, h1, h2⟩ := next_of_after (i := .decFloat)
      (s := loose { dvalue := 7#32, drange := 9#32, active := false } 1)
      (ok := fun t => decide (t.fault = 0x07#8 ∧ t.dec = { dvalue := 7#32, drange := 9#32, active := true } ∧
        t.src = { answers := [.byte 2#8], count := 1#64 })) (by decide)
    exact ⟨t, h1, of_decide_eq_true h2⟩

/-- `sample` with a sink that answers so. -/
def answering (answers : List SinkAnswer) : State :=
  { sample with sink := { bursts := [], answers := answers, count := 0#64 } }

/-- A `BIO` write refused; then `ENC.DONE`, whose one burst is refused, and accepted before a refusal. -/
theorem witness_SinkErrorIsReported :
    ((answering [.ioError 3]).sink.answers = .ioError 3 :: [] ∧ (answering [.ioError 3]).fault = 0#8 ∧
      usesSink (.bioWr64be 5#64) = true ∧ usesEncoder (.bioWr64be 5#64) = false ∧
      operandsOk (answering [.ioError 3]) (.bioWr64be 5#64) = true) ∧
    ∀ accepted ∈ [0, 1], ∃ u made,
      (answering (List.replicate accepted .accept ++ [.ioError 3])).fault = 0#8 ∧ usesSink .encDone = true ∧
      (answering (List.replicate accepted .accept ++ [.ioError 3])).sink.answers =
        List.replicate accepted .accept ++ .ioError 3 :: [] ∧
      exec .encDone { answering (List.replicate accepted .accept ++ [.ioError 3]) with
        sink := { (answering []).sink with answers := [] } } = .next u ∧
      u.fault = 0#8 ∧ u.sink.bursts = [] ++ made ∧ made.length = 1 := by
  refine ⟨by decide, fun accepted h => ?_⟩
  obtain ⟨u, h1, h2⟩ := next_of_after (i := .encDone) (s := answering [])
    (ok := fun t => decide (t.fault = 0#8 ∧ t.sink.bursts.length = 1)) (by decide)
  obtain ⟨e1, e2⟩ := of_decide_eq_true h2
  exact ⟨u, u.sink.bursts, rfl, rfl, rfl, h1, e1, rfl, e2⟩

/-- A fixed number of bytes, too few of them; then a code value outside the interval, and a byte that
does not come, in a symbol, in a bit, and in each of the steps of `IC.DEC`. -/
theorem witness_SourceFaultIsReported :
    ((fed [1#8, 2#8, 3#8]).fault = 0#8 ∧ plainReads .decInit = some 4 ∧ 3 < 4 ∧
      (fed [1#8, 2#8, 3#8]).src.Breaks 3 0x07#8 ∧ plainReads .bioRd8 = some 1 ∧
      Source.Breaks { answers := [.endOfInput], count := 0#64 } 0 0x07#8 ∧
      Source.Breaks { answers := [.ioError], count := 0#64 } 0 0x08#8) ∧
    Rcd.FailsSymbol (SymModel.fresh 4) (decoding 0xFFFFFFFF#32 0xFFFFFFFF#32 []).rcd 0x06#8 0 ∧
    Rcd.FailsBit BinModel.fresh (decoding 0xFFFFFFFF#32 0xFFFFFFFF#32 []).rcd 0x06#8 0 ∧
    Rcd.FailsSymbol (SymModel.fresh 4) (decoding 0#32 0x01000000#32 []).rcd 0x07#8 0 ∧
    Rcd.FailsBit BinModel.fresh (decoding 0#32 0x01000000#32 []).rcd 0x07#8 0 ∧
    Rcd.FailsCorrector smallInt 0 (decoding 0#32 0x01000000#32 []).rcd 0x07#8 0 ∧
    Rcd.FailsCorrector smallInt 0 (decoding 0#32 0x04000000#32 []).rcd 0x07#8 0 ∧
    Rcd.FailsCorrector smallInt 0 (decoding 0x01000000#32 0x04000000#32 []).rcd 0x07#8 0 ∧
    Rcd.FailsCorrector smallInt 0 (decoding 0x0C000000#32 0x10000000#32 []).rcd 0x07#8 0 ∧
    smallInt.Wf ∧ (SymModel.fresh 4).Wf ∧ BinModel.fresh.Wf := by
  have lacks : ∀ w ∈ [0x400000, 0x800000], Source.Lacks (sourceOf []) w 0x07#8 0 := fun w h =>
    ⟨1, by fin_cases h <;> (unfold Needs; decide), by decide, [], [], rfl, rfl, .inl ⟨.inl rfl, rfl⟩⟩
  have stays : ∀ (x w : Nat) (v len v' len' : Word), Needs w 0 → v'.toNat = v.toNat - x → len'.toNat = w →
      Rcd.Narrowed x w (decoding v len []).rcd (decoding v' len' []).rcd := fun x w v len v' len' h1 h2 h3 =>
    ⟨[], h1, rfl, rfl, by simpa [decoding, State.rcd] using h2, by simpa [decoding, State.rcd] using h3, rfl⟩
  refine ⟨⟨rfl, rfl, by decide, ⟨[1#8, 2#8, 3#8], [], rfl, rfl, .inl ⟨.inl rfl, rfl⟩⟩, rfl,
      ⟨[], [.endOfInput], rfl, rfl, .inl ⟨.inr rfl, rfl⟩⟩, ⟨[], [.ioError], rfl, rfl, .inr ⟨rfl, rfl⟩⟩⟩,
    .inl (by decide), .inl (by decide),
    .inr ⟨0, by decide, by unfold InPart; decide, lacks _ (by decide)⟩,
    .inr ⟨0, by decide, by unfold InPart; decide, lacks _ (by decide)⟩,
    .inl (.inr ⟨0, by decide, by unfold InPart; decide, lacks _ (by decide)⟩), ?_, ?_, ?_,
    small_int_wf, (SymModel.fresh_wf (by decide)).1, BinModel.fresh_wf⟩
  · exact .inr ⟨0, (decoding 0#32 0x01000000#32 []).rcd, 0,
      ⟨by decide, by unfold InPart; decide, stays _ _ _ _ _ _ (by unfold Needs; decide) (by decide) (by decide)⟩, rfl,
      .inl ⟨rfl, .inr ⟨0, by decide, by unfold InPart; decide, lacks _ (by decide)⟩⟩⟩
  · exact .inr ⟨1, (decoding 0#32 0x01000000#32 []).rcd, 0,
      ⟨by decide, by unfold InPart; decide, stays _ _ _ _ _ _ (by unfold Needs; decide) (by decide) (by decide)⟩, rfl,
      .inr (.inl ⟨by decide, by decide, .inr ⟨0, by decide, by unfold InPart; decide, lacks _ (by decide)⟩⟩)⟩
  · exact .inr ⟨3, (decoding 0#32 0x04000000#32 []).rcd, 0,
      ⟨by decide, by unfold InPart; decide, stays _ _ _ _ _ _ (by unfold Needs; decide) (by decide) (by decide)⟩, rfl,
      .inr (.inr ⟨by decide, by decide, 0, (decoding 0#32 0x01000000#32 []).rcd, 0,
        ⟨by decide, by unfold InPart; decide, stays _ _ _ _ _ _ (by unfold Needs; decide) (by decide) (by decide)⟩,
        .inl (.inl (lacks _ (by decide))), rfl⟩)⟩

/-- Widths 1, 8 and 19; with the bytes of the renormalisation, and without them. Then two literals and
four: the first out of range, the first without its bytes, the second without them. -/
theorem witness_LiteralFaultsInOrder :
    (∀ n ∈ [1#8, 8#8, 19#8], ∃ bs, (decoding 0xFFFFFFFE#32 0xFFFFFFFF#32 bs).fault = 0#8 ∧
      (decoding 0xFFFFFFFE#32 0xFFFFFFFF#32 bs).dec.active = true ∧
      2 ^ 24 ≤ (decoding 0xFFFFFFFE#32 0xFFFFFFFF#32 bs).dec.drange.toNat ∧ 1 ≤ n.toNat ∧ n.toNat ≤ 19 ∧
      2 ^ n.toNat ≤ BitVec.toNat 0xFFFFFFFE#32 / (BitVec.toNat 0xFFFFFFFF#32 / 2 ^ n.toNat) ∧
      (decoding 0xFFFFFFFE#32 0xFFFFFFFF#32 bs).src.Gives bs [] ∧
      Needs (BitVec.toNat 0xFFFFFFFF#32 / 2 ^ n.toNat) bs.length) ∧
    (∀ n ∈ [8#8, 19#8], ∃ bs need, (decoding 0xFFFFFFFE#32 0xFFFFFFFF#32 bs).fault = 0#8 ∧
      (decoding 0xFFFFFFFE#32 0xFFFFFFFF#32 bs).dec.active = true ∧ 1 ≤ n.toNat ∧ n.toNat ≤ 19 ∧
      2 ^ n.toNat ≤ BitVec.toNat 0xFFFFFFFE#32 / (BitVec.toNat 0xFFFFFFFF#32 / 2 ^ n.toNat) ∧
      Needs (BitVec.toNat 0xFFFFFFFF#32 / 2 ^ n.toNat) need ∧ bs.length < need ∧
      (decoding 0xFFFFFFFE#32 0xFFFFFFFF#32 bs).src.Breaks bs.length 0x07#8) ∧
    (literalWidths 20 = [16, 4] ∧ literalWidths 32 = [16, 16]) ∧
    (∀ rest ∈ [[4], [16], [16, 16, 16]],
      Rcd.FailsLiterals (16 :: rest) (decoding 0xFFFFFFFE#32 0xFFFFFFFF#32 [5#8, 6#8]).rcd 0x06#8 2 ∧
      Rcd.FailsLiterals (16 :: rest) (decoding 0xFFFFFFFE#32 0xFFFFFFFF#32 [5#8]).rcd 0x07#8 1) ∧
    ∀ rest ∈ [[], [16, 16]],
      Rcd.FailsLiterals (16 :: 16 :: rest) (decoding 0#32 0xFFFFFFFF#32 [0#8, 0#8]).rcd 0x07#8 2 := by
  refine ⟨?_, ?_, by decide, fun rest h => ⟨?_, ?_⟩, fun rest h => ?_⟩
  rotate_left 2
  · exact .inl (.inr ⟨rfl, by decide, by unfold Needs; decide, [5#8, 6#8], [], rfl, rfl⟩)
  · exact .inl (.inl ⟨2, by unfold Needs; decide, by decide, [5#8], [], rfl, rfl, .inl ⟨.inl rfl, rfl⟩⟩)
  · exact .inr ⟨0, { dec := (decoding 0#32 0xFFFF0000#32 []).dec, src := { answers := [], count := 2#64 } }, 0,
      ⟨by decide, by decide, { dec := (decoding 0#32 0xFFFF0000#32 []).dec, src := { answers := [], count := 2#64 } },
        ⟨[0#8, 0#8], by unfold Needs; decide, rfl, rfl, by decide, by decide, rfl⟩, rfl⟩,
      .inl (.inl ⟨2, by unfold Needs; decide, by decide, [], [], rfl, rfl, .inl ⟨.inl rfl, rfl⟩⟩), rfl⟩
  · intro n h
    fin_cases h
    · exact ⟨[], rfl, rfl, by decide, by decide, by decide, by decide, rfl, by unfold Needs; decide⟩
    · exact ⟨[0#8], rfl, rfl, by decide, by decide, by decide, by decide, rfl, by unfold Needs; decide⟩
    · exact ⟨[5#8, 6#8], rfl, rfl, by decide, by decide, by decide, by decide, rfl, by unfold Needs; decide⟩
  · intro n h
    fin_cases h
    · exact ⟨[], 1, rfl, rfl, by decide, by decide, by decide, by unfold Needs; decide, by decide,
        [], [], rfl, rfl, .inl ⟨.inl rfl, rfl⟩⟩
    · exact ⟨[5#8], 2, rfl, rfl, by decide, by decide, by decide, by unfold Needs; decide, by decide,
        [5#8], [], rfl, rfl, .inl ⟨.inl rfl, rfl⟩⟩

/-! ### Bit I/O and models -/

theorem witness_BioWritesItsBytes :
    sample.fault = 0#8 ∧ sample.sink.TakesNext ∧ BitVec.toNat 0xFF#64 < 2 ^ 8 ∧
      BitVec.toNat 0xFFFF#64 < 2 ^ 16 ∧ BitVec.toNat 0xFFFFFFFF#64 < 2 ^ 32 :=
  ⟨rfl, fun _ h => (nomatch h), by decide, by decide, by decide⟩

theorem witness_BioReadsItsBytes :
    sample.fault = 0#8 ∧
      sample.src.Gives [0x12#8]
        [.byte 0x34#8, .byte 0x56#8, .byte 0x78#8, .byte 0x9A#8, .byte 0xBC#8, .byte 0xDE#8, .byte 0xF0#8] ∧
      sample.src.Gives [0x12#8, 0x34#8]
        [.byte 0x56#8, .byte 0x78#8, .byte 0x9A#8, .byte 0xBC#8, .byte 0xDE#8, .byte 0xF0#8] ∧
      sample.src.Gives [0x12#8, 0x34#8, 0x56#8, 0x78#8]
        [.byte 0x9A#8, .byte 0xBC#8, .byte 0xDE#8, .byte 0xF0#8] ∧
      sample.src.Gives [0x12#8, 0x34#8, 0x56#8, 0x78#8, 0x9A#8, 0xBC#8, 0xDE#8, 0xF0#8] [] :=
  ⟨rfl, rfl, rfl, rfl, rfl⟩

theorem witness_BioRoundTrip :
    (Instr.bioWr16le, Instr.bioRd16le) ∈ [(Instr.bioWr8, Instr.bioRd8), (.bioWr16le, .bioRd16le),
      (.bioWr16be, .bioRd16be), (.bioWr32le, .bioRd32le), (.bioWr32be, .bioRd32be), (.bioWr64le, .bioRd64le),
      (.bioWr64be, .bioRd64be)] ∧
    (Instr.bioWr16le, Instr.bioWr16be) ∈ [(Instr.bioWr16le, Instr.bioWr16be), (.bioWr32le, .bioWr32be),
      (.bioWr64le, .bioWr64be)] ∧
      (∃ t u, exec (.bioWr16le 0xFFFF#64) sample = .next t ∧ t.fault = 0#8 ∧
        t.sink.bytes = sample.sink.bytes ++ [0xFF#8, 0xFF#8] ∧
        exec (.bioWr16be 0xFFFF#64) sample = .next u ∧
        u.sink.bytes = sample.sink.bytes ++ [0xFF#8, 0xFF#8]) ∧
      (fed [0xFF#8, 0xFF#8]).fault = 0#8 ∧ (fed [0xFF#8, 0xFF#8]).src.Gives [0xFF#8, 0xFF#8] [] := by
  refine ⟨by simp, by simp, ?_, rfl, rfl⟩
  obtain ⟨t, h1, h2⟩ := next_of_after (i := .bioWr16le 0xFFFF#64) (s := sample)
    (ok := fun t => decide (t.fault = 0#8 ∧ t.sink.bytes = sample.sink.bytes ++ [0xFF#8, 0xFF#8])) (by decide)
  obtain ⟨u, h3, h4⟩ := next_of_after (i := .bioWr16be 0xFFFF#64) (s := sample)
    (ok := fun u => decide (u.sink.bytes = sample.sink.bytes ++ [0xFF#8, 0xFF#8])) (by decide)
  have h5 := of_decide_eq_true h2
  exact ⟨t, u, h1, h5.1, h5.2, h3, of_decide_eq_true h4⟩

theorem witness_BmInitResets : sample.fault = 0#8 ∧ BitVec.toNat 1023#16 < sample.params.nBm := by decide

theorem witness_SmCfgConfigures :
    sample.fault = 0#8 ∧ BitVec.toNat 1023#16 < sample.params.nSm ∧ 2 ≤ BitVec.toNat 2#16 ∧
      BitVec.toNat 2048#16 ≤ 2048 := by decide

theorem witness_SmInitReconfigures :
    sample.fault = 0#8 ∧ BitVec.toNat 0#16 < sample.params.nSm ∧
      SlotFile.slot? sample.sm (BitVec.toNat 0#16) = some (SymModel.fresh 4) ∧ (SymModel.fresh 4).Wf :=
  ⟨rfl, by decide, rfl, (SymModel.fresh_wf (by decide)).1⟩

/-- Before and at the halving (spec/95 section 3.1). -/
theorem witness_BmUpdateIsExact :
    (∀ m ∈ [bin 2 2 4096 4 0, bin 8195 8132 8189 64 0], 1 ≤ m.c0 ∧ m.c0 < m.cnt + m.cycle ∧ 2 ≤ m.cnt ∧
      m.cnt ≤ 8192 ∧ 4 ≤ m.cycle ∧ m.cycle ≤ 64) ∧
      (bin 2 2 4096 4 0).cnt + (bin 2 2 4096 4 0).cycle ≤ 8192 ∧
      8192 < (bin 8195 8132 8189 64 0).cnt + (bin 8195 8132 8189 64 0).cycle := by decide

/-- Before the halving (spec/95 section 3.2, the first update of four symbols) and at it (`n = 2`). -/
theorem witness_SmUpdateIsExact :
    ∃ a b : SymModel, (∀ m ∈ [a, b], 2 ≤ m.n ∧ m.n ≤ 2048 ∧ m.count.length = m.n ∧ (∀ c ∈ m.count, 1 ≤ c) ∧
      m.count.sum = m.total + m.cycle ∧ m.total ≤ 32768 ∧ 1 ≤ m.cycle ∧ m.cycle ≤ (m.n + 6) * 8) ∧
      a.total + a.cycle ≤ 32768 ∧ 32768 < b.total + b.cycle :=
  ⟨{ seenFour with count := [4, 2, 1, 2] },
    { n := 2, count := [32771, 1], dist := [0, 16384], total := 32708, cycle := 64, untilUpdate := 0 },
    by decide, by decide, by decide⟩

/-- A model one symbol before its update, and one bit before. -/
theorem witness_ModelsLearn :
    seenFour.Wf ∧ 3 < seenFour.n ∧ seenFour.untilUpdate = 1 ∧ (SymModel.fresh 4).Wf ∧
      1 < (SymModel.fresh 4).untilUpdate ∧ (bin 2 2 4096 4 1).Wf ∧ (bin 2 2 4096 4 1).untilUpdate = 1 ∧
      BinModel.fresh.Wf ∧ 1 < BinModel.fresh.untilUpdate := by
  refine ⟨?_, by decide, rfl, (SymModel.fresh_wf (by decide)).1, by decide, ?_, rfl, BinModel.fresh_wf, by decide⟩
  · refine ⟨by decide, by decide, by decide, by decide, by decide, ?_, by decide, by decide, by decide, by decide,
      by decide⟩
    intro k hk
    have h3 : k < 3 := Nat.lt_of_add_lt_add_right hk
    interval_cases k <;> decide
  · exact ⟨by decide, by decide, by decide, by decide, by decide, by decide⟩

theorem witness_ModelsAdaptAlike :
    (∃ s' t', exec (.encBit 0#16 1#64) sample = .next s' ∧ s'.fault = 0#8 ∧
        exec (.decBit 0#16) { sample with dec := { sample.dec with dvalue := 0xC0000000#32 } } = .next t' ∧
        t'.fault = 0#8 ∧ t'.res = 1#64) ∧
      ∃ s' t', sample.Inv ∧ exec (.encSym 0#16 1#64) sample = .next s' ∧ s'.fault = 0#8 ∧
        exec (.decSym 0#16) sample = .next t' ∧ t'.fault = 0#8 ∧ t'.res = 1#64 := by
  constructor
  · obtain ⟨s', h1, h2⟩ := next_of_after (i := .encBit 0#16 1#64) (s := sample)
      (ok := fun t => decide (t.fault = 0#8)) (by decide)
    obtain ⟨t', h3, h4⟩ := next_of_after (i := .decBit 0#16)
      (s := { sample with dec := { sample.dec with dvalue := 0xC0000000#32 } })
      (ok := fun t => decide (t.fault = 0#8 ∧ t.res = 1#64)) (by decide)
    have h5 := of_decide_eq_true h4
    exact ⟨s', t', h1, of_decide_eq_true h2, h3, h5.1, h5.2⟩
  · obtain ⟨s', h1, h2⟩ := next_of_after (i := .encSym 0#16 1#64) (s := sample)
      (ok := fun t => decide (t.fault = 0#8)) (by decide)
    obtain ⟨t', h3, h4⟩ := next_of_after (i := .decSym 0#16) (s := sample)
      (ok := fun t => decide (t.fault = 0#8 ∧ t.res = 1#64)) (by decide)
    have h5 := of_decide_eq_true h4
    exact ⟨s', t', sample_inv, h1, of_decide_eq_true h2, h3, h5.1, h5.2⟩

/-! ### Range encoder -/

theorem witness_EncInitStarts : quiet.fault = 0#8 ∧ quiet.enc.active = false := by decide

theorem witness_EncSymCodesASymbol :
    sample.fault = 0#8 ∧ sample.enc.Open ∧ sample.sink.Accepting ∧ BitVec.toNat 0#16 < sample.params.nSm ∧
      SlotFile.slot? sample.sm (BitVec.toNat 0#16) = some (SymModel.fresh 4) ∧ (SymModel.fresh 4).Wf ∧
      BitVec.toNat 3#64 < (SymModel.fresh 4).n :=
  ⟨rfl, opened, accepts, by decide, rfl, (SymModel.fresh_wf (by decide)).1, by decide⟩

theorem witness_EncBitCodesABit :
    sample.fault = 0#8 ∧ sample.enc.Open ∧ sample.sink.Accepting ∧ BitVec.toNat 0#16 < sample.params.nBm ∧
      SlotFile.slot? sample.bm (BitVec.toNat 0#16) = some BinModel.fresh ∧ BinModel.fresh.Wf ∧
      BitVec.toNat 1#64 < 2 :=
  ⟨rfl, opened, accepts, by decide, rfl, BinModel.fresh_wf, by decide⟩

/-- The widths at the ends of the two ways to code a literal. -/
theorem witness_EncLiteralsCodeTheirValue :
    sample.fault = 0#8 ∧ sample.enc.Open ∧ sample.sink.Accepting ∧
      (1 ≤ BitVec.toNat 1#8 ∧ BitVec.toNat 1#64 < 2 ^ BitVec.toNat 1#8) ∧
      BitVec.toNat 0x7FFFF#64 < 2 ^ BitVec.toNat 19#8 ∧ BitVec.toNat 0xFFFFF#64 < 2 ^ BitVec.toNat 20#8 ∧
      (BitVec.toNat 32#8 ≤ 32 ∧ BitVec.toNat 0xFFFFFFFF#64 < 2 ^ BitVec.toNat 32#8) :=
  ⟨rfl, opened, accepts, by decide, by decide, by decide, by decide⟩

theorem witness_EncDoneEndsTheChunk : sample.fault = 0#8 ∧ sample.enc.Open ∧ sample.sink.Accepting :=
  ⟨rfl, opened, accepts⟩

theorem witness_EmptyChunk : quiet.fault = 0#8 ∧ quiet.enc.active = false ∧ quiet.sink.TakesNext :=
  ⟨rfl, rfl, fun _ h => (nomatch h)⟩

/-- An empty stage, a staged byte with one 0xFF behind it, and a carry into that; with one byte of room
left in the buffer. -/
theorem witness_StageDefersTheCarry :
    (∀ stage ∈ [(none, 0), (some 0x12#8, 1)],
      (coding 0#32 0xFFFFFFFF#32 stage.1 stage.2 (List.replicate 4095 0#8)).rce.enc.outBuf.length < 4096 ∧
      ((coding 0#32 0xFFFFFFFF#32 stage.1 stage.2 (List.replicate 4095 0#8)).rce.enc.cacheValid = false →
        (coding 0#32 0xFFFFFFFF#32 stage.1 stage.2 (List.replicate 4095 0#8)).rce.enc.pending = 0)) ∧
      (coding 0#32 0xFFFFFFFF#32 none 0 []).rce.enc.cacheValid = false ∧
      (coding 0#32 0xFFFFFFFF#32 (some 0x12#8) 1 []).rce.enc.cacheValid = true ∧
      (coding 0#32 0xFFFFFFFF#32 (some 0x12#8) 1 []).rce.enc.cache ≠ 0xFF#8 ∧
      0 < (coding 0#32 0xFFFFFFFF#32 (some 0x12#8) 1 []).rce.enc.pending ∧
      (coding 0#32 0xFFFFFFFF#32 (some 0x12#8) 1 []).rce.sink.Accepting := by
  refine ⟨fun stage h => ⟨?_, ?_⟩, by decide, by decide, by decide, by decide, accepts⟩
  · show (List.replicate 4095 0#8).length < 4096
    rw [List.length_replicate]
    decide
  · revert stage
    decide

theorem witness_PartsAreDisjoint :
    (SymModel.fresh 4).Wf ∧ 2 < 3 ∧ 3 < (SymModel.fresh 4).n ∧ 2 ^ 24 ≤ 2 ^ 24 ∧ BinModel.fresh.Wf ∧
      1 ≤ 19 ∧ 2 ^ 19 - 2 < 2 ^ 19 - 1 ∧ 2 ^ 19 - 1 < 2 ^ 19 :=
  ⟨(SymModel.fresh_wf (by decide)).1, by decide, by decide, by decide, BinModel.fresh_wf, by decide, by decide,
    by decide⟩

/-! ### Range decoder -/

theorem witness_DecInitLoads :
    sample.fault = 0#8 ∧ sample.src.Gives [0x12#8, 0x34#8, 0x56#8, 0x78#8]
      [.byte 0x9A#8, .byte 0xBC#8, .byte 0xDE#8, .byte 0xF0#8] := ⟨rfl, rfl⟩

/-- The last symbol, with no byte needed; and a symbol of a shortest interval, which needs one. -/
theorem witness_DecSymDecodesASymbol :
    ∀ c ∈ [(0xC0000000#32, 0xFFFFFFFF#32, ([] : List Byte), 3), (0x00123456#32, 0x01000000#32, [0x78#8], 0)],
      ∃ s : State, s = { decoding c.1 c.2.1 c.2.2.1 with sm := [(0, SymModel.fresh 4)] } ∧
        s.fault = 0#8 ∧ s.dec.active = true ∧ 2 ^ 24 ≤ s.dec.drange.toNat ∧
        s.dec.dvalue.toNat < s.dec.drange.toNat ∧ BitVec.toNat 0#16 < s.params.nSm ∧
        SlotFile.slot? s.sm (BitVec.toNat 0#16) = some (SymModel.fresh 4) ∧ (SymModel.fresh 4).Wf ∧
        c.2.2.2 < (SymModel.fresh 4).n ∧
        InPart ((SymModel.fresh 4).partLow c.2.2.2 s.dec.drange.toNat)
          ((SymModel.fresh 4).partLen c.2.2.2 s.dec.drange.toNat) s.dec.dvalue.toNat ∧
        s.src.Gives c.2.2.1 [] ∧ Needs ((SymModel.fresh 4).partLen c.2.2.2 s.dec.drange.toNat) c.2.2.1.length := by
  intro c h
  fin_cases h <;>
    exact ⟨_, rfl, rfl, rfl, by decide, by decide, by decide, rfl, (SymModel.fresh_wf (by decide)).1, by decide,
      by unfold InPart; decide, rfl, by unfold Needs; decide⟩

/-- A 1 bit with no byte needed; and a 0 bit of a shortest interval, which needs one. -/
theorem witness_DecBitDecodesABit :
    ∀ c ∈ [(0xC0000000#32, 0xFFFFFFFF#32, ([] : List Byte), 1), (0x00123456#32, 0x01000000#32, [0x78#8], 0)],
      ∃ s : State, s = { decoding c.1 c.2.1 c.2.2.1 with bm := [(0, BinModel.fresh)] } ∧
        s.fault = 0#8 ∧ s.dec.active = true ∧ 2 ^ 24 ≤ s.dec.drange.toNat ∧
        s.dec.dvalue.toNat < s.dec.drange.toNat ∧ BitVec.toNat 0#16 < s.params.nBm ∧
        SlotFile.slot? s.bm (BitVec.toNat 0#16) = some BinModel.fresh ∧ BinModel.fresh.Wf ∧ c.2.2.2 < 2 ∧
        InPart (BinModel.fresh.partLow c.2.2.2 s.dec.drange.toNat)
          (BinModel.fresh.partLen c.2.2.2 s.dec.drange.toNat) s.dec.dvalue.toNat ∧
        s.src.Gives c.2.2.1 [] ∧ Needs (BinModel.fresh.partLen c.2.2.2 s.dec.drange.toNat) c.2.2.1.length := by
  intro c h
  fin_cases h <;>
    exact ⟨_, rfl, rfl, rfl, by decide, by decide, by decide, rfl, BinModel.fresh_wf, by decide,
      by unfold InPart; decide, rfl, by unfold Needs; decide⟩

/-- Widths 1, 19, 20 and 32, a float and a double. -/
theorem witness_DecLiteralsReturnTheirValue :
    sample.fault = 0#8 ∧ sample.dec.active = true ∧ 2 ^ 24 ≤ sample.dec.drange.toNat ∧
      (∀ n ∈ [1, 19, 20, 32], ∃ qs r, Rcd.ReadsLiterals (literalWidths n) qs sample.rcd r) ∧
      (∃ qs r, Rcd.ReadsLiterals [16, 16] qs sample.rcd r) ∧
      ∃ qs r, Rcd.ReadsLiterals [16, 16, 16, 16] qs sample.rcd r := by
  have ho : sample.rcd.dec.Open := ⟨rfl, by decide, .inl (by decide)⟩
  have hc : ∀ n ∈ [1, 19, 20, 32], completes (sample.rcd.bits n) = true := by decide
  have hn : ∀ n ∈ [1, 19, 20, 32], n ≤ 32 := by decide
  refine ⟨rfl, rfl, by decide, fun n h => ?_, ?_, ?_⟩
  · obtain ⟨_, r, _, qs, h2, _⟩ := ok_of_completes (Rcd.bits_spec ho (hn n h)) (hc n h)
    exact ⟨qs, r, h2⟩
  · obtain ⟨_, r, _, qs, h2, _⟩ := ok_of_completes (Rcd.halves_spec (n := 2) ho) (by decide)
    exact ⟨qs, r, h2⟩
  · obtain ⟨_, r, _, qs, h2, _⟩ := ok_of_completes (Rcd.halves_spec (n := 4) ho) (by decide)
    exact ⟨qs, r, h2⟩

theorem witness_DecDoneStops : sample.fault = 0#8 ∧ sample.dec.active = true := by decide

theorem witness_BisectionFindsTheSymbol : seenFive.Wf ∧ sample.dec.dvalue.toNat < sample.dec.drange.toNat := by
  refine ⟨⟨by decide, by decide, by decide, by decide, by decide, ?_, by decide, by decide, by decide, by decide,
    by decide⟩, by decide⟩
  intro k hk
  have h3 : k < 3 := Nat.lt_of_add_lt_add_right hk
  interval_cases k <;> decide

theorem witness_DecoderIsTotal :
    sample.Inv ∧ sample.fault = 0#8 ∧ sample.dec.active = true ∧ checksOk sample .decFloat = true ∧
      checksOk sample .decDouble = true ∧ checksOk sample (.decSym 0#16) = true ∧
      checksOk sample (.decBit 0#16) = true ∧ checksOk sample (.decBits 1#8) = true ∧
      checksOk sample (.decBits 32#8) = true :=
  ⟨sample_inv, rfl, rfl, by decide, by decide, by decide, by decide, by decide, by decide⟩

/-- The first symbol of a fresh chunk, on both sides. -/
theorem witness_DecoderFollowsTheEncoder :
    (SymModel.fresh 4).Wf ∧ 0 < (SymModel.fresh 4).n ∧ (coding 0#32 0xFFFFFFFF#32 none 0 []).rce.enc.Open ∧
      (decoding 5#32 0xFFFFFFFF#32 []).rcd.dec.Open ∧
      (decoding 5#32 0xFFFFFFFF#32 []).rcd.dec.drange = (coding 0#32 0xFFFFFFFF#32 none 0 []).rce.enc.range ∧
      Rce.CodesSymbol (SymModel.fresh 4) 0 (coding 0#32 0xFFFFFFFF#32 none 0 []).rce
        (coding 0#32 0x3FFFE000#32 none 0 []).rce ∧
      (coding 0#32 0x3FFFE000#32 none 0 []).rce.stream.length =
        (coding 0#32 0xFFFFFFFF#32 none 0 []).rce.stream.length + 0 ∧
      (decoding 5#32 0xFFFFFFFF#32 []).rcd.src.Gives [] [] ∧
      (coding 0#32 0x3FFFE000#32 none 0 []).rce.codeValue ≤
        ((coding 0#32 0xFFFFFFFF#32 none 0 []).rce.codeValue + BitVec.toNat 5#32) * 256 ^ 0 + bigEndian [] ∧
      ((coding 0#32 0xFFFFFFFF#32 none 0 []).rce.codeValue + BitVec.toNat 5#32) * 256 ^ 0 + bigEndian [] <
        (coding 0#32 0x3FFFE000#32 none 0 []).rce.codeValue + BitVec.toNat 0x3FFFE000#32 := by
  refine ⟨(SymModel.fresh_wf (by decide)).1, by decide, started, ⟨rfl, by decide, .inl (by decide)⟩, rfl, ?_,
    by decide, rfl, by decide, by decide⟩
  exact
    { turns := ⟨0, by unfold Needs; decide, by decide, by decide, by decide⟩
      opened :=
        { active := rfl, range := by decide, room := by decide, stage := by decide
          carrySafe := by unfold Encoder.CarrySafe; decide }
      port := ⟨⟨[], rfl, by simp⟩, rfl, id⟩ }

/-- Spec/95 section 7, programs P1 and P2: a bit, a symbol, a literal and a float; and a double and an
integer besides. -/
def mixed : List Coding :=
  [.bit 0#16 1#64, .sym 0#16 2#64, .bits 12#8 0xABC#64, .float 0x3F800000#64, .double 0x0102030405060708#64,
    .int 0#16 0#16 2#32 3#32]

theorem witness_DecodingReturnsWhatWasCoded :
    ∃ s' chunk, quiet.Inv ∧ State.Inv { quiet with src := sourceOf chunk } ∧ quiet.fault = 0#8 ∧
      quiet.enc.active = false ∧ (∀ c ∈ mixed, c.proper quiet) ∧
      State.runs (Instr.encInit :: (mixed.map Coding.enc ++ [Instr.encDone])) quiet = some s' ∧
      s'.fault = 0#8 ∧ s'.sink.bytes = quiet.sink.bytes ++ chunk ∧
      State.src { quiet with src := sourceOf chunk } = sourceOf chunk ∧ (sourceOf chunk).Gives chunk [] := by
  obtain ⟨s', h1, h2⟩ := some_of_ran (cmds := Instr.encInit :: (mixed.map Coding.enc ++ [Instr.encDone]))
    (s := quiet) (ok := fun t => decide (t.fault = 0#8)) (by decide)
  refine ⟨s', s'.sink.bytes, quiet_inv quiet.src, quiet_inv _, rfl, rfl, ?_, h1, of_decide_eq_true h2, rfl, rfl,
    by simp [Source.Gives, sourceOf]⟩
  intro c hc
  fin_cases hc <;> first | exact trivial | skip
  intro c h
  cases h
  exact .inr ⟨by unfold IntComp.Below; decide, .inl (by decide)⟩

/-! ### Integer compressor -/

/-- The ends of each parameter's range. -/
theorem witness_IcCfgConfigures :
    sample.fault = 0#8 ∧ BitVec.toNat 63#16 < sample.params.nIc ∧ BitVec.toNat 32#8 ≤ 32 ∧
      1 ≤ BitVec.toNat 1#16 ∧ BitVec.toNat 256#16 ≤ sample.params.icMaxCtx ∧ 1 ≤ BitVec.toNat 1#8 ∧
      BitVec.toNat 11#8 ≤ 11 ∧ BitVec.toNat 0#32 = 0 ∧
      (2 ≤ BitVec.toNat 2#32 ∧ BitVec.toNat 0x7FFFFFFF#32 ≤ 2 ^ 31 - 1) ∧ BitVec.toNat 31#8 ≤ 31 ∧
      BitVec.toNat 0#8 = 0 := by decide

theorem witness_IcInitResets :
    sample.fault = 0#8 ∧ BitVec.toNat 0#16 < sample.params.nIc ∧
      SlotFile.slot? sample.ic (BitVec.toNat 0#16) = some smallInt ∧ smallInt.Wf :=
  ⟨rfl, by decide, rfl, small_int_wf⟩

/-- The ends of the corrector interval, one of them reached by folding. -/
theorem witness_IcEncCodesTheCorrector :
    sample.fault = 0#8 ∧ sample.enc.Open ∧ sample.sink.Accepting ∧ BitVec.toNat 0#16 < sample.params.nIc ∧
      SlotFile.slot? sample.ic (BitVec.toNat 0#16) = some smallInt ∧ smallInt.Wf ∧
      BitVec.toNat 0#16 < smallInt.contexts ∧ smallInt.folded 0#32 4#32 = smallInt.corrMin ∧
      smallInt.corrMin ≤ smallInt.folded 0#32 3#32 ∧ smallInt.folded 0#32 3#32 = smallInt.corrMax :=
  ⟨rfl, opened, accepts, by decide, rfl, small_int_wf, by decide, by decide, by decide, by decide⟩

theorem witness_IcDecReturnsTheValue :
    sample.fault = 0#8 ∧ sample.dec.active = true ∧ 2 ^ 24 ≤ sample.dec.drange.toNat ∧
      BitVec.toNat 0#16 < sample.params.nIc ∧
      SlotFile.slot? sample.ic (BitVec.toNat 0#16) = some smallInt ∧ smallInt.Wf ∧
      BitVec.toNat 0#16 < smallInt.contexts ∧
      ∃ corr r c', Rcd.DecodesCorrector smallInt 0 corr sample.rcd r c' := by
  refine ⟨rfl, rfl, by decide, by decide, rfl, small_int_wf, by decide, ?_⟩
  obtain ⟨corr, p, _, h, _⟩ := ok_of_completes
    (IntComp.getCorr_spec small_int_wf (ctx := 0) (by decide) (r := sample.rcd)
      ⟨rfl, by decide, .inl (by decide)⟩) (by decide)
  exact ⟨corr, p.1, p.2, h⟩

theorem witness_IcGetkReturnsTheClass :
    sample.fault = 0#8 ∧ BitVec.toNat 0#16 < sample.params.nIc ∧
      SlotFile.slot? sample.ic (BitVec.toNat 0#16) = some smallInt := ⟨rfl, by decide, rfl⟩

/-- The ends of the range of correctors, and of the classes with a payload. -/
theorem witness_ClassesPartitionTheCorrectors :
    InClass 32 (-2 ^ 31) ∧ InClass 31 (2 ^ 31 - 1) ∧ InClass 1 (-1) ∧ InClass 1 2 ∧ InClass 0 0 ∧ InClass 0 1 ∧
      corrClass (-1) = 1 ∧ corrClass (2 ^ 31 - 1) = 31 := by unfold InClass; decide

/-- No modulus, a small one, 2^30 and 2^31; the greatest modulus for which the whole proviso holds; a
prediction and a value outside it, with no step that wraps; and a modulus that divides 2^32. -/
theorem witness_FoldingRoundTrip :
    smallInt.Wf ∧ smallInt.Proper 7#32 0#32 ∧
      (IntComp.configure 32 1 1 0#32).Wf ∧ (IntComp.configure 32 1 1 0#32).Proper 0x80000000#32 0x7FFFFFFF#32 ∧
      (IntComp.configure 30 1 1 0#32).Wf ∧ (IntComp.configure 30 1 1 0#32).Proper 0x3FFFFFFF#32 0#32 ∧
      (IntComp.configure 31 1 1 0#32).Wf ∧ (IntComp.configure 31 1 1 0#32).Proper 0x7FFFFFFF#32 0#32 ∧
      (IntComp.configure 0 1 1 1431655766#32).Wf ∧
      (IntComp.configure 0 1 1 1431655766#32).Below 1431655765#32 715827881#32 ∧
      (IntComp.configure 0 1 1 1431655766#32).corrRange.toNat ≤ 1431655766 ∧
      (IntComp.configure 0 1 1 100#32).Wf ∧ (IntComp.configure 0 1 1 100#32).corrRange ≠ 0#32 ∧
      (IntComp.configure 0 1 1 100#32).Unwrapped 1000#32 0xFFFFFFF9#32 ∧
      smallInt.corrRange ≠ 0#32 ∧ smallInt.corrRange.toNat ∣ 2 ^ 32 := by
  have hw : ∀ b, b ≤ 32 → (IntComp.configure b 1 1 0#32).Wf := fun b hb =>
    IntComp.configure_wf hb (by decide) (by decide) (.inl rfl)
  have hr : ∀ r : Word, 2 ≤ r.toNat → r.toNat ≤ 2 ^ 31 - 1 → (IntComp.configure 0 1 1 r).Wf := fun r h1 h2 =>
    IntComp.configure_wf (by decide) (by decide) (by decide) (.inr ⟨h1, h2⟩)
  refine ⟨small_int_wf, .inr ⟨by unfold IntComp.Below; decide, .inl (by decide)⟩, hw 32 (by decide), .inl (by decide),
    hw 30 (by decide), .inr ⟨by unfold IntComp.Below; decide, .inl (by decide)⟩,
    hw 31 (by decide), .inr ⟨by unfold IntComp.Below; decide, .inr (by decide)⟩,
    hr _ (by decide) (by decide), by unfold IntComp.Below; decide, by decide,
    hr _ (by decide) (by decide), by decide, by unfold IntComp.Unwrapped; decide, by decide, by decide⟩

/-- The ends of the range of moduli, each with a prediction and a value that are not returned. -/
theorem witness_FoldingFailsForALargeRange :
    (1431655767 ≤ BitVec.toNat 1431655767#32 ∧ BitVec.toNat 0x7FFFFFFF#32 ≤ 2 ^ 31 - 1) ∧
      (IntComp.configure 0 1 8 1431655767#32).unfolded 1431655766#32
        ((IntComp.configure 0 1 8 1431655767#32).folded 1431655766#32 715827882#32) ≠ 715827882#32 ∧
      (IntComp.configure 0 1 8 0x7FFFFFFF#32).unfolded 0x7FFFFFFE#32
        ((IntComp.configure 0 1 8 0x7FFFFFFF#32).folded 0x7FFFFFFE#32 5#32) = 3#32 := by decide

end Sys2Proof.Tests
end

section
/-! SUPPORT. What the decoder answers for the bits the encoder writes: each command's fields are of its
own opcode and its format accepts them, so that decoding takes encoding back. -/

namespace Sys2Proof

/-- The upper half of a data word joined from two halves. -/
@[simp] theorem Fields.dwHigh_append (hi lo : Word) (op f g z : BitVec 8) (idx ctx : BitVec 16) :
    Fields.dwHigh ⟨op, f, idx, ctx, g, z, hi ++ lo⟩ = hi :=
  BitVec.extractLsb'_append_eq_left

/-- The lower half of a data word joined from two halves. -/
@[simp] theorem Fields.dwLow_append (hi lo : Word) (op f g z : BitVec 8) (idx ctx : BitVec 16) :
    Fields.dwLow ⟨op, f, idx, ctx, g, z, hi ++ lo⟩ = lo :=
  BitVec.extractLsb'_append_eq_right

/-- The opcode map reads back the command whose fields it is given (30_encoding.md R95). The commands of
formats IC, IE and ID turn on the two halves of the data word, `CSR.RD` on its listed address; of the
others each must-be-zero field is a literal zero. -/
theorem decodeFields_fields {i : Instr} (h : i.wellFormed = true) : decodeFields i.fields = .ok i := by
  cases i with
  | icCfg idx bits contexts bitsHigh rng =>
    exact Format.accept_eq_ok.mpr ⟨by simp [Format.clean, Instr.fields, Fields.ofOp],
      by simp [Instr.fields, Fields.ofOp]⟩
  | icEnc idx ctx pred real =>
    exact Format.accept_eq_ok.mpr ⟨rfl, by simp [Instr.fields, Fields.ofOp]⟩
  | icDec idx ctx pred =>
    exact Format.accept_eq_ok.mpr ⟨by simp [Format.clean, Instr.fields, Fields.ofOp],
      by simp [Instr.fields, Fields.ofOp]⟩
  | csrRd addr => exact if_pos h
  | _ => rfl

/-- Decoding takes encoding back (30_encoding.md R90 to R96). -/
theorem decode_encode {i : Instr} (h : i.wellFormed = true) : decode (encode i) = .ok i := by
  unfold decode encode
  rw [Fields.split_join]
  exact decodeFields_fields h

end Sys2Proof
end

section
/-! SUPPORT. The step, by what the environment presents (00_scope.md R13, R14): one equation for each
kind of event whose outcome does not depend on how far a command came. -/

namespace Sys2Proof.Machine

/-- With nothing presented the LEC holds all its state (60_exceptions.md R294, log 1). -/
theorem step_of_idle {s : State} (h : s.port = []) : step s = .next s := by
  unfold step State.advance
  rw [h]

/-- A step takes the first event off the port. -/
theorem step_of_event {s : State} {e : PortEvent} {rest : List PortEvent} (h : s.port = e :: rest) :
    step s = { s with port := rest }.take e := by
  unfold step State.advance
  rw [h]

/-- Bits that decode to a command are that command's execution (60_exceptions.md R275). -/
theorem State.present_of_decode {s : State} {w : Command} {i : Instr} (h : decode w = .ok i) :
    s.present w = exec i s := by
  unfold State.present
  rw [h]

/-- A step at a command that decodes. -/
theorem step_of_command {s : State} {w : Command} {rest : List PortEvent} {i : Instr}
    (hp : s.port = .command w :: rest) (hd : decode w = .ok i) :
    step s = exec i { s with port := rest } :=
  (step_of_event hp).trans (State.present_of_decode hd)

/-- A table word of 128 bits is the command it numbers. -/
theorem tableCommand_toNat (w : Command) : tableCommand 128 w.toNat = w := by
  unfold tableCommand
  rw [Nat.mod_eq_of_lt w.isLt, BitVec.ofNat_toNat, BitVec.setWidth_eq]

/-- A step at a command put in front of the port from its encoding. -/
theorem step_withFetchWord {s : State} {i : Instr} (h : i.wellFormed = true) :
    step (s.withFetchWord 128 (encode i).toNat) = exec i s := by
  unfold State.withFetchWord
  rw [tableCommand_toNat]
  exact step_of_command (State.presentNext_port s (encode i)) (decode_encode h)

/-- Settles O5: the case of each kind of event presented, and of none. -/
theorem stepRunsTheDecodedCommand : Obligations.StepRunsTheDecodedCommand :=
  ⟨fun _ _ _ _ hp hd => step_of_command hp hd, fun _ _ hw => step_withFetchWord hw,
    fun _ hp => step_of_idle hp, fun _ _ _ hp => step_of_event hp⟩

end Sys2Proof.Machine
end

section
/-! SUPPORT. The machine's invariant along a step (10_state.md R39): what it depends on, why a fault and a
reset keep it, and then each kind of event. -/

namespace Sys2Proof.Machine

/-- The ports, `RES`, the responses, what is presented and the free values do not enter the invariant. -/
theorem State.Inv.of_eq {s t : State} (h : s.Inv) (hp : t.params = s.params) (he : t.enc = s.enc)
    (hd : t.dec = s.dec) (hb : t.bm = s.bm) (hm : t.sm = s.sm) (hi : t.ic = s.ic) (hf : t.fault = s.fault) :
    t.Inv := by
  obtain ⟨⟨form1, form2, form3, form4, form5, form6, form7, form8⟩, sound⟩ := h
  cases s
  cases t
  subst hp he hd hb hm hi hf
  refine ⟨⟨form1, form2, form3, form4, form5, form6, form7, form8⟩, fun hf => ?_⟩
  obtain ⟨enc, dec, bm, sm, ic⟩ := sound hf
  exact ⟨enc, dec, bm, sm, ic⟩

/-- Giving a response keeps the invariant. -/
theorem State.Inv.respond {s : State} (h : s.Inv) (status : BitVec 8) (data : Dword) :
    (s.respond status data).Inv :=
  h.of_eq rfl rfl rfl rfl rfl rfl rfl

/-- Completing keeps the invariant, with or without data. -/
theorem State.Inv.complete {s : State} (h : s.Inv) (data : Option Dword) : (s.complete data).Inv := by
  cases data with
  | none => exact h.respond _ _
  | some d => exact State.Inv.respond (s := { s with res := d }) (h.of_eq rfl rfl rfl rfl rfl rfl rfl) _ _

/-- A fault recorded leaves the form of the state, and that is all the invariant then asks: it needs only
legal parameters and slot files in their form (60_exceptions.md R277, R278). -/
theorem State.raisePrecise_inv {s : State} (hp : s.params.Legal) (h : FilesOk s) (f : FaultCode) :
    (s.raisePrecise f).Inv :=
  ⟨⟨hp, f.code_le, h.bmForm, h.smForm, h.icForm, h.bmIndex, h.smIndex, h.icIndex⟩,
    fun h0 => absurd h0 f.code_ne_zero⟩

/-- Bits that are no command keep the invariant. -/
theorem State.Inv.illegalCommand {s t : State} (h : s.Inv) (ht : s.illegalCommand = .next t) : t.Inv := by
  unfold State.illegalCommand at ht
  split at ht
  · cases ht
    exact State.raisePrecise_inv h.form.params h.form.files _
  · cases ht
    exact h.respond _ _

/-- A state whose elements have their reset values is in the invariant (10_state.md R40). -/
theorem State.inv_of_restored {s : State} (hp : s.params.Legal) (h : s = s.restored) : s.Inv := by
  rw [h]
  exact
    { form :=
        { params := hp, fault := Nat.zero_le 8, bmForm := rfl, smForm := rfl, icForm := rfl
          bmIndex := fun _ h => (nomatch h), smIndex := fun _ h => (nomatch h)
          icIndex := fun _ h => (nomatch h) }
      sound := fun _ =>
        { encoder := .inr ⟨rfl, ⟨rfl, rfl⟩, rfl⟩, decoder := .inr rfl
          bm := fun _ h => (nomatch h), sm := fun _ h => (nomatch h), ic := fun _ h => (nomatch h) } }

/-- A body that completes keeps the invariant, when the checks of its command hold. -/
theorem bodyOf_inv {s t : State} {i : Instr} {d : Option Dword} (hi : ∀ a, i ≠ .csrRd a) (h : s.Inv)
    (h0 : s.fault = 0#8) (hc : firstFailure (checksOf s i) = none) (hb : bodyOf s i = .ok d t) : t.Inv := by
  obtain ⟨-, hx, -⟩ := checks_hold hi hc
  have ends : (bodyOf s i).EndsAt t := .inl ⟨d, hb⟩
  have kept := bodyOf_kept ends
  have files := bodyOf_files h.form.files hx ends
  have sound := (bodyOf_sound hi (h.sound h0) hc).2 d t hb
  exact ⟨⟨kept.params ▸ h.form.params, kept.fault ▸ h.form.fault, files.bmForm, files.smForm, files.icForm,
    files.bmIndex, files.smIndex, files.icIndex⟩, fun _ => sound⟩

/-- An execution fault keeps the invariant, for every free value (60_exceptions.md R278). -/
theorem State.raiseInExecution_inv {s t : State} {i : Instr} {f : FaultCode} (hi : ∀ a, i ≠ .csrRd a) (h : s.Inv)
    (hc : firstFailure (checksOf s i) = none) (hb : bodyOf s i = .raised f t) :
    (s.raiseInExecution (touchOf i) f t).Inv := by
  obtain ⟨-, hx, -⟩ := checks_hold hi hc
  have ends : (bodyOf s i).EndsAt t := .inr ⟨f, hb⟩
  have kept := bodyOf_kept ends
  have settled := State.settle_kept kept
  exact State.raisePrecise_inv (settled.params ▸ h.form.params)
    (State.settle_files kept.params (bodyOf_files h.form.files hx ends) hx) f

/-- `CSR.RD` keeps the invariant, at a listed address and at any other. -/
theorem execCsrRd_inv {s t : State} {a : Index} (h : s.Inv) (ht : exec (.csrRd a) s = .next t) : t.Inv := by
  cases hc : Csr.ofAddress a with
  | some c =>
    rw [exec_csrRd hc] at ht
    cases ht
    exact h.complete _
  | none => exact h.illegalCommand (by simpa [exec, execCsrRd, hc] using ht)

/-- Every command keeps the invariant, whatever its outcome. -/
theorem exec_inv {s t : State} {i : Instr} (h : s.Inv) (ht : exec i s = .next t) : t.Inv := by
  by_cases hi : ∃ a, i = .csrRd a
  · obtain ⟨a, rfl⟩ := hi
    exact execCsrRd_inv h ht
  have hi : ∀ a, i ≠ .csrRd a := fun a ha => hi ⟨a, ha⟩
  rcases exec_cases s i hi with ⟨-, he⟩ | ⟨-, f, -, he⟩ | ⟨h0, hc, d, u, hb, -, he⟩ |
    ⟨-, hc, f, u, hb, -, -, he⟩ | ⟨-, -, -, he⟩
  · obtain rfl := Host.Outcome.next.inj (he.symm.trans ht)
    exact h.respond _ _
  · obtain rfl := Host.Outcome.next.inj (he.symm.trans ht)
    exact State.raisePrecise_inv h.form.params h.form.files f
  · obtain rfl := Host.Outcome.next.inj (he.symm.trans ht)
    exact (bodyOf_inv hi h h0 hc hb).complete d
  · obtain rfl := Host.Outcome.next.inj (he.symm.trans ht)
    exact State.raiseInExecution_inv hi h hc hb
  · cases he.symm.trans ht

/-- A command presented keeps the invariant, and so do bits that are none. -/
theorem State.Inv.present {s t : State} {w : Command} (h : s.Inv) (ht : s.present w = .next t) : t.Inv := by
  unfold State.present at ht
  split at ht
  · exact exec_inv h ht
  · exact h.illegalCommand ht

/-- A command abandoned ends in a state whose elements have their reset values, however far it came
(70_reset_and_hazards.md R300). -/
theorem State.Inv.abandon {s t : State} {w : Command} {n : Nat} (h : s.Inv) (ht : s.abandon w n = .next t) :
    t.Inv := by
  rcases State.abandon_cases ht with ⟨-, rfl⟩ | ⟨i, v, -, -, ⟨-, rfl⟩ | ⟨-, rfl⟩ | ⟨u, -, rfl⟩⟩ <;>
    exact State.inv_of_restored h.form.params rfl

/-- Every event of the environment keeps the invariant. -/
theorem State.Inv.take {s t : State} {e : PortEvent} (h : s.Inv) (ht : s.take e = .next t) : t.Inv := by
  cases e with
  | command w => exact State.Inv.present h ht
  | reset => cases ht; exact State.inv_of_restored h.form.params rfl
  | abandoned w n => exact State.Inv.abandon h ht
  | seek answers => cases ht; exact h.of_eq rfl rfl rfl rfl rfl rfl rfl

/-- Settles O11, by the event the port presents. -/
theorem stepKeepsTheInvariant : Obligations.StepKeepsTheInvariant := by
  intro s t h ht
  cases hp : s.port with
  | nil =>
    rw [step_of_idle hp] at ht
    cases ht
    exact h
  | cons e rest =>
    rw [step_of_event hp] at ht
    have h1 : ({ s with port := rest } : State).Inv := h.of_eq rfl rfl rfl rfl rfl rfl rfl
    exact h1.take ht

/-- Settles O10: the reset state is restored, with the default parameters. -/
theorem invariantHoldsAtReset : Obligations.InvariantHoldsAtReset :=
  State.inv_of_restored (by decide) rfl

end Sys2Proof.Machine
end

section
/-! SUPPORT. What a command does whose checks are settled: it raises the fault of the first check that
fails, or, when all hold and its body completes, it succeeds (60_exceptions.md R275). From these, what
works directly after reset and what does not (70_reset_and_hazards.md R302). -/

namespace Sys2Proof.Machine

/-- A check that fails first is the whole outcome of a command (60_exceptions.md R277). -/
theorem exec_faults {s : State} {i : Instr} {f : FaultCode} (hi : ∀ a, i ≠ .csrRd a) (h0 : s.fault = 0#8)
    (hc : firstFailure (checksOf s i) = some f) : exec i s = .next (s.faulted f.code) := by
  rw [exec_command s i hi]
  exact State.command_precise h0 hc _ _

/-- A command outside its activity window faults `SequenceError` (60_exceptions.md R272). -/
theorem exec_sequenceError {s : State} {i : Instr} (hi : ∀ a, i ≠ .csrRd a) (h0 : s.fault = 0#8)
    (hs : sequenceOk s i = false) : exec i s = .next (s.faulted 0x02#8) :=
  exec_faults (f := .sequenceError) hi h0 (by rw [firstFailure_checksOf s i hi, if_pos hs])

/-- A command that names a slot that is not valid faults `NotInitialised`, once the earlier checks hold
(60_exceptions.md R273). -/
theorem exec_notInitialised {s : State} {i : Instr} (hi : ∀ a, i ≠ .csrRd a) (h0 : s.fault = 0#8)
    (hs : sequenceOk s i = true) (hx : indexOk s.params i = true) (hg : configOk s.params i = true)
    (hv : slotOk s i = false) : exec i s = .next (s.faulted 0x04#8) :=
  exec_faults (f := .notInitialised) hi h0 (by simp [firstFailure_checksOf s i hi, hs, hx, hg, hv])

/-- A command whose checks hold and whose body completes leaves no fault. -/
theorem exec_succeeds {s u : State} {i : Instr} {d : Option Dword} (hi : ∀ a, i ≠ .csrRd a)
    (h0 : s.fault = 0#8) (hc : firstFailure (checksOf s i) = none) (hb : bodyOf s i = .ok d u) :
    ∃ t, exec i s = .next t ∧ t.fault = 0#8 := by
  have hu : u.fault = 0#8 := (bodyOf_kept (.inl ⟨d, hb⟩)).fault.trans h0
  refine ⟨u.complete d, ?_, by cases d <;> exact hu⟩
  rw [exec_command s i hi, State.command_runs h0 hc, hb]
  rfl

/-- No check of a command fails when what each rule requires holds (60_exceptions.md R272 to R275, R279). -/
theorem firstFailure_checksOf_eq_none {s : State} {i : Instr} (hi : ∀ a, i ≠ .csrRd a) (hs : sequenceOk s i = true)
    (hx : indexOk s.params i = true) (hg : configOk s.params i = true) (hv : slotOk s i = true)
    (ho : operandsOk s i = true) (hr : streamOk s i = true) : firstFailure (checksOf s i) = none := by
  simp [firstFailure_checksOf s i hi, hs, hx, hg, hv, ho, hr]

/-! ## Transfers that the ports answer -/

/-- A command that writes one burst succeeds on a sink that takes it (40_bit_io.md R121). -/
theorem exec_write_succeeds {s : State} {i : Instr} {nb : Nat} {o : Order} {v : Dword}
    (hi : ∀ a, i ≠ .csrRd a) (h0 : s.fault = 0#8) (hk : s.sink.TakesNext)
    (hc : firstFailure (checksOf s i) = none) (hb : bodyOf s i = writeBody nb o v s) :
    ∃ t, exec i s = .next t ∧ t.fault = 0#8 := by
  unfold writeBody at hb
  rw [Sink.write_takes hk] at hb
  exact exec_succeeds hi h0 hc hb

/-- A source that has more bytes than asked gives the first of them. -/
theorem Source.Gives.read_ok {p : Source} {bs : List Byte} {rest : List SrcAnswer} (h : p.Gives bs rest)
    {n : Nat} (hn : n ≤ bs.length) : ∃ as q, Source.read n p = .ok as q := by
  rw [← List.take_append_drop n bs] at h
  have hr := Source.read_gives (gives_append h)
  rw [List.length_take_of_le hn] at hr
  exact ⟨_, _, hr⟩

/-- A command that reads a fixed number of bytes completes when the source has them (40_bit_io.md R122,
43_range_dec.md R201). -/
theorem bodyOf_plainReads_ok {s : State} {i : Instr} {n : Nat} {bs : List Byte} {rest : List SrcAnswer}
    (hi : plainReads i = some n) (hn : n ≤ bs.length) (h : s.src.Gives bs rest) :
    ∃ d t, bodyOf s i = .ok d t := by
  obtain ⟨as, q, hr⟩ := h.read_ok hn
  have bio : ∀ o, ∃ d t, readBody n o s = .ok d t := fun o => by
    unfold readBody
    rw [hr]
    exact ⟨_, _, rfl⟩
  cases i
  case decInit =>
    cases hi
    refine ⟨none, s.withRcd { dec := Decoder.start as, src := q }, ?_⟩
    simp [bodyOf, Rcd.init, hr]
  all_goals cases hi <;> exact bio _

/-- A command that reads a fixed number of bytes succeeds, coders open or not, when the source has
them. -/
theorem exec_plainReads_succeeds {s : State} {i : Instr} {n : Nat} {bs : List Byte} {rest : List SrcAnswer}
    (h0 : s.fault = 0#8) (hi : plainReads i = some n) (hn : n ≤ bs.length) (h : s.src.Gives bs rest) :
    ∃ t, exec i s = .next t ∧ t.fault = 0#8 := by
  obtain ⟨d, t, hb⟩ := bodyOf_plainReads_ok hi hn h
  have hcsr : ∀ a, i ≠ .csrRd a := fun a ha => by subst ha; cases hi
  have hchecks : checksOf s i = [] := by cases i <;> cases hi <;> rfl
  exact exec_succeeds hcsr h0 (by rw [hchecks]; rfl) hb

/-! ## After reset -/

/-- Settles O7: each reset value is the one `State.reset` names, and no slot of an empty file is valid. -/
theorem resetValues : Obligations.ResetValues :=
  ⟨rfl, rfl, rfl, rfl, rfl, rfl, rfl, rfl, rfl, rfl, fun _ => ⟨rfl, rfl, rfl⟩, rfl, rfl, rfl, rfl⟩

/-- Settles O9: after reset `FAULT` is 0, no chunk is open and no slot is valid, which settles every
check but those of an index or an operand. -/
theorem whatWorksAfterReset : Obligations.WhatWorksAfterReset := by
  rintro s0 _ rfl
  refine ⟨fun v hk => ⟨fun hv => ?_, fun hv => ?_, fun hv => ?_, fun hv => ?_, fun hv => ?_, ?_, ?_⟩,
    fun i n bs rest => exec_plainReads_succeeds rfl, fun a ha => ?_, fun i hx => ?_, fun i n hx hg => ?_,
    fun j b c h r hx hg => ?_, ?_, fun i hx => ?_, fun j hx => ?_, fun j hx => ?_, fun i n v ctx p r => ?_⟩
  -- the `BIO` writes that check their value, and the two of 64 bits
  iterate 5
    exact exec_write_succeeds nofun rfl hk
      (firstFailure_checksOf_eq_none nofun rfl rfl rfl rfl (decide_eq_true hv) rfl) rfl
  iterate 2
    exact exec_write_succeeds nofun rfl hk (firstFailure_checksOf_eq_none nofun rfl rfl rfl rfl rfl rfl) rfl
  -- `CSR.RD`, the configuring commands and `ENC.INIT`
  · obtain ⟨c, hc⟩ := Option.isSome_iff_exists.1 ha
    exact ⟨_, exec_csrRd hc, rfl⟩
  · exact exec_succeeds nofun rfl
      (firstFailure_checksOf_eq_none nofun rfl (decide_eq_true hx) rfl rfl rfl rfl) rfl
  iterate 2
    exact exec_succeeds nofun rfl
      (firstFailure_checksOf_eq_none nofun rfl (decide_eq_true hx) hg rfl rfl rfl) rfl
  · exact exec_succeeds nofun rfl (firstFailure_checksOf_eq_none nofun rfl rfl rfl rfl rfl rfl) rfl
  -- the commands that use a slot
  iterate 3 exact exec_notInitialised nofun rfl rfl (decide_eq_true hx) rfl rfl
  -- the commands of an open chunk
  · have closed : ∀ {i : Instr}, (∀ a, i ≠ .csrRd a) → sequenceOk s0.resetEvent i = false →
        exec i s0.resetEvent = .next (s0.resetEvent.faulted 0x02#8) := fun hi => exec_sequenceError hi rfl
    exact ⟨closed nofun rfl, closed nofun rfl, closed nofun rfl, closed nofun rfl, closed nofun rfl,
      closed nofun rfl, closed nofun rfl, closed nofun rfl, closed nofun rfl, closed nofun rfl,
      closed nofun rfl, closed nofun rfl, closed nofun rfl, closed nofun rfl⟩

end Sys2Proof.Machine
end

section
/-! SUPPORT. The control and status registers (10_state.md R33, R35): what `CSR.RD` shows of the state. -/

namespace Sys2Proof.Machine

/-- `CSR.RD` at a listed address returns the register there, whatever `FAULT` holds. -/
theorem exec_csrRd_returned {s : State} {a : Index} {c : Csr} (h : Csr.ofAddress a = some c) :
    exec (.csrRd a) s = .next (s.returned (s.csr c)) := exec_csrRd h

/-- `ENC_STAGE` is `cache_valid` above the eight bits of `cache` (10_state.md R35). -/
theorem Encoder.stageView_eq (e : Encoder) :
    e.stageView = (BitVec.ofBool e.cacheValid ++ e.cache).zeroExtend 64 := by
  have hc := e.cache.isLt
  apply BitVec.eq_of_toNat_eq
  rw [Encoder.stageView, BitVec.toNat_ofNat, BitVec.zeroExtend_eq_setWidth, BitVec.toNat_setWidth, BitVec.toNat_append,
    ← Nat.shiftLeft_add_eq_or_of_lt hc]
  cases e.cacheValid <;> rfl

/-- Settles O59: the register at each listed address. -/
theorem csrReadsTheRegister : Obligations.CsrReadsTheRegister := fun s =>
  ⟨exec_csrRd_returned (c := .fault) rfl, exec_csrRd_returned (c := .status) rfl,
    exec_csrRd_returned (c := .res) rfl, exec_csrRd_returned (c := .sinkCount) rfl,
    exec_csrRd_returned (c := .srcCount) rfl, exec_csrRd_returned (c := .encLow) rfl,
    exec_csrRd_returned (c := .encRange) rfl,
    s.enc.stageView_eq ▸ exec_csrRd_returned (c := .encStage) rfl,
    exec_csrRd_returned (c := .encPending) rfl, exec_csrRd_returned (c := .encOutIdx) rfl,
    exec_csrRd_returned (c := .decValue) rfl, exec_csrRd_returned (c := .decRange) rfl⟩

/-- Four flags joined, the first lowest, behind sixty zeros. -/
def fourFlags (a b c d : Bool) : Dword :=
  (BitVec.ofBool d ++ BitVec.ofBool c ++ BitVec.ofBool b ++ BitVec.ofBool a).zeroExtend 64

/-- Flags joined make the number that weighs each by its bit. -/
theorem ofNat_flagBits : ∀ a b c d : Bool,
    BitVec.ofNat 64 (flagBit a + 2 * flagBit b + 4 * flagBit c + 8 * flagBit d) = fourFlags a b c d := by
  decide

/-- `STATUS` is its four flags joined (10_state.md R33). -/
theorem State.status_eq (s : State) :
    s.status = fourFlags s.enc.active s.dec.active (decide (s.fault ≠ 0#8)) s.enc.cacheValid :=
  ofNat_flagBits _ _ _ _

/-- The bits of four flags joined. -/
theorem getLsbD_fourFlags : ∀ a b c d : Bool,
    (fourFlags a b c d).getLsbD 0 = a ∧ (fourFlags a b c d).getLsbD 1 = b ∧
      (fourFlags a b c d).getLsbD 2 = c ∧ (fourFlags a b c d).getLsbD 3 = d := by
  decide

/-- Zeros stand before a number extended from fewer bits. -/
theorem getLsbD_zeroExtend_of_le {n w k : Nat} (x : BitVec n) (h : n ≤ k) :
    (x.zeroExtend w).getLsbD k = false := by
  rw [BitVec.zeroExtend_eq_setWidth, BitVec.getLsbD_setWidth, BitVec.getLsbD_of_ge x k h, Bool.and_false]

/-- Settles O60: the bits of four flags joined, and the zeros before them. -/
theorem statusShowsTheFlags : Obligations.StatusShowsTheFlags := by
  intro s
  refine ⟨s.status, exec_csrRd_returned (c := .status) rfl, ?_⟩
  rw [State.status_eq]
  obtain ⟨h0, h1, h2, h3⟩ := getLsbD_fourFlags s.enc.active s.dec.active (decide (s.fault ≠ 0#8)) s.enc.cacheValid
  exact ⟨h0, h1, h2, h3, fun k hk => getLsbD_zeroExtend_of_le _ hk⟩

end Sys2Proof.Machine
end

section
/-! SUPPORT. The response of a command: a body hands over data exactly where its command returns data, so
that the one response of each outcome is the one 30_encoding.md R97 gives. -/

namespace Sys2Proof.Machine

/-- A body that completes hands over data exactly for the commands that return data (10_state.md R31). -/
theorem bodyOf_data {s t : State} {i : Instr} {d : Option Dword} (hi : ∀ a, i ≠ .csrRd a)
    (h : bodyOf s i = .ok d t) : d.isSome = returnsData i := by
  have put : ∀ {m : Run State Unit}, m.value (fun _ => none) = .ok d t → d.isSome = false := fun h => by
    obtain ⟨_, -, rfl⟩ := Run.value_eq_ok.1 h
    rfl
  have got : ∀ {α : Type} {m : Run State α} {k : α → Dword}, m.value (fun a => some (k a)) = .ok d t →
      d.isSome = true := fun h => by
    obtain ⟨_, -, rfl⟩ := Run.value_eq_ok.1 h
    rfl
  cases i with
  | csrRd a => exact absurd rfl (hi a)
  | bmInit | smCfg | smInit | encInit | decDone | icCfg | icInit | icGetk => cases h; rfl
  | bioRd8 | bioRd16le | bioRd16be | bioRd32le | bioRd32be | bioRd64le | bioRd64be | decSym | decBit
  | decBits | decFloat | decDouble | icDec => exact got h
  | _ => exact put h

/-- The response `a` with which a command goes from `s` to `t`, in its three outcomes: success, a fault
taken, and refusal (30_encoding.md R97, 10_state.md R31). -/
def Responds (i : Instr) (s t : State) (a : Response) : Prop :=
  (a.status = 0x00#8 ∧ t.fault = s.fault ∧ (returnsData i = true → t.res = a.data) ∧
      (returnsData i = false → a.data = 0#64 ∧ t.res = s.res)) ∨
    (s.fault = 0#8 ∧ (∃ f : FaultCode, a.status = f.code) ∧ t.fault = a.status ∧ a.data = 0#64 ∧
      t.res = s.res) ∨
    (s.fault ≠ 0#8 ∧ a.status = 0xFF#8 ∧ a.data = 0#64 ∧ t = s.refused)

/-- Completing from a state whose `FAULT` and `RES` are those before the command is a success. -/
theorem Responds.complete {i : Instr} {s u : State} {d : Option Dword} (hf : u.fault = s.fault)
    (hr : u.res = s.res) (hu : u.responses = s.responses) (hd : d.isSome = returnsData i) :
    ∃ a, (u.complete d).responses = s.responses ++ [a] ∧ Responds i s (u.complete d) a := by
  cases d with
  | none =>
    have hno : returnsData i = false := hd.symm
    exact ⟨⟨0x00#8, 0#64⟩, by rw [State.complete_none_responses, hu],
      .inl ⟨rfl, hf, fun h => absurd (hno.symm.trans h) Bool.false_ne_true, fun _ => ⟨rfl, hr⟩⟩⟩
  | some d =>
    have hyes : returnsData i = true := hd.symm
    exact ⟨⟨0x00#8, d⟩, by rw [State.complete_some_responses, hu],
      .inl ⟨rfl, hf, fun _ => rfl, fun h => absurd (h.symm.trans hyes) Bool.false_ne_true⟩⟩

/-- Recording a fault in a state whose `RES` is that before the command is the response of that fault. -/
theorem Responds.raise {i : Instr} {s u : State} (h0 : s.fault = 0#8) (hr : u.res = s.res)
    (hu : u.responses = s.responses) (f : FaultCode) :
    ∃ a, (u.raisePrecise f).responses = s.responses ++ [a] ∧ Responds i s (u.raisePrecise f) a :=
  ⟨⟨f.code, 0#64⟩, by rw [State.raisePrecise_responses, hu], .inr (.inl ⟨h0, ⟨f, rfl⟩, rfl, rfl, hr⟩)⟩

/-- Settles O19, by the ways a command ends. -/
theorem oneResponsePerCommand : Obligations.OneResponsePerCommand := by
  intro s t i hw ht
  change ∃ a, t.responses = s.responses ++ [a] ∧ Responds i s t a
  by_cases hi : ∃ a, i = .csrRd a
  · obtain ⟨a, rfl⟩ := hi
    obtain ⟨c, hc⟩ := Option.isSome_iff_exists.1 hw
    obtain rfl := Host.Outcome.next.inj ((exec_csrRd hc).symm.trans ht)
    exact Responds.complete rfl rfl rfl rfl
  have hi : ∀ a, i ≠ .csrRd a := fun a ha => hi ⟨a, ha⟩
  rcases exec_cases s i hi with ⟨h0, he⟩ | ⟨h0, f, -, he⟩ | ⟨-, -, d, u, hb, kept, he⟩ |
    ⟨h0, -, f, u, -, -, kept, he⟩ | ⟨-, -, -, he⟩
  · obtain rfl := Host.Outcome.next.inj (he.symm.trans ht)
    exact ⟨⟨0xFF#8, 0#64⟩, rfl, .inr (.inr ⟨h0, rfl, rfl, rfl⟩)⟩
  · obtain rfl := Host.Outcome.next.inj (he.symm.trans ht)
    exact Responds.raise h0 rfl rfl f
  · obtain rfl := Host.Outcome.next.inj (he.symm.trans ht)
    exact Responds.complete kept.fault kept.res kept.responses (bodyOf_data hi hb)
  · obtain rfl := Host.Outcome.next.inj (he.symm.trans ht)
    exact Responds.raise h0 kept.res kept.responses f
  · cases he.symm.trans ht

end Sys2Proof.Machine
end

section
/-! SUPPORT. The reference's symbol search (43_range_dec.md R204): its five variables always bracket the
code value between the ends of two symbols' parts, until the two symbols are one. -/

namespace Sys2Proof.Machine

/-- A symbol's part ends where the next symbol's begins. -/
theorem SymModel.partHigh_eq_partLow_succ {m : SymModel} {v len : Nat} (h : v + 1 < m.n) :
    m.partHigh v len = m.partLow (v + 1) len := by
  unfold SymModel.partHigh
  rw [if_neg (by omega)]
  rfl

/-- The last symbol's part ends with the interval. -/
theorem SymModel.partHigh_last {m : SymModel} {v len : Nat} (h : v + 1 = m.n) : m.partHigh v len = len :=
  if_pos h

/-- A turn of the search from `x = partLow a`, `s = a`, `y = partHigh b`, `hi = b + 1` (R204), where `k`
lies strictly between `s` and `hi`. Each turn brings `s` and `hi` closer; when nothing lies between them,
they are the ends of one symbol's part. -/
theorem SymModel.bisect_ends {m : SymModel} {len value fuel a b k : Nat} (hak : a < k) (hkb : k ≤ b)
    (hb : b < m.n) (hfuel : b ≤ a + fuel) (hlow : m.partLow a len ≤ value) (hhigh : value < m.partHigh b len) :
    ∃ v, v < m.n ∧ m.partLow v len ≤ value ∧ value < m.partHigh v len ∧
      m.bisect (len / 2 ^ 15) value fuel (m.partLow a len) a (m.partHigh b len) (b + 1) k =
        (v, m.partLow v len, m.partHigh v len) := by
  induction fuel generalizing a b k with
  | zero => omega
  | succ fuel ih =>
    obtain ⟨j, rfl⟩ : ∃ j, k = j + 1 := ⟨k - 1, by omega⟩
    have hz : len / 2 ^ 15 * m.distAt (j + 1) = m.partLow (j + 1) len := Nat.mul_comm _ _
    have hj : m.partHigh j len = m.partLow (j + 1) len := SymModel.partHigh_eq_partLow_succ (by omega)
    rw [SymModel.bisect]
    rw [hz]
    split_ifs with hbelow hend hend
    · obtain rfl : a = j := by omega
      exact ⟨a, by omega, hlow, hj ▸ hbelow, by rw [hj]⟩
    · rw [← hj] at hbelow ⊢
      exact ih (by omega) (by omega) (by omega) (by omega) hlow hbelow
    · obtain rfl : b = j + 1 := by omega
      exact ⟨j + 1, hb, by omega, hhigh, rfl⟩
    · exact ih (by omega) (by omega) hb (by omega) (by omega) hhigh

/-- Settles O47: the search begins with the whole interval and every symbol, and the symbol it ends with is
the one whose part holds the code value. -/
theorem bisectionFindsTheSymbol : Obligations.BisectionFindsTheSymbol := by
  intro m d hm hv
  obtain ⟨hn, -⟩ := hm.alphabet
  have hfirst : m.partLow 0 d.drange.toNat = 0 := by
    unfold SymModel.partLow
    rw [hm.first, Nat.zero_mul]
  have hlast : m.partHigh (m.n - 1) d.drange.toNat = d.drange.toNat :=
    SymModel.partHigh_last (by omega)
  obtain ⟨v, hvn, hlow, hhigh, hend⟩ := SymModel.bisect_ends (m := m) (len := d.drange.toNat)
    (value := d.dvalue.toNat) (fuel := m.n) (a := 0) (b := m.n - 1) (k := m.n / 2)
    (by omega) (by omega) (by omega) (by omega) (by omega) (by omega)
  rw [hfirst, hlast, Nat.sub_add_cancel (by omega)] at hend
  have hpart : InPart (m.partLow v d.drange.toNat) (m.partLen v d.drange.toNat) d.dvalue.toNat :=
    ⟨hlow, by unfold SymModel.partLen; omega⟩
  rw [hend, SymModel.find_eq hm hv hvn hpart]

end Sys2Proof.Machine
end

section
/-! SUPPORT. What the decoder reads (30_encoding.md R94 to R96): each format keeps the fields it uses and
wants the others zero, so that the command read writes the same fields back; and the rows of the opcode
table, of which no two match the same bits. -/

namespace Sys2Proof

/-! ## No bit is ignored -/

/-- The fields with each must-be-zero field of the format at zero (30_encoding.md R92, R94). -/
def Format.kept : Format → Fields → Fields
  | .Z, x => Fields.ofOp x.op
  | .S, x => { Fields.ofOp x.op with idx := x.idx }
  | .SV, x => { Fields.ofOp x.op with idx := x.idx, dw := x.dw }
  | .SN, x => { Fields.ofOp x.op with idx := x.idx, ctx := x.ctx }
  | .V, x => { Fields.ofOp x.op with dw := x.dw }
  | .NV, x => { Fields.ofOp x.op with f := x.f, dw := x.dw }
  | .N, x => { Fields.ofOp x.op with f := x.f }
  | .IC, x => { x with z := 0#8, dw := 0#32 ++ x.dwLow }
  | .IE, x => { Fields.ofOp x.op with idx := x.idx, ctx := x.ctx, dw := x.dwHigh ++ x.dwLow }
  | .ID, x => { Fields.ofOp x.op with idx := x.idx, ctx := x.ctx, dw := 0#32 ++ x.dwLow }

/-- A data word whose upper half is zero is its lower half. -/
theorem Fields.zero_append_dwLow {x : Fields} (h : x.dwHigh = 0#32) : 0#32 ++ x.dwLow = x.dw := by
  rw [← h, x.dw_halves]

/-- What a format accepts has nothing in the fields that the format does not keep (30_encoding.md R94). -/
theorem Format.kept_of_clean {fmt : Format} {x : Fields} (h : fmt.clean x = true) : fmt.kept x = x := by
  obtain ⟨op, f, idx, ctx, g, z, dw⟩ := x
  cases fmt <;> simp only [Format.clean, Bool.and_eq_true, beq_iff_eq] at h
  case IC | ID =>
    rw [Format.kept, Fields.zero_append_dwLow h.2]
    simp [Fields.ofOp, h]
  case IE =>
    rw [Format.kept, Fields.dw_halves]
    simp [Fields.ofOp, h]
  all_goals simp [Format.kept, Fields.ofOp, h]

/-- A command accepted writes the fields it was read from, when it writes what its format keeps. -/
theorem Format.fields_of_accept {fmt : Format} {x : Fields} {i j : Instr} (h : fmt.accept x i = .ok j)
    (hw : i.wellFormed = true) (hf : i.fields = fmt.kept x) : j.wellFormed = true ∧ j.fields = x := by
  obtain ⟨hclean, rfl⟩ := Format.accept_eq_ok.mp h
  exact ⟨hw, hf.trans (Format.kept_of_clean hclean)⟩

/-- A `BIO` write writes the fields it was read from, by its function field. -/
theorem fields_of_decodeBioWrite {x : Fields} {i : Instr} (hop : x.op = 0x10#8)
    (h : decodeBioWrite x = .ok i) : i.wellFormed = true ∧ i.fields = x := by
  obtain ⟨op, f, idx, ctx, g, z, dw⟩ := x
  subst hop
  unfold decodeBioWrite at h
  split at h <;> subst_vars
  case h_8 => cases h
  all_goals exact Format.fields_of_accept h rfl rfl

/-- A `BIO` read writes the fields it was read from, by its function field. -/
theorem fields_of_decodeBioRead {x : Fields} {i : Instr} (hop : x.op = 0x11#8)
    (h : decodeBioRead x = .ok i) : i.wellFormed = true ∧ i.fields = x := by
  obtain ⟨op, f, idx, ctx, g, z, dw⟩ := x
  subst hop
  unfold decodeBioRead at h
  split at h <;> subst_vars
  case h_8 => cases h
  all_goals exact Format.fields_of_accept h rfl rfl

/-- `CSR.RD` writes the fields it was read from; its address is a listed one. -/
theorem fields_of_decodeCsrRead {x : Fields} {i : Instr} (hop : x.op = 0x60#8)
    (h : decodeCsrRead x = .ok i) : i.wellFormed = true ∧ i.fields = x := by
  obtain ⟨op, f, idx, ctx, g, z, dw⟩ := x
  subst hop
  unfold decodeCsrRead at h
  split at h
  case isTrue ha => exact Format.fields_of_accept h ha rfl
  case isFalse => cases h

/-- The opcode map answers commands that write the fields it read (30_encoding.md R95, R96). -/
theorem fields_of_decodeFields {x : Fields} {i : Instr} (h : decodeFields x = .ok i) :
    i.wellFormed = true ∧ i.fields = x := by
  obtain ⟨op, f, idx, ctx, g, z, dw⟩ := x
  unfold decodeFields at h
  split at h <;> subst_vars
  case h_1 => exact fields_of_decodeBioWrite rfl h
  case h_2 => exact fields_of_decodeBioRead rfl h
  case h_25 => exact fields_of_decodeCsrRead rfl h
  case h_26 => cases h
  all_goals exact Format.fields_of_accept h rfl rfl

/-- Encoding takes decoding back (30_encoding.md R94 to R96). -/
theorem encode_of_decode {w : Command} {i : Instr} (h : decode w = .ok i) :
    i.wellFormed = true ∧ encode i = w := by
  obtain ⟨hw, hf⟩ := fields_of_decodeFields h
  exact ⟨hw, by rw [encode, hf, Fields.join_split]⟩

/-- Settles O1: the fields written are the fields read back. -/
theorem decodeOfEncode : Obligations.DecodeOfEncode := fun _ h => decode_encode h

/-- Settles O2: the must-be-zero fields are zero, and the command holds all the others. -/
theorem encodeOfDecode : Obligations.EncodeOfDecode := fun _ _ h => encode_of_decode h

/-! ## The rows of the opcode table -/

open Laws.EncodesInRow in
/-- The bits of every command are of its own row (30_encoding.md R95). -/
theorem row_holds_encode (i : Instr) : i.row.holds (encode i) = true :=
  Instr.rec (motive := Statement)
    bioWr8 bioWr16le bioWr16be bioWr32le bioWr32be bioWr64le bioWr64be
    bioRd8 bioRd16le bioRd16be bioRd32le bioRd32be bioRd64le bioRd64be
    bmInit smCfg smInit
    encInit encSym encBit encBits encFloat encDouble encDone
    decInit decSym decBit decBits decFloat decDouble decDone
    icCfg icInit icEnc icDec icGetk csrRd i

/-- One command of each form, every operand zero, in the order of `Instr`. -/
def forms : List Instr :=
  [.bioWr8 0#64, .bioWr16le 0#64, .bioWr16be 0#64, .bioWr32le 0#64, .bioWr32be 0#64, .bioWr64le 0#64,
    .bioWr64be 0#64, .bioRd8, .bioRd16le, .bioRd16be, .bioRd32le, .bioRd32be, .bioRd64le, .bioRd64be,
    .bmInit 0#16, .smCfg 0#16 0#16, .smInit 0#16, .encInit, .encSym 0#16 0#64, .encBit 0#16 0#64,
    .encBits 0#8 0#64, .encFloat 0#64, .encDouble 0#64, .encDone, .decInit, .decSym 0#16, .decBit 0#16,
    .decBits 0#8, .decFloat, .decDouble, .decDone, .icCfg 0#16 0#8 0#16 0#8 0#32, .icInit 0#16,
    .icEnc 0#16 0#16 0#32 0#32, .icDec 0#16 0#16 0#32, .icGetk 0#16, .csrRd 0#16]

/-- The rows of the opcode table. -/
def rows : List Row := forms.map Instr.row

/-- A command's row does not depend on its operands, and stands in the table at its form's place. -/
theorem rows_getElem? (i : Instr) : rows[i.ctorIdx]? = some i.row := by
  cases i <;> rfl

/-- Rows that match the same bits have patterns that agree under both masks. -/
theorem Row.patterns_agree {r q : Row} {w : Command} (hr : r.holds w = true) (hq : q.holds w = true) :
    r.pattern &&& q.mask = q.pattern &&& r.mask := by
  unfold Row.holds at hr hq
  rw [beq_iff_eq] at hr hq
  rw [← hr, ← hq, BitVec.and_assoc, BitVec.and_assoc, BitVec.and_comm r.mask]

/-- No two rows of the table have patterns that agree under both masks (30_encoding.md R95). -/
theorem rows_apart : ∀ r ∈ rows, ∀ q ∈ rows, r.pattern &&& q.mask = q.pattern &&& r.mask → r = q := by
  decide

/-- The row of every command is in the table. -/
theorem row_mem_rows (i : Instr) : i.row ∈ rows := List.mem_of_getElem? (rows_getElem? i)

/-- Settles O3: the bits read are the bits the command writes, which are of its row; and the rows of the
table are apart. -/
theorem rowsAreDisjoint : Obligations.RowsAreDisjoint := by
  refine ⟨fun w i h => ?_, fun i j w hi hj => ?_⟩
  · obtain ⟨-, rfl⟩ := encode_of_decode h
    exact row_holds_encode i
  · exact rows_apart _ (row_mem_rows i) _ (row_mem_rows j) (Row.patterns_agree hi hj)

/-- Settles O4: the decoder run on each word. -/
theorem wordsDecode : Obligations.WordsDecode := by
  unfold Obligations.WordsDecode
  decide

end Sys2Proof
end

section
/-! SUPPORT. The bit I/O engine (40_bit_io.md): the bytes of a word and the word of bytes, what a `BIO`
write and a `BIO` read do on ports that serve them, and from these the round trip (R123). -/

namespace Sys2Proof.Machine

/-! ## The bytes of a word, and the word of bytes -/

/-- Byte `j` of a word is its bits from `8 * j` on (40_bit_io.md R121). -/
theorem byteAt_toNat (v : Dword) (j : Nat) : byteAt v.toNat j = v.extractLsb' (8 * j) 8 := by
  rw [byteAt, ← Nat.shiftRight_eq_div_pow]
  rfl

/-- The low `nb` bytes of a word in a byte order, each cut out of the word. -/
def wordBytes (o : Order) (nb : Nat) (v : Dword) : List Byte :=
  match o with
  | .little => (List.range nb).map fun j => v.extractLsb' (8 * j) 8
  | .big => (List.range nb).map fun j => v.extractLsb' (8 * (nb - 1 - j)) 8

/-- The bytes the machine writes are those cut out of the word. -/
theorem toBytes_toNat (o : Order) (nb : Nat) (v : Dword) : toBytes o nb v.toNat = wordBytes o nb v := by
  cases o <;> exact List.map_congr_left fun _ _ => byteAt_toNat v _

/-- A byte joined below a number weighs 1, and what is above it 256. -/
theorem toNat_append_byte {w : Nat} (x : BitVec w) (b : Byte) : (x ++ b).toNat = x.toNat * 2 ^ 8 + b.toNat := by
  rw [BitVec.toNat_append, ← Nat.shiftLeft_add_eq_or_of_lt b.isLt, Nat.shiftLeft_eq]

/-- Reading on from the number `x`, most significant byte first, joins the next byte below `x`. -/
theorem valueBigFrom_toNat_cons {w : Nat} (x : BitVec w) (b : Byte) (bs : List Byte) :
    valueBigFrom x.toNat (b :: bs) = valueBigFrom (x ++ b).toNat bs := by
  rw [valueBigFrom, toNat_append_byte]

/-- With no byte left the number read so far is the value. -/
theorem valueBigFrom_nil (acc : Nat) : valueBigFrom acc [] = acc := rfl

/-- The first byte in big-endian order is the number to read on from. -/
theorem ofBytes_big_cons (b : Byte) (bs : List Byte) : ofBytes .big (b :: bs) = valueBigFrom b.toNat bs := by
  rw [ofBytes, valueBigFrom, Nat.zero_mul, Nat.zero_add]

/-- The little-endian value is the big-endian value of the reversed bytes (40_bit_io.md R122). -/
theorem ofBytes_little (bs : List Byte) : ofBytes .little bs = ofBytes .big bs.reverse := by
  rw [ofBytes_big, ← valueLittle_reverse, List.reverse_reverse]
  rfl

/-! ## A write -/

/-- A sink that took a burst was to take the next one. -/
theorem Sink.takesNext_of_write {k k' : Sink} {b : List Byte} (h : Sink.write b k = .ok () k') : k.TakesNext := by
  intro a ha
  unfold Sink.write at h
  split at h
  case h_1 hk => simp [hk] at ha
  case h_2 hk => simpa [hk] using ha.symm
  case h_3 | h_4 => cases h

/-- A `BIO` write of a legal value appends its bytes in one burst and changes nothing else
(40_bit_io.md R121). -/
theorem bioWrite_wrote {s : State} {nb : Nat} {o : Order} {v : Dword} (h0 : s.fault = 0#8)
    (hk : s.sink.TakesNext) (hv : v.toNat < 2 ^ (8 * nb)) :
    bioWrite nb o v s = .next (s.wrote (wordBytes o nb v)).done := by
  have hc : firstFailure [require (decide (v.toNat < 2 ^ (8 * nb))) .operandRange] = none := by
    simp [hv]
  rw [bioWrite, State.command_runs h0 hc, Sink.write_takes hk, toBytes_toNat]
  rfl

/-- A `BIO` write that leaves no fault had a legal value and a sink that took its burst. -/
theorem bioWrite_unfaulted {s t : State} {nb : Nat} {o : Order} {v : Dword} (h0 : s.fault = 0#8)
    (ht : bioWrite nb o v s = .next t) (hf : t.fault = 0#8) :
    v.toNat < 2 ^ (8 * nb) ∧ s.sink.TakesNext := by
  unfold bioWrite at ht
  rcases State.command_cases s _ _ _ with ⟨hne, -⟩ | ⟨-, f, -, he⟩ | ⟨-, hc, d, u, hb, -⟩ |
    ⟨-, -, f, u, -, he⟩ | ⟨-, -, -, he⟩
  · exact absurd h0 hne
  · obtain rfl := Host.Outcome.next.inj (he.symm.trans ht)
    exact absurd hf f.code_ne_zero
  · obtain ⟨_, hw, -⟩ := Run.value_eq_ok.1 hb
    obtain ⟨k, hw, -⟩ := Run.within_eq_ok.1 hw
    exact ⟨by simpa using hc, Sink.takesNext_of_write hw⟩
  · obtain rfl := Host.Outcome.next.inj (he.symm.trans ht)
    exact absurd hf f.code_ne_zero
  · cases he.symm.trans ht

/-- A burst more is its bytes more at the sink. -/
theorem State.wrote_done_bytes (s : State) (burst : List Byte) :
    (s.wrote burst).done.sink.bytes = s.sink.bytes ++ burst := by
  simp [State.wrote, State.done, Sink.bytes]

/-- The bytes found at the sink after a `BIO` write of a legal value are those of the value. -/
theorem bioWrite_bytes {s t : State} {nb : Nat} {o : Order} {v : Dword} {bytes : List Byte} (h0 : s.fault = 0#8)
    (hk : s.sink.TakesNext) (hv : v.toNat < 2 ^ (8 * nb)) (ht : bioWrite nb o v s = .next t)
    (hb : t.sink.bytes = s.sink.bytes ++ bytes) : bytes = toBytes o nb v.toNat := by
  obtain rfl := Host.Outcome.next.inj ((bioWrite_wrote h0 hk hv).symm.trans ht)
  rw [State.wrote_done_bytes] at hb
  rw [toBytes_toNat]
  exact (List.append_cancel_left hb).symm

/-- Settles O24: a write of each width and order. -/
theorem bioWritesItsBytes : Obligations.BioWritesItsBytes := fun _ v h0 hk =>
  ⟨fun hv => bioWrite_wrote (nb := 1) (o := .little) h0 hk hv,
    fun hv => bioWrite_wrote (nb := 2) (o := .little) h0 hk hv,
    fun hv => bioWrite_wrote (nb := 2) (o := .big) h0 hk hv,
    fun hv => bioWrite_wrote (nb := 4) (o := .little) h0 hk hv,
    fun hv => bioWrite_wrote (nb := 4) (o := .big) h0 hk hv,
    bioWrite_wrote (nb := 8) (o := .little) h0 hk v.isLt, bioWrite_wrote (nb := 8) (o := .big) h0 hk v.isLt⟩

/-! ## A read -/

/-- A `BIO` read takes its bytes off the source, returns the number they write, zero-extended, and changes
nothing else (40_bit_io.md R122). -/
theorem bioRead_returned {s : State} {nb w : Nat} {o : Order} {bs : List Byte} {rest : List SrcAnswer}
    {x : BitVec w} (hl : bs.length = nb) (h0 : s.fault = 0#8) (hg : s.src.Gives bs rest)
    (hx : ofBytes o bs = x.toNat) :
    bioRead nb o s = .next ((s.consumed nb rest).returned (x.zeroExtend 64)) := by
  subst hl
  rw [bioRead, State.command_runs h0 rfl, Source.read_gives hg, BitVec.zeroExtend_eq_setWidth,
    ← BitVec.ofNat_toNat, ← hx]
  rfl

/-- A `BIO` read whose bytes fill a whole word returns that word. -/
theorem bioRead_returned_word {s : State} {nb : Nat} {o : Order} {bs : List Byte} {rest : List SrcAnswer}
    {v : Dword} (hl : bs.length = nb) (h0 : s.fault = 0#8) (hg : s.src.Gives bs rest)
    (hx : ofBytes o bs = v.toNat) : bioRead nb o s = .next ((s.consumed nb rest).returned v) := by
  rw [bioRead_returned hl h0 hg hx, BitVec.zeroExtend_eq_setWidth, BitVec.setWidth_eq]

/-- Two bytes are the word of the two joined. -/
theorem ofBytes_big_two (a b : Byte) : ofBytes .big [a, b] = (a ++ b).toNat := by
  simp only [ofBytes_big_cons, valueBigFrom_toNat_cons, valueBigFrom_nil]

/-- Four bytes are the word of the four joined. -/
theorem ofBytes_big_four (a b c d : Byte) : ofBytes .big [a, b, c, d] = (a ++ b ++ c ++ d).toNat := by
  simp only [ofBytes_big_cons, valueBigFrom_toNat_cons, valueBigFrom_nil]

/-- Eight bytes are the word of the eight joined. -/
theorem ofBytes_big_eight (a b c d e f g h : Byte) :
    ofBytes .big [a, b, c, d, e, f, g, h] = (a ++ b ++ c ++ d ++ e ++ f ++ g ++ h).toNat := by
  simp only [ofBytes_big_cons, valueBigFrom_toNat_cons, valueBigFrom_nil]

/-- Settles O25: a read of each width in each order; a little-endian one reads the bytes reversed. -/
theorem bioReadsItsBytes : Obligations.BioReadsItsBytes := by
  intro s b0 b1 b2 b3 b4 b5 b6 b7 rest h0
  exact ⟨fun hg => bioRead_returned (nb := 1) (o := .little) rfl h0 hg rfl,
    fun hg => ⟨bioRead_returned (nb := 2) rfl h0 hg ((ofBytes_little _).trans (ofBytes_big_two b1 b0)),
      bioRead_returned (nb := 2) rfl h0 hg (ofBytes_big_two b0 b1)⟩,
    fun hg => ⟨bioRead_returned (nb := 4) rfl h0 hg ((ofBytes_little _).trans (ofBytes_big_four b3 b2 b1 b0)),
      bioRead_returned (nb := 4) rfl h0 hg (ofBytes_big_four b0 b1 b2 b3)⟩,
    fun hg => ⟨bioRead_returned_word (nb := 8) rfl h0 hg
        ((ofBytes_little _).trans (ofBytes_big_eight b7 b6 b5 b4 b3 b2 b1 b0)),
      bioRead_returned_word (nb := 8) rfl h0 hg (ofBytes_big_eight b0 b1 b2 b3 b4 b5 b6 b7)⟩⟩

/-! ## The round trip -/

/-- The write and the read of one form move the same number of bytes in the same order. -/
theorem exec_bioForm {w : Dword → Instr} {r : Instr}
    (h : (w, r) ∈ [(Instr.bioWr8, Instr.bioRd8), (.bioWr16le, .bioRd16le), (.bioWr16be, .bioRd16be),
      (.bioWr32le, .bioRd32le), (.bioWr32be, .bioRd32be), (.bioWr64le, .bioRd64le),
      (.bioWr64be, .bioRd64be)]) :
    ∃ nb o, (∀ v s, exec (w v) s = bioWrite nb o v s) ∧ ∀ s, exec r s = bioRead nb o s := by
  simp only [List.mem_cons, List.not_mem_nil, or_false, Prod.mk.injEq] at h
  rcases h with ⟨rfl, rfl⟩ | ⟨rfl, rfl⟩ | ⟨rfl, rfl⟩ | ⟨rfl, rfl⟩ | ⟨rfl, rfl⟩ | ⟨rfl, rfl⟩ | ⟨rfl, rfl⟩
  all_goals exact ⟨_, _, fun _ _ => rfl, fun _ => rfl⟩

/-- The two writes of one width move the same number of bytes, one in each order. -/
theorem exec_bioOrders {le be : Dword → Instr}
    (h : (le, be) ∈ [(Instr.bioWr16le, Instr.bioWr16be), (.bioWr32le, .bioWr32be), (.bioWr64le, .bioWr64be)]) :
    ∃ nb, (∀ v s, exec (le v) s = bioWrite nb .little v s) ∧ ∀ v s, exec (be v) s = bioWrite nb .big v s := by
  simp only [List.mem_cons, List.not_mem_nil, or_false, Prod.mk.injEq] at h
  rcases h with ⟨rfl, rfl⟩ | ⟨rfl, rfl⟩ | ⟨rfl, rfl⟩
  all_goals exact ⟨_, fun _ _ => rfl, fun _ _ => rfl⟩

/-- Settles O26: the bytes appended are those of the value, which are read back to it; and the two orders
have the same bytes, from opposite ends. -/
theorem bioRoundTrip : Obligations.BioRoundTrip := by
  refine ⟨fun w r s t s' v bytes rest hm ht h0 hf hb h0' hg => ?_,
    fun le be s t u v little big hm h0 ht hf hu hl hb => ?_⟩
  · obtain ⟨nb, o, hw, hr⟩ := exec_bioForm hm
    rw [hw] at ht
    obtain ⟨hv, hk⟩ := bioWrite_unfaulted h0 ht hf
    obtain rfl := bioWrite_bytes h0 hk hv ht hb
    have value : ofBytes o (toBytes o nb v.toNat) = v.toNat := by rw [ofBytes_toBytes, Nat.mod_eq_of_lt hv]
    rw [hr, length_toBytes]
    exact bioRead_returned_word (length_toBytes o nb v.toNat) h0' hg value
  · obtain ⟨nb, hle, hbe⟩ := exec_bioOrders hm
    rw [hle] at ht
    rw [hbe] at hu
    obtain ⟨hv, hk⟩ := bioWrite_unfaulted h0 ht hf
    rw [bioWrite_bytes h0 hk hv ht hl, bioWrite_bytes h0 hk hv hu hb, toBytes_reverse]

end Sys2Proof.Machine
end

section
/-! SUPPORT. The updates of the models in exact arithmetic (41_models.md R142, R146, R148): no product of
theirs wraps, so each field after an update is a plain number of the fields before it. -/

namespace Sys2Proof.Machine

/-! ## The scale -/

/-- A count times the scale of a total that is no smaller stays within 2^31, so the product does not wrap. -/
theorem mul32_udiv {x total : Nat} (h : x ≤ total) : mul32 x (udiv 0x80000000 total) = x * (2 ^ 31 / total) := by
  have hx : x * (2 ^ 31 / total) ≤ 2 ^ 31 := (Nat.mul_le_mul_right _ h).trans (Nat.mul_div_le _ _)
  exact Nat.mod_eq_of_lt (hx.trans_lt (by decide))

theorem mul32_comm (a b : Nat) : mul32 a b = mul32 b a := by
  rw [mul32, Nat.mul_comm, ← mul32]

/-- The distribution at the scale of the counts' own sum: entry `k` is the share of the counts before `k`
(41_models.md R148). -/
theorem distOf_sum_eq (cs : List Nat) : distOf (udiv 0x80000000 cs.sum) 0 cs =
    (List.range cs.length).map fun k => 2 ^ 31 / cs.sum * (cs.take k).sum / 2 ^ 16 := by
  refine List.ext_getElem (by simp) fun k h _ => ?_
  have hk : k < cs.length := by simpa using h
  rw [← List.getD_eq_getElem _ 0 h, distOf_getD _ _ _ _ hk, Nat.zero_add, mul32_comm, mul32_udiv (sum_take_le cs k),
    Nat.mul_comm]
  simp

/-! ## Binary models -/

/-- Up to the threshold the ageing adds the bits of the period (41_models.md R142). -/
theorem BinModel.age_of_le {m : BinModel} (h : m.cnt + m.cycle ≤ 8192) :
    m.age = { m with cnt := m.cnt + m.cycle } :=
  if_neg (Nat.not_lt.2 h)

/-- Past the threshold the ageing halves both counts and keeps them apart (41_models.md R142). -/
theorem BinModel.age_of_lt {m : BinModel} (h : 8192 < m.cnt + m.cycle) :
    m.age =
      { m with
        c0 := (m.c0 + 1) / 2
        cnt := if (m.c0 + 1) / 2 = (m.cnt + m.cycle + 1) / 2 then (m.cnt + m.cycle + 1) / 2 + 1
          else (m.cnt + m.cycle + 1) / 2 } :=
  if_pos h

/-- The ageing leaves the period. -/
@[simp] theorem BinModel.age_cycle (m : BinModel) : m.age.cycle = m.cycle := by
  rcases Nat.lt_or_ge 8192 (m.cnt + m.cycle) with h | h
  · rw [BinModel.age_of_lt h]
  · rw [BinModel.age_of_le h]

/-- The counts after an update are the aged ones. -/
@[simp] theorem BinModel.update_c0 (m : BinModel) : m.update.c0 = m.age.c0 := rfl
@[simp] theorem BinModel.update_cnt (m : BinModel) : m.update.cnt = m.age.cnt := rfl

@[simp] theorem BinModel.update_cycle (m : BinModel) : m.update.cycle = min (5 * m.cycle / 4) 64 := by
  rw [← m.age_cycle]
  rfl

/-- The probability after an update is the share of the 0 bits (41_models.md R142). -/
theorem BinModel.update_p0 {m : BinModel} (h : m.update.c0 ≤ m.update.cnt) :
    m.update.p0 = m.update.c0 * (2 ^ 31 / m.update.cnt) / 2 ^ 18 :=
  congrArg (· / 2 ^ 18) (mul32_udiv h)

/-- Settles O30: the two cases of the ageing, and the bounds that every update leaves. -/
theorem bmUpdateIsExact : Obligations.BmUpdateIsExact := by
  intro m hzeros hbelow hcnt hmax hcycle hperiod
  obtain ⟨zeros, below, bits, prob, -, -⟩ := BinModel.update_wf hzeros hbelow ⟨hcnt, hmax⟩ ⟨hcycle, hperiod⟩
  have ordered : m.update.c0 < m.update.cnt := Nat.lt_of_add_lt_add_right below
  refine ⟨fun h => ?_, fun h => ?_, BinModel.update_p0 ordered.le, m.update_cycle, rfl, zeros, ordered,
    bits.1, bits.2, prob⟩
  · simp [BinModel.age_of_le h]
  · simp [BinModel.age_of_lt h]

/-! ## M-ary models -/

/-- Up to the threshold the ageing keeps the counts (41_models.md R148). -/
theorem SymModel.age_of_le {m : SymModel} (h : m.total + m.cycle ≤ 32768) :
    m.age = { m with total := m.total + m.cycle } :=
  if_neg (Nat.not_lt.2 h)

/-- Past the threshold the ageing halves every count and sums them anew (41_models.md R148). -/
theorem SymModel.age_of_lt {m : SymModel} (h : 32768 < m.total + m.cycle) :
    m.age =
      { m with count := m.count.map fun c => (c + 1) / 2, total := (m.count.map fun c => (c + 1) / 2).sum } :=
  if_pos h

/-- What the ageing leaves of a model whose counts sum to `total + cycle`: alphabet and period are as they
were, and the total is the sum of the aged counts. -/
theorem SymModel.age_frame {m : SymModel} (hs : m.count.sum = m.total + m.cycle) :
    m.age.n = m.n ∧ m.age.cycle = m.cycle ∧ m.age.count.length = m.count.length ∧
      m.age.total = m.age.count.sum := by
  rcases Nat.lt_or_ge 32768 (m.total + m.cycle) with h | h
  · rw [SymModel.age_of_lt h]
    exact ⟨rfl, rfl, List.length_map _, rfl⟩
  · rw [SymModel.age_of_le h]
    exact ⟨rfl, rfl, rfl, hs.symm⟩

/-- `sm_update` of a model whose counts sum to `total + cycle`, with no wrap (41_models.md R148). -/
theorem SymModel.update_eq {m : SymModel} (hs : m.count.sum = m.total + m.cycle) :
    m.update =
      { n := m.n
        count := m.age.count
        dist := (List.range m.count.length).map fun k => 2 ^ 31 / m.age.count.sum * (m.age.count.take k).sum / 2 ^ 16
        total := m.age.count.sum
        cycle := min (5 * m.cycle / 4) ((m.n + 6) * 8)
        untilUpdate := min (5 * m.cycle / 4) ((m.n + 6) * 8) } := by
  obtain ⟨hn, hcycle, hlen, htotal⟩ := SymModel.age_frame hs
  unfold SymModel.update
  dsimp only
  rw [htotal, distOf_sum_eq, hn, hcycle, hlen]
  rfl

/-- Settles O31: the two cases of the ageing, the exact update, and the bounds that every update leaves. -/
theorem smUpdateIsExact : Obligations.SmUpdateIsExact := by
  intro m hmin hmax hlen hpos hsum htotal hcycle hperiod
  obtain ⟨wf, hn⟩ := SymModel.update_spec ⟨hmin, hmax⟩ hlen hpos hsum htotal ⟨hcycle, hperiod⟩
  have exact_update := SymModel.update_eq hsum
  have rising := wf.rising
  have last := wf.last
  obtain ⟨hlow, hhigh⟩ := wf.totals
  rw [hn] at rising last hlow
  refine ⟨fun h => ?_, fun h => ?_, hn, ?_, wf.table.trans hn, fun k hk => ?_, ?_, rfl, hlow, hhigh, wf.first,
    rising, last⟩
  · simp [exact_update, SymModel.age_of_le h]
  · simp [exact_update, SymModel.age_of_lt h]
  · rw [exact_update]
  · have hk : k < m.count.length := hlen ▸ hk
    simp [SymModel.distAt, exact_update, hk]
  · rw [exact_update]

/-- The canonical initial state in closed form (41_models.md R147). -/
theorem SymModel.fresh_eq {n : Nat} (h : n ≤ 2048) :
    SymModel.fresh n =
      { n := n
        count := List.replicate n 1
        dist := (List.range n).map fun k => 2 ^ 31 / n * k / 2 ^ 16
        total := n
        cycle := (n + 6) / 2
        untilUpdate := (n + 6) / 2 } := by
  have hdist : (List.range n).map (fun k => 2 ^ 31 / n * min k n / 2 ^ 16) =
      (List.range n).map fun k => 2 ^ 31 / n * k / 2 ^ 16 :=
    List.map_congr_left fun k hk => by rw [Nat.min_eq_left (List.mem_range.1 hk).le]
  unfold SymModel.fresh
  rw [SymModel.update_eq (by simp), SymModel.age_of_le (by dsimp only; omega)]
  simpa using hdist

/-! ## Learning -/

/-- A symbol before the last of its period is only counted (42_range_enc.md R176). -/
theorem SymModel.learn_of_lt {m : SymModel} (v : Nat) (h : 1 < m.untilUpdate) :
    m.learn v =
      { m with count := m.count.set v (m.count.getD v 0 + 1), untilUpdate := m.untilUpdate - 1 } :=
  if_neg (Nat.sub_ne_zero_of_lt h)

/-- The last symbol of a period is counted and followed by the update (42_range_enc.md R176). -/
theorem SymModel.learn_of_eq {m : SymModel} (v : Nat) (h : m.untilUpdate = 1) :
    m.learn v =
      SymModel.update { m with count := m.count.set v (m.count.getD v 0 + 1), untilUpdate := 0 } := by
  simp [SymModel.learn, h]

/-- A bit before the last of its period lowers the countdown (42_range_enc.md R177). -/
theorem BinModel.tick_of_lt {m : BinModel} (h : 1 < m.untilUpdate) :
    m.tick = { m with untilUpdate := m.untilUpdate - 1 } :=
  if_neg (Nat.sub_ne_zero_of_lt h)

/-- The last bit of a period is followed by the update (42_range_enc.md R177). -/
theorem BinModel.tick_of_eq {m : BinModel} (h : m.untilUpdate = 1) :
    m.tick = BinModel.update { m with untilUpdate := 0 } := by
  simp [BinModel.tick, h]

/-- Of a bit only a 0 is counted; the countdown takes either (42_range_enc.md R177). -/
theorem BinModel.learn_eq_tick (m : BinModel) {b : Nat} (hb : b < 2) :
    m.learn b = BinModel.tick { m with c0 := m.c0 + (1 - b) } := by
  obtain rfl | rfl : b = 0 ∨ b = 1 := by omega
  · rfl
  · rfl

/-- Settles O32: before and at the end of a period, for a symbol and for a bit. -/
theorem modelsLearn : Obligations.ModelsLearn := by
  refine ⟨fun m v wf hv => ⟨SymModel.learn_of_lt v, SymModel.learn_of_eq v, SymModel.learn_wf wf hv⟩,
    fun m b wf hb => ?_⟩
  have counted := BinModel.learn_eq_tick m hb
  exact ⟨fun h => counted.trans (BinModel.tick_of_lt h), fun h => counted.trans (BinModel.tick_of_eq h),
    BinModel.learn_wf wf b⟩

end Sys2Proof.Machine
end

section
/-! SUPPORT. The model commands (41_models.md R141, R144, R145): each writes one slot and completes. -/

namespace Sys2Proof.Machine

/-- `BM.INIT` writes the canonical initial state (41_models.md R141). -/
theorem exec_bmInit {s : State} {idx : Index} (h0 : s.fault = 0#8) (hx : idx.toNat < s.params.nBm) :
    exec (.bmInit idx) s = .next (s.withBin idx.toNat BinModel.fresh).done :=
  State.command_runs h0 (by simp [State.binIndex, hx]) _ _

/-- `SM.CFG` writes the canonical initial state of the alphabet it names (41_models.md R144). -/
theorem exec_smCfg {s : State} {idx : Index} {n : BitVec 16} (h0 : s.fault = 0#8) (hx : idx.toNat < s.params.nSm)
    (hmin : 2 ≤ n.toNat) (hmax : n.toNat ≤ 2048) :
    exec (.smCfg idx n) s = .next (s.withSym idx.toNat (SymModel.fresh n.toNat)).done :=
  State.command_runs h0 (by simp [State.symIndex, hx, hmin, hmax]) _ _

/-- `SM.INIT` writes the canonical initial state of the alphabet the slot has (41_models.md R145). -/
theorem exec_smInit {s : State} {idx : Index} {m : SymModel} (h0 : s.fault = 0#8) (hx : idx.toNat < s.params.nSm)
    (hm : SlotFile.slot? s.sm idx.toNat = some m) :
    exec (.smInit idx) s = .next (s.withSym idx.toNat (SymModel.fresh m.n)).done := by
  have alphabet : s.symAt idx = m := by simp [State.symAt, hm]
  rw [← alphabet]
  exact State.command_runs h0 (by simp [State.symIndex, State.symValid, hx, hm]) _ _

/-- A binary-model slot that a command has written reads back as it was written. -/
theorem slot?_of_withBin {s t : State} {i : Nat} {m : BinModel} {o : Host.Outcome State Fault Refusal}
    (ho : o = .next (s.withBin i m).done) (ht : o = .next t) : SlotFile.slot? t.bm i = some m := by
  obtain rfl := Host.Outcome.next.inj (ho.symm.trans ht)
  exact SlotFile.slot?_put_self i m s.bm

/-- An m-ary slot that a command has written reads back as it was written. -/
theorem slot?_of_withSym {s t : State} {i : Nat} {m : SymModel} {o : Host.Outcome State Fault Refusal}
    (ho : o = .next (s.withSym i m).done) (ht : o = .next t) : SlotFile.slot? t.sm i = some m := by
  obtain rfl := Host.Outcome.next.inj (ho.symm.trans ht)
  exact SlotFile.slot?_put_self i m s.sm

/-- Settles O27: `BinModel.fresh` is the state R141 names. -/
theorem bmInitResets : Obligations.BmInitResets := fun _ _ h0 hx =>
  ⟨exec_bmInit h0 hx, fun _ => slot?_of_withBin (exec_bmInit h0 hx)⟩

/-- Settles O28: the slot written, with the closed form of the canonical initial state. -/
theorem smCfgConfigures : Obligations.SmCfgConfigures := by
  intro s idx n h0 hx hmin hmax
  rw [← SymModel.fresh_eq hmax]
  exact ⟨exec_smCfg h0 hx hmin hmax, fun _ => slot?_of_withSym (exec_smCfg h0 hx hmin hmax)⟩

/-- Settles O29: the slot written has the alphabet it had, which is one that `SM.CFG` takes. -/
theorem smInitReconfigures : Obligations.SmInitReconfigures := by
  intro s idx m h0 hx hm wf
  obtain ⟨hmin, hmax⟩ := wf.alphabet
  have alphabet : (BitVec.ofNat 16 m.n).toNat = m.n := by
    rw [BitVec.toNat_ofNat, Nat.mod_eq_of_lt (by omega)]
  have init := exec_smInit h0 hx hm
  have cfg := exec_smCfg (n := BitVec.ofNat 16 m.n) h0 hx (alphabet.symm ▸ hmin) (alphabet.symm ▸ hmax)
  rw [alphabet] at cfg
  have same := init.trans cfg.symm
  rw [SymModel.fresh_eq hmax] at init
  exact ⟨init, fun t ht => ⟨_, slot?_of_withSym init ht, rfl, rfl, rfl⟩, same⟩

end Sys2Proof.Machine
end

section
/-! SUPPORT. The parts of an interval (41_models.md R143, R149; 42_range_enc.md R188): those of distinct
values follow one another in the order of the values. -/

namespace Sys2Proof.Machine

/-- A symbol's part has a length and ends at its upper end. -/
theorem SymModel.partLen_spec {m : SymModel} (h : m.Wf) {v len : Nat} (hv : v < m.n) (hl : 2 ^ 24 ≤ len) :
    0 < m.partLen v len ∧ m.partLow v len + m.partLen v len = m.partHigh v len := by
  obtain ⟨hlow, -⟩ := SymModel.part_inside h hv hl
  unfold SymModel.partLen
  omega

/-- A symbol's part ends no later than the part of a greater symbol begins. -/
theorem SymModel.partHigh_le_partLow {m : SymModel} (h : m.Wf) {a b len : Nat} (hab : a < b) (hb : b < m.n) :
    m.partHigh a len ≤ m.partLow b len := by
  have rises : m.distAt (a + 1) ≤ m.distAt b := by
    obtain rfl | hlt := Nat.eq_or_lt_of_le (show a + 1 ≤ b from hab)
    · exact le_rfl
    · exact (h.rises hlt hb).le
  rw [SymModel.partHigh_eq_partLow_succ (by omega)]
  exact Nat.mul_le_mul_right _ rises

/-- Parts of one length, each behind the one before. -/
theorem mul_add_self_le_mul {a b : Nat} (h : a < b) (part : Nat) : a * part + part ≤ b * part := by
  rw [← Nat.succ_mul]
  exact Nat.mul_le_mul_right part h

/-- Settles O41, by the kind of step. -/
theorem partsAreDisjoint : Obligations.PartsAreDisjoint := by
  refine ⟨fun m a b len wf hab hb hl => ?_, fun m len wf hl => ?_, fun n a b len _ hn hab hb hl => ?_⟩
  · obtain ⟨posA, endA⟩ := SymModel.partLen_spec wf (hab.trans hb) hl
    obtain ⟨posB, endB⟩ := SymModel.partLen_spec wf hb hl
    obtain ⟨-, inside⟩ := SymModel.part_inside wf hb hl
    rw [endA, endB]
    exact ⟨posA, SymModel.partHigh_le_partLow wf hab hb, posB, inside⟩
  · have split := BinModel.split_inside wf.prob hl
    simp only [BinModel.partLow, BinModel.partLen, if_true, if_neg Nat.one_ne_zero, true_and]
    omega
  · have narrow : 2 ^ n ≤ len := (Nat.pow_le_pow_right (by decide) (hn.trans (by decide))).trans hl
    have all : 2 ^ n * (len / 2 ^ n) ≤ len := Nat.mul_div_le _ _
    exact ⟨Nat.div_pos narrow (Nat.two_pow_pos n), mul_add_self_le_mul hab _, (mul_add_self_le_mul hb _).trans all⟩

end Sys2Proof.Machine
end

section
/-! SUPPORT. That a step answers a next state (42_range_enc.md R178, R188; 43_range_dec.md R215): no outcome
of `exec_cases` but the loop that never ends stops the machine, and from a sound state no body takes it. -/

namespace Sys2Proof.Machine

/-- Bits that are no command are answered. -/
theorem State.illegalCommand_next (s : State) : ∃ t, s.illegalCommand = .next t := by
  unfold State.illegalCommand
  split <;> exact ⟨_, rfl⟩

/-- `CSR.RD` is answered, at a listed address and at any other. -/
theorem exec_csrRd_next (s : State) (a : Index) : ∃ t, exec (.csrRd a) s = .next t := by
  cases hc : Csr.ofAddress a with
  | some c => exact ⟨_, exec_csrRd hc⟩
  | none =>
    obtain ⟨t, ht⟩ := s.illegalCommand_next
    exact ⟨t, by simpa [exec, execCsrRd, hc] using ht⟩

/-- From a state in the invariant every command is answered: its loops end. -/
theorem State.Inv.exec_next {s : State} (h : s.Inv) (i : Instr) : ∃ t, exec i s = .next t := by
  by_cases hi : ∃ a, i = .csrRd a
  · obtain ⟨a, rfl⟩ := hi
    exact exec_csrRd_next s a
  have hi : ∀ a, i ≠ .csrRd a := fun a ha => hi ⟨a, ha⟩
  rcases exec_cases s i hi with ⟨-, he⟩ | ⟨-, f, -, he⟩ | ⟨-, -, d, u, -, -, he⟩ |
    ⟨-, -, f, u, -, -, -, he⟩ | ⟨h0, hc, hb, -⟩
  · exact ⟨_, he⟩
  · exact ⟨_, he⟩
  · exact ⟨_, he⟩
  · exact ⟨_, he⟩
  · exact absurd hb (bodyOf_sound hi (h.sound h0) hc).1

/-- Bits presented are answered, whether they are a command or not. -/
theorem State.Inv.present_next {s : State} (h : s.Inv) (w : Command) : ∃ t, s.present w = .next t := by
  unfold State.present
  split
  · exact h.exec_next _
  · exact s.illegalCommand_next

/-- A command abandoned is answered: its run on the ports that are cut off ends, and so does its whole run
(70_reset_and_hazards.md R300). -/
theorem State.Inv.abandon_next {s : State} (h : s.Inv) (w : Command) (n : Nat) :
    ∃ t, s.abandon w n = .next t := by
  unfold State.abandon
  split
  · rename_i i _
    obtain ⟨v, hv⟩ := (h.cut n (bytesRead i n)).exec_next i
    obtain ⟨u, hu⟩ := h.exec_next i
    unfold State.abandonCommand State.abandonWhole
    rw [hv, hu]
    dsimp only
    split_ifs <;> exact ⟨_, rfl⟩
  · exact ⟨_, rfl⟩

/-- Every event of the environment is answered. -/
theorem State.Inv.take_next {s : State} (h : s.Inv) (e : PortEvent) : ∃ t, s.take e = .next t := by
  cases e with
  | command w => exact h.present_next w
  | reset => exact ⟨_, rfl⟩
  | abandoned w n => exact h.abandon_next w n
  | seek answers => exact ⟨_, rfl⟩

/-- Settles O12, by the event the port presents. -/
theorem stepNeverStops : Obligations.StepNeverStops := by
  intro s h
  cases hp : s.port with
  | nil => exact ⟨s, step_of_idle hp⟩
  | cons e rest =>
    rw [step_of_event hp]
    have h1 : ({ s with port := rest } : State).Inv := h.of_eq rfl rfl rfl rfl rfl rfl rfl
    exact h1.take_next e

end Sys2Proof.Machine
end

section
/-! SUPPORT. A command whose outcome is known: its state after a body that completes, and, the other way
round, what a command that left no fault must have been (60_exceptions.md R275 to R278). -/

namespace Sys2Proof.Machine

/-- A command whose checks hold and whose body completes, completes. -/
theorem exec_completes {s u : State} {i : Instr} {d : Option Dword} (hi : ∀ a, i ≠ .csrRd a)
    (h0 : s.fault = 0#8) (hc : firstFailure (checksOf s i) = none) (hb : bodyOf s i = .ok d u) :
    exec i s = .next (u.complete d) := by
  rw [exec_command s i hi, State.command_runs h0 hc, hb]
  rfl

/-- A command that leaves no fault found none, passed its checks, and completed its body. -/
theorem exec_unfaulted {s t : State} {i : Instr} (hi : ∀ a, i ≠ .csrRd a) (ht : exec i s = .next t)
    (hf : t.fault = 0#8) :
    s.fault = 0#8 ∧ firstFailure (checksOf s i) = none ∧
      ∃ d u, bodyOf s i = .ok d u ∧ Kept i s u ∧ t = u.complete d := by
  rcases exec_cases s i hi with ⟨hne, he⟩ | ⟨-, f, -, he⟩ | ⟨h0, hc, d, u, hb, hk, he⟩ |
    ⟨-, -, f, u, -, -, -, he⟩ | ⟨-, -, -, he⟩
  · obtain rfl := Host.Outcome.next.inj (he.symm.trans ht)
    exact absurd hf hne
  · obtain rfl := Host.Outcome.next.inj (he.symm.trans ht)
    exact absurd hf f.code_ne_zero
  · exact ⟨h0, hc, d, u, hb, hk, Host.Outcome.next.inj (ht.symm.trans he)⟩
  · obtain rfl := Host.Outcome.next.inj (he.symm.trans ht)
    exact absurd hf f.code_ne_zero
  · cases he.symm.trans ht

/-- What a body over a part of the state did, when its command completed. -/
theorem Run.value_within_eq_ok {σ τ α β : Type} {m : Run σ α} {g : σ → τ} {k : α → β} {b : β} {t : τ}
    (h : (m.within g).value k = .ok b t) : ∃ a s, m = .ok a s ∧ b = k a ∧ t = g s := by
  obtain ⟨a, hw, rfl⟩ := Run.value_eq_ok.1 h
  obtain ⟨s, hm, rfl⟩ := Run.within_eq_ok.1 hw
  exact ⟨a, s, hm, rfl, rfl⟩

end Sys2Proof.Machine
end

section
/-! SUPPORT. The encoder's commands on a sink that accepts (42_range_enc.md R175 to R184): each completes with
the exact steps of its body (`Rce.sym_spec`, `Rce.bits_spec`, `Rce.done_spec`). -/

namespace Sys2Proof.Machine

/-- On a sink that accepts, what ends well or with an io-error ends well. -/
theorem Rce.Ends.accepting {σ : Type} {r : Rce} {m : Run σ Unit} {post : σ → Prop} (h : r.Ends m post)
    (ha : r.sink.Accepting) : ∃ t, m = .ok () t ∧ post t :=
  h.resolve_right fun ⟨_, _, hn⟩ => hn ha

/-! ## The stage (42_range_enc.md R172, R173) -/

/-- A byte shifted into an empty stage is staged. -/
theorem Rce.shiftOut_of_empty {b : Byte} {r : Rce} (h : r.enc.cacheValid = false) :
    r.shiftOut b = .ok () { r with enc := { r.enc with cache := b, cacheValid := true } } := by
  simp [Rce.shiftOut, h]

/-- A byte 0xFF behind a staged byte is pending. -/
theorem Rce.shiftOut_of_ff {r : Rce} (h : r.enc.cacheValid = true) :
    r.shiftOut 0xFF#8 = .ok () { r with enc := { r.enc with pending := r.enc.pending + 1 } } := by
  simp [Rce.shiftOut, h]

/-- The stage's registers after a byte shifted out. -/
theorem Rce.shiftOut_registers {b : Byte} {r r' : Rce} (hs : r.enc.cacheValid = false → r.enc.pending = 0)
    (h : r.shiftOut b = .ok () r') (shifted : Rce.Shifted b r r') :
    (r.enc.cacheValid = false → r'.enc.cache = b ∧ r'.enc.pending = 0) ∧
      (r.enc.cacheValid = true → b = 0xFF#8 →
        r'.enc.cache = r.enc.cache ∧ r'.enc.pending = r.enc.pending + 1) ∧
      (r.enc.cacheValid = true → b ≠ 0xFF#8 → r'.enc.cache = b ∧ r'.enc.pending = 0) := by
  refine ⟨fun hv => ?_, fun hv hb => ?_, fun hv hb => (shifted.alone hv hb).symm⟩
  · rw [Rce.shiftOut_of_empty hv] at h
    cases h
    exact ⟨rfl, hs hv⟩
  · rw [hb, Rce.shiftOut_of_ff hv] at h
    cases h
    exact ⟨rfl, rfl⟩

/-- The stage's registers after a carry. -/
theorem Rce.carry_registers {r r' : Rce} (h : r.carry = .ok () r') :
    r'.enc.pending = 0 ∧ (r.enc.pending = 0 → r'.enc.cache = r.enc.cache + 1#8) ∧
      (0 < r.enc.pending → r'.enc.cache = 0x00#8) := by
  unfold Rce.carry at h
  dsimp only at h
  split_ifs at h with hp
  · cases h
    exact ⟨hp, fun _ => rfl, fun hn => absurd hp hn.ne'⟩
  · obtain ⟨_, r2, -, h2⟩ := Run.bind_eq_ok.1 h
    cases h2
    exact ⟨rfl, fun h0 => absurd h0 hp, fun _ => rfl⟩

/-- The reference's carry, from the last byte written on (42_range_enc.md R185). -/
theorem carryWalk_concat (bs : List Byte) (b : Byte) :
    carryWalk (bs ++ [b]) = if b = 0xFF#8 then carryWalk bs ++ [0x00#8] else bs ++ [b + 1#8] := by
  unfold carryWalk
  rw [List.reverse_append, List.reverse_singleton, List.singleton_append, walkBack]
  split_ifs <;> simp

/-- The walk back adds 1 to the number the bytes write, where a byte can take the carry. -/
theorem carryWalk_adds_one {bs : List Byte} (h : ∃ b ∈ bs, b ≠ 0xFF#8) :
    (carryWalk bs).length = bs.length ∧ bigEndian (carryWalk bs) = bigEndian bs + 1 := by
  induction bs using List.reverseRecOn with
  | nil => simp at h
  | append_singleton bs b ih =>
    rw [carryWalk_concat]
    split_ifs with hb
    · subst hb
      obtain ⟨hl, hn⟩ := ih (by simpa using h)
      refine ⟨by simp [hl], ?_⟩
      rw [bigEndian_append, bigEndian_append, hn]
      simp [bigEndian_cons]
      omega
    · refine ⟨by simp, ?_⟩
      have hlt : b.toNat ≠ 255 := fun he => hb (BitVec.eq_of_toNat_eq he)
      have hadd : (b + 1#8).toNat = b.toNat + 1 := by
        have := b.isLt
        simp only [BitVec.toNat_add, BitVec.toNat_ofNat]
        omega
      rw [bigEndian_append, bigEndian_append]
      simp [bigEndian_cons, hadd]
      omega

/-- Settles O40: the stream after a carry is as long as the walk back leaves it and writes the same number. -/
theorem stageDefersTheCarry : Obligations.StageDefersTheCarry := by
  refine ⟨fun r b room stage hk => ?_, fun r room hv hc hk => ?_⟩
  · obtain ⟨r', hr, shifted⟩ := (Rce.shiftOut_spec b ⟨room, stage⟩).accepting hk
    exact ⟨r', hr, shifted.stream, shifted.valid, Rce.shiftOut_registers stage hr shifted⟩
  · obtain ⟨r', hr, carried⟩ := (Rce.carry_spec ⟨room, by simp [hv]⟩ hv hc).accepting hk
    have takes : ∃ b ∈ r.stream, b ≠ 0xFF#8 := ⟨r.enc.cache, by simp [Rce.stream, Encoder.staged, hv], hc⟩
    obtain ⟨hl, hn⟩ := carryWalk_adds_one takes
    exact ⟨r', hr, bigEndian_inj (carried.length.trans hl.symm) (carried.number.trans hn.symm), carried.valid,
      Rce.carry_registers hr⟩

/-! ## The start -/

/-- `ENC.INIT` starts a chunk, where none is active (42_range_enc.md R175). -/
theorem exec_encInit {s : State} (h0 : s.fault = 0#8) (ha : s.enc.active = false) :
    exec .encInit s = .next ({ s with enc := Encoder.start } : State).done :=
  State.command_runs h0 (by simp [State.encoderOff, ha]) _ _

/-- Settles O34: the registers of `Encoder.start` are those of R175. -/
theorem encInitStarts : Obligations.EncInitStarts := fun _ h0 ha => exec_encInit h0 ha

/-! ## Coding commands -/

/-- An encoder command without a slot completes as its body does. -/
theorem exec_encoder {s : State} {i : Instr} {m : Run Rce Unit} {post : Rce → Prop} (hi : ∀ a, i ≠ .csrRd a)
    (h0 : s.fault = 0#8) (hc : firstFailure (checksOf s i) = none)
    (hb : bodyOf s i = (m.within s.withRce).value fun _ => none) (hm : s.rce.Ends m post)
    (hk : s.sink.Accepting) :
    ∃ r : Rce, post r ∧ exec i s = .next ({ s with enc := r.enc, sink := r.sink } : State).done := by
  obtain ⟨r, hr, hp⟩ := hm.accepting hk
  rw [hr] at hb
  exact ⟨r, hp, exec_completes hi h0 hc hb⟩

/-- Settles O35: the part of the interval is that of `Rce.sym_spec`. -/
theorem encSymCodesASymbol : Obligations.EncSymCodesASymbol := by
  intro s idx v m h0 ho hk hx hm wf hv
  have slot : s.symAt idx = m := by simp [State.symAt, hm]
  have hc : firstFailure (checksOf s (.encSym idx v)) = none := by
    simp [checksOf, State.encoderOn, State.symIndex, State.symValid, ho.active, hx, hm, slot, hv]
  obtain ⟨⟨r, m'⟩, hr, coded, rfl⟩ := (Rce.sym_spec (r := s.rce) wf hv ho).accepting hk
  have hb : bodyOf s (.encSym idx v) = .ok none ((s.withRce r).withSym idx.toNat (m.learn v.toNat)) := by
    simp [bodyOf, slot, hr]
  have done := exec_completes (fun _ => by simp) h0 hc hb
  exact ⟨r, coded, done, fun t ht => slot?_of_withSym done ht⟩

/-- Settles O36: the part of the interval is that of `Rce.bit_spec`. -/
theorem encBitCodesABit : Obligations.EncBitCodesABit := by
  intro s idx v m h0 ho hk hx hm wf hv
  have slot : s.binAt idx = m := by simp [State.binAt, hm]
  have hc : firstFailure (checksOf s (.encBit idx v)) = none := by
    simp [checksOf, State.encoderOn, State.binIndex, State.binValid, ho.active, hx, hm, hv]
  obtain ⟨⟨r, m'⟩, hr, coded, rfl⟩ := (Rce.bit_spec (r := s.rce) wf v.toNat ho).accepting hk
  have hb : bodyOf s (.encBit idx v) = .ok none ((s.withRce r).withBin idx.toNat (m.learn v.toNat)) := by
    simp [bodyOf, slot, hr]
  have done := exec_completes (fun _ => by simp) h0 hc hb
  exact ⟨r, coded, done, fun t ht => slot?_of_withBin done ht⟩

/-- The literals of `ENC.FLOAT` (42_range_enc.md R182). -/
theorem Rce.float_spec (v : Nat) {r : Rce} (h : r.enc.Open) :
    r.Ends (Rce.halves [half v 0, half v 1] r) (Rce.CodesLiterals (halfParts 2 v) r) := by
  rw [← halfParts_two]
  exact Rce.halves_spec h (by simp only [List.forall_mem_cons, half_lt, true_and]; simp)

/-- The literals of `ENC.DOUBLE` (42_range_enc.md R183). -/
theorem Rce.double_spec (v : Nat) {r : Rce} (h : r.enc.Open) :
    r.Ends (Rce.halves [half v 0, half v 1, half v 2, half v 3] r) (Rce.CodesLiterals (halfParts 4 v) r) := by
  rw [← halfParts_four]
  exact Rce.halves_spec h (by simp only [List.forall_mem_cons, half_lt, true_and]; simp)

/-- Settles O37, by the command. -/
theorem encLiteralsCodeTheirValue : Obligations.EncLiteralsCodeTheirValue := by
  intro s n v h0 ho hk
  refine ⟨fun hn1 hn hv => ?_, fun hv => ?_, ?_⟩
  · exact exec_encoder (i := .encBits n v) (fun _ => by simp) h0
      (by simp [checksOf, State.encoderOn, ho.active, hn1, hn, hv]) rfl (Rce.bits_spec ho hn hv) hk
  · exact exec_encoder (i := .encFloat v) (fun _ => by simp) h0
      (by simpa [checksOf, State.encoderOn, ho.active] using hv) rfl (Rce.float_spec v.toNat ho) hk
  · exact exec_encoder (i := .encDouble v) (fun _ => by simp) h0
      (by simp [checksOf, State.encoderOn, ho.active]) rfl (Rce.double_spec v.toNat ho) hk

/-! ## The end -/

/-- Settles O38: the end of the chunk is that of `Rce.done_spec`. -/
theorem encDoneEndsTheChunk : Obligations.EncDoneEndsTheChunk := fun _ h0 ho hk =>
  exec_encoder (i := .encDone) (fun _ => by simp) h0 (by simp [checksOf, State.encoderOn, ho.active]) rfl
    (Rce.done_spec ho) hk

/-- A renormalisation that one byte ends, with an empty stage (42_range_enc.md R172, R178). -/
theorem Rce.renorm_of_empty {r : Rce} {low range : Word} {b : Byte} (hv : r.enc.cacheValid = false)
    (hb : r.topByte = b) (hl : r.enc.low <<< 8 = low) (hr : r.enc.range <<< 8 = range)
    (h : Config.top ≤ range.toNat) :
    r.renorm = .ok ()
      { r with enc := { r.enc with low := low, range := range, cache := b, cacheValid := true } } := by
  subst hb hl hr
  rw [Rce.renorm, Rce.renormTurns, Rce.shiftOut_of_empty hv, Run.bind_ok]
  exact if_pos h

/-- An empty chunk before its stage is drained: three bytes are buffered and one is staged. -/
theorem Rce.empty_finalBytes (k : Sink) :
    Rce.finalBytes { enc := Encoder.start, sink := k } =
      .ok ()
        { enc :=
            { Encoder.start with
              range := 0x80000000#32, cacheValid := true, outBuf := [0x01#8, 0x00#8, 0x00#8] }
          sink := k } := by
  have large : 2 * Config.top < Encoder.start.range.toNat := by decide
  have raised : Rce.add 0x01000000#32 { enc := Encoder.start, sink := k } =
      .ok () { enc := { Encoder.start with low := 0x01000000#32 }, sink := k } := by
    simp [Rce.add, carry32, Encoder.start]
  have shifted : Rce.renorm
      { enc := { Encoder.start with low := 0x01000000#32, range := 0x00800000#32 }, sink := k } =
      .ok ()
        { enc :=
            { Encoder.start with low := 0#32, range := 0x80000000#32, cache := 0x01#8, cacheValid := true }
          sink := k } :=
    Rce.renorm_of_empty rfl (by decide : (0x01000000#32).extractLsb' 24 8 = 0x01#8)
      (by decide : (0x01000000#32 : Word) <<< 8 = 0#32) (by decide : (0x00800000#32 : Word) <<< 8 = 0x80000000#32)
      (by decide : Config.top ≤ (0x80000000#32).toNat)
  have padded : Rce.pad 3
      { enc := { Encoder.start with low := 0#32, range := 0x80000000#32, cache := 0x01#8, cacheValid := true }
        sink := k } =
      .ok ()
        { enc :=
            { Encoder.start with
              range := 0x80000000#32, cacheValid := true, outBuf := [0x01#8, 0x00#8, 0x00#8] }
          sink := k } := by
    simp [Rce.pad, Rce.shiftOut, Rce.putBytes, Rce.putByte, Encoder.start]
  rw [Rce.finalBytes, if_pos large, raised, Run.bind_ok]
  exact (congrArg (Run.bind · _) shifted).trans padded

/-- The encoder and the sink after an empty chunk (42_range_enc.md R184). -/
def Rce.emptyChunk (k : Sink) : Rce :=
  { enc := { Encoder.start with range := 0x80000000#32, active := false }
    sink := { k with answers := k.answers.tail }.took [0x01#8, 0x00#8, 0x00#8, 0x00#8] }

/-- The end of an empty chunk: its four bytes in one burst. -/
theorem Rce.empty_done {k : Sink} (hk : k.TakesNext) :
    Rce.done { enc := Encoder.start, sink := k } = .ok () (Rce.emptyChunk k) := by
  rw [Rce.done, Rce.empty_finalBytes]
  simp [Rce.emptyChunk, Rce.drain, Encoder.start, Rce.putBytes, Rce.putByte, Rce.close, Rce.flush,
    Sink.write_takes hk]

/-- The body of `ENC.DONE`, when the chunk ends well. -/
theorem bodyOf_encDone {s : State} {r : Rce} (h : s.rce.done = .ok () r) :
    bodyOf s .encDone = .ok none (s.withRce r) := by
  simp [bodyOf, h]

/-- Settles O39: the two commands one after the other. -/
theorem emptyChunk : Obligations.EmptyChunk := fun s h0 ha hk =>
  ⟨_, _, exec_encInit h0 ha,
    exec_completes (fun _ => by simp) h0 rfl
      (bodyOf_encDone (s := ({ s with enc := Encoder.start } : State).done) (Rce.empty_done hk)),
    rfl, rfl, rfl, rfl⟩
end Sys2Proof.Machine
end

section
/-! SUPPORT. One symbol or bit on both sides (41_models.md R152, 43_range_dec.md R212): the two coders adapt a
model by the same function, and the decoder takes the step the encoder took. -/

namespace Sys2Proof.Machine

/-! ## How a model adapts -/

/-- A bit coded adapts its model by `BinModel.learn` (42_range_enc.md R177). -/
theorem Rce.bit_learns {b : Nat} {m : BinModel} {r : Rce} {u : Unit} {p : Rce × BinModel}
    (h : r.bit b m = .ok u p) : p.2 = m.learn b := by
  unfold Rce.bit at h
  dsimp only at h
  split_ifs at h with hb <;>
  · obtain ⟨_, p1, hw, hp⟩ := Run.bind_eq_ok.1 h
    obtain ⟨_, -, rfl⟩ := Run.within_eq_ok.1 hw
    cases hp
    simp [BinModel.learn, hb]

/-- A symbol coded adapts its model by `SymModel.learn` (42_range_enc.md R176). -/
theorem Rce.sym_learns {v : Nat} {m : SymModel} {r : Rce} {u : Unit} {p : Rce × SymModel}
    (h : r.sym v m = .ok u p) : p.2 = m.learn v := by
  obtain ⟨_, p1, hw, hp⟩ := Run.bind_eq_ok.1 h
  obtain ⟨_, -, rfl⟩ := Run.within_eq_ok.1 hw
  cases hp
  rfl

/-- A bit decoded adapts its model by `BinModel.learn` (43_range_dec.md R205). -/
theorem Rcd.bit_learns {b : Nat} {m : BinModel} {r : Rcd} {p : Rcd × BinModel} (h : r.bit m = .ok b p) :
    b < 2 ∧ p.2 = m.learn b := by
  unfold Rcd.bit at h
  dsimp only at h
  split_ifs at h <;>
  · obtain ⟨_, p1, hw, hp⟩ := Run.bind_eq_ok.1 h
    obtain ⟨_, -, rfl⟩ := Run.within_eq_ok.1 hw
    cases hp
    exact ⟨by decide, rfl⟩

/-- A symbol decoded is the one the search finds, and adapts its model by `SymModel.learn`
(43_range_dec.md R203). -/
theorem Rcd.sym_learns {v : Nat} {m : SymModel} {r : Rcd} {p : Rcd × SymModel} (h : r.sym m = .ok v p) :
    r.dec.inside = true ∧ v = m.find r.dec ∧ p.2 = m.learn v := by
  unfold Rcd.sym at h
  split_ifs at h with hin
  obtain ⟨_, p1, hw, hp⟩ := Run.bind_eq_ok.1 h
  obtain ⟨_, -, rfl⟩ := Run.within_eq_ok.1 hw
  cases hp
  exact ⟨hin, rfl, rfl⟩

/-- The slot an `ENC.BIT` without a fault leaves. -/
theorem encBit_slot {s s' : State} {idx : Index} {b : Dword} (h : exec (.encBit idx b) s = .next s')
    (hf : s'.fault = 0#8) : SlotFile.slot? s'.bm idx.toNat = some ((s.binAt idx).learn b.toNat) := by
  obtain ⟨-, -, d, u, hb, -, rfl⟩ := exec_unfaulted (fun _ => by simp) h hf
  obtain ⟨_, p, hp, rfl, rfl⟩ := Run.value_within_eq_ok hb
  simp [Rce.bit_learns hp]

/-- The slot an `ENC.SYM` without a fault leaves. -/
theorem encSym_slot {s s' : State} {idx : Index} {v : Dword} (h : exec (.encSym idx v) s = .next s')
    (hf : s'.fault = 0#8) : SlotFile.slot? s'.sm idx.toNat = some ((s.symAt idx).learn v.toNat) := by
  obtain ⟨-, -, d, u, hb, -, rfl⟩ := exec_unfaulted (fun _ => by simp) h hf
  obtain ⟨_, p, hp, rfl, rfl⟩ := Run.value_within_eq_ok hb
  simp [Rce.sym_learns hp]

/-- The slot a `DEC.BIT` without a fault leaves, by the bit it returns. -/
theorem decBit_slot {t t' : State} {idx : Index} (h : exec (.decBit idx) t = .next t') (hf : t'.fault = 0#8) :
    SlotFile.slot? t'.bm idx.toNat = some ((t.binAt idx).learn t'.res.toNat) := by
  obtain ⟨-, -, d, u, hb, -, rfl⟩ := exec_unfaulted (fun _ => by simp) h hf
  obtain ⟨b, p, hp, rfl, rfl⟩ := Run.value_within_eq_ok hb
  obtain ⟨hlt, learnt⟩ := Rcd.bit_learns hp
  have res : (BitVec.ofNat 64 b).toNat = b := by
    rw [BitVec.toNat_ofNat, Nat.mod_eq_of_lt (by omega)]
  simp [learnt, res]

/-- The slot a `DEC.SYM` without a fault leaves, by the symbol it returns: a symbol fits the response, since
an alphabet has at most 2048. -/
theorem decSym_slot {t t' : State} {idx : Index} (inv : t.Inv) (h : exec (.decSym idx) t = .next t')
    (hf : t'.fault = 0#8) : SlotFile.slot? t'.sm idx.toNat = some ((t.symAt idx).learn t'.res.toNat) := by
  obtain ⟨h0, hc, d, u, hb, -, rfl⟩ := exec_unfaulted (fun _ => by simp) h hf
  obtain ⟨v, p, hp, rfl, rfl⟩ := Run.value_within_eq_ok hb
  obtain ⟨inside, found, learnt⟩ := Rcd.sym_learns hp
  obtain ⟨-, -, -, valid, -, -⟩ := checks_hold (fun _ => by simp) hc
  obtain ⟨m, hm⟩ := Option.isSome_iff_exists.1 valid
  have slot : t.symAt idx = m := by simp [State.symAt, hm]
  have wf : m.Wf := (inv.sound h0).sm.at_slot hm
  have hlt : v < m.n := by
    rw [found, slot]
    exact (SymModel.find_spec wf (of_decide_eq_true inside)).1
  have res : (BitVec.ofNat 64 v).toNat = v := by
    have := wf.alphabet
    rw [BitVec.toNat_ofNat, Nat.mod_eq_of_lt (by omega)]
  simp [learnt, res]

/-- Settles O33: both sides leave what the slot's model learns from the value. -/
theorem modelsAdaptAlike : Obligations.ModelsAdaptAlike := by
  refine ⟨fun s s' t t' idx b same he hs hd ht hr => ?_, fun s s' t t' idx v inv same he hs hd ht hr => ?_⟩
  · have model : s.binAt idx = t.binAt idx := congrArg (·.getD BinModel.empty) same
    rw [encBit_slot he hs, decBit_slot hd ht, model, hr]
  · have model : s.symAt idx = t.symAt idx := congrArg (·.getD SymModel.empty) same
    rw [encSym_slot he hs, decSym_slot inv hd ht, model, hr]

/-! ## One symbol on both sides -/

/-- Settles O49: the symbol's step is mirrored, and the mirrored step is the decoder's. -/
theorem decoderFollowsTheEncoder : Obligations.DecoderFollowsTheEncoder := by
  intro m v r r' q more rest j wf hv _ decoding same coded grown gives hj low high
  subst hj
  obtain ⟨q', decodes, range, answers, -, -, value⟩ := coded.mirrors hv q more rest same gives grown low high
  exact ⟨q', decodes.sym_eq wf decoding.range, range, answers, value⟩

end Sys2Proof.Machine
end

section
/-! SUPPORT. Folding and unfolding (44_integer_codec.md R234, R236, R239): the words of a difference and of a sum
as exact numbers, and the value that comes back of a pair in the narrowed proviso (log 25). -/

namespace Sys2Proof.Machine

/-! ## Words of integers -/

theorem u32of_add (a b : Int) : u32of (a + b) = u32of a + u32of b := BitVec.ofInt_add a b

@[simp] theorem u32of_toNat (w : Word) : u32of (w.toNat : Int) = w := by
  rw [u32of, BitVec.ofInt_natCast, BitVec.ofNat_toNat, BitVec.setWidth_eq]

theorem u32of_sub_toNat (z : Int) (w : Word) : u32of (z - w.toNat) = u32of z - w := by
  rw [eq_sub_iff_add_eq]
  calc u32of (z - w.toNat) + w = u32of (z - w.toNat) + u32of w.toNat := by rw [u32of_toNat]
    _ = u32of z := by rw [← u32of_add, Int.sub_add_cancel]

/-- An `i32` number is read back. -/
theorem s32_u32of {z : Int} (h : -2 ^ 31 ≤ z) (h' : z < 2 ^ 31) : s32 (u32of z) = z :=
  BitVec.toInt_ofInt_eq_self (by decide) h h'

/-- A number that is no `i32` number, but a 32-bit one, is read as negative. -/
theorem s32_u32of_neg {z : Int} (h : 2 ^ 31 ≤ z) (h' : z < 2 ^ 32) : s32 (u32of z) < 0 := by
  unfold s32 u32of
  rw [BitVec.toInt_ofInt]
  simp only [Int.bmod_def]
  omega

theorem u32of_toNat_of_nonneg {z : Int} (h : 0 ≤ z) (h' : z < 2 ^ 32) : ((u32of z).toNat : Int) = z := by
  unfold u32of
  rw [BitVec.toNat_ofInt]
  omega

/-- A turn of 2^32 does not change a word. -/
theorem u32of_add_turn (z : Int) : u32of (z + 2 ^ 32) = u32of z := by
  rw [u32of_add, show u32of (2 ^ 32) = 0#32 from rfl, BitVec.add_zero]

/-! ## The interval of a modulus -/

/-- A compressor with a modulus has at most 2^31, and its corrector interval has one number of each
residue (44_integer_codec.md R231). -/
theorem IntComp.Wf.modulus {c : IntComp} (h : c.Wf) (hr : c.corrRange ≠ 0#32) :
    c.corrRange.toNat ≤ 2 ^ 31 ∧ c.corrMin = -(c.corrRange.toNat / 2 : Nat) ∧
      c.corrMax = c.corrMin + c.corrRange.toNat - 1 := by
  obtain ⟨-, hrange, hmin, hmax⟩ := IntComp.derive_eq_iff.mp h.derived
  rw [← hrange] at hr
  rw [← hrange, ← hmin, ← hmax]
  have hrng := h.rng
  unfold IntComp.derive at hr ⊢
  split_ifs at hr ⊢ with h1 h2
  · simp only [h1, false_or] at hrng
    exact ⟨by dsimp only; omega, rfl, rfl⟩
  · obtain ⟨j, hj⟩ : ∃ j, c.bits = j + 1 := ⟨c.bits - 1, by omega⟩
    have small : 2 ^ (j + 1) ≤ 2 ^ 31 := Nat.pow_le_pow_right (by decide) (by omega)
    have double : 2 ^ (j + 1) = 2 * 2 ^ j := pow_succ' 2 j
    have cast : ((2 ^ j : Nat) : Int) = 2 ^ j := by push_cast; rfl
    have value : (word (2 ^ (j + 1))).toNat = 2 ^ (j + 1) := Nat.mod_eq_of_lt (by omega)
    dsimp only
    rw [hj, Nat.add_sub_cancel, value, ← cast]
    omega
  · exact absurd rfl hr

/-! ## Folding -/

/-- The difference of two values below the modulus is an `i32` number, and it is folded as such. -/
theorem IntComp.fold_of_below {c : IntComp} {pred real : Word} (hm : c.corrRange.toNat ≤ 2 ^ 31)
    (hb : c.Below pred real) {d : Int} (hd : d = real.toNat - pred.toNat) :
    c.fold pred real =
      if d < c.corrMin then d + c.corrRange.toNat else if c.corrMax < d then d - c.corrRange.toNat else d := by
  obtain ⟨hp, hr⟩ := hb
  have difference : s32 (real - pred) = d := by
    rw [← u32of_toNat real, ← u32of_sub_toNat, ← hd, s32_u32of] <;> omega
  rw [IntComp.fold, difference]

/-- The sum of a prediction and a corrector that is an `i32` number is unfolded as such. -/
theorem IntComp.unfold_of_small {c : IntComp} {pred : Word} {corr z : Int} (hz : pred.toNat + corr = z)
    (h : -2 ^ 31 ≤ z) (h' : z < 2 ^ 31) :
    c.unfold pred corr =
      u32of
        (if z < 0 then z + c.corrRange.toNat
          else if c.corrRange.toNat ≤ z then z - c.corrRange.toNat else z) := by
  have sum : pred + u32of corr = u32of z := by rw [← hz, u32of_add, u32of_toNat]
  unfold IntComp.unfold
  dsimp only
  rw [sum, s32_u32of h h']
  by_cases neg : z < 0
  · rw [if_pos neg, if_pos neg, u32of_add, u32of_toNat]
  · have value := u32of_toNat_of_nonneg (z := z) (by omega) (by omega)
    rw [if_neg neg, if_neg neg]
    by_cases past : (c.corrRange.toNat : Int) ≤ z
    · rw [if_pos past, if_pos (by omega), u32of_sub_toNat]
    · rw [if_neg past, if_neg (by omega)]

/-- A sum of prediction and corrector that reaches 2^31 is read as negative. -/
theorem IntComp.unfold_of_large {c : IntComp} {pred : Word} {corr z : Int} (hz : pred.toNat + corr = z)
    (h : 2 ^ 31 ≤ z) (h' : z < 2 ^ 32) : c.unfold pred corr = u32of (z + c.corrRange.toNat) := by
  have sum : pred + u32of corr = u32of z := by rw [← hz, u32of_add, u32of_toNat]
  unfold IntComp.unfold
  dsimp only
  rw [sum, if_pos (s32_u32of_neg h h'), u32of_add, u32of_toNat]

/-- Without a modulus nothing is folded. -/
theorem IntComp.unfold_fold_of_full {c : IntComp} (h : c.corrRange = 0#32) (pred real : Word) :
    c.unfold pred (c.fold pred real) = real := by
  have folded : c.fold pred real = s32 (real - pred) := by
    simp [IntComp.fold, h]
  have sum : pred + u32of (s32 (real - pred)) = real := by
    rw [u32of, s32, BitVec.ofInt_toInt, add_sub_cancel]
  simp [IntComp.unfold, folded, sum, h]

/-- A value in the narrowed proviso comes back: what `IC.ENC` folds, `IC.DEC` unfolds (44_integer_codec.md R239,
log 25). -/
theorem IntComp.unfold_fold {c : IntComp} (wf : c.Wf) {pred real : Word} (h : c.Proper pred real) :
    c.unfold pred (c.fold pred real) = real := by
  obtain full | ⟨below, proviso⟩ := h
  · exact c.unfold_fold_of_full full pred real
  have modulus : c.corrRange ≠ 0#32 := by
    intro h0
    have := below.1
    simp [h0] at this
  obtain ⟨hm, hmin, hmax⟩ := wf.modulus modulus
  have folded := c.fold_of_below hm below rfl
  rw [folded_eq] at proviso
  have ⟨hp, hr⟩ := below
  by_cases large : (2 : Int) ^ 31 ≤ pred.toNat + c.fold pred real
  · rw [IntComp.unfold_of_large rfl large (by split_ifs at folded <;> omega)]
    have sum : (pred.toNat : Int) + c.fold pred real + c.corrRange.toNat = real.toNat + 2 ^ 32 := by
      split_ifs at folded <;> omega
    rw [sum, u32of_add_turn, u32of_toNat]
  · rw [IntComp.unfold_of_small rfl (by split_ifs at folded <;> omega) (by omega)]
    refine (congrArg u32of ?_).trans (u32of_toNat real)
    split_ifs at folded ⊢ <;> omega

end Sys2Proof.Machine
end

section
/-! SUPPORT. A decoder beside the encoder, command by command (43_range_dec.md R212): a coding command of a
chunk is mirrored by its counterpart, which returns the operand and leaves the models as the encoder left
them. -/

namespace Sys2Proof.Machine

/-! ## The proviso of R239 along a chunk -/

/-- Two compressors have the same modulus and the same corrector interval. -/
def IntComp.SameInterval (c c' : IntComp) : Prop :=
  c'.corrRange = c.corrRange ∧ c'.corrMin = c.corrMin ∧ c'.corrMax = c.corrMax

/-- The proviso asks for nothing but the modulus and the interval. -/
theorem IntComp.SameInterval.proper {c c' : IntComp} (h : c.SameInterval c') {pred real : Word}
    (hp : c.Proper pred real) : c'.Proper pred real := by
  obtain ⟨hr, hmin, hmax⟩ := h
  unfold IntComp.Proper IntComp.Below IntComp.folded at hp ⊢
  rwa [hr, hmin, hmax]

/-- A corrector coded leaves the modulus and the interval of its compressor (44_integer_codec.md R235). -/
theorem Rce.CodesCorrector.sameInterval {c c' : IntComp} {ctx : Nat} {corr : Int} {r r' : Rce}
    (h : Rce.CodesCorrector c ctx corr r r' c') : c.SameInterval c' := by
  obtain ⟨k, r1, -, -, -, h⟩ := h
  split_ifs at h
  · obtain ⟨-, rfl⟩ := h
    exact ⟨rfl, rfl, rfl⟩
  · obtain ⟨u, -, payload⟩ := h
    unfold Rce.CodesPayload at payload
    split_ifs at payload
    · obtain ⟨-, rfl⟩ := payload
      exact ⟨rfl, rfl, rfl⟩
    · obtain ⟨r2, -, -, rfl⟩ := payload
      exact ⟨rfl, rfl, rfl⟩
  · obtain ⟨-, rfl⟩ := h
    exact ⟨rfl, rfl, rfl⟩

/-- Every compressor of `s'` was one of `s`, with the same modulus and interval. -/
def State.SameIntervals (s s' : State) : Prop :=
  ∀ j c', SlotFile.slot? s'.ic j = some c' → ∃ c, SlotFile.slot? s.ic j = some c ∧ c.SameInterval c'

theorem State.SameIntervals.of_eq {s s' : State} (h : s'.ic = s.ic) : s.SameIntervals s' := by
  intro j c' hc
  exact ⟨c', h ▸ hc, rfl, rfl, rfl⟩

/-- The proviso holds on along states that keep the intervals. -/
theorem State.SameIntervals.proper {s s' : State} (h : s.SameIntervals s') {c : Coding} (hp : c.proper s) :
    c.proper s' := by
  cases c with
  | int idx ctx pred real =>
    intro x' hx'
    obtain ⟨x, hx, same⟩ := h _ _ hx'
    exact same.proper (hp x hx)
  | _ => trivial

/-! ## What the counterpart of a command does -/

/-- A decoder that stands beside an encoder between commands: the same interval length, the same models, and
nothing has faulted. -/
structure Beside (s t : State) : Prop where
  params : t.params = s.params
  bm : t.bm = s.bm
  sm : t.sm = s.sm
  ic : t.ic = s.ic
  fault : t.fault = 0#8
  active : t.dec.active = true
  range : t.dec.drange = s.enc.range

/-- A decoder beside `s`, at `q`, that executes the counterpart of a coding command comes to `q'`, beside
`s'`, and answers the operand. -/
def Echoes (c : Coding) (s s' : State) (q q' : Rcd) : Prop :=
  ∀ t, Beside s t → t.rcd = q → ∃ t', exec c.dec t = .next t' ∧ t'.rcd = q' ∧ Beside s' t' ∧
    t'.responses = t.responses ++ [{ status := 0x00#8, data := c.value }]

/-- A coding command from `s` to `s'`: its interval nests, its counterpart echoes it, and the intervals of
the compressors stay. -/
structure Echoed (c : Coding) (s s' : State) : Prop where
  nests : s.rce.Nests s'.rce
  mirrors : Mirrors s.rce s'.rce (Echoes c s s')
  same : s.SameIntervals s'

/-- What a mirrored step says of the registers holds beside the step itself. -/
theorem Mirrors.with_registers {r r' : Rce} {D : Rcd → Rcd → Prop} (h : Mirrors r r' D) :
    Mirrors r r' fun q q' => D q q' ∧ q'.dec.drange = r'.enc.range ∧ q'.dec.active = q.dec.active := by
  intro q more rest h1 h2 h3 h4 h5
  obtain ⟨q', step, range, answers, count, active, value⟩ := h q more rest h1 h2 h3 h4 h5
  exact ⟨q', ⟨step, range, active⟩, range, answers, count, active, value⟩

theorem Coding.dec_ne_csrRd (c : Coding) (a : Index) : c.dec ≠ .csrRd a := by cases c <;> simp [Coding.dec]

theorem Coding.enc_ne_csrRd (c : Coding) (a : Index) : c.enc ≠ .csrRd a := by cases c <;> simp [Coding.enc]

/-- A step of the decoder on which the counterpart's checks hold and its body completes with the operand is
an echo. -/
theorem Mirrors.echoes {c : Coding} {s s' : State} {D : Rcd → Rcd → Prop} (h : Mirrors s.rce s'.rce D)
    (hp : s'.params = s.params)
    (hd : ∀ t q', Beside s t → D t.rcd q' → firstFailure (checksOf t c.dec) = none ∧
      ∃ u, bodyOf t c.dec = .ok (some c.value) u ∧ u.rcd = q' ∧ u.bm = s'.bm ∧ u.sm = s'.sm ∧ u.ic = s'.ic) :
    Mirrors s.rce s'.rce (Echoes c s s') := by
  refine h.with_registers.mono ?_
  rintro q q' - ⟨step, range, active⟩ t beside rfl
  obtain ⟨hc, u, hb, rfl, hbm, hsm, hic⟩ := hd t q' beside step
  have kept := bodyOf_kept (.inl ⟨_, hb⟩)
  refine ⟨_, exec_completes c.dec_ne_csrRd beside.fault hc hb, rfl, ?_, ?_⟩
  · exact
      { params := kept.params.trans (beside.params.trans hp.symm), bm := hbm, sm := hsm, ic := hic
        fault := kept.fault.trans beside.fault, active := active.trans beside.active, range := range }
  · rw [State.complete_some_responses, kept.responses]

/-- What an encoder micro-operation that went on has done. -/
theorem Rce.Ends.of_ok {σ : Type} {r : Rce} {m : Run σ Unit} {post : σ → Prop} (h : r.Ends m post) {t : σ}
    (ht : m = .ok () t) : post t := by
  obtain ⟨u, hu, hp⟩ | ⟨u, hu, -⟩ := h
  · cases hu.symm.trans ht
    exact hp
  · cases hu.symm.trans ht

/-! ## The commands -/

/-- What an `ENC.SYM` without a fault has coded. -/
theorem encSym_coded {s s' : State} {idx : Index} {v : Dword} (inv : s.Inv)
    (h : exec (.encSym idx v) s = .next s') (hf : s'.fault = 0#8) :
    ∃ m r, SlotFile.slot? s.sm idx.toNat = some m ∧ m.Wf ∧ idx.toNat < s.params.nSm ∧ v.toNat < m.n ∧
      s.rce.enc.Open ∧ Rce.CodesSymbol m v.toNat s.rce r ∧
      s' = ((s.withRce r).withSym idx.toNat (m.learn v.toNat)).complete none := by
  obtain ⟨h0, hc, d, u, hb, -, rfl⟩ := exec_unfaulted (fun _ => by simp) h hf
  obtain ⟨on, index, -, valid, operand, -⟩ := checks_hold (fun _ => by simp) hc
  have sound := inv.sound h0
  obtain ⟨m, hm⟩ := Option.isSome_iff_exists.1 valid
  have wf := sound.sm.at_slot hm
  simp only [operandsOk, hm, Option.any_some, decide_eq_true_eq] at operand
  have slot : s.symAt idx = m := by simp [State.symAt, hm]
  obtain ⟨_, ⟨r, m'⟩, hr, rfl, rfl⟩ := Run.value_within_eq_ok hb
  rw [slot] at hr
  have opened := sound.encoder_open on
  obtain ⟨coded, rfl⟩ := (Rce.sym_spec wf operand opened).of_ok hr
  exact ⟨m, r, hm, wf, of_decide_eq_true index, operand, opened, coded, rfl⟩

/-- `DEC.SYM` echoes `ENC.SYM`. -/
theorem encSym_echoed {s s' : State} {idx : Index} {v : Dword} (inv : s.Inv)
    (h : exec (.encSym idx v) s = .next s') (hf : s'.fault = 0#8) : Echoed (.sym idx v) s s' := by
  obtain ⟨m, r, hm, wf, index, operand, opened, coded, rfl⟩ := encSym_coded inv h hf
  refine ⟨coded.nests wf operand opened, (coded.mirrors operand).echoes rfl fun t q' beside decoded => ?_,
    .of_eq rfl⟩
  have slot : t.symAt idx = m := by simp [State.symAt, beside.sm, hm]
  have long : 2 ^ 24 ≤ t.dec.drange.toNat := beside.range ▸ opened.range
  have inside : t.dec.inside = true := by
    obtain ⟨hlow, hhigh⟩ := SymModel.part_inside wf operand long
    obtain ⟨-, ⟨-, hlt⟩, -⟩ := decoded
    simp only [State.rcd_dec, SymModel.partLen] at hlt
    exact decide_eq_true (by omega)
  refine ⟨by simp [Coding.dec, checksOf, State.decoderOn, State.symIndex, State.symValid, beside.active,
    beside.params, beside.sm, index, hm, inside], (t.withRcd q').withSym idx.toNat (m.learn v.toNat), ?_, rfl,
    beside.bm, congrArg (SlotFile.put idx.toNat (m.learn v.toNat)) beside.sm, beside.ic⟩
  simp [Coding.dec, Coding.value, bodyOf, slot, decoded.sym_eq wf long]

/-- What an `ENC.BIT` without a fault has coded. -/
theorem encBit_coded {s s' : State} {idx : Index} {v : Dword} (inv : s.Inv)
    (h : exec (.encBit idx v) s = .next s') (hf : s'.fault = 0#8) :
    ∃ m r, SlotFile.slot? s.bm idx.toNat = some m ∧ m.Wf ∧ idx.toNat < s.params.nBm ∧ v.toNat < 2 ∧
      s.rce.enc.Open ∧ Rce.CodesBit m v.toNat s.rce r ∧
      s' = ((s.withRce r).withBin idx.toNat (m.learn v.toNat)).complete none := by
  obtain ⟨h0, hc, d, u, hb, -, rfl⟩ := exec_unfaulted (fun _ => by simp) h hf
  obtain ⟨on, index, -, valid, operand, -⟩ := checks_hold (fun _ => by simp) hc
  have sound := inv.sound h0
  obtain ⟨m, hm⟩ := Option.isSome_iff_exists.1 valid
  have wf := sound.bm.at_slot hm
  have slot : s.binAt idx = m := by simp [State.binAt, hm]
  obtain ⟨_, ⟨r, m'⟩, hr, rfl, rfl⟩ := Run.value_within_eq_ok hb
  rw [slot] at hr
  have opened := sound.encoder_open on
  obtain ⟨coded, rfl⟩ := (Rce.bit_spec wf v.toNat opened).of_ok hr
  exact ⟨m, r, hm, wf, of_decide_eq_true index, of_decide_eq_true operand, opened, coded, rfl⟩

/-- `DEC.BIT` echoes `ENC.BIT`. -/
theorem encBit_echoed {s s' : State} {idx : Index} {v : Dword} (inv : s.Inv)
    (h : exec (.encBit idx v) s = .next s') (hf : s'.fault = 0#8) : Echoed (.bit idx v) s s' := by
  obtain ⟨m, r, hm, wf, index, operand, opened, coded, rfl⟩ := encBit_coded inv h hf
  refine ⟨coded.nests wf opened, (coded.mirrors operand).echoes rfl fun t q' beside decoded => ?_, .of_eq rfl⟩
  have slot : t.binAt idx = m := by simp [State.binAt, beside.bm, hm]
  have long : 2 ^ 24 ≤ t.dec.drange.toNat := beside.range ▸ opened.range
  have inside : t.dec.inside = true := by
    have split := BinModel.split_inside wf.prob long
    obtain ⟨-, ⟨-, hlt⟩, -⟩ := decoded
    simp only [State.rcd_dec, BinModel.partLow, BinModel.partLen] at hlt
    exact decide_eq_true (by split_ifs at hlt <;> omega)
  refine ⟨by simp [Coding.dec, checksOf, State.decoderOn, State.binIndex, State.binValid, beside.active,
    beside.params, beside.bm, index, hm, inside], (t.withRcd q').withBin idx.toNat (m.learn v.toNat), ?_, rfl,
    congrArg (SlotFile.put idx.toNat (m.learn v.toNat)) beside.bm, beside.sm, beside.ic⟩
  simp [Coding.dec, Coding.value, bodyOf, slot, decoded.bit_eq wf long]

/-- Literals are echoed by a counterpart whose body reads them. -/
theorem Rce.CodesLiterals.echoed {c : Coding} {s : State} {r : Rce} {ls : List (Nat × Nat)} (opened : s.rce.enc.Open)
    (fit : Fit ls) (coded : Rce.CodesLiterals ls s.rce r)
    (hd : ∀ t q', Beside s t → 2 ^ 24 ≤ t.rcd.dec.drange.toNat →
      Rcd.ReadsLiterals (ls.map (·.1)) (ls.map (·.2)) t.rcd q' →
        firstFailure (checksOf t c.dec) = none ∧ bodyOf t c.dec = .ok (some c.value) (t.withRcd q')) :
    Echoed c s ((s.withRce r).complete none) := by
  refine ⟨coded.nests fit, (coded.mirrors fit opened).echoes rfl fun t q' beside read => ?_, .of_eq rfl⟩
  obtain ⟨hc, hb⟩ := hd t q' beside (beside.range ▸ opened.range) read
  exact ⟨hc, _, hb, rfl, beside.bm, beside.sm, beside.ic⟩

/-- `DEC.BITS` echoes `ENC.BITS`. -/
theorem encBits_echoed {s s' : State} {n : BitVec 8} {v : Dword} (inv : s.Inv)
    (h : exec (.encBits n v) s = .next s') (hf : s'.fault = 0#8) : Echoed (.bits n v) s s' := by
  obtain ⟨h0, hc, d, u, hb, -, rfl⟩ := exec_unfaulted (fun _ => by simp) h hf
  obtain ⟨on, -, -, -, operand, -⟩ := checks_hold (fun _ => by simp) hc
  have opened := (inv.sound h0).encoder_open on
  simp only [operandsOk, decide_eq_true_eq] at operand
  obtain ⟨positive, narrow, small⟩ := operand
  obtain ⟨_, r, hr, rfl, rfl⟩ := Run.value_within_eq_ok hb
  have coded := (Rce.bits_spec opened narrow small).of_ok hr
  refine coded.echoed opened (literalParts_fit narrow small) fun t q' beside long read => ?_
  rw [literalParts_widths] at read
  refine ⟨by simp [Coding.dec, checksOf, State.decoderOn, beside.active, positive, narrow], ?_⟩
  simp [Coding.dec, Coding.value, bodyOf, Rcd.bits_reads long narrow read, literalParts_value]

/-- Half-words are read as the value they are of. -/
theorem Rcd.halves_reads_halfParts {n v : Nat} {q q' : Rcd} (long : 2 ^ 24 ≤ q.dec.drange.toNat)
    (read : Rcd.ReadsLiterals ((halfParts n v).map (·.1)) ((halfParts n v).map (·.2)) q q')
    (hv : v < 2 ^ (16 * n)) : Rcd.halves n q = .ok v q' := by
  rw [halfParts_widths] at read
  rw [Rcd.halves_reads long read, halfParts_value, Nat.mod_eq_of_lt hv]

/-- `DEC.FLOAT` echoes `ENC.FLOAT`. -/
theorem encFloat_echoed {s s' : State} {v : Dword} (inv : s.Inv) (h : exec (.encFloat v) s = .next s')
    (hf : s'.fault = 0#8) : Echoed (.float v) s s' := by
  obtain ⟨h0, hc, d, u, hb, -, rfl⟩ := exec_unfaulted (fun _ => by simp) h hf
  obtain ⟨on, -, -, -, operand, -⟩ := checks_hold (fun _ => by simp) hc
  have opened := (inv.sound h0).encoder_open on
  simp only [operandsOk, decide_eq_true_eq] at operand
  obtain ⟨_, r, hr, rfl, rfl⟩ := Run.value_within_eq_ok hb
  refine ((Rce.float_spec v.toNat opened).of_ok hr).echoed opened (halfParts_fit _ _) fun t q' beside long read => ?_
  refine ⟨by simp [Coding.dec, checksOf, State.decoderOn, beside.active], ?_⟩
  simp [Coding.dec, Coding.value, bodyOf, Rcd.halves_reads_halfParts long read operand]

/-- `DEC.DOUBLE` echoes `ENC.DOUBLE`. -/
theorem encDouble_echoed {s s' : State} {v : Dword} (inv : s.Inv) (h : exec (.encDouble v) s = .next s')
    (hf : s'.fault = 0#8) : Echoed (.double v) s s' := by
  obtain ⟨h0, hc, d, u, hb, -, rfl⟩ := exec_unfaulted (fun _ => by simp) h hf
  obtain ⟨on, -, -, -, -, -⟩ := checks_hold (fun _ => by simp) hc
  have opened := (inv.sound h0).encoder_open on
  obtain ⟨_, r, hr, rfl, rfl⟩ := Run.value_within_eq_ok hb
  refine ((Rce.double_spec v.toNat opened).of_ok hr).echoed opened (halfParts_fit _ _) fun t q' beside long read => ?_
  refine ⟨by simp [Coding.dec, checksOf, State.decoderOn, beside.active], ?_⟩
  simp [Coding.dec, Coding.value, bodyOf, Rcd.halves_reads_halfParts long read v.isLt]

/-- What an `IC.ENC` without a fault has coded. -/
theorem icEnc_coded {s s' : State} {idx : Index} {ctx : BitVec 16} {pred real : Word} (inv : s.Inv)
    (h : exec (.icEnc idx ctx pred real) s = .next s') (hf : s'.fault = 0#8) :
    ∃ c r c', SlotFile.slot? s.ic idx.toNat = some c ∧ c.Wf ∧ idx.toNat < s.params.nIc ∧
      ctx.toNat < c.contexts ∧ s.rce.enc.Open ∧
      Rce.CodesCorrector c ctx.toNat (c.fold pred real) s.rce r c' ∧
      s' = ((s.withRce r).withInt idx.toNat c').complete none := by
  obtain ⟨h0, hc, d, u, hb, -, rfl⟩ := exec_unfaulted (fun _ => by simp) h hf
  obtain ⟨on, index, -, valid, operand, -⟩ := checks_hold (fun _ => by simp) hc
  have sound := inv.sound h0
  obtain ⟨c, hs⟩ := Option.isSome_iff_exists.1 valid
  obtain ⟨wf, -⟩ := sound.ic.at_slot hs
  rw [operandsOk, hs, Option.any_some, decide_eq_true_eq, folded_eq] at operand
  obtain ⟨context, interval⟩ := operand
  have slot : s.intAt idx = c := by simp [State.intAt, hs]
  obtain ⟨_, ⟨r, c'⟩, hr, rfl, rfl⟩ := Run.value_within_eq_ok hb
  rw [slot] at hr
  have opened := sound.encoder_open on
  obtain ⟨coded, -, -, -⟩ :=
    (IntComp.putCorr_spec wf context (by simp [IntComp.inInterval, interval]) opened).of_ok hr
  exact ⟨c, r, c', hs, wf, of_decide_eq_true index, context, opened, coded, rfl⟩

/-- A compressor written with one of the same interval keeps the intervals. -/
theorem State.SameIntervals.put {s s' : State} {i : Nat} {c c' : IntComp} (hs : SlotFile.slot? s.ic i = some c)
    (same : c.SameInterval c') (hp : s'.ic = SlotFile.put i c' s.ic) : s.SameIntervals s' := by
  intro j x' hx'
  rw [hp] at hx'
  by_cases hj : j = i
  · subst hj
    obtain rfl : c' = x' := by simpa using hx'
    exact ⟨c, hs, same⟩
  · rw [SlotFile.slot?_put_of_ne hj] at hx'
    exact ⟨x', hx', rfl, rfl, rfl⟩

/-- `IC.DEC` echoes `IC.ENC`, for a pair in the proviso. -/
theorem icEnc_echoed {s s' : State} {idx : Index} {ctx : BitVec 16} {pred real : Word} (inv : s.Inv)
    (h : exec (.icEnc idx ctx pred real) s = .next s') (hf : s'.fault = 0#8)
    (proper : (Coding.int idx ctx pred real).proper s) : Echoed (.int idx ctx pred real) s s' := by
  obtain ⟨c, r, c', hs, wf, index, context, opened, coded, rfl⟩ := icEnc_coded inv h hf
  obtain ⟨nests, mirrors⟩ := coded.mirrors wf context opened
  refine ⟨nests, mirrors.echoes rfl fun t q' beside decoded => ?_, .put hs coded.sameInterval rfl⟩
  have slot : t.intAt idx = c := by simp [State.intAt, beside.ic, hs]
  have long : 2 ^ 24 ≤ t.dec.drange.toNat := beside.range ▸ opened.range
  have back := IntComp.unfold_fold wf (proper c hs)
  refine ⟨by simp [Coding.dec, checksOf, State.decoderOn, State.intIndex, State.intValid, beside.active,
    beside.params, beside.ic, index, hs, slot, context], (t.withRcd q').withInt idx.toNat c', ?_, rfl,
    beside.bm, beside.sm, congrArg (SlotFile.put idx.toNat c') beside.ic⟩
  simp [Coding.dec, Coding.value, bodyOf, slot, IntComp.getCorr_eq wf context long decoded, back]

/-- Every coding command of a chunk is echoed by its counterpart. -/
theorem Coding.echoed {c : Coding} {s s' : State} (inv : s.Inv) (h : exec c.enc s = .next s') (hf : s'.fault = 0#8)
    (proper : c.proper s) : Echoed c s s' := by
  cases c with
  | sym idx v => exact encSym_echoed inv h hf
  | bit idx v => exact encBit_echoed inv h hf
  | bits n v => exact encBits_echoed inv h hf
  | float v => exact encFloat_echoed inv h hf
  | double v => exact encDouble_echoed inv h hf
  | int idx ctx pred real => exact icEnc_echoed inv h hf proper

end Sys2Proof.Machine
end

section
/-! SUPPORT. A whole chunk (43_range_dec.md R212, R213): the counterparts retrace its coding commands one after
another, from the registers that `DEC.INIT` loads to the final code value that `ENC.DONE` chose. -/

namespace Sys2Proof.Machine

/-! ## Commands one after another -/

theorem State.runs_cons {i : Instr} {is : List Instr} {s s' : State} :
    State.runs (i :: is) s = some s' ↔ ∃ t, exec i s = .next t ∧ State.runs is t = some s' := by
  rw [State.runs]
  split <;> simp_all

theorem State.runs_append {is js : List Instr} {s s' : State} :
    State.runs (is ++ js) s = some s' ↔ ∃ t, State.runs is s = some t ∧ State.runs js t = some s' := by
  induction is generalizing s with
  | nil => simp [State.runs]
  | cons i is ih =>
    simp only [List.cons_append, State.runs_cons, ih]
    constructor
    · rintro ⟨t, h, u, h1, h2⟩
      exact ⟨u, ⟨t, h, h1⟩, h2⟩
    · rintro ⟨u, ⟨t, h, h1⟩, h2⟩
      exact ⟨t, h, u, h1, h2⟩

/-- Coding commands that leave no fault found none. -/
theorem codings_unfaulted {cs : List Coding} {s s' : State} (h : State.runs (cs.map Coding.enc) s = some s')
    (hf : s'.fault = 0#8) : s.fault = 0#8 := by
  induction cs generalizing s with
  | nil =>
    cases h
    exact hf
  | cons c cs ih =>
    obtain ⟨s1, first, others⟩ := State.runs_cons.1 h
    exact (exec_unfaulted c.enc_ne_csrRd first (ih others)).1

/-- Coding commands keep the invariant. -/
theorem State.Inv.runs {is : List Instr} {s s' : State} (inv : s.Inv) (h : State.runs is s = some s') : s'.Inv := by
  induction is generalizing s with
  | nil =>
    cases h
    exact inv
  | cons i is ih =>
    obtain ⟨s1, first, others⟩ := State.runs_cons.1 h
    exact ih (exec_inv inv first) others

/-! ## The coding commands of a chunk -/

/-- After each number of commands the decoder stands beside the encoder. -/
def InLockstep (cs : List Coding) (s t : State) : Prop :=
  ∀ k, k ≤ cs.length → ∃ s1 t1, State.runs ((cs.take k).map Coding.enc) s = some s1 ∧
    State.runs ((cs.take k).map Coding.dec) t = some t1 ∧ s1.fault = 0#8 ∧ Beside s1 t1

theorem InLockstep.nil {s t : State} (hf : s.fault = 0#8) (h : Beside s t) : InLockstep [] s t := by
  intro k hk
  obtain rfl : k = 0 := Nat.le_zero.1 hk
  exact ⟨s, t, rfl, rfl, hf, h⟩

theorem InLockstep.cons {c : Coding} {cs : List Coding} {s s1 t t1 : State} (hf : s.fault = 0#8) (h : Beside s t)
    (he : exec c.enc s = .next s1) (hd : exec c.dec t = .next t1) (hs : InLockstep cs s1 t1) :
    InLockstep (c :: cs) s t := by
  intro k hk
  cases k with
  | zero => exact ⟨s, t, rfl, rfl, hf, h⟩
  | succ k =>
    obtain ⟨s2, t2, h1, h2, rest⟩ := hs k (Nat.le_of_succ_le_succ hk)
    exact ⟨s2, t2, State.runs_cons.2 ⟨s1, he, h1⟩, State.runs_cons.2 ⟨t1, hd, h2⟩, rest⟩

/-- A decoder beside `s`, at `q`, that executes the counterparts of coding commands comes to `q'`, beside
`s'`, in step with the encoder all along, and answers the operands. -/
def Retraces (cs : List Coding) (s s' : State) (q q' : Rcd) : Prop :=
  ∀ t, Beside s t → t.rcd = q → ∃ t', State.runs (cs.map Coding.dec) t = some t' ∧ t'.rcd = q' ∧ Beside s' t' ∧
    t'.responses = t.responses ++ cs.map (fun c => { status := 0x00#8, data := c.value }) ∧ InLockstep cs s t

/-- The coding commands of a chunk, one after another, nest and are retraced. -/
theorem codings_retraced {cs : List Coding} {s s' : State} (inv : s.Inv)
    (h : State.runs (cs.map Coding.enc) s = some s') (hf : s'.fault = 0#8) (proper : ∀ c ∈ cs, c.proper s) :
    s.rce.Nests s'.rce ∧ Mirrors s.rce s'.rce (Retraces cs s s') := by
  induction cs generalizing s with
  | nil =>
    cases h
    refine ⟨.refl _, (Mirrors.refl _).mono ?_⟩
    rintro q q' - rfl t beside hq
    exact ⟨t, rfl, hq, beside, by simp, .nil hf beside⟩
  | cons c cs ih =>
    have h0 := codings_unfaulted h hf
    obtain ⟨s1, first, others⟩ := State.runs_cons.1 h
    have echoed := Coding.echoed inv first (codings_unfaulted others hf) (proper c (by simp))
    obtain ⟨nests, mirrors⟩ := ih (exec_inv inv first) others fun d hd =>
      echoed.same.proper (proper d (List.mem_cons_of_mem _ hd))
    refine ⟨echoed.nests.trans nests, (echoed.mirrors.trans echoed.nests mirrors nests).mono ?_⟩
    rintro q q' - ⟨q1, echo, retraced⟩ t beside hq
    obtain ⟨t1, dec, hq1, beside1, answer⟩ := echo t beside hq
    obtain ⟨t', run, hq', beside', answers, lockstep⟩ := retraced t1 beside1 hq1
    exact ⟨t', State.runs_cons.2 ⟨t1, dec, run⟩, hq', beside', by simp [answers, answer],
      .cons h0 beside first dec lockstep⟩

/-! ## The ends of a chunk -/

/-- `ENC.INIT` begins the stream where the sink is, with an interval at 0 (42_range_enc.md R175). -/
theorem State.rce_of_encInit {s s0 : State} (h0 : s.fault = 0#8) (ha : s.enc.active = false)
    (h : exec .encInit s = .next s0) :
    s0 = ({ s with enc := Encoder.start } : State).done ∧ s0.rce.stream = s.sink.bytes ∧
      s0.rce.codeValue = bigEndian s.sink.bytes * 2 ^ 32 := by
  obtain rfl := Host.Outcome.next.inj (h.symm.trans (exec_encInit h0 ha))
  have stream : Rce.stream { enc := Encoder.start, sink := s.sink } = s.sink.bytes := by
    simp [Rce.stream, Encoder.staged, Encoder.start]
  have code : Rce.codeValue { enc := Encoder.start, sink := s.sink } = bigEndian s.sink.bytes * 2 ^ 32 := by
    rw [Rce.codeValue, stream]
    simp [Encoder.start]
  exact ⟨rfl, stream, code⟩

/-- What a fault-free `ENC.DONE` has done (42_range_enc.md R184). -/
theorem State.finished_of_encDone {s s' : State} (inv : s.Inv) (h : exec .encDone s = .next s')
    (hf : s'.fault = 0#8) :
    s.fault = 0#8 ∧ s.enc.Open ∧ Rce.Finished s.rce s'.rce ∧ s'.bm = s.bm ∧ s'.sm = s.sm ∧ s'.ic = s.ic := by
  obtain ⟨h0, hc, d, u, hb, -, rfl⟩ := exec_unfaulted (fun _ => by simp) h hf
  obtain ⟨on, -⟩ := checks_hold (fun _ => by simp) hc
  obtain ⟨_, r, hr, rfl, rfl⟩ := Run.value_within_eq_ok hb
  have opened := (inv.sound h0).encoder_open on
  exact ⟨h0, opened, (Rce.done_spec opened).of_ok hr, rfl, rfl, rfl⟩

/-- `DEC.INIT` loads four bytes (43_range_dec.md R201). -/
theorem exec_decInit {t : State} {bs : List Byte} {rest : List SrcAnswer} (h0 : t.fault = 0#8)
    (hl : bs.length = 4) (h : t.src.Gives bs rest) :
    exec .decInit t = .next ({ t.consumed 4 rest with dec := Decoder.start bs } : State).done := by
  have read := Source.read_gives h
  rw [hl] at read
  have hb : bodyOf t .decInit = .ok none
      (t.withRcd { dec := Decoder.start bs, src := { answers := rest, count := t.src.count + 4#64 } }) := by
    simp [bodyOf, Rcd.init, read]
  exact exec_completes (fun _ => by simp) h0 rfl hb

/-- The code value `DEC.INIT` loads is the number of its four bytes. -/
theorem Decoder.start_dvalue {bs : List Byte} (h : bs.length = 4) :
    (Decoder.start bs).dvalue.toNat = bigEndian bs := by
  have small := bigEndian_lt bs
  rw [h] at small
  rw [Decoder.start, word, ofBytes_big, BitVec.toNat_ofNat, Nat.mod_eq_of_lt (by omega)]

/-- The bytes of a chunk: four, which `DEC.INIT` reads, and as many as its coding commands shifted out
(42_range_enc.md R187, 43_range_dec.md R213). -/
theorem chunk_split {before chunk after : List Byte} {j : Nat} (h : after = before ++ chunk)
    (hl : after.length = before.length + j + 4) :
    ∃ first more : List Byte, chunk = first ++ more ∧ first.length = 4 ∧ more.length = j := by
  subst h
  rw [List.length_append] at hl
  exact ⟨chunk.take 4, chunk.drop 4, (List.take_append_drop 4 chunk).symm, by simp; omega, by simp; omega⟩

/-- Settles O50, by induction on the coding commands (`codings_retraced`), between the code value the decoder
loads and the one the encoder ends with. -/
theorem decodingReturnsWhatWasCoded : Obligations.DecodingReturnsWhatWasCoded := by
  intro cs s s' t chunk rest inv _ hs ht ha params bm sm ic proper run hf bytes gives
  obtain ⟨s0, init, run⟩ := State.runs_cons.1 run
  obtain ⟨sl, coded, last⟩ := State.runs_append.1 run
  obtain ⟨s1, done, last⟩ := State.runs_cons.1 last
  obtain rfl : s1 = s' := Option.some.inj last
  obtain ⟨start, stream, code⟩ := State.rce_of_encInit hs ha init
  have inv0 := exec_inv inv init
  obtain ⟨hl, opened, finished, bm', sm', ic'⟩ := State.finished_of_encDone (inv0.runs coded) done hf
  have same : s.SameIntervals s0 := .of_eq (by rw [start]; rfl)
  obtain ⟨nests, mirrors⟩ := codings_retraced inv0 coded hl fun c hc => same.proper (proper c hc)
  obtain ⟨j, grown, -, -⟩ := nests
  obtain ⟨length, number⟩ := finished.bytes
  rw [State.rce_sink] at length number
  obtain ⟨first, more, rfl, four, hmore⟩ := chunk_split bytes (by rw [length, grown, stream])
  have decInit := exec_decInit ht four (gives_append gives)
  have beside : Beside s0
      ({ t.consumed 4 (more.map SrcAnswer.byte ++ rest) with dec := Decoder.start first } : State).done := by
    subst start
    exact ⟨params, bm, sm, ic, ht, rfl, rfl⟩
  have value : (s0.rce.codeValue + (Decoder.start first).dvalue.toNat) * 256 ^ more.length + bigEndian more =
      sl.rce.finalCode := by
    rw [code, Decoder.start_dvalue four, ← number, bytes, bigEndian_append, bigEndian_append, List.length_append,
      four, pow_add]
    ring
  obtain ⟨low, high⟩ := Rce.finalCode_inside (r := sl.rce) opened
  obtain ⟨q', retraced, -, answers, count, -, -⟩ := mirrors (State.rcd _) more rest beside.range rfl
    (by rw [grown, hmore]) (low.trans_eq value.symm) (value.trans_lt high)
  obtain ⟨t', run', rfl, beside', responses, lockstep⟩ := retraced _ beside rfl
  refine ⟨t', State.runs_cons.2 ⟨_, decInit, run'⟩, beside'.fault, ?_, beside'.bm.trans bm'.symm,
    beside'.sm.trans sm'.symm, beside'.ic.trans ic'.symm, answers, ?_, fun k hk => ?_⟩
  · rw [responses]
    simp [State.done, State.consumed]
  · refine count.trans ?_
    rw [List.length_append, four, BitVec.ofNat_add, ← BitVec.add_assoc]
    rfl
  · obtain ⟨s2, t2, enc, dec, hf2, beside2⟩ := lockstep k hk
    exact ⟨s2, t2, State.runs_cons.2 ⟨_, init, enc⟩, State.runs_cons.2 ⟨_, decInit, dec⟩, hf2, beside2.fault,
      beside2.range, beside2.bm, beside2.sm, beside2.ic⟩

end Sys2Proof.Machine
end

section
/-! SUPPORT. What is left once the checks of a command hold (60_exceptions.md R275, R278): success, or one of the
three execution faults. -/

namespace Sys2Proof.Machine

/-- The codes of the execution faults (60_exceptions.md R289, R290, R291). -/
theorem InExecution.code {f : FaultCode} (h : InExecution f) :
    f.code = 0x06#8 ∨ f.code = 0x07#8 ∨ f.code = 0x08#8 := by
  rcases h with rfl | rfl | rfl
  · exact .inl rfl
  · exact .inr (.inl rfl)
  · exact .inr (.inr rfl)

/-- A command all of whose checks hold leaves no fault, or one of the three execution faults. -/
theorem exec_fault_of_checks {s t : State} {i : Instr} (hi : ∀ a, i ≠ .csrRd a) (h0 : s.fault = 0#8)
    (hc : firstFailure (checksOf s i) = none) (ht : exec i s = .next t) :
    t.fault = 0#8 ∨ t.fault = 0x06#8 ∨ t.fault = 0x07#8 ∨ t.fault = 0x08#8 := by
  rcases exec_cases s i hi with ⟨hne, -⟩ | ⟨-, f, hf, -⟩ | ⟨-, -, d, u, -, kept, he⟩ |
    ⟨-, -, f, u, -, hf, -, he⟩ | ⟨-, -, -, he⟩
  · exact absurd h0 hne
  · cases hc.symm.trans hf
  · obtain rfl := Host.Outcome.next.inj (he.symm.trans ht)
    left
    cases d <;> exact kept.fault.trans h0
  · obtain rfl := Host.Outcome.next.inj (he.symm.trans ht)
    exact .inr hf.code
  · cases he.symm.trans ht

/-- Settles O17: `CorruptedStream` is the last check, and `CSR.RD` has none of its own. -/
theorem checksBeforeExecution : Obligations.ChecksBeforeExecution := by
  intro s i h0 hw hs hx hg hv ho
  by_cases hi : ∃ a, i = .csrRd a
  · obtain ⟨a, rfl⟩ := hi
    obtain ⟨c, hc⟩ := Option.isSome_iff_exists.1 hw
    refine ⟨nofun, fun _ t ht => .inl ?_⟩
    obtain rfl := Host.Outcome.next.inj ((exec_csrRd hc).symm.trans ht)
    exact h0
  have hi : ∀ a, i ≠ .csrRd a := fun a ha => hi ⟨a, ha⟩
  refine ⟨fun hr => exec_faults (f := .corruptedStream) hi h0 ?_, fun hr t ht => ?_⟩
  · simp [firstFailure_checksOf s i hi, hs, hx, hg, hv, ho, hr]
  · exact exec_fault_of_checks hi h0 (firstFailure_checksOf_eq_none hi hs hx hg hv ho hr) ht

end Sys2Proof.Machine
end

section
/-! SUPPORT. The decoder's commands that complete (43_range_dec.md R201 to R211): each does what its body does when
the source has the bytes (`Rcd.sym_gives`, `Rcd.bit_gives`, `Rcd.bits_reads`, `Rcd.halves_reads`). -/

namespace Sys2Proof.Machine

/-- Settles O42: four bytes joined are the word `Decoder.start` loads. -/
theorem decInitLoads : Obligations.DecInitLoads := by
  intro s b0 b1 b2 b3 rest h0 hg
  have value : word (ofBytes .big [b0, b1, b2, b3]) = b0 ++ b1 ++ b2 ++ b3 := by
    rw [ofBytes_big_four, word_toNat]
  rw [exec_decInit h0 rfl hg, Decoder.start, value]
  rfl

/-- Settles O46: the body clears `dec_active` and no more. -/
theorem decDoneStops : Obligations.DecDoneStops := fun _ h0 ha =>
  exec_completes (i := .decDone) (fun _ => by simp) h0 (by simp [checksOf, State.decoderOn, ha]) rfl

/-- Settles O43: the step is that of `Rcd.sym_gives`. -/
theorem decSymDecodesASymbol : Obligations.DecSymDecodesASymbol := by
  intro s idx m v bs rest h0 ha long inside hx hm wf hv part gives needs
  have slot : s.symAt idx = m := by simp [State.symAt, hm]
  have hc : firstFailure (checksOf s (.decSym idx)) = none := by
    simp [checksOf, State.decoderOn, State.symIndex, State.symValid, Decoder.inside, ha, hx, hm, inside]
  have hb := Rcd.sym_gives (r := s.rcd) wf long inside hv part gives needs
  have done := exec_completes (i := .decSym idx) (fun _ => by simp) h0 hc (by simp only [bodyOf, slot, hb]; rfl)
  rw [Rcd.shifted, State.rcd_dec, ha] at done
  refine ⟨done, fun t ht => ?_⟩
  obtain rfl := Host.Outcome.next.inj (done.symm.trans ht)
  exact SlotFile.slot?_put_self _ _ _

/-- Settles O44: the step is that of `Rcd.bit_gives`. -/
theorem decBitDecodesABit : Obligations.DecBitDecodesABit := by
  intro s idx m b bs rest h0 ha long inside hx hm wf hlt part gives needs
  have slot : s.binAt idx = m := by simp [State.binAt, hm]
  have hc : firstFailure (checksOf s (.decBit idx)) = none := by
    simp [checksOf, State.decoderOn, State.binIndex, State.binValid, Decoder.inside, ha, hx, hm, inside]
  have hb := Rcd.bit_gives (r := s.rcd) wf long inside hlt part gives needs
  have done := exec_completes (i := .decBit idx) (fun _ => by simp) h0 hc (by simp only [bodyOf, slot, hb]; rfl)
  rw [Rcd.shifted, State.rcd_dec, ha] at done
  refine ⟨done, fun t ht => ?_⟩
  obtain rfl := Host.Outcome.next.inj (done.symm.trans ht)
  exact SlotFile.slot?_put_self _ _ _

/-- Settles O45, by the command. -/
theorem decLiteralsReturnTheirValue : Obligations.DecLiteralsReturnTheirValue := by
  intro s n qs r h0 ha long
  refine ⟨fun hn1 hn reads => ⟨reads.value_lt, ?_⟩, fun reads => ?_, fun reads => ?_⟩
  · exact exec_completes (i := .decBits n) (fun _ => by simp) h0
      (by simp [checksOf, State.decoderOn, ha, hn1, hn])
      (by rw [bodyOf, Rcd.bits_reads long hn reads]; rfl)
  · exact exec_completes (i := .decFloat) (fun _ => by simp) h0 (by simp [checksOf, State.decoderOn, ha])
      (by rw [bodyOf, Rcd.halves_reads (n := 2) long reads]; rfl)
  · exact exec_completes (i := .decDouble) (fun _ => by simp) h0 (by simp [checksOf, State.decoderOn, ha])
      (by rw [bodyOf, Rcd.halves_reads (n := 4) long reads]; rfl)

end Sys2Proof.Machine
end

section
/-! SUPPORT. What a decoding command leaves when no fault is left (43_range_dec.md R215): a value in range, and the
code value inside an interval of 2^24 at least. -/

namespace Sys2Proof.Machine

/-- What a decoder micro-operation that went on has done. -/
theorem Rcd.Ends.of_ok {σ α : Type} {m : Run σ α} {post : α → σ → Prop} (h : Rcd.Ends m post) {a : α} {t : σ}
    (ht : m = .ok a t) : post a t := by
  obtain ⟨b, u, hu, hp⟩ | ⟨f, u, hu, -⟩ := h
  · cases hu.symm.trans ht
    exact hp
  · cases hu.symm.trans ht

/-- The code value lies in the interval, which is long enough for the next command (43_range_dec.md R215). -/
def Decoder.Settled (d : Decoder) : Prop := 2 ^ 24 ≤ d.drange.toNat ∧ d.dvalue.toNat < d.drange.toNat

/-- A step that takes a part with the code value in it leaves the decoder settled. -/
theorem Rcd.Narrowed.settled {x w : Nat} {r r' : Rcd} (h : Rcd.Narrowed x w r r')
    (hp : InPart x w r.dec.dvalue.toNat) : r'.dec.Settled := by
  obtain ⟨low, high⟩ := hp
  refine ⟨h.range, ?_⟩
  obtain ⟨bs, -, -, -, value, range, -⟩ := h
  rw [value, range]
  exact shifted_value_lt (by omega)

/-- The code value lies in the part that its quotient numbers (43_range_dec.md R208). -/
theorem inPart_quotient {value len : Nat} (h : 1 ≤ len) : InPart (value / len * len) len value :=
  ⟨Nat.div_mul_le_self _ _, Nat.lt_div_mul_add h⟩

/-- Literals read leave the decoder settled, when there is one at least or it was settled before. -/
theorem Rcd.ReadsLiterals.settled {ns qs : List Nat} {r r' : Rcd} (h : Rcd.ReadsLiterals ns qs r r')
    (long : 2 ^ 24 ≤ r.dec.drange.toNat) (narrow : ∀ n ∈ ns, n ≤ 19) (hr : ns = [] → r.dec.Settled) :
    r'.dec.Settled := by
  induction ns generalizing qs r with
  | nil =>
    cases qs with
    | nil => exact (show r' = r from h) ▸ hr rfl
    | cons q qs => exact absurd h id
  | cons n ns ih =>
    cases qs with
    | nil => exact absurd h id
    | cons q qs =>
      obtain ⟨rfl, -, r1, step, rest⟩ := h
      rw [List.forall_mem_cons] at narrow
      exact ih rest step.range narrow.2 fun _ => step.settled (inPart_quotient (lit_len long narrow.1))

/-- No literal of `DEC.BITS` is wider than 19 bits (43_range_dec.md R207). -/
theorem literalWidths_le {n : Nat} (hn : n ≤ 32) : ∀ k ∈ literalWidths n, k ≤ 19 := by
  unfold literalWidths
  split_ifs
  · simp only [List.forall_mem_cons]
    exact ⟨by omega, by omega, nofun⟩
  · simp only [List.forall_mem_cons]
    exact ⟨by omega, nofun⟩

/-- There is a literal in every `DEC.BITS`. -/
theorem literalWidths_ne_nil (n : Nat) : literalWidths n ≠ [] := by
  unfold literalWidths
  split_ifs <;> exact List.cons_ne_nil _ _

/-- A number cut to the response stays below what it was below. -/
theorem toNat_ofNat_lt {v b : Nat} (hv : v < b) : (BitVec.ofNat 64 v).toNat < b := by
  rw [BitVec.toNat_ofNat]
  exact (Nat.mod_le _ _).trans_lt hv

/-- A fault-free `DEC.SYM` returns a symbol of its model. -/
theorem decSym_returns {s t : State} {idx : Index} {m : SymModel} (inv : s.Inv)
    (hm : SlotFile.slot? s.sm idx.toNat = some m) (ht : exec (.decSym idx) s = .next t) (hf : t.fault = 0#8) :
    t.dec.Settled ∧ t.res.toNat < m.n := by
  obtain ⟨h0, hc, d, u, hb, -, rfl⟩ := exec_unfaulted (fun _ => by simp) ht hf
  obtain ⟨on, -⟩ := checks_hold (fun _ => by simp) hc
  have sound := inv.sound h0
  have slot : s.symAt idx = m := by simp [State.symAt, hm]
  obtain ⟨v, p, hp, rfl, rfl⟩ := Run.value_within_eq_ok hb
  rw [slot] at hp
  obtain ⟨⟨hv, part, step⟩, -⟩ := (Rcd.sym_spec (sound.sm.at_slot hm) (sound.decoder_open on)).of_ok hp
  exact ⟨step.settled part, toNat_ofNat_lt hv⟩

/-- A fault-free `DEC.BIT` returns a bit. -/
theorem decBit_returns {s t : State} {idx : Index} (inv : s.Inv) (ht : exec (.decBit idx) s = .next t)
    (hf : t.fault = 0#8) : t.dec.Settled ∧ t.res.toNat < 2 := by
  obtain ⟨h0, hc, d, u, hb, -, rfl⟩ := exec_unfaulted (fun _ => by simp) ht hf
  obtain ⟨on, -, -, valid, -⟩ := checks_hold (fun _ => by simp) hc
  have sound := inv.sound h0
  obtain ⟨m, hm⟩ := Option.isSome_iff_exists.1 valid
  have slot : s.binAt idx = m := by simp [State.binAt, hm]
  obtain ⟨b, p, hp, rfl, rfl⟩ := Run.value_within_eq_ok hb
  rw [slot] at hp
  obtain ⟨⟨hlt, part, step⟩, -⟩ := (Rcd.bit_spec (sound.bm.at_slot hm) (sound.decoder_open on)).of_ok hp
  exact ⟨step.settled part, toNat_ofNat_lt hlt⟩

/-- A fault-free command that reads literals returns their value. -/
theorem literals_return {s t : State} {i : Instr} {m : Run Rcd Nat} {widths : List Nat} (hi : ∀ a, i ≠ .csrRd a)
    (inv : s.Inv) (h0 : s.fault = 0#8) (ha : s.dec.active = true) (ht : exec i s = .next t) (hf : t.fault = 0#8)
    (hb : bodyOf s i = (m.within s.withRcd).value fun v => some (BitVec.ofNat 64 v))
    (hm : Rcd.Ends m fun v r => ∃ qs, Rcd.ReadsLiterals widths qs s.rcd r ∧ v = literalValue qs ∧ r.dec.Open)
    (narrow : ∀ n ∈ widths, n ≤ 19) (nonempty : widths ≠ []) :
    t.dec.Settled ∧ ∃ qs r, Rcd.ReadsLiterals widths qs s.rcd r ∧ t.res = BitVec.ofNat 64 (literalValue qs) := by
  obtain ⟨-, -, d, u, hd, -, rfl⟩ := exec_unfaulted hi ht hf
  obtain ⟨v, r, hr, rfl, rfl⟩ := Run.value_within_eq_ok (hb.symm.trans hd)
  obtain ⟨qs, reads, rfl, -⟩ := hm.of_ok hr
  have opened := (inv.sound h0).decoder_open ha
  exact ⟨reads.settled opened.range narrow fun h => absurd h nonempty, qs, r, reads, rfl⟩

/-- The checks, rule by rule, are the checks in their order (60_exceptions.md R275). -/
theorem firstFailure_of_checksOk {s : State} {i : Instr} (hi : ∀ a, i ≠ .csrRd a) (h : checksOk s i = true) :
    firstFailure (checksOf s i) = none := by
  simp only [checksOk, Bool.and_eq_true] at h
  obtain ⟨⟨⟨⟨⟨sequence, index⟩, config⟩, slot⟩, operands⟩, stream⟩ := h
  exact firstFailure_checksOf_eq_none hi sequence index config slot operands stream

/-- Settles O48: from a state in the invariant a command is answered, and what it leaves without a fault is
what its body left. -/
theorem decoderIsTotal : Obligations.DecoderIsTotal := by
  intro s i inv h0 ha hi hc
  have hcsr : ∀ a, i ≠ .csrRd a := by
    rintro a rfl
    simp at hi
  have hchecks := firstFailure_of_checksOk hcsr hc
  obtain ⟨t, ht⟩ := inv.exec_next i
  refine ⟨t, ht, (exec_fault_of_checks hcsr h0 hchecks ht).imp_left fun hf => ⟨hf, ?_⟩⟩
  have opened := (inv.sound h0).decoder_open ha
  simp only [List.mem_cons, List.not_mem_nil, or_false] at hi
  rcases hi with (rfl | rfl) | ⟨idx, rfl⟩ | ⟨idx, rfl⟩ | ⟨n, rfl⟩
  · obtain ⟨⟨range, value⟩, qs, r, reads, res⟩ :=
      literals_return hcsr inv h0 ha ht hf rfl (Rcd.halves_spec opened) (by decide) (by decide)
    refine ⟨range, value, nofun, nofun, nofun, fun _ => ?_⟩
    rw [res]
    exact toNat_ofNat_lt (Rcd.ReadsLiterals.value_lt (n := 32) reads)
  · obtain ⟨⟨range, value⟩, -⟩ :=
      literals_return hcsr inv h0 ha ht hf rfl (Rcd.halves_spec opened) (by decide) (by decide)
    exact ⟨range, value, nofun, nofun, nofun, nofun⟩
  · obtain ⟨-, -, -, valid, -, -⟩ := checks_hold hcsr hchecks
    obtain ⟨m, hm⟩ := Option.isSome_iff_exists.1 valid
    obtain ⟨⟨range, value⟩, symbol⟩ := decSym_returns inv hm ht hf
    refine ⟨range, value, ?_, nofun, nofun, nofun⟩
    rintro _ m' ⟨⟩ hm'
    cases hm.symm.trans hm'
    exact symbol
  · obtain ⟨⟨range, value⟩, bit⟩ := decBit_returns inv ht hf
    exact ⟨range, value, nofun, fun _ _ => bit, nofun, nofun⟩
  · obtain ⟨-, -, -, -, operand, -⟩ := checks_hold hcsr hchecks
    obtain ⟨-, narrow⟩ := of_decide_eq_true operand
    obtain ⟨⟨range, value⟩, qs, r, reads, res⟩ :=
      literals_return hcsr inv h0 ha ht hf rfl (Rcd.bits_spec opened narrow) (literalWidths_le narrow)
        (literalWidths_ne_nil _)
    refine ⟨range, value, nofun, nofun, ?_, nofun⟩
    rintro _ ⟨⟩
    rw [res]
    exact toNat_ofNat_lt reads.value_lt

end Sys2Proof.Machine
end

section
/-! SUPPORT. A literal that faults (43_range_dec.md R208, 90_conflicts.md C9): which fault it raises, and where it
leaves the source; then the literals of a command one after another, and the source after the command, whatever
the free value. -/

namespace Sys2Proof.Machine

/-! ## Where a fault stops the source -/

/-- The source `q` where a fault has stopped a run that began at `p`, after the bytes that `came`: these are off it,
and counted, and so may be the answer that broke off. -/
def Source.Stopped (p q : Source) (came : Nat) (code : BitVec 8) : Prop :=
  q.count = p.count + BitVec.ofNat 64 came ∧
    (q.answers = p.answers.drop came ∨ (p.Breaks came code ∧ q.answers = p.answers.drop (came + 1)))

/-- Whatever the free value, the source stands within the bounds of 60_exceptions.md R278. -/
theorem Source.Stopped.tookAtMost_left {p q : Source} {came : Nat} {code : BitVec 8} (h : p.Stopped q came code)
    (taken : Nat) : p.Left (Source.tookAtMost taken p q) came := by
  obtain ⟨count, answers | ⟨breaks, answers⟩⟩ := h
  · exact Source.tookAtMost_left count answers taken
  · exact Source.tookAtMost_left_of_break breaks count answers taken

/-- The bytes given are the first answers. -/
theorem Source.Gives.drop {p : Source} {bs : List Byte} {rest : List SrcAnswer} (h : p.Gives bs rest) :
    p.answers.drop bs.length = rest := by
  rw [h, List.drop_left' (by simp)]

/-- A source that gives some bytes and then breaks off breaks off so many bytes later. -/
theorem Source.Breaks.after {p q : Source} {bs : List Byte} {more : Nat} {code : BitVec 8}
    (hg : p.Gives bs q.answers) (h : q.Breaks more code) : p.Breaks (bs.length + more) code := by
  obtain ⟨bs', rest, gives, rfl, stop⟩ := h
  refine ⟨bs ++ bs', rest, ?_, List.length_append, stop⟩
  rw [Source.Gives, hg, gives, List.map_append, List.append_assoc]

/-- A run that goes on where another has taken bytes stops so many bytes later. -/
theorem Source.Stopped.after {p q u : Source} {bs : List Byte} {more : Nat} {code : BitVec 8}
    (hg : p.Gives bs q.answers) (hc : q.count = p.count + BitVec.ofNat 64 bs.length) (h : q.Stopped u more code) :
    p.Stopped u (bs.length + more) code := by
  obtain ⟨count, answers⟩ := h
  refine ⟨by rw [count, hc, BitVec.ofNat_add, BitVec.add_assoc], ?_⟩
  rw [← hg.drop, List.drop_drop, List.drop_drop, ← Nat.add_assoc] at answers
  exact answers.imp_right fun ⟨breaks, ha⟩ => ⟨breaks.after hg, ha⟩

/-! ## Literals that fault -/

/-- A run of the decoder from `r` raises the fault with this code, after the bytes that `came`. -/
def Rcd.Faults {α : Type} (m : Run Rcd α) (r : Rcd) (code : BitVec 8) (came : Nat) : Prop :=
  ∃ f r', m = .raised f r' ∧ f.code = code ∧ r.src.Stopped r'.src came code

theorem Rcd.Faults.bind {α β : Type} {m : Run Rcd α} {r : Rcd} {code : BitVec 8} {came : Nat}
    (h : Rcd.Faults m r code came) (k : α → Rcd → Run Rcd β) : Rcd.Faults (m.bind k) r code came := by
  obtain ⟨f, r', rfl, rest⟩ := h
  exact ⟨f, r', rfl, rest⟩

theorem Rcd.Faults.value {α β : Type} {m : Run Rcd α} {r : Rcd} {code : BitVec 8} {came : Nat}
    (h : Rcd.Faults m r code came) (g : α → β) : Rcd.Faults (m.value g) r code came := by
  obtain ⟨f, r', rfl, rest⟩ := h
  exact ⟨f, r', rfl, rest⟩

/-- What is raised after a step of the decoder, seen from before it. -/
theorem Rcd.Faults.after {α : Type} {m : Run Rcd α} {x w : Nat} {r r1 : Rcd} {code : BitVec 8} {more : Nat}
    (step : Rcd.Narrowed x w r r1) (h : Rcd.Faults m r1 code more) : Rcd.Faults m r code (r.taken r1 + more) := by
  obtain ⟨bs, -, gives, count, -⟩ := step
  obtain ⟨f, r', hm, hf, stopped⟩ := h
  have taken : r.taken r1 = bs.length := by
    rw [Rcd.taken, gives, List.length_append, List.length_map, Nat.add_sub_cancel]
  exact ⟨f, r', hm, hf, taken ▸ stopped.after gives count⟩

/-- The interval step of a literal, which comes before its quotient is checked (43_range_dec.md R208). -/
def Rcd.litStep (n : Nat) (r : Rcd) : Run Rcd Unit :=
  (r.setInterval (r.dec.dvalue - word (mul32 (r.dec.drange >>> n).toNat
    (udiv r.dec.dvalue.toNat (r.dec.drange >>> n).toNat))) (r.dec.drange >>> n)).renormIfSmall

/-- A literal is its step, and then the check of its quotient (90_conflicts.md C9). -/
theorem Rcd.lit_eq (n : Nat) (r : Rcd) :
    r.lit n = (r.litStep n).bind fun _ r1 =>
      if r.dec.dvalue.toNat / (r.dec.drange.toNat / 2 ^ n) < 2 ^ n then
        .ok (r.dec.dvalue.toNat / (r.dec.drange.toNat / 2 ^ n)) r1
      else .raised .corruptedStream r1 := by
  obtain ⟨step, -, -⟩ := Rcd.lit_words (n := n) (d := r.dec)
  rw [← step]
  rfl

/-- The step of a literal lacks a byte: the source's fault, whatever the quotient. -/
theorem Rcd.lit_lacks {n : Nat} {r : Rcd} {code : BitVec 8} {came : Nat}
    (h : r.src.Lacks (r.dec.drange.toNat / 2 ^ n) code came) : Rcd.Faults (r.lit n) r code came := by
  have ⟨_, _, _, breaks⟩ := h
  obtain ⟨step, -, -⟩ := Rcd.lit_words (n := n) (d := r.dec)
  rw [← step] at h
  obtain ⟨f, r', hm, hf, hs⟩ := Rcd.narrow_lacks h
  rw [Rcd.lit_eq]
  exact Rcd.Faults.bind ⟨f, r', hm, hf, by rw [hs], .inr ⟨breaks, by rw [hs]⟩⟩ _

/-- A quotient out of range is found once the bytes of the step have come. -/
theorem Rcd.lit_corrupted {n : Nat} {r : Rcd} (long : 2 ^ 24 ≤ r.dec.drange.toNat) (hn : n ≤ 19)
    (hq : 2 ^ n ≤ r.dec.dvalue.toNat / (r.dec.drange.toNat / 2 ^ n)) {bs : List Byte} {rest : List SrcAnswer}
    (gives : r.src.Gives bs rest) (needs : Needs (r.dec.drange.toNat / 2 ^ n) bs.length) :
    Rcd.Faults (r.lit n) r 0x06#8 bs.length := by
  obtain ⟨step, value, below⟩ := Rcd.lit_words (n := n) (d := r.dec)
  obtain ⟨-, high⟩ := inPart_quotient (value := r.dec.dvalue.toNat) (lit_len long hn)
  have stepped : r.litStep n = .ok () (Rcd.shifted _ _ bs rest r) :=
    Rcd.narrow_gives (by omega) (by omega) gives (by rw [step]; exact needs)
  rw [Rcd.lit_eq, stepped, Run.bind_ok, if_neg (by omega)]
  exact ⟨_, _, rfl, rfl, rfl, .inl gives.drop.symm⟩

/-- A literal faults as 43_range_dec.md R208 says. -/
theorem Rcd.FailsLiteral.faults {n : Nat} {r : Rcd} {code : BitVec 8} {came : Nat}
    (h : Rcd.FailsLiteral n r code came) (long : 2 ^ 24 ≤ r.dec.drange.toNat) (hn : n ≤ 19) :
    Rcd.Faults (r.lit n) r code came := by
  obtain lacks | ⟨rfl, hq, needs, bs, rest, gives, rfl⟩ := h
  · exact Rcd.lit_lacks lacks
  · exact Rcd.lit_corrupted long hn hq gives needs

/-- Of a literal and what follows it, the first that faults decides. -/
theorem Rcd.FailsLiterals.faults_cons {α : Type} {n : Nat} {ns : List Nat} {r : Rcd} {code : BitVec 8} {came : Nat}
    {k : Nat → Rcd → Run Rcd α} (h : Rcd.FailsLiterals (n :: ns) r code came)
    (long : 2 ^ 24 ≤ r.dec.drange.toNat) (hn : n ≤ 19)
    (hk : ∀ q r1 more, 2 ^ 24 ≤ r1.dec.drange.toNat → Rcd.FailsLiterals ns r1 code more →
      Rcd.Faults (k q r1) r1 code more) :
    Rcd.Faults ((r.lit n).bind k) r code came := by
  obtain first | ⟨q, r1, more, reads, others, rfl⟩ := h
  · exact (first.faults long hn).bind k
  · rw [Rcd.lit_reads long hn reads, Run.bind_ok]
    obtain ⟨-, -, _, step, rfl⟩ := reads
    exact (hk q _ more step.range others).after step

/-- One literal is all that can fault of one. -/
theorem Rcd.FailsLiterals.single {n : Nat} {r : Rcd} {code : BitVec 8} {came : Nat}
    (h : Rcd.FailsLiterals [n] r code came) : Rcd.FailsLiteral n r code came :=
  h.resolve_right fun ⟨_, _, _, _, empty, _⟩ => empty

/-- The literals of `DEC.BITS` (43_range_dec.md R207). -/
theorem Rcd.FailsLiterals.bits_faults {n : Nat} {r : Rcd} {code : BitVec 8} {came : Nat}
    (h : Rcd.FailsLiterals (literalWidths n) r code came) (long : 2 ^ 24 ≤ r.dec.drange.toNat) (hn : n ≤ 32) :
    Rcd.Faults (r.bits n) r code came := by
  unfold literalWidths at h
  unfold Rcd.bits
  simp only [Config.litSplit, Config.halfBits]
  split_ifs at h ⊢
  · exact h.faults_cons long (by decide) fun lo r1 more long1 h1 => (h1.single.faults long1 (by omega)).value _
  · exact h.single.faults long (by omega)

/-- The half-words of `DEC.FLOAT` and `DEC.DOUBLE` (43_range_dec.md R209, R210). -/
theorem Rcd.FailsLiterals.halves_faults {n : Nat} {r : Rcd} {code : BitVec 8} {came : Nat}
    (h : Rcd.FailsLiterals (List.replicate n 16) r code came) (long : 2 ^ 24 ≤ r.dec.drange.toNat) :
    Rcd.Faults (Rcd.halves n r) r code came := by
  induction n generalizing r came with
  | zero => exact absurd h id
  | succ n ih => exact h.faults_cons long (by decide) fun lo r1 more long1 h1 => (ih h1 long1).value _

/-! ## The command -/

/-- An execution fault of a command that reaches nothing but the decoder leaves free values in its registers,
and the source between where it was and where it stopped (60_exceptions.md R278). -/
theorem State.settle_decoder (s : State) (r : Rcd) : ∃ dec taken residues,
    s.settle { dec := true } (s.withRcd r) =
      { s with dec := dec, src := Source.tookAtMost taken s.src r.src, residues := residues } := by
  unfold State.settle
  split
  · refine ⟨r.dec, s.src.answers.length, s.residues, ?_⟩
    rw [Source.tookAtMost, if_neg (by omega)]
    rfl
  · exact ⟨_, _, _, rfl⟩

/-- The outcome of a literal command that faults. -/
def FaultsLiteral (s t : State) (code : BitVec 8) (came : Nat) : Prop :=
  t.fault = code ∧ t.responses = s.responses ++ [{ status := code, data := 0#64 }] ∧ t.res = s.res ∧
    s.src.Left t.src came ∧ t.enc = s.enc ∧ t.sink = s.sink ∧ t.bm = s.bm ∧ t.sm = s.sm ∧ t.ic = s.ic

/-- A command whose checks hold and whose run of the decoder faults. -/
theorem exec_literals_fault {s : State} {i : Instr} {m : Run Rcd Nat} {g : Nat → Option Dword} {code : BitVec 8}
    {came : Nat} (hi : ∀ a, i ≠ .csrRd a) (h0 : s.fault = 0#8) (hc : firstFailure (checksOf s i) = none)
    (hb : bodyOf s i = (m.within s.withRcd).value g) (ht : touchOf i = { dec := true })
    (hm : Rcd.Faults m s.rcd code came) : ∃ t, exec i s = .next t ∧ FaultsLiteral s t code came := by
  obtain ⟨f, r, rfl, rfl, stopped⟩ := hm
  obtain ⟨dec, taken, residues, settled⟩ := s.settle_decoder r
  refine ⟨s.raiseInExecution { dec := true } f (s.withRcd r), ?_, ?_⟩
  · rw [exec_command s i hi, State.command_runs h0 hc, hb, ht]
    rfl
  · rw [State.raiseInExecution, settled]
    exact ⟨rfl, rfl, rfl, stopped.tookAtMost_left taken, rfl, rfl, rfl, rfl, rfl⟩

/-- The literals of the three commands: the first that fails decides. -/
theorem exec_fails_literals {s : State} {n : BitVec 8} {i : Instr} {widths : List Nat} {code : BitVec 8} {came : Nat}
    (h0 : s.fault = 0#8) (ha : s.dec.active = true) (long : 2 ^ 24 ≤ s.dec.drange.toNat) (hn1 : 1 ≤ n.toNat)
    (hn : n.toNat ≤ 32)
    (hi : (i, widths) ∈ [(Instr.decBits n, literalWidths n.toNat), (.decFloat, [16, 16]),
      (.decDouble, [16, 16, 16, 16])])
    (h : Rcd.FailsLiterals widths s.rcd code came) : ∃ t, exec i s = .next t ∧ FaultsLiteral s t code came := by
  simp only [List.mem_cons, List.not_mem_nil, or_false, Prod.mk.injEq] at hi
  rcases hi with ⟨rfl, rfl⟩ | ⟨rfl, rfl⟩ | ⟨rfl, rfl⟩
  · exact exec_literals_fault (fun _ => by simp) h0 (by simp [checksOf, State.decoderOn, ha, hn1, hn]) rfl rfl
      (h.bits_faults long hn)
  · exact exec_literals_fault (fun _ => by simp) h0 (by simp [checksOf, State.decoderOn, ha]) rfl rfl
      (Rcd.FailsLiterals.halves_faults (n := 2) h long)
  · exact exec_literals_fault (fun _ => by simp) h0 (by simp [checksOf, State.decoderOn, ha]) rfl rfl
      (Rcd.FailsLiterals.halves_faults (n := 4) h long)

/-- Settles O23: a `DEC.BITS` of up to 19 bits is one literal. -/
theorem literalFaultsInOrder : Obligations.LiteralFaultsInOrder := by
  refine ⟨fun s n h0 ha long hn1 hn hq => ?_, fun s n i widths code came h0 ha long hn1 hn hi h =>
    exec_fails_literals h0 ha long hn1 hn hi h⟩
  have one : ∀ {code came}, Rcd.FailsLiteral n.toNat s.rcd code came →
      ∃ t, exec (.decBits n) s = .next t ∧ t.fault = code ∧
        t.responses = s.responses ++ [{ status := code, data := 0#64 }] ∧ t.res = s.res ∧ s.src.Left t.src came := by
    intro code came h
    have fails : Rcd.FailsLiterals (literalWidths n.toNat) s.rcd code came := by
      rw [literalWidths, if_neg (by omega)]
      exact .inl h
    obtain ⟨t, ht, fault, responses, res, left, -⟩ :=
      exec_fails_literals h0 ha long hn1 (by omega) (List.mem_cons_self ..) fails
    exact ⟨t, ht, fault, responses, res, left⟩
  exact ⟨fun bs rest gives needs => one (.inr ⟨rfl, hq, needs, bs, rest, gives, rfl⟩),
    fun got need code needs short breaks => one (.inl ⟨need, needs, short, breaks⟩)⟩

end Sys2Proof.Machine
end

section
/-! SUPPORT. The corrector interval of a compressor and its canonical initial state, case by case
(44_integer_codec.md R231, R233). -/

namespace Sys2Proof.Machine

/-! ## The derived fields -/

/-- With a value range the range is the modulus (44_integer_codec.md R231). -/
theorem IntComp.derived_of_range {c : IntComp} (h : c.derive = c) (hr : c.rng ≠ 0#32) :
    c.corrBits = rangeBits c.rng.toNat ∧ c.corrRange = c.rng ∧ c.corrMin = -((c.rng.toNat / 2 : Nat) : Int) ∧
      c.corrMax = c.corrMin + c.rng.toNat - 1 := by
  have fields := h.symm.trans (if_pos hr)
  have least := congrArg IntComp.corrMin fields
  exact ⟨congrArg IntComp.corrBits fields, congrArg IntComp.corrRange fields, least,
    least ▸ congrArg IntComp.corrMax fields⟩

/-- With a width of 1 to 31 bits, and no value range, the modulus is a power of two (44_integer_codec.md R231). -/
theorem IntComp.derived_of_width {c : IntComp} (h : c.derive = c) (hr : c.rng = 0#32) (hmin : 1 ≤ c.bits)
    (hmax : c.bits ≤ 31) :
    c.corrBits = c.bits ∧ c.corrRange.toNat = 2 ^ c.bits ∧ c.corrMin = -2 ^ (c.bits - 1) ∧
      c.corrMax = 2 ^ (c.bits - 1) - 1 := by
  have fields := h.symm.trans ((if_neg (not_not.mpr hr)).trans (if_pos ⟨hmin, hmax⟩))
  have small : 2 ^ c.bits ≤ 2 ^ 31 := Nat.pow_le_pow_right (by decide) hmax
  have modulus : (word (2 ^ c.bits)).toNat = 2 ^ c.bits := Nat.mod_eq_of_lt (by omega)
  exact ⟨congrArg IntComp.corrBits fields, (congrArg (·.corrRange.toNat) fields).trans modulus,
    congrArg IntComp.corrMin fields, congrArg IntComp.corrMax fields⟩

/-- With neither there is no modulus, and every `i32` number is a corrector (44_integer_codec.md R231). -/
theorem IntComp.derived_of_full {c : IntComp} (h : c.derive = c) (hr : c.rng = 0#32)
    (hb : ¬(1 ≤ c.bits ∧ c.bits ≤ 31)) :
    c.corrBits = 32 ∧ c.corrRange = 0#32 ∧ c.corrMin = -2 ^ 31 ∧ c.corrMax = 2 ^ 31 - 1 := by
  have fields := h.symm.trans ((if_neg (not_not.mpr hr)).trans (if_neg hb))
  exact ⟨congrArg IntComp.corrBits fields, congrArg IntComp.corrRange fields, congrArg IntComp.corrMin fields,
    congrArg IntComp.corrMax fields⟩

/-- A compressor without a modulus has every `i32` number as a corrector (44_integer_codec.md R231). -/
theorem IntComp.Wf.interval_of_full {c : IntComp} (h : c.Wf) (h0 : c.corrRange = 0#32) :
    c.corrMin = -2 ^ 31 ∧ c.corrMax = 2 ^ 31 - 1 := by
  by_cases hr : c.rng = 0#32
  · by_cases hb : 1 ≤ c.bits ∧ c.bits ≤ 31
    · obtain ⟨-, modulus, -⟩ := IntComp.derived_of_width h.derived hr hb.1 hb.2
      have positive := Nat.two_pow_pos c.bits
      rw [← modulus, h0] at positive
      exact absurd positive (by decide)
    · exact (IntComp.derived_of_full h.derived hr hb).2.2
  · exact absurd ((IntComp.derived_of_range h.derived hr).2.1 ▸ h0) hr

/-! ## Configuration and initialisation -/

/-- `IC.CFG` keeps its parameters (44_integer_codec.md R231). -/
theorem IntComp.configure_parameters (bits contexts bitsHigh : Nat) (rng : Word) :
    (IntComp.configure bits contexts bitsHigh rng).bits = bits ∧
      (IntComp.configure bits contexts bitsHigh rng).contexts = contexts ∧
      (IntComp.configure bits contexts bitsHigh rng).bitsHigh = bitsHigh ∧
      (IntComp.configure bits contexts bitsHigh rng).rng = rng := by
  unfold IntComp.configure IntComp.derive
  split_ifs <;> exact ⟨rfl, rfl, rfl, rfl⟩

/-- The payload model of a class in the canonical initial state (44_integer_codec.md R233). -/
theorem IntComp.reset_mcorrAt (c : IntComp) {q : Nat} (hmin : 1 ≤ q) (hmax : q ≤ c.corrBits) :
    c.reset.mcorrAt q = SymModel.fresh (2 ^ min q c.bitsHigh) := by
  have listed : q - 1 < c.corrBits := by omega
  simp [IntComp.mcorrAt, IntComp.reset, listed, Nat.sub_add_cancel hmin]

theorem IntComp.reset_mcorr_length (c : IntComp) : c.reset.mcorr.length = c.corrBits := by
  simp [IntComp.reset]

/-- The modulus, the interval and the class bits that a value range gives (44_integer_codec.md R231). -/
theorem IntComp.Wf.range_bounds {c : IntComp} (h : c.Wf) (hr : c.rng ≠ 0#32) :
    c.rng.toNat ≤ 2 ^ c.corrBits ∧ 2 ^ (c.corrBits - 1) < c.rng.toNat := by
  obtain ⟨bits, -⟩ := IntComp.derived_of_range h.derived hr
  obtain ⟨positive, -, fits, tight⟩ := rangeBits_bounds (h.rng.resolve_left hr)
  rw [← bits] at positive fits tight
  have double : 2 ^ c.corrBits = 2 * 2 ^ (c.corrBits - 1) := by
    rw [← pow_succ', Nat.sub_add_cancel positive]
  omega

end Sys2Proof.Machine
end

section
/-! SUPPORT. The integer compressor's commands that complete (44_integer_codec.md R231 to R238): `IC.CFG` and
`IC.INIT` write one compressor, `IC.ENC` and `IC.DEC` do what `IntComp.putCorr_spec` and `IntComp.getCorr_eq` say. -/

namespace Sys2Proof.Machine

/-- The compressor a command names, where its slot is valid. -/
theorem State.intAt_of_slot {s : State} {idx : Index} {c : IntComp}
    (h : SlotFile.slot? s.ic idx.toNat = some c) : s.intAt idx = c := by
  rw [State.intAt, h, Option.getD_some]

/-- A compressor that a command leaves written reads back as it was written. -/
theorem slot?_of_put_ic {s u t : State} {i : Nat} {c : IntComp} {o : Host.Outcome State Fault Refusal}
    (ho : o = .next u) (hu : u.ic = SlotFile.put i c s.ic) (ht : o = .next t) : SlotFile.slot? t.ic i = some c := by
  obtain rfl := Host.Outcome.next.inj (ho.symm.trans ht)
  rw [hu, SlotFile.slot?_put_self]

/-! ## Configuration and initialisation -/

/-- `IC.CFG` with legal parameters writes the compressor they configure (44_integer_codec.md R231). -/
theorem exec_icCfg {s : State} {idx : Index} {bits : BitVec 8} {contexts : BitVec 16} {bitsHigh : BitVec 8}
    {rng : Word} (h0 : s.fault = 0#8) (hx : idx.toNat < s.params.nIc)
    (hc : configOk s.params (.icCfg idx bits contexts bitsHigh rng) = true) :
    exec (.icCfg idx bits contexts bitsHigh rng) s = .next (s.withInt idx.toNat
      (IntComp.configure bits.toNat contexts.toNat bitsHigh.toNat rng)).done :=
  exec_completes (i := .icCfg idx bits contexts bitsHigh rng) (fun _ => by simp) h0
    (firstFailure_checksOf_eq_none (fun _ => by simp) rfl (decide_eq_true hx) hc rfl rfl rfl) rfl

/-- `IC.INIT` writes the canonical initial state of the compressor (44_integer_codec.md R232). -/
theorem exec_icInit {s : State} {idx : Index} {c : IntComp} (h0 : s.fault = 0#8) (hx : idx.toNat < s.params.nIc)
    (hs : SlotFile.slot? s.ic idx.toNat = some c) :
    exec (.icInit idx) s = .next (s.withInt idx.toNat c.reset).done := by
  rw [← State.intAt_of_slot hs]
  exact exec_completes (i := .icInit idx) (fun _ => by simp) h0
    (by simp [checksOf, State.intIndex, State.intValid, hx, hs]) rfl

/-- Settles O51: the derived fields are those of `IntComp.configure_wf`, by the case of R231. -/
theorem icCfgConfigures : Obligations.IcCfgConfigures := by
  intro s idx bits contexts bitsHigh rng h0 hx hbits hmin hmax hhigh hhigh' hrng
  have zero : rng = 0#32 ↔ rng.toNat = 0 := by rw [← BitVec.toNat_inj]; rfl
  have done := exec_icCfg h0 hx (bits := bits) (contexts := contexts) (bitsHigh := bitsHigh) (rng := rng)
    (by simp only [configOk, decide_eq_true_eq]; omega)
  have wf : (IntComp.configure bits.toNat contexts.toNat bitsHigh.toNat rng).Wf :=
    IntComp.configure_wf hbits hmin ⟨hhigh, hhigh'⟩ (hrng.imp_left zero.mpr)
  obtain ⟨ebits, econtexts, ehigh, erng⟩ :=
    IntComp.configure_parameters bits.toNat contexts.toNat bitsHigh.toNat rng
  refine ⟨_, done, fun t => slot?_of_put_ic done rfl, ebits, econtexts, ehigh, erng, fun hne => ?_,
    fun h hb hb' => ?_, fun h hb => ?_, rfl, congrArg (List.replicate · _) econtexts, rfl,
    IntComp.reset_mcorr_length _, fun q hq hq' => ?_⟩
  · have given := erng ▸ mt zero.mp hne
    obtain ⟨-, modulus, least, most⟩ := IntComp.derived_of_range wf.derived given
    obtain ⟨fits, tight⟩ := wf.range_bounds given
    rw [erng] at modulus least most fits tight
    exact ⟨fits, tight, modulus, least, most⟩
  · have fields :=
      IntComp.derived_of_width wf.derived (erng.trans (zero.mpr h)) (ebits.symm ▸ hb) (ebits.symm ▸ hb')
    rwa [ebits] at fields
  · exact IntComp.derived_of_full wf.derived (erng.trans (zero.mpr h)) (by omega)
  · exact (IntComp.reset_mcorrAt _ hq hq').trans (congrArg (fun h => SymModel.fresh (2 ^ min q h)) ehigh)

/-- Settles O52: the compressor written is `IntComp.reset`. -/
theorem icInitResets : Obligations.IcInitResets := fun _ _ c h0 hx hs _ =>
  ⟨c.reset, exec_icInit h0 hx hs, fun _ => slot?_of_put_ic (exec_icInit h0 hx hs) rfl, rfl, rfl, rfl,
    c.reset_mcorr_length, fun _ => c.reset_mcorrAt⟩

/-- Settles O55: the body returns the `k` of the compressor. -/
theorem icGetkReturnsTheClass : Obligations.IcGetkReturnsTheClass := by
  intro s idx c h0 hx hs
  rw [← State.intAt_of_slot hs]
  exact exec_completes (i := .icGetk idx) (fun _ => by simp) h0
    (by simp [checksOf, State.intIndex, State.intValid, hx, hs]) rfl

/-! ## Coding a corrector -/

/-- A payload coded leaves the class that was set before it (44_integer_codec.md R235). -/
theorem Rce.CodesPayload.k_eq {c c' : IntComp} {k u : Nat} {r r' : Rce} (h : Rce.CodesPayload c k u r r' c') :
    c'.k = c.k := by
  unfold Rce.CodesPayload at h
  split_ifs at h
  · obtain ⟨-, rfl⟩ := h
    rfl
  · obtain ⟨r1, -, -, rfl⟩ := h
    rfl

/-- After a corrector is coded, `k` is its class (44_integer_codec.md R235). -/
theorem Rce.CodesCorrector.inClass {c c' : IntComp} {ctx : Nat} {corr : Int} {r r' : Rce}
    (h : Rce.CodesCorrector c ctx corr r r' c') : InClass c'.k corr := by
  obtain ⟨k, r1, class_k, -, -, h⟩ := h
  have set_k : c'.k = k := by
    split_ifs at h
    · obtain ⟨-, rfl⟩ := h
      rfl
    · obtain ⟨u, -, payload⟩ := h
      exact payload.k_eq
    · obtain ⟨-, rfl⟩ := h
      rfl
  rwa [set_k]

/-- Settles O53: the coding is that of `IntComp.putCorr_spec`. -/
theorem icEncCodesTheCorrector : Obligations.IcEncCodesTheCorrector := by
  intro s idx ctx pred real c h0 ho hk hx hs wf hctx least most
  have slot := State.intAt_of_slot hs
  have interval : c.inInterval (c.fold pred real) = true := by
    rw [folded_eq] at least most
    simp [IntComp.inInterval, least, most]
  have hc : firstFailure (checksOf s (.icEnc idx ctx pred real)) = none := by
    simp [checksOf, State.encoderOn, State.intIndex, State.intValid, ho.active, hx, hs, slot, hctx, interval]
  obtain ⟨⟨r, c'⟩, hr, coded, wf', -, -⟩ := (IntComp.putCorr_spec wf hctx interval (r := s.rce) ho).accepting hk
  have hb : bodyOf s (.icEnc idx ctx pred real) = .ok none ((s.withRce r).withInt idx.toNat c') := by
    simp [bodyOf, slot, hr]
  have done := exec_completes (fun _ => by simp) h0 hc hb
  exact ⟨r, c', coded, coded.inClass, wf', done, fun t => slot?_of_put_ic done rfl⟩

/-- The unfolding of `IC.DEC` as the statements write it: wrapping to 32 bits once, at the end, or at every
addition, makes no difference. -/
theorem unfolded_eq (c : IntComp) (pred : Word) (corr : Int) : c.unfolded pred corr = c.unfold pred corr := by
  have sum : BitVec.ofInt 32 (pred.toInt + corr) = pred + u32of corr := by
    rw [BitVec.ofInt_add, BitVec.ofInt_toInt, u32of]
  have up : BitVec.ofInt 32 (pred.toInt + corr + c.corrRange.toNat) = pred + u32of corr + c.corrRange := by
    rw [← sum]
    exact (u32of_add _ _).trans (congrArg _ (u32of_toNat _))
  have down : BitVec.ofInt 32 (pred.toInt + corr - c.corrRange.toNat) = pred + u32of corr - c.corrRange := by
    rw [← sum]
    exact u32of_sub_toNat _ _
  rw [IntComp.unfolded, up, down, sum]
  rfl

/-- Settles O54: the decoding is that of `IntComp.getCorr_eq`. -/
theorem icDecReturnsTheValue : Obligations.IcDecReturnsTheValue := by
  intro s idx ctx pred c c' corr r h0 ha long hx hs wf hctx decoded
  have slot := State.intAt_of_slot hs
  have hc : firstFailure (checksOf s (.icDec idx ctx pred)) = none := by
    simp [checksOf, State.decoderOn, State.intIndex, State.intValid, ha, hx, hs, slot, hctx]
  have hb : bodyOf s (.icDec idx ctx pred) =
      .ok (some ((c.unfolded pred corr).zeroExtend 64)) ((s.withRcd r).withInt idx.toNat c') := by
    simp [bodyOf, slot, IntComp.getCorr_eq (r := s.rcd) wf hctx long decoded, unfolded_eq]
  have done := exec_completes (fun _ => by simp) h0 hc hb
  exact ⟨done, fun t => slot?_of_put_ic done rfl⟩

/-! ## Classes -/

/-- A corrector is in no class but the one its command computes. -/
theorem InClass.eq_corrClass {k : Nat} {corr : Int} (hb : -2 ^ 31 ≤ corr ∧ corr ≤ 2 ^ 31 - 1)
    (h : InClass k corr) : k = corrClass corr := by
  rw [inClass_iff hb] at h
  obtain ⟨below, least⟩ := h
  rw [corrClass_eq hb]
  refine le_antisymm ?_ (bitlen_le.mpr below)
  obtain rfl | least := least
  · exact Nat.zero_le _
  · exact Nat.le_of_pred_lt (lt_bitlen.mpr least)

/-- Settles O56: the class, its offset and the value of both are those of R235 and R237. -/
theorem classesPartitionTheCorrectors : Obligations.ClassesPartitionTheCorrectors := by
  intro corr hmin hmax
  have class_of := corrClass_inClass ⟨hmin, hmax⟩
  refine ⟨class_of, fun k => InClass.eq_corrClass ⟨hmin, hmax⟩, fun h1 h31 => ?_⟩
  have offset := corrOffset_at h1 h31 class_of
  exact ⟨offset.1, atOffset_unique h1 h31 class_of offset⟩

end Sys2Proof.Machine
end

section
/-! SUPPORT. How far folding and unfolding are inverse (44_integer_codec.md R239, log 25): up to the modulus where
no step wraps or the modulus divides 2^32, exactly in the narrowed proviso, and not beyond it. -/

namespace Sys2Proof.Machine

/-! ## Congruence -/

/-- A number wrapped to 32 bits is congruent to itself for every modulus that divides 2^32. -/
theorem bmod_modEq_of_dvd {m : Nat} (h : m ∣ 2 ^ 32) (z : Int) : z.bmod (2 ^ 32) ≡ z [ZMOD m] :=
  Int.ModEq.of_dvd (Int.natCast_dvd_natCast.mpr h) Int.bmod_emod

/-- Folding adds a multiple of the modulus (44_integer_codec.md R234). -/
theorem IntComp.folded_modEq (c : IntComp) (pred real : Word) :
    c.folded pred real ≡ (real - pred).toInt [ZMOD c.corrRange.toNat] := by
  unfold IntComp.folded
  split_ifs
  · exact Int.add_modEq_right
  · exact Int.sub_modulus_modEq_iff.mpr rfl
  · rfl

/-- Unfolding adds a multiple of the modulus and wraps, and does not wrap a sum that is an `i32` number
(44_integer_codec.md R236). -/
theorem IntComp.unfolded_eq_ofInt (c : IntComp) (pred : Word) (corr : Int) :
    ∃ z, c.unfolded pred corr = BitVec.ofInt 32 z ∧ z ≡ pred.toInt + corr [ZMOD c.corrRange.toNat] ∧
      (c.corrRange.toNat ≤ 2 ^ 31 → -2 ^ 31 ≤ pred.toInt + corr → pred.toInt + corr < 2 ^ 31 →
        -2 ^ 31 ≤ z ∧ z < 2 ^ 31) := by
  unfold IntComp.unfolded
  split_ifs with neg past
  · refine ⟨_, rfl, Int.add_modEq_right, fun hm h h' => ?_⟩
    rw [BitVec.toInt_ofInt_eq_self (by decide) h h'] at neg
    omega
  · refine ⟨_, rfl, Int.sub_modulus_modEq_iff.mpr rfl, fun hm h h' => ?_⟩
    rw [BitVec.toInt_ofInt_eq_self (by decide) h h'] at neg
    have value : ((BitVec.ofInt 32 (pred.toInt + corr)).toNat : Int) = pred.toInt + corr :=
      u32of_toNat_of_nonneg (by omega) (by omega)
    omega
  · exact ⟨_, rfl, rfl, fun _ h h' => ⟨h, h'⟩⟩

/-- What is folded and unfolded is congruent to the value, where no step wraps or a turn of 2^32 is a multiple
of the modulus (44_integer_codec.md R239, log 25). -/
theorem IntComp.unfolded_folded_modEq {c : IntComp} (hm : c.corrRange.toNat ≤ 2 ^ 31) {pred real : Word}
    (h : c.Unwrapped pred real ∨ c.corrRange.toNat ∣ 2 ^ 32) :
    (c.unfolded pred (c.folded pred real)).toInt ≡ real.toInt [ZMOD c.corrRange.toNat] := by
  obtain ⟨z, value, sum, range⟩ := c.unfolded_eq_ofInt pred (c.folded pred real)
  have read : (BitVec.ofInt 32 z).toInt ≡ z [ZMOD c.corrRange.toNat] := by
    obtain ⟨-, low, high⟩ | turn := h
    · obtain ⟨low', high'⟩ := range hm low high
      rw [BitVec.toInt_ofInt_eq_self (by decide) low' high']
    · rw [BitVec.toInt_ofInt]
      exact bmod_modEq_of_dvd turn z
  have difference : (real - pred).toInt ≡ real.toInt - pred.toInt [ZMOD c.corrRange.toNat] := by
    obtain ⟨exact_difference, -⟩ | turn := h
    · rw [exact_difference]
    · rw [BitVec.toInt_sub]
      exact bmod_modEq_of_dvd turn _
  rw [value]
  calc (BitVec.ofInt 32 z).toInt ≡ z [ZMOD c.corrRange.toNat] := read
    _ ≡ pred.toInt + c.folded pred real [ZMOD c.corrRange.toNat] := sum
    _ ≡ pred.toInt + (real.toInt - pred.toInt) [ZMOD c.corrRange.toNat] :=
      ((c.folded_modEq pred real).trans difference).add_left _
    _ = real.toInt := by ring

/-! ## The narrowed proviso -/

/-- Nothing lies below the modulus 0, which stands for none. -/
theorem IntComp.Below.modulus_ne_zero {c : IntComp} {pred real : Word} (h : c.Below pred real) :
    c.corrRange ≠ 0#32 := fun h0 => by simpa [h0] using h.1

/-- A pair below a modulus folds to a corrector, whether or not it comes back (44_integer_codec.md R234). -/
theorem IntComp.Wf.folded_interval_of_below {c : IntComp} (wf : c.Wf) {pred real : Word} (below : c.Below pred real) :
    c.corrMin ≤ c.folded pred real ∧ c.folded pred real ≤ c.corrMax := by
  obtain ⟨hm, least, most⟩ := wf.modulus below.modulus_ne_zero
  have folded := c.fold_of_below hm below rfl
  obtain ⟨hp, hr⟩ := below
  rw [folded_eq]
  split_ifs at folded <;> omega

/-- What a pair in the narrowed proviso folds to is a corrector (44_integer_codec.md R239, log 25). -/
theorem IntComp.Wf.folded_interval {c : IntComp} (wf : c.Wf) {pred real : Word} (h : c.Proper pred real) :
    c.corrMin ≤ c.folded pred real ∧ c.folded pred real ≤ c.corrMax := by
  obtain full | ⟨below, -⟩ := h
  · obtain ⟨least, most⟩ := wf.interval_of_full full
    have low := BitVec.le_toInt (real - pred)
    have high := BitVec.toInt_lt (x := real - pred)
    have folded : c.folded pred real = (real - pred).toInt := by simp [IntComp.folded, full]
    omega
  · exact wf.folded_interval_of_below below

/-- With a modulus of at most 1431655766 no sum of a prediction and a corrector reaches 2^31: it is greatest for a
value folded upward, which is at least half a modulus below the prediction. -/
theorem IntComp.Wf.proper_of_below {c : IntComp} (wf : c.Wf) {pred real : Word} (below : c.Below pred real)
    (small : c.corrRange.toNat ≤ 1431655766) : c.Proper pred real := by
  obtain ⟨hm, least, most⟩ := wf.modulus below.modulus_ne_zero
  have folded := c.fold_of_below hm below rfl
  refine .inr ⟨below, .inl ?_⟩
  obtain ⟨hp, hr⟩ := below
  rw [folded_eq]
  split_ifs at folded <;> omega

/-- Settles O57: exactly by `IntComp.unfold_fold`, up to the modulus by `IntComp.unfolded_folded_modEq`. -/
theorem foldingRoundTrip : Obligations.FoldingRoundTrip := by
  intro c pred real wf
  refine ⟨fun proper => ?_, wf.proper_of_below, fun modulus h => ?_⟩
  · obtain ⟨least, most⟩ := wf.folded_interval proper
    refine ⟨least, most, ?_⟩
    rw [unfolded_eq, folded_eq, IntComp.unfold_fold wf proper]
  · exact (IntComp.unfolded_folded_modEq (wf.modulus modulus).1 h).symm.dvd

/-! ## Beyond the proviso -/

/-- A value folded upward whose sum with the prediction reaches 2^31 is not the one that comes back: the sum is read
as negative, and the modulus is added once more (log 25). -/
theorem IntComp.unfold_fold_ne {c : IntComp} (hm : c.corrRange.toNat < 2 ^ 31) {pred real : Word}
    (below : c.Below pred real) (upward : (real.toNat : Int) - pred.toNat < c.corrMin)
    (large : 2 ^ 31 ≤ real.toNat + c.corrRange.toNat) : c.unfold pred (c.fold pred real) ≠ real := by
  have folded := c.fold_of_below hm.le below rfl
  rw [if_pos upward] at folded
  obtain ⟨hp, hr⟩ := below
  rw [IntComp.unfold_of_large (z := real.toNat + c.corrRange.toNat) (by omega) (by omega) (by omega), u32of_add,
    u32of_add, u32of_toNat, u32of_toNat]
  bv_omega

/-- The greatest prediction below the modulus, and the greatest value that is folded upward from it. -/
theorem IntComp.large_modulus_pair {c : IntComp} (wf : c.Wf) (least : 1431655767 ≤ c.corrRange.toNat)
    (most : c.corrRange.toNat ≤ 2 ^ 31 - 1) : ∃ pred real : Word, c.Below pred real ∧
      (real.toNat : Int) - pred.toNat < c.corrMin ∧ 2 ^ 31 ≤ real.toNat + c.corrRange.toNat := by
  obtain ⟨-, lower, -⟩ := wf.modulus fun h0 => by simp [h0] at least
  have value : ∀ n, n < 2 ^ 32 → (word n).toNat = n := fun _ => Nat.mod_eq_of_lt
  refine ⟨word (c.corrRange.toNat - 1), word (c.corrRange.toNat - c.corrRange.toNat / 2 - 2), ?_⟩
  unfold IntComp.Below
  rw [value _ (by omega), value _ (by omega)]
  omega

/-- Settles O58: the pairs of `IntComp.large_modulus_pair`, and for the range 100 a sum that wraps, where 2^32 is not
a multiple of 100. -/
theorem foldingFailsForALargeRange : Obligations.FoldingFailsForALargeRange := by
  refine ⟨fun rng least most => ?_, 0x8000003B#32, 0x7FFFFFFF#32, by decide⟩
  have wf : (IntComp.configure 0 1 8 rng).Wf :=
    IntComp.configure_wf (by decide) (by decide) (by decide) (.inr ⟨by omega, most⟩)
  obtain ⟨-, -, -, given⟩ := IntComp.configure_parameters 0 1 8 rng
  have modulus : (IntComp.configure 0 1 8 rng).corrRange = rng := by
    refine (IntComp.derived_of_range wf.derived ?_).2.1.trans given
    rw [given]
    rintro rfl
    exact absurd least (by decide)
  rw [← modulus] at least most
  obtain ⟨pred, real, below, upward, large⟩ := IntComp.large_modulus_pair wf least most
  obtain ⟨lower, upper⟩ := wf.folded_interval_of_below below
  refine ⟨pred, real, below, lower, upper, ?_⟩
  rw [unfolded_eq, folded_eq]
  exact IntComp.unfold_fold_ne (by omega) below upward large

end Sys2Proof.Machine
end

section
/-! SUPPORT. The order of the checks for every command, `CSR.RD` among them (60_exceptions.md R272 to R275,
R279): the first that fails is the fault recorded, and the fault of no other is. -/

namespace Sys2Proof.Machine

/-- A command is `CSR.RD`, or it has the form of `exec_command`. -/
theorem Instr.csrRd_or_ne (i : Instr) : (∃ a, i = .csrRd a) ∨ ∀ a, i ≠ .csrRd a :=
  or_iff_not_imp_left.2 fun h a ha => h ⟨a, ha⟩

/-- `firstFailure_checksOf` for every command: `CSR.RD` has no check that could fail (45_system.md R260). -/
theorem firstFailure_order (s : State) (i : Instr) :
    firstFailure (checksOf s i) =
      if sequenceOk s i = false then some .sequenceError
      else if indexOk s.params i = false ∨ configOk s.params i = false then some .configError
      else if slotOk s i = false then some .notInitialised
      else if operandsOk s i = false then some .operandRange
      else if streamOk s i = false then some .corruptedStream
      else none := by
  obtain ⟨a, rfl⟩ | hi := Instr.csrRd_or_ne i
  · rfl
  · exact firstFailure_checksOf s i hi

/-- The first check that fails is the whole outcome, for every command (60_exceptions.md R277). -/
theorem exec_faults_first {s : State} {i : Instr} {f : FaultCode} (h0 : s.fault = 0#8)
    (hc : firstFailure (checksOf s i) = some f) : exec i s = .next (s.faulted f.code) :=
  exec_faults (by rintro a rfl; cases hc) h0 hc

/-- Different faults have different codes (60_exceptions.md R270). -/
theorem FaultCode.code_injective : ∀ {f g : FaultCode}, f.code = g.code → f = g := by
  intro f g
  cases f <;> cases g <;> decide

/-- What a command leaves in `FAULT` when none was there: nothing, the fault of the first check that fails, or
an execution fault (60_exceptions.md R275, R277, R278). -/
theorem exec_fault_cases {s t : State} {i : Instr} (h0 : s.fault = 0#8) (hw : i.wellFormed = true)
    (ht : exec i s = .next t) :
    t.fault = 0#8 ∨ ∃ f, t.fault = f.code ∧ (firstFailure (checksOf s i) = some f ∨ InExecution f) := by
  obtain ⟨a, rfl⟩ | hi := Instr.csrRd_or_ne i
  · obtain ⟨c, hc⟩ := Option.isSome_iff_exists.1 hw
    obtain rfl := Host.Outcome.next.inj ((exec_csrRd hc).symm.trans ht)
    exact .inl h0
  rcases exec_cases s i hi with ⟨hne, -⟩ | ⟨-, f, hf, he⟩ | ⟨-, -, d, u, -, kept, he⟩ |
    ⟨-, -, f, u, -, hf, -, he⟩ | ⟨-, -, -, he⟩
  · exact absurd h0 hne
  · obtain rfl := Host.Outcome.next.inj (he.symm.trans ht)
    exact .inr ⟨f, rfl, .inl hf⟩
  · obtain rfl := Host.Outcome.next.inj (he.symm.trans ht)
    left
    cases d <;> exact kept.fault.trans h0
  · obtain rfl := Host.Outcome.next.inj (he.symm.trans ht)
    exact .inr ⟨f, rfl, .inr hf⟩
  · cases he.symm.trans ht

/-- A precise fault is recorded by no command whose first failing check raises another, or none. -/
theorem exec_fault_ne {s t : State} {i : Instr} {f : FaultCode} (h0 : s.fault = 0#8) (hw : i.wellFormed = true)
    (hc : firstFailure (checksOf s i) ≠ some f) (hf : ¬ InExecution f) (ht : exec i s = .next t) :
    t.fault ≠ f.code := by
  intro hcode
  obtain h | ⟨g, hg, first⟩ := exec_fault_cases h0 hw ht
  · exact f.code_ne_zero (hcode.symm.trans h)
  · obtain rfl := FaultCode.code_injective (hg.symm.trans hcode)
    exact first.elim hc hf

/-- Settles O13: the activity check is the first. -/
theorem sequenceErrorWhen : Obligations.SequenceErrorWhen := by
  intro s i h0 hw
  refine ⟨fun hs => exec_faults_first (f := .sequenceError) h0 (by rw [firstFailure_order, if_pos hs]),
    fun hs t => exec_fault_ne (f := .sequenceError) h0 hw ?_ (by simp [InExecution])⟩
  rw [firstFailure_order, hs]
  split_ifs <;> simp_all

/-- Settles O14: the checks of an index and of a configuration parameter raise one fault, and come next. -/
theorem configErrorWhen : Obligations.ConfigErrorWhen := by
  intro s i h0 hw hs
  have fails : indexOk s.params i = false ∨ configOk s.params i = false →
      exec i s = .next (s.faulted 0x03#8) := fun h =>
    exec_faults_first (f := .configError) h0 (by rw [firstFailure_order, hs, if_neg nofun, if_pos h])
  refine ⟨fun hx => fails (.inl hx), fun hg => fails (.inr hg),
    fun hx hg t => exec_fault_ne (f := .configError) h0 hw ?_ (by simp [InExecution])⟩
  rw [firstFailure_order, hs, hx, hg]
  split_ifs <;> simp_all

/-- Settles O15: the check of the slot named comes after those of its index. -/
theorem notInitialisedWhen : Obligations.NotInitialisedWhen := by
  intro s i h0 hw hs hx hg
  refine ⟨fun hv => exec_faults_first (f := .notInitialised) h0 (by simp [firstFailure_order, hs, hx, hg, hv]),
    fun hv t => exec_fault_ne (f := .notInitialised) h0 hw ?_ (by simp [InExecution])⟩
  rw [firstFailure_order, hs, hx, hg, hv]
  split_ifs <;> simp_all

/-- Settles O16: the checks of the operands come after those of the slot. -/
theorem operandRangeWhen : Obligations.OperandRangeWhen := by
  intro s i h0 hw hs hx hg hv
  refine ⟨fun ho => exec_faults_first (f := .operandRange) h0
      (by simp [firstFailure_order, hs, hx, hg, hv, ho]),
    fun ho t => exec_fault_ne (f := .operandRange) h0 hw ?_ (by simp [InExecution])⟩
  rw [firstFailure_order, hs, hx, hg, hv, ho]
  split_ifs <;> simp_all

end Sys2Proof.Machine
end

section
/-! SUPPORT. Bits that are no command, and what `FAULT` does once it is not 0 (60_exceptions.md R271, R276,
R281). -/

namespace Sys2Proof.Machine

/-- Bits that no well-formed command encodes to do not decode (30_encoding.md R95). -/
theorem decode_error_of_no_command {w : Command} (h : ∀ i : Instr, i.wellFormed = true → encode i ≠ w) :
    ∃ e, decode w = .error e := by
  cases hd : decode w with
  | ok i =>
    obtain ⟨wellFormed, encoded⟩ := encode_of_decode hd
    exact absurd encoded (h i wellFormed)
  | error e => exact ⟨e, rfl⟩

/-- A step at bits that no well-formed command encodes to is an illegal command. -/
theorem step_of_no_command {s : State} {w : Command} {rest : List PortEvent} (hp : s.port = .command w :: rest)
    (h : ∀ i : Instr, i.wellFormed = true → encode i ≠ w) :
    step s = ({ s with port := rest } : State).illegalCommand := by
  obtain ⟨e, hd⟩ := decode_error_of_no_command h
  rw [step_of_event hp, State.take, State.present, hd]

/-- An illegal command records its code when no fault is recorded (60_exceptions.md R271, R277). -/
theorem State.illegalCommand_faulted {s : State} (h0 : s.fault = 0#8) :
    s.illegalCommand = .next (s.faulted 0x01#8) := if_pos h0

/-- An illegal command is refused while a fault is recorded (60_exceptions.md R276). -/
theorem State.illegalCommand_refused {s : State} (h : s.fault ≠ 0#8) : s.illegalCommand = .next s.refused :=
  if_neg h

/-- Settles O6: such bits do not decode. -/
theorem otherBitsAreIllegal : Obligations.OtherBitsAreIllegal := fun _ _ _ hp hn h0 =>
  (step_of_no_command hp hn).trans (State.illegalCommand_faulted h0)

/-- While a fault is recorded every command but `CSR.RD` is refused (60_exceptions.md R276). -/
theorem exec_refused {s : State} {i : Instr} (h : s.fault ≠ 0#8) (hi : ∀ a, i ≠ .csrRd a) :
    exec i s = .next s.refused := by
  rw [exec_command s i hi]
  exact State.command_refused h _ _ _

/-- No command changes a fault that is recorded (60_exceptions.md R276). -/
theorem exec_keeps_fault {s t : State} {i : Instr} (h : s.fault ≠ 0#8) (ht : exec i s = .next t) :
    t.fault = s.fault := by
  obtain ⟨a, rfl⟩ | hi := Instr.csrRd_or_ne i
  · cases hc : Csr.ofAddress a with
    | some c =>
      obtain rfl := Host.Outcome.next.inj ((exec_csrRd hc).symm.trans ht)
      rfl
    | none =>
      have illegal : exec (.csrRd a) s = s.illegalCommand := by simp [exec, execCsrRd, hc]
      obtain rfl := Host.Outcome.next.inj ((illegal.trans (State.illegalCommand_refused h)).symm.trans ht)
      rfl
  · obtain rfl := Host.Outcome.next.inj ((exec_refused h hi).symm.trans ht)
    rfl

/-- Nor do bits presented, whether they are a command or not. -/
theorem State.present_keeps_fault {s t : State} {w : Command} (h : s.fault ≠ 0#8) (ht : s.present w = .next t) :
    t.fault = s.fault := by
  unfold State.present at ht
  split at ht
  · exact exec_keeps_fault h ht
  · obtain rfl := Host.Outcome.next.inj ((State.illegalCommand_refused h).symm.trans ht)
    rfl

/-- Settles O18: refusals, and for a step the event that the port presents. -/
theorem faultIsSticky : Obligations.FaultIsSticky := by
  refine ⟨fun s i => exec_refused, fun s w rest hp h hn =>
    (step_of_no_command hp hn).trans (State.illegalCommand_refused h), fun s t h noReset noAbandon ht => ?_⟩
  cases hp : s.port with
  | nil =>
    obtain rfl := Host.Outcome.next.inj ((step_of_idle hp).symm.trans ht)
    rfl
  | cons e rest =>
    rw [step_of_event hp] at ht
    cases e with
    | command w => exact State.present_keeps_fault (s := { s with port := rest }) h ht
    | reset => exact absurd hp (noReset rest)
    | abandoned w n => exact absurd hp (noAbandon w n rest)
    | seek answers =>
      obtain rfl := Host.Outcome.next.inj ht
      rfl

end Sys2Proof.Machine
end

section
/-! SUPPORT. What a command leaves alone, whatever its outcome (60_exceptions.md R276 to R278, 20_memory.md R73,
R74): `Kept`, with the activity of the coders (`bodyOf_encActive`, `bodyOf_decActive`), after each outcome. -/

namespace Sys2Proof.Machine

/-- The state `t` differs from `s` in nothing that the pseudocode of the command cannot write. -/
def KeepsTo (i : Instr) (s t : State) : Prop :=
  (usesEncoder i = false → t.enc = s.enc) ∧ (usesDecoder i = false → t.dec = s.dec) ∧
    (usesSink i = false → t.sink = s.sink) ∧ (usesSource i = false → t.src = s.src) ∧
    (returnsData i = false → t.res = s.res) ∧
    (i ≠ .encInit → i ≠ .encDone → t.enc.active = s.enc.active) ∧
    (i ≠ .decInit → i ≠ .decDone → t.dec.active = s.dec.active) ∧
    (∀ k, binWritten i ≠ some k → SlotFile.slot? t.bm k = SlotFile.slot? s.bm k) ∧
    (∀ k, symWritten i ≠ some k → SlotFile.slot? t.sm k = SlotFile.slot? s.sm k) ∧
    (∀ k, intWritten i ≠ some k → SlotFile.slot? t.ic k = SlotFile.slot? s.ic k) ∧
    t.params = s.params ∧ t.port = s.port

/-- A command whose run has left everything else alone ends by writing `FAULT`, a response, and `RES` where it
returns data. -/
theorem Kept.keepsTo {i : Instr} {s u : State} (h : Kept i s u)
    (he : i ≠ .encInit → i ≠ .encDone → u.enc.active = s.enc.active)
    (hd : i ≠ .decInit → i ≠ .decDone → u.dec.active = s.dec.active) {res : Dword} {fault : BitVec 8}
    {responses : List Response} (hr : returnsData i = false → res = u.res) :
    KeepsTo i s { u with res := res, fault := fault, responses := responses } :=
  ⟨h.enc, h.dec, h.sink, h.src, fun hn => (hr hn).trans h.res, he, hd, h.bm, h.sm, h.ic, h.params, h.port⟩

/-- A command that has run nothing of its body. -/
theorem KeepsTo.of_unchanged {i : Instr} {s : State} {res : Dword} {fault : BitVec 8} {responses : List Response}
    (hr : returnsData i = false → res = s.res) :
    KeepsTo i s { s with res := res, fault := fault, responses := responses } :=
  Kept.rfl.keepsTo (fun _ _ => rfl) (fun _ _ => rfl) hr

/-- Completing writes `RES` only for a command that returns data (10_state.md R31). -/
theorem Kept.keepsTo_complete {i : Instr} {s u : State} (h : Kept i s u)
    (he : i ≠ .encInit → i ≠ .encDone → u.enc.active = s.enc.active)
    (hd : i ≠ .decInit → i ≠ .decDone → u.dec.active = s.dec.active) {d : Option Dword}
    (hr : d.isSome = returnsData i) : KeepsTo i s (u.complete d) := by
  cases d with
  | none => exact h.keepsTo he hd fun _ => Eq.refl _
  | some d => exact h.keepsTo he hd fun hn => absurd (hr.trans hn) (by simp)

/-- The footprint of a command names the activity of the encoder only where it ends a chunk. -/
theorem touchOf_encActive {i : Instr} (h : i ≠ .encDone) : (touchOf i).encActive = false := by
  cases i with
  | encDone => exact absurd rfl h
  | _ => rfl

/-- The footprint of a command names the activity of the decoder only where it starts a chunk. -/
theorem touchOf_decActive {i : Instr} (h : i ≠ .decInit) : (touchOf i).decActive = false := by
  cases i with
  | decInit => exact absurd rfl h
  | _ => rfl

/-- `CSR.RD` leaves alone all but `RES`, or, at an address that is no register's, is an illegal command. -/
theorem exec_csrRd_keepsTo {s t : State} {a : Index} (ht : exec (.csrRd a) s = .next t) :
    KeepsTo (.csrRd a) s t := by
  cases hc : Csr.ofAddress a with
  | some c =>
    obtain rfl := Host.Outcome.next.inj ((exec_csrRd hc).symm.trans ht)
    exact .of_unchanged nofun
  | none =>
    have illegal : s.illegalCommand = .next t := by simpa [exec, execCsrRd, hc] using ht
    by_cases h0 : s.fault = 0#8
    · obtain rfl := Host.Outcome.next.inj ((State.illegalCommand_faulted h0).symm.trans illegal)
      exact .of_unchanged nofun
    · obtain rfl := Host.Outcome.next.inj ((State.illegalCommand_refused h0).symm.trans illegal)
      exact .of_unchanged nofun

/-- Settles O20, by the ways a command ends. -/
theorem commandsKeepToTheirState : Obligations.CommandsKeepToTheirState := by
  intro s t i ht
  change KeepsTo i s t
  obtain ⟨a, rfl⟩ | hi := Instr.csrRd_or_ne i
  · exact exec_csrRd_keepsTo ht
  rcases exec_cases s i hi with ⟨-, he⟩ | ⟨-, f, -, he⟩ | ⟨-, -, d, u, hb, kept, he⟩ |
    ⟨-, -, f, u, hb, -, kept, he⟩ | ⟨-, -, -, he⟩
  · obtain rfl := Host.Outcome.next.inj (he.symm.trans ht)
    exact .of_unchanged fun _ => rfl
  · obtain rfl := Host.Outcome.next.inj (he.symm.trans ht)
    exact .of_unchanged fun _ => rfl
  · obtain rfl := Host.Outcome.next.inj (he.symm.trans ht)
    have ends : (bodyOf s i).EndsAt u := .inl ⟨d, hb⟩
    exact kept.keepsTo_complete (fun h h' => bodyOf_encActive h h' u ends)
      (fun h h' => bodyOf_decActive h h' u ends) (bodyOf_data hi hb)
  · obtain rfl := Host.Outcome.next.inj (he.symm.trans ht)
    have ends : (bodyOf s i).EndsAt u := .inr ⟨f, hb⟩
    obtain ⟨enc, dec⟩ := s.settle_active u (touchOf i)
    exact kept.keepsTo
      (fun h h' => (enc (touchOf_encActive h')).trans (bodyOf_encActive h h' u ends))
      (fun h h' => (dec (touchOf_decActive h)).trans (bodyOf_decActive h h' u ends)) fun _ => rfl
  · cases he.symm.trans ht

end Sys2Proof.Machine
end

section
/-! SUPPORT. An execution fault as its command reports it (60_exceptions.md R278): for every free value the fault is
recorded and answered, the sink is as it was at the `raise`, and the source no further; and a slot file of which
the command names no slot is the list it was. -/

namespace Sys2Proof.Machine

/-! ## What the free values leave -/

/-- The free value of the slot named is no transfer. -/
theorem Touch.slots_ports (f : Touch) (u : Residue) (s : State) :
    (f.slots u s).sink = s.sink ∧ (f.slots u s).src = s.src := by
  unfold Touch.slots
  split <;> exact ⟨rfl, rfl⟩

/-- What a refused burst left at the sink stays there. -/
theorem State.settle_sink (s t : State) (f : Touch) : (s.settle f t).sink = t.sink := by
  unfold State.settle
  split
  · rfl
  · exact (f.slots_ports _ _).1

/-- The source stands somewhere between where it was before the command and where it was at the `raise`. -/
theorem State.settle_src (s t : State) (f : Touch) :
    ∃ taken, (s.settle f t).src = Source.tookAtMost taken s.src t.src := by
  unfold State.settle
  split
  · exact ⟨s.src.answers.length, by rw [Source.tookAtMost, if_neg (by omega)]⟩
  · exact ⟨_, (f.slots_ports _ _).2⟩

/-- A command whose checks hold and whose body raises reports the fault, for every free value. -/
theorem exec_raises {s v : State} {i : Instr} {f : FaultCode} (hi : ∀ a, i ≠ .csrRd a) (h0 : s.fault = 0#8)
    (hc : firstFailure (checksOf s i) = none) (hb : bodyOf s i = .raised f v) :
    ∃ t, exec i s = .next t ∧ t.fault = f.code ∧
      t.responses = s.responses ++ [{ status := f.code, data := 0#64 }] ∧ t.res = s.res ∧
      t.sink = v.sink ∧ ∃ taken, t.src = Source.tookAtMost taken s.src v.src := by
  have kept := State.settle_kept (bodyOf_kept (.inr ⟨f, hb⟩))
  refine ⟨(s.settle (touchOf i) v).raisePrecise f, ?_, rfl, ?_, kept.res, s.settle_sink v _, s.settle_src v _⟩
  · rw [exec_command s i hi, State.command_runs h0 hc, hb]
    rfl
  · rw [State.raisePrecise_responses, kept.responses]

/-! ## The slot files -/

/-- A file of which the command names no slot is the same list. -/
structure FilesKept (i : Instr) (s t : State) : Prop where
  bm : binWritten i = none → t.bm = s.bm
  sm : symWritten i = none → t.sm = s.sm
  ic : intWritten i = none → t.ic = s.ic

theorem FilesKept.of_eq {i : Instr} {s t : State} (hb : t.bm = s.bm) (hm : t.sm = s.sm) (hi : t.ic = s.ic) :
    FilesKept i s t := ⟨fun _ => hb, fun _ => hm, fun _ => hi⟩

theorem FilesKept.withBin {i : Instr} {s t : State} (h : FilesKept i s t) {j : Nat} (hj : binWritten i = some j)
    (m : BinModel) : FilesKept i s (t.withBin j m) := ⟨fun hn => by simp [hn] at hj, h.sm, h.ic⟩

theorem FilesKept.withSym {i : Instr} {s t : State} (h : FilesKept i s t) {j : Nat} (hj : symWritten i = some j)
    (m : SymModel) : FilesKept i s (t.withSym j m) := ⟨h.bm, fun hn => by simp [hn] at hj, h.ic⟩

theorem FilesKept.withInt {i : Instr} {s t : State} (h : FilesKept i s t) {j : Nat} (hj : intWritten i = some j)
    (c : IntComp) : FilesKept i s (t.withInt j c) := ⟨h.bm, h.sm, fun hn => by simp [hn] at hj⟩

/-- A body leaves alone the files of which its command names no slot, whether it completes or raises. -/
theorem bodyOf_filesKept (s : State) (i : Instr) : (bodyOf s i).EndsIn (FilesKept i s) := by
  have same : ∀ {t : State}, t.bm = s.bm → t.sm = s.sm → t.ic = s.ic → FilesKept i s t := .of_eq
  have rce : ∀ r, FilesKept i s (s.withRce r) := fun _ => same rfl rfl rfl
  have rcd : ∀ r, FilesKept i s (s.withRcd r) := fun _ => same rfl rfl rfl
  have ran : ∀ {σ α : Type} {m : Run σ α} {g : σ → State} {k : α → Option Dword},
      (∀ r, FilesKept i s (g r)) → ((m.within g).value k).EndsIn (FilesKept i s) := fun hg =>
    Run.EndsIn.value (Run.EndsIn.within (good := fun _ => True) (fun _ _ => trivial) fun r _ => hg r)
  cases i with
  | bmInit j => exact .ok ((same rfl rfl rfl).withBin rfl _)
  | smCfg j n | smInit j => exact .ok ((same rfl rfl rfl).withSym rfl _)
  | icCfg j | icInit j => exact .ok ((same rfl rfl rfl).withInt rfl _)
  | encInit | decDone | icGetk | csrRd => exact .ok (same rfl rfl rfl)
  | encBit => exact ran fun p => (rce p.1).withBin rfl p.2
  | encSym => exact ran fun p => (rce p.1).withSym rfl p.2
  | icEnc => exact ran fun p => (rce p.1).withInt rfl p.2
  | decBit => exact ran fun p => (rcd p.1).withBin rfl p.2
  | decSym => exact ran fun p => (rcd p.1).withSym rfl p.2
  | icDec => exact ran fun p => (rcd p.1).withInt rfl p.2
  | _ => exact ran fun _ => same rfl rfl rfl

/-- The footprint of a command names no slot but the one its command writes. -/
theorem touchOf_slot (i : Instr) :
    (∀ j, (touchOf i).slot = .bin j → binWritten i = some j) ∧
      (∀ j, (touchOf i).slot = .sym j → symWritten i = some j) ∧
      ∀ j, (touchOf i).slot = .int j → intWritten i = some j := by
  cases i <;> simp [touchOf, binWritten, symWritten, intWritten]

/-- An execution fault leaves alone the files of which its command names no slot, for every free value. -/
theorem State.settle_filesKept {s t : State} {i : Instr} (h : FilesKept i s t) :
    FilesKept i s (s.settle (touchOf i) t) := by
  obtain ⟨bin, sym, int⟩ := touchOf_slot i
  unfold State.settle
  split
  · exact h
  · have base : ∀ rest enc dec src,
        FilesKept i s { t with residues := rest, enc := enc, dec := dec, src := src } := fun _ _ _ _ =>
      ⟨h.bm, h.sm, h.ic⟩
    unfold Touch.slots
    split
    · exact base _ _ _ _
    · exact (base _ _ _ _).withBin (bin _ ‹_›) _
    · exact (base _ _ _ _).withSym (sym _ ‹_›) _
    · exact (base _ _ _ _).withInt (int _ ‹_›) _

/-- A command leaves alone the files of which it names no slot, whatever its outcome. -/
theorem exec_filesKept {s t : State} {i : Instr} (hi : ∀ a, i ≠ .csrRd a) (ht : exec i s = .next t) :
    FilesKept i s t := by
  rcases exec_cases s i hi with ⟨-, he⟩ | ⟨-, f, -, he⟩ | ⟨-, -, d, u, hb, -, he⟩ |
    ⟨-, -, f, u, hb, -, -, he⟩ | ⟨-, -, -, he⟩
  · obtain rfl := Host.Outcome.next.inj (he.symm.trans ht)
    exact .of_eq rfl rfl rfl
  · obtain rfl := Host.Outcome.next.inj (he.symm.trans ht)
    exact .of_eq rfl rfl rfl
  · obtain rfl := Host.Outcome.next.inj (he.symm.trans ht)
    obtain ⟨bm, sm, ic⟩ := bodyOf_filesKept s i u (.inl ⟨d, hb⟩)
    cases d <;> exact ⟨bm, sm, ic⟩
  · obtain rfl := Host.Outcome.next.inj (he.symm.trans ht)
    obtain ⟨bm, sm, ic⟩ := State.settle_filesKept (bodyOf_filesKept s i u (.inr ⟨f, hb⟩))
    exact ⟨bm, sm, ic⟩
  · cases he.symm.trans ht

end Sys2Proof.Machine
end

section
/-! SUPPORT. The encoder changes the sink by bursts only (42_range_enc.md R171, 20_memory.md R67): what every burst
keeps of the sink, accepted or refused, each coding step keeps, and so does each command. One such thing is the
difference of `SINK_COUNT` and the bytes at the sink (10_state.md R34). -/

namespace Sys2Proof.Machine

section
variable {α : Type} {good : Sink → Prop}

/-- A burst keeps this of the sink, whether it is accepted or refused. -/
def Sink.BurstsKeep (good : Sink → Prop) : Prop := ∀ b k, good k → (Sink.write b k).EndsIn good

/-- It holds of the encoder's sink. -/
abbrev Rce.At (good : Sink → Prop) (r : Rce) : Prop := good r.sink

/-- It holds of the sink of an encoder with a model or a compressor beside it. -/
abbrev Rce.AtWith (good : Sink → Prop) (p : Rce × α) : Prop := good p.1.sink

/-- A step on a model: the interval first, then the model. -/
theorem Rce.beside_keeps {m : Run Rce Unit} (hm : m.EndsIn (Rce.At good)) (c : α) (g : α → α) :
    ((m.within fun r => (r, c)).bind fun _ p => .ok () (p.1, g p.2)).EndsIn (Rce.AtWith good) :=
  Run.EndsIn.bind (hm.within (good' := Rce.AtWith good) fun _ h => h) fun _ _ h => .ok h

variable (hw : Sink.BurstsKeep good)
include hw

theorem Rce.flush_keeps {r : Rce} (h : good r.sink) : r.flush.EndsIn (Rce.At good) :=
  Run.EndsIn.bind ((hw _ _ h).within fun _ h1 => h1) fun _ _ h1 => .ok h1

theorem Rce.putByte_keeps (x : Byte) {r : Rce} (h : good r.sink) : (r.putByte x).EndsIn (Rce.At good) := by
  unfold Rce.putByte
  dsimp only
  split
  · exact Rce.flush_keeps hw h
  · exact .ok h

theorem Rce.putBytes_keeps (xs : List Byte) {r : Rce} (h : good r.sink) :
    (Rce.putBytes xs r).EndsIn (Rce.At good) := by
  induction xs generalizing r with
  | nil => exact .ok h
  | cons x xs ih => exact (Rce.putByte_keeps hw x h).bind fun _ _ h1 => ih h1

theorem Rce.shiftOut_keeps (x : Byte) {r : Rce} (h : good r.sink) : (r.shiftOut x).EndsIn (Rce.At good) := by
  unfold Rce.shiftOut
  split_ifs
  · exact .ok h
  · exact .ok h
  · exact (Rce.putBytes_keeps hw _ h).bind fun _ _ h1 => .ok h1

theorem Rce.add_keeps (x : Word) {r : Rce} (h : good r.sink) : (r.add x).EndsIn (Rce.At good) := by
  unfold Rce.add Rce.carry
  dsimp only
  split_ifs
  · exact .ok h
  · refine Run.EndsIn.bind (good := Rce.At good) ?_ fun _ _ h1 => .ok h1
    exact Rce.putBytes_keeps hw _ h
  · exact .ok h

theorem Rce.renormTurns_keeps (fuel : Nat) {r : Rce} (h : good r.sink) :
    (Rce.renormTurns fuel r).EndsIn (Rce.At good) := by
  induction fuel generalizing r with
  | zero => exact .diverged
  | succ n ih =>
    refine (Rce.shiftOut_keeps hw _ h).bind fun _ r1 h1 => ?_
    split
    · exact .ok h1
    · exact ih h1

theorem Rce.renormIfSmall_keeps {r : Rce} (h : good r.sink) : r.renormIfSmall.EndsIn (Rce.At good) := by
  unfold Rce.renormIfSmall
  split
  · exact Rce.renormTurns_keeps hw 3 h
  · exact .ok h

theorem Rce.narrow_keeps (x len : Word) {r : Rce} (h : good r.sink) : (r.narrow x len).EndsIn (Rce.At good) :=
  (Rce.add_keeps hw x h).bind fun _ _ h1 => Rce.renormIfSmall_keeps hw h1

theorem Rce.lit_keeps (n v : Nat) {r : Rce} (h : good r.sink) : (r.lit n v).EndsIn (Rce.At good) :=
  Run.EndsIn.bind (Rce.add_keeps hw _ h) fun _ _ h1 => Rce.renormIfSmall_keeps hw h1

theorem Rce.halves_keeps (hs : List Nat) {r : Rce} (h : good r.sink) :
    (Rce.halves hs r).EndsIn (Rce.At good) := by
  induction hs generalizing r with
  | nil => exact .ok h
  | cons x hs ih => exact (Rce.lit_keeps hw _ x h).bind fun _ _ h1 => ih h1

theorem Rce.bits_keeps (n v : Nat) {r : Rce} (h : good r.sink) : (r.bits n v).EndsIn (Rce.At good) := by
  unfold Rce.bits
  split
  · exact (Rce.lit_keeps hw _ _ h).bind fun _ _ h1 => Rce.lit_keeps hw _ _ h1
  · exact Rce.lit_keeps hw n v h

theorem Rce.pad_keeps (n : Nat) {r : Rce} (h : good r.sink) : (r.pad n).EndsIn (Rce.At good) := by
  induction n generalizing r with
  | zero => exact .ok h
  | succ n ih => exact (Rce.shiftOut_keeps hw _ h).bind fun _ _ h1 => ih h1

theorem Rce.finalBytes_keeps {r : Rce} (h : good r.sink) : r.finalBytes.EndsIn (Rce.At good) := by
  unfold Rce.finalBytes
  split
  all_goals
    exact (Rce.add_keeps hw _ h).bind fun _ _ h1 =>
      Run.EndsIn.bind (Rce.renormTurns_keeps hw 3 h1) fun _ _ h2 => Rce.pad_keeps hw _ h2

theorem Rce.drain_keeps {r : Rce} (h : good r.sink) : r.drain.EndsIn (Rce.At good) := by
  refine Run.EndsIn.bind (good := Rce.At good) ?_ fun _ _ h1 => .ok h1
  split
  · exact Rce.putBytes_keeps hw _ h
  · exact .ok h

theorem Rce.close_keeps {r : Rce} (h : good r.sink) : r.close.EndsIn (Rce.At good) := by
  refine Run.EndsIn.bind (good := Rce.At good) ?_ fun _ _ h1 => .ok h1
  split
  · exact .ok h
  · exact Rce.flush_keeps hw h

theorem Rce.done_keeps {r : Rce} (h : good r.sink) : r.done.EndsIn (Rce.At good) :=
  (Rce.finalBytes_keeps hw h).bind fun _ _ h1 =>
    (Rce.drain_keeps hw h1).bind fun _ _ h2 => Rce.close_keeps hw h2

theorem Rce.sym_keeps (v : Nat) (m : SymModel) {r : Rce} (h : good r.sink) :
    (r.sym v m).EndsIn (Rce.AtWith good) := Rce.beside_keeps (Rce.narrow_keeps hw _ _ h) m (·.learn v)

theorem Rce.bit_keeps (b : Nat) (m : BinModel) {r : Rce} (h : good r.sink) :
    (r.bit b m).EndsIn (Rce.AtWith good) := by
  unfold Rce.bit
  dsimp only
  split
  · exact Rce.beside_keeps (Rce.renormIfSmall_keeps hw (r := r.setRange (m.split r.enc.range)) h)
      m.countZero (·.tick)
  · exact Rce.beside_keeps (Rce.narrow_keeps hw _ _ h) m (·.tick)

theorem IntComp.putPayload_keeps (c : IntComp) (k u : Nat) {r : Rce} (h : good r.sink) :
    (c.putPayload k u r).EndsIn (Rce.AtWith good) := by
  unfold IntComp.putPayload
  split
  · exact (Rce.sym_keeps hw _ _ h).within fun _ h1 => h1
  · exact Run.EndsIn.bind ((Rce.sym_keeps hw _ _ h).within fun _ h1 => h1) fun _ _ h1 =>
      (Rce.bits_keeps hw _ _ h1).within fun _ h2 => h2

theorem IntComp.putCorr_keeps (c : IntComp) (ctx : Nat) (corr : Int) {r : Rce} (h : good r.sink) :
    (c.putCorr ctx corr r).EndsIn (Rce.AtWith good) := by
  refine Run.EndsIn.bind ((Rce.sym_keeps hw _ _ h).within fun _ h1 => h1) fun _ p h1 => ?_
  split_ifs
  · exact (Rce.bit_keeps hw _ _ h1).within fun _ h2 => h2
  · exact IntComp.putPayload_keeps hw _ _ _ h1
  · exact .ok h1

/-- What every burst keeps of the sink, the body of every command keeps. -/
theorem bodyOf_keeps_sink {s : State} {i : Instr} (h : good s.sink) :
    (bodyOf s i).EndsIn fun t => good t.sink := by
  by_cases hu : usesSink i = true
  · cases i with
    | bioWr8 | bioWr16le | bioWr16be | bioWr32le | bioWr32be | bioWr64le | bioWr64be =>
      exact Run.EndsIn.value ((hw _ _ h).within fun _ h1 => h1)
    | encSym => exact Run.EndsIn.value ((Rce.sym_keeps hw _ _ h).within fun _ h1 => h1)
    | encBit => exact Run.EndsIn.value ((Rce.bit_keeps hw _ _ h).within fun _ h1 => h1)
    | encBits => exact Run.EndsIn.value ((Rce.bits_keeps hw _ _ h).within fun _ h1 => h1)
    | encFloat | encDouble => exact Run.EndsIn.value ((Rce.halves_keeps hw _ h).within fun _ h1 => h1)
    | encDone => exact Run.EndsIn.value ((Rce.done_keeps hw h).within fun _ h1 => h1)
    | icEnc => exact Run.EndsIn.value ((IntComp.putCorr_keeps hw _ _ _ h).within fun _ h1 => h1)
    | _ => exact absurd hu Bool.false_ne_true
  · intro t ht
    rw [(bodyOf_kept ht).sink (by simpa using hu)]
    exact h

end

/-- What a burst leaves at the sink is counted, also when it is refused (10_state.md R34, log 12). -/
theorem Sink.burstsKeep_uncounted (n : Dword) : Sink.BurstsKeep fun k => k.uncounted = n := by
  intro b k h
  unfold Sink.write
  split
  · exact .ok ((k.took_uncounted b).trans h)
  · exact .ok ((Sink.took_uncounted _ b).trans h)
  · exact .raised h
  · exact .raised ((Sink.took_uncounted _ _).trans h)

/-- Every body counts the bytes it leaves at the sink, whether it completes or raises. -/
theorem bodyOf_uncounted {s t : State} {i : Instr} (h : (bodyOf s i).EndsAt t) :
    t.sink.uncounted = s.sink.uncounted :=
  bodyOf_keeps_sink (Sink.burstsKeep_uncounted s.sink.uncounted) rfl t h

/-- A sink whose bytes are counted has risen in `SINK_COUNT` by the bytes it took. -/
theorem Sink.count_of_uncounted {k k' : Sink} {more : List Byte} (hu : k'.uncounted = k.uncounted)
    (hb : k'.bytes = k.bytes ++ more) : k'.count = k.count + BitVec.ofNat 64 more.length := by
  rw [Sink.uncounted, Sink.uncounted, hb, List.length_append, BitVec.ofNat_add] at hu
  grind

end Sys2Proof.Machine
end

section
/-! SUPPORT. A burst that the sink refuses (60_exceptions.md R278, R291): by `bodyOf_scripted` the run of a command on
a sink that accepts everything says which of its bursts it is, and what is at the sink then. -/

namespace Sys2Proof.Machine

/-- The commands that write to the sink read no source, reach no decoder and return no data (20_memory.md R73,
10_state.md R31). -/
theorem apart_of_usesSink {i : Instr} (h : usesSink i = true) :
    usesDecoder i = false ∧ usesSource i = false ∧ returnsData i = false ∧ ∀ a, i ≠ .csrRd a := by
  cases i <;> simp [usesSink, usesDecoder, usesSource, returnsData] at h ⊢

/-- The sink's answers enter no check. -/
theorem checksOf_answered (s : State) (answers : List SinkAnswer) (i : Instr) :
    checksOf (State.sinkView.answered answers s) i = checksOf s i := by
  cases i <;> rfl

/-- Completing a command is no transfer. -/
theorem State.complete_sink (s : State) (d : Option Dword) : (s.complete d).sink = s.sink := by
  cases d <;> rfl

/-- The sink's answers do not enter how a command completes. -/
theorem State.complete_answered (s : State) (d : Option Dword) (answers : List SinkAnswer) :
    (State.sinkView.answered answers s).complete d = State.sinkView.answered answers (s.complete d) := by
  cases d <;> rfl

/-- The command succeeds in `u` on a sink that accepts everything, after these bursts. -/
def Bursts (s u : State) (i : Instr) (made : List (List Byte)) : Prop :=
  exec i (State.sinkView.answered [] s) = .next u ∧ u.fault = 0#8 ∧ u.sink.bursts = s.sink.bursts ++ made

/-- The run of a command that succeeds on a sink that accepts everything: it goes on so while the sink accepts its
bursts, and one of them refused is `IoError`, with the bursts before it and some first bytes of it at the sink. -/
theorem Bursts.scripted {s u : State} {i : Instr} {made : List (List Byte)} (h : Bursts s u i made)
    (hi : usesSink i = true) :
    s.fault = 0#8 ∧ firstFailure (checksOf s i) = none ∧ ∃ d v, u = v.complete d ∧
      (∀ answers, (∀ x ∈ answers.take made.length, x = .accept) →
        bodyOf (State.sinkView.answered answers s) i =
          .ok d (State.sinkView.answered (answers.drop made.length) v)) ∧
      ∀ n kept rest, n < made.length → ∃ v' taken missing,
        bodyOf (State.sinkView.answered (List.replicate n .accept ++ .ioError kept :: rest) s) i =
            .raised .ioError v' ∧
          made[n]? = some (taken ++ missing) ∧
          v'.sink.bytes = s.sink.bytes ++ (made.take n).flatten ++ taken ∧ v'.sink.answers = rest := by
  obtain ⟨hu, hf, hb⟩ := h
  obtain ⟨-, -, -, hcsr⟩ := apart_of_usesSink hi
  obtain ⟨h0, hc, d, v, hv, -, rfl⟩ := exec_unfaulted hcsr hu hf
  rw [checksOf_answered] at hc
  obtain ⟨made', bursts, -, -, accepted, refused⟩ := bodyOf_scripted s hi [] d v hv
  obtain rfl : made' = made := by
    rw [State.complete_sink] at hb
    exact List.append_cancel_left (bursts.symm.trans hb)
  refine ⟨h0, hc, d, v, rfl, accepted, fun n kept rest hn => ?_⟩
  obtain ⟨v', taken, missing, raised, burst, held, none_kept, answers⟩ := refused n kept rest hn
  refine ⟨v', taken, missing, raised, burst, ?_, answers⟩
  change v'.sink.bursts = _ at held
  rw [Sink.bytes, held]
  split_ifs with hk
  · simp [none_kept hk, Sink.bytes]
  · simp [Sink.bytes]

/-- A refusal past the last burst of a command is left unanswered. -/
theorem Bursts.accepted {s u : State} {i : Instr} {made : List (List Byte)} (h : Bursts s u i made)
    (hi : usesSink i = true) {accepted kept : Nat} {rest : List SinkAnswer}
    (ha : s.sink.answers = List.replicate accepted .accept ++ .ioError kept :: rest)
    (hn : made.length ≤ accepted) :
    exec i s = .next (State.sinkView.answered
      (List.replicate (accepted - made.length) .accept ++ .ioError kept :: rest) u) := by
  obtain ⟨h0, hc, d, v, rfl, goes_on, -⟩ := h.scripted hi
  have left : s.sink.answers.drop made.length =
      List.replicate (accepted - made.length) .accept ++ .ioError kept :: rest := by
    rw [ha, List.drop_append_of_le_length (by simpa using hn), List.drop_replicate]
  have all : ∀ x ∈ s.sink.answers.take made.length, x = .accept := by
    rw [ha, List.take_append_of_le_length (by simpa using hn)]
    exact fun x hx => List.eq_of_mem_replicate (List.mem_of_mem_take hx)
  have ran := goes_on s.sink.answers all
  rw [left] at ran
  rw [← State.complete_answered]
  obtain ⟨-, -, -, hcsr⟩ := apart_of_usesSink hi
  exact exec_completes hcsr h0 hc ran

/-- The outcome of a command whose burst is refused once the bursts `before` it are at the sink: of the burst,
`taken` is at the sink and `missing` is not. -/
def RefusesBurst (s t : State) (before : List (List Byte)) (taken missing : List Byte) : Prop :=
  t.fault = 0x08#8 ∧ t.responses = s.responses ++ [{ status := 0x08#8, data := 0#64 }] ∧
    t.sink.bytes = s.sink.bytes ++ before.flatten ++ taken ∧
    (∃ j, j ≤ (before.flatten ++ taken ++ missing).length ∧
      t.sink.count = s.sink.count + BitVec.ofNat 64 j) ∧
    t.dec = s.dec ∧ t.src = s.src ∧ t.res = s.res

/-- The first burst of a command that the sink refuses decides. -/
theorem Bursts.refused {s u : State} {i : Instr} {made : List (List Byte)} (h : Bursts s u i made)
    (hi : usesSink i = true) {accepted kept : Nat} {rest : List SinkAnswer}
    (ha : s.sink.answers = List.replicate accepted .accept ++ .ioError kept :: rest)
    (hn : accepted < made.length) :
    ∃ t taken missing, exec i s = .next t ∧ made[accepted]? = some (taken ++ missing) ∧
      t.sink.answers = rest ∧ RefusesBurst s t (made.take accepted) taken missing := by
  obtain ⟨h0, hc, -, -, -, -, stops⟩ := h.scripted hi
  obtain ⟨v, taken, missing, raised, burst, bytes, answers⟩ := stops accepted kept rest hn
  rw [← ha] at raised
  change bodyOf s i = _ at raised
  obtain ⟨decoder, source, data, hcsr⟩ := apart_of_usesSink hi
  obtain ⟨t, ht, fault, responses, -, sink, -⟩ := exec_raises hcsr h0 hc raised
  obtain ⟨-, dec, -, src, res, -⟩ := commandsKeepToTheirState s t i ht
  have count := Sink.count_of_uncounted (bodyOf_uncounted (.inr ⟨_, raised⟩))
    (bytes.trans (List.append_assoc _ _ _))
  rw [← sink] at bytes answers count
  exact ⟨t, taken, missing, ht, burst, answers, fault, responses, bytes,
    ⟨_, by simp, count⟩, dec decoder, src source, res data⟩

/-- The commands that write to the sink and reach no encoder are the `BIO` writes. -/
theorem bioWrite_of_usesSink {i : Instr} (hi : usesSink i = true) (he : usesEncoder i = false) :
    ∃ nb o v, (∀ s, exec i s = bioWrite nb o v s) ∧ (∀ s, operandsOk s i = true → v.toNat < 2 ^ (8 * nb)) ∧
      binWritten i = none ∧ symWritten i = none ∧ intWritten i = none := by
  cases i with
  | bioWr8 v | bioWr16le v | bioWr16be v | bioWr32le v | bioWr32be v =>
    exact ⟨_, _, v, fun _ => rfl, fun _ => of_decide_eq_true, rfl, rfl, rfl⟩
  | bioWr64le v | bioWr64be v => exact ⟨8, _, v, fun _ => rfl, fun _ _ => v.isLt, rfl, rfl, rfl⟩
  | encSym | encBit | encBits | encFloat | encDouble | encDone | icEnc => cases he
  | _ => cases hi

/-- A `BIO` write makes one burst, the bytes of its value (40_bit_io.md R121). -/
theorem bioWrite_bursts {s : State} {i : Instr} {nb : Nat} {o : Order} {v : Dword} (h0 : s.fault = 0#8)
    (he : ∀ s, exec i s = bioWrite nb o v s) (hv : v.toNat < 2 ^ (8 * nb)) :
    ∃ u, Bursts s u i [wordBytes o nb v] := by
  have takes : (State.sinkView.answered [] s).sink.TakesNext := nofun
  exact ⟨_, (he _).trans (bioWrite_wrote h0 takes hv), h0, rfl⟩

/-- Settles O21: a `BIO` write makes one burst, so that its refusal is that of the first burst. -/
theorem sinkErrorIsReported : Obligations.SinkErrorIsReported := by
  refine ⟨fun s kept rest i h0 ha hi he ho => ?_, fun s u i accepted kept rest made h0 hi ha hu hf hb =>
    ⟨fun hn => Bursts.accepted ⟨hu, hf, hb⟩ hi ha hn, fun hn => ?_⟩⟩
  · obtain ⟨nb, o, v, run, operand, bin, sym, int⟩ := bioWrite_of_usesSink hi he
    obtain ⟨u, bursts⟩ := bioWrite_bursts h0 run (operand s ho)
    obtain ⟨t, taken, missing, ht, burst, -, fault, responses, bytes, count, dec, src, res⟩ :=
      bursts.refused (accepted := 0) hi ha (by simp)
    obtain ⟨hu, hf, held⟩ := bursts
    obtain ⟨-, -, -, hcsr⟩ := apart_of_usesSink hi
    obtain ⟨enc, -⟩ := commandsKeepToTheirState s t i ht
    obtain ⟨bm, sm, ic⟩ := exec_filesKept hcsr ht
    have whole : wordBytes o nb v = taken ++ missing := by simpa using burst
    refine ⟨t, taken, ht, fault, responses, ⟨u, hu, hf, by simpa using bytes, missing, ?_, by simpa using count⟩,
      enc he, dec, bm bin, sm sym, ic int, src, res⟩
    rw [Sink.bytes, held, whole]
    simp [Sink.bytes]
  · obtain ⟨t, taken, missing, ht, burst, answers, fault, responses, bytes, count, dec, src, res⟩ :=
      Bursts.refused ⟨hu, hf, hb⟩ hi ha hn
    exact ⟨t, taken, missing, ht, fault, responses, burst, bytes, count, answers, dec, src, res⟩

end Sys2Proof.Machine
end

section
/-! SUPPORT. A read the source cannot serve (60_exceptions.md R278, R289, R290, R291): a fixed number of bytes, and
then the steps of `DEC.SYM`, `DEC.BIT` and `IC.DEC`, each of which faults as its first step that fails. -/

namespace Sys2Proof.Machine

/-! ## What a fault of the source leaves -/

/-- The command has recorded and answered a fault, and the source has lost no more than the bytes that `came`. -/
def FaultsReading (s t : State) (code : BitVec 8) (came : Nat) : Prop :=
  t.fault = code ∧ t.responses = s.responses ++ [{ status := code, data := 0#64 }] ∧ t.res = s.res ∧
    s.src.Left t.src came

/-- A source that nothing was taken off. -/
theorem Source.Left.refl (p : Source) (came : Nat) : p.Left p came :=
  ⟨0, Nat.zero_le came, by simp, .inl rfl⟩

/-- A step that faults before it asks for a byte. -/
theorem Source.Stopped.refl (p : Source) (code : BitVec 8) : p.Stopped p 0 code := ⟨by simp, .inl rfl⟩

/-- A command whose checks hold and whose body raises where the source has stopped. -/
theorem exec_stops {s v : State} {i : Instr} {f : FaultCode} {came : Nat} (hi : ∀ a, i ≠ .csrRd a)
    (h0 : s.fault = 0#8) (hc : firstFailure (checksOf s i) = none) (hb : bodyOf s i = .raised f v)
    (stopped : s.src.Stopped v.src came f.code) : ∃ t, exec i s = .next t ∧ FaultsReading s t f.code came := by
  obtain ⟨t, ht, fault, responses, res, -, taken, src⟩ := exec_raises hi h0 hc hb
  exact ⟨t, ht, fault, responses, res, src ▸ stopped.tookAtMost_left taken⟩

/-! ## A fixed number of bytes -/

/-- A source that stops before the bytes asked for raises its fault, after the bytes that came. -/
theorem Source.read_breaks {n got : Nat} {p : Source} {code : BitVec 8} (h : p.Breaks got code) (hn : got < n) :
    ∃ f q, Source.read n p = .raised f q ∧ f.code = code ∧ p.Stopped q got code := by
  obtain ⟨bs, rest, gives, rfl, stop⟩ := h
  induction bs generalizing n p with
  | nil =>
    obtain ⟨m, rfl⟩ := Nat.exists_eq_add_one_of_ne_zero hn.ne'
    have breaks : p.Breaks 0 code := ⟨[], rest, gives, rfl, stop⟩
    obtain ⟨answers, count⟩ := p
    obtain rfl : answers = rest := gives
    rcases stop with ⟨rfl | h, rfl⟩ | ⟨h, rfl⟩
    · exact ⟨_, _, rfl, rfl, .refl _ _⟩
    all_goals
      obtain ⟨tail, rfl⟩ := List.head?_eq_some_iff.1 h
      exact ⟨_, _, rfl, rfl, by simp, .inr ⟨breaks, rfl⟩⟩
  | cons b bs ih =>
    obtain ⟨m, rfl⟩ := Nat.exists_eq_add_one_of_ne_zero (Nat.ne_zero_of_lt hn)
    obtain ⟨answers, count⟩ := p
    obtain rfl : answers = .byte b :: (bs.map SrcAnswer.byte ++ rest) := gives
    obtain ⟨f, q, raised, hf, stopped⟩ :=
      ih (n := m) (p := { answers := bs.map SrcAnswer.byte ++ rest, count := count + 1#64 })
        rfl (Nat.lt_of_succ_lt_succ hn)
    refine ⟨f, q, by simp [Source.read, Source.next, raised], hf, ?_⟩
    rw [List.length_cons, Nat.add_comm]
    exact Source.Stopped.after (q := { answers := bs.map SrcAnswer.byte ++ rest, count := count + 1#64 })
      (bs := [b]) rfl rfl stopped

/-- The body of a command that reads a fixed number of bytes, when the source stops before them. -/
theorem bodyOf_plainReads_raised {s : State} {i : Instr} {n : Nat} {f : FaultCode} {q : Source}
    (hi : plainReads i = some n) (hr : Source.read n s.src = .raised f q) :
    bodyOf s i = .raised f (s.withSrc q) := by
  have bio : ∀ o, readBody n o s = .raised f (s.withSrc q) := fun o => by
    unfold readBody
    rw [hr]
    rfl
  cases i
  case decInit =>
    cases hi
    simp only [bodyOf, Rcd.init, State.rcd_src, hr]
    rfl
  all_goals cases hi <;> exact bio _

/-- The commands that read a fixed number of bytes have no check of their own, reach neither the encoder nor the sink,
and write no slot. -/
theorem apart_of_plainReads {i : Instr} {n : Nat} (h : plainReads i = some n) :
    (∀ a, i ≠ .csrRd a) ∧ (∀ s, checksOf s i = []) ∧ usesEncoder i = false ∧ usesSink i = false ∧
      binWritten i = none ∧ symWritten i = none ∧ intWritten i = none := by
  cases i <;> cases h <;> exact ⟨nofun, fun _ => rfl, rfl, rfl, rfl, rfl, rfl⟩

/-- A command that reads a fixed number of bytes faults when the source stops before them (40_bit_io.md R122,
43_range_dec.md R201). -/
theorem exec_plainReads_faults {s : State} {i : Instr} {n got : Nat} {code : BitVec 8} (h0 : s.fault = 0#8)
    (hi : plainReads i = some n) (hn : got < n) (hb : s.src.Breaks got code) :
    ∃ t, exec i s = .next t ∧ FaultsReading s t code got := by
  obtain ⟨hcsr, checks, -⟩ := apart_of_plainReads hi
  obtain ⟨f, q, raised, rfl, stopped⟩ := Source.read_breaks hb hn
  exact exec_stops hcsr h0 (by rw [checks, firstFailure_nil]) (bodyOf_plainReads_raised hi raised) stopped

/-! ## Steps on a model -/

/-- A run of the decoder, with a model or a compressor beside it, raises the fault with this code, after the bytes
that `came` since `r`. -/
def Rcd.FaultsWith {α β : Type} (m : Run (Rcd × β) α) (r : Rcd) (code : BitVec 8) (came : Nat) : Prop :=
  ∃ f p, m = .raised f p ∧ f.code = code ∧ r.src.Stopped p.1.src came code

/-- A code value in the part of a symbol is inside the interval (42_range_enc.md R188). -/
theorem SymModel.inside_of_part {m : SymModel} (hm : m.Wf) {v len value : Nat} (hv : v < m.n)
    (long : 2 ^ 24 ≤ len) (part : InPart (m.partLow v len) (m.partLen v len) value) : value < len := by
  obtain ⟨nonempty, within⟩ := SymModel.part_inside hm hv long
  obtain ⟨-, below⟩ := part
  rw [SymModel.partLen] at below
  omega

/-- A code value in the part of a bit is inside the interval (42_range_enc.md R188). -/
theorem BinModel.inside_of_part {m : BinModel} (hm : m.Wf) {b len value : Nat}
    (long : 2 ^ 24 ≤ len) (part : InPart (m.partLow b len) (m.partLen b len) value) : value < len := by
  obtain ⟨-, within⟩ := BinModel.split_inside hm.prob long
  obtain ⟨-, below⟩ := part
  unfold BinModel.partLow BinModel.partLen at below
  split_ifs at below <;> omega

section
variable {α β γ : Type} {r : Rcd} {code : BitVec 8} {came : Nat}

/-- What a decoder raises it raises with a model beside it. -/
theorem Rcd.Faults.beside {m : Run Rcd α} (h : Rcd.Faults m r code came) (c : β) :
    Rcd.FaultsWith (m.within fun r1 => (r1, c)) r code came := by
  obtain ⟨f, r', rfl, rest⟩ := h
  exact ⟨f, (r', c), rfl, rest⟩

theorem Rcd.FaultsWith.bind {m : Run (Rcd × β) α} (h : Rcd.FaultsWith m r code came)
    (k : α → Rcd × β → Run (Rcd × β) γ) : Rcd.FaultsWith (m.bind k) r code came := by
  obtain ⟨f, p, rfl, rest⟩ := h
  exact ⟨f, p, rfl, rest⟩

theorem Rcd.FaultsWith.value {m : Run (Rcd × β) α} (h : Rcd.FaultsWith m r code came) (g : α → γ) :
    Rcd.FaultsWith (m.value g) r code came := by
  obtain ⟨f, p, rfl, rest⟩ := h
  exact ⟨f, p, rfl, rest⟩

/-- What is beside the decoder does not matter. -/
theorem Rcd.FaultsWith.within {m : Run (Rcd × β) α} (h : Rcd.FaultsWith m r code came) (g : Rcd × β → γ) :
    Rcd.FaultsWith (m.within fun p => (p.1, g p)) r code came := by
  obtain ⟨f, p, rfl, rest⟩ := h
  exact ⟨f, (p.1, g p), rfl, rest⟩

/-- What is raised after a step of the decoder, seen from before it. -/
theorem Rcd.FaultsWith.after {m : Run (Rcd × β) α} {x w : Nat} {r1 : Rcd} {more : Nat}
    (step : Rcd.Narrowed x w r r1) (h : Rcd.FaultsWith m r1 code more) :
    Rcd.FaultsWith m r code (r.taken r1 + more) := by
  obtain ⟨f, p, rfl, rest⟩ := h
  obtain ⟨g, r', same, rest⟩ := Rcd.Faults.after (m := (.raised f p.1 : Run Rcd α)) step ⟨f, p.1, rfl, rest⟩
  cases same
  exact ⟨f, p, rfl, rest⟩

/-- The interval step of a symbol, a bit or a literal lacks a byte (43_range_dec.md R202). -/
theorem Rcd.narrow_faults {v len : Word} (h : r.src.Lacks len.toNat code came) :
    Rcd.Faults (r.setInterval v len).renormIfSmall r code came := by
  have ⟨_, _, _, breaks⟩ := h
  obtain ⟨f, r', raised, hf, src⟩ := Rcd.narrow_lacks (v := v) h
  exact ⟨f, r', raised, hf, by rw [src], .inr ⟨breaks, by rw [src]⟩⟩

/-- A symbol faults as 43_range_dec.md R203 and R206 say. -/
theorem Rcd.FailsSymbol.sym_faults {m : SymModel} (h : Rcd.FailsSymbol m r code came) (hm : m.Wf)
    (long : 2 ^ 24 ≤ r.dec.drange.toNat) : Rcd.FaultsWith (r.sym m) r code came := by
  unfold Rcd.sym
  obtain ⟨rfl, rfl, outside⟩ | ⟨v, hv, part, lacks⟩ := h
  · rw [if_neg (by simpa [Decoder.inside] using outside)]
    exact ⟨_, _, rfl, rfl, .refl _ _⟩
  · have inside := SymModel.inside_of_part hm hv long part
    obtain ⟨-, len⟩ := SymModel.part_words hm hv long part
    rw [← len] at lacks
    rw [if_pos (by simpa [Decoder.inside] using inside), SymModel.find_eq hm inside hv part]
    exact ((Rcd.narrow_faults lacks).beside m).bind _

/-- A bit faults as 43_range_dec.md R205 and R206 say. -/
theorem Rcd.FailsBit.bit_faults {m : BinModel} (h : Rcd.FailsBit m r code came) (hm : m.Wf)
    (long : 2 ^ 24 ≤ r.dec.drange.toNat) : Rcd.FaultsWith (r.bit m) r code came := by
  unfold Rcd.bit
  obtain ⟨rfl, rfl, outside⟩ | ⟨b, hb, part, lacks⟩ := h
  · rw [if_neg (by simpa [Decoder.inside] using outside)]
    exact ⟨_, _, rfl, rfl, .refl _ _⟩
  · have inside := BinModel.inside_of_part hm long part
    obtain ⟨low, high, -⟩ := BinModel.parts hm long
    rw [if_pos (by simpa [Decoder.inside] using inside)]
    dsimp only
    obtain rfl | rfl : b = 0 ∨ b = 1 := by omega
    · simp only [InPart, BinModel.partLow, BinModel.partLen, if_true] at part lacks
      rw [← low] at lacks
      rw [if_pos (by omega)]
      exact ((Rcd.narrow_faults lacks).beside _).bind _
    · simp only [InPart, BinModel.partLow, BinModel.partLen, Nat.one_ne_zero, if_false] at part lacks
      rw [← high] at lacks
      rw [if_neg (by omega)]
      exact ((Rcd.narrow_faults lacks).beside _).bind _

end

/-! ## A corrector -/

/-- The payload of a corrector faults in its symbol (44_integer_codec.md R237). -/
theorem IntComp.getPayload_symbol_faults {c : IntComp} {k came : Nat} {r : Rcd} {code : BitVec 8}
    (h : Rcd.FailsSymbol (c.mcorrAt k) r code came) (hm : (c.mcorrAt k).Wf) (long : 2 ^ 24 ≤ r.dec.drange.toNat) :
    Rcd.FaultsWith (c.getPayload k r) r code came := by
  have symbol := (h.sym_faults hm long).within fun p => c.setMcorr k p.2
  unfold IntComp.getPayload
  split_ifs
  · exact symbol
  · exact symbol.bind _

/-- The payload of a corrector faults in its raw bits, after its symbol was decoded (44_integer_codec.md R237). -/
theorem IntComp.getPayload_bits_faults {c : IntComp} {k hi last : Nat} {r r2 : Rcd} {code : BitVec 8}
    (hk : c.bitsHigh < k) (hk31 : k ≤ 31) (decoded : Rcd.DecodesSymbol (c.mcorrAt k) hi r r2)
    (h : Rcd.FailsLiterals (literalWidths (k - c.bitsHigh)) r2 code last) (hm : (c.mcorrAt k).Wf)
    (long : 2 ^ 24 ≤ r.dec.drange.toNat) : Rcd.FaultsWith (c.getPayload k r) r code (r.taken r2 + last) := by
  obtain ⟨-, -, step⟩ := id decoded
  unfold IntComp.getPayload
  rw [if_neg (by omega)]
  dsimp only
  rw [decoded.sym_eq hm long, Run.within_ok, Run.bind_ok]
  exact (((h.bits_faults step.range (by omega)).beside _).value _).after step

/-- A corrector faults in the first of its steps that fails (44_integer_codec.md R237). -/
theorem Rcd.FailsCorrector.getCorr_faults {c : IntComp} {ctx came : Nat} {r : Rcd} {code : BitVec 8}
    (h : Rcd.FailsCorrector c ctx r code came) (hc : c.Wf) (hx : ctx < c.contexts)
    (long : 2 ^ 24 ≤ r.dec.drange.toNat) : Rcd.FaultsWith (c.getCorr ctx r) r code came := by
  obtain ⟨hm, hn⟩ := hc.mbitsAt hx
  unfold IntComp.getCorr
  obtain first | ⟨k, r1, more, decoded, rfl, rest⟩ := h
  · exact ((first.sym_faults hm long).within _).bind _
  · obtain ⟨hk, -, step⟩ := id decoded
    have payload : 1 ≤ k → (c.mcorrAt k).Wf := fun h1 => (hc.mcorrAt h1 (by omega)).1
    rw [decoded.sym_eq hm long, Run.within_ok, Run.bind_ok]
    refine Rcd.FaultsWith.after step ?_
    obtain ⟨rfl, bit⟩ | ⟨h1, h31, symbol⟩ | ⟨high, h31, hi, r2, last, symbol, bits, rfl⟩ := rest
    · exact ((bit.bit_faults hc.bm0 step.range).within _).value _
    · dsimp only
      rw [if_neg (by omega), if_pos (by omega)]
      exact (IntComp.getPayload_symbol_faults (c := (c.setMbits ctx _).setK k) symbol (payload h1) step.range).value _
    · dsimp only
      rw [if_neg (by omega), if_pos (by omega)]
      exact (IntComp.getPayload_bits_faults (c := (c.setMbits ctx _).setK k) high h31 symbol bits
        (payload (by omega)) step.range).value _

/-! ## The commands -/

/-- A command that decodes with a model or a compressor faults as its run does, when its checks hold. -/
theorem exec_decoding_faults {α β : Type} {s : State} {i : Instr} {m : Run (Rcd × β) α} {put : State → β → State}
    {g : α → Option Dword} {code : BitVec 8} {came : Nat} (hi : ∀ a, i ≠ .csrRd a) (h0 : s.fault = 0#8)
    (hc : firstFailure (checksOf s i) = none)
    (hb : bodyOf s i = (m.within fun p => put (s.withRcd p.1) p.2).value g) (hp : ∀ t x, (put t x).src = t.src)
    (hm : Rcd.FaultsWith m s.rcd code came) : ∃ t, exec i s = .next t ∧ FaultsReading s t code came := by
  obtain ⟨f, p, rfl, rfl, stopped⟩ := hm
  refine exec_stops hi h0 hc hb ?_
  rw [hp]
  exact stopped

/-- A code value outside the interval is the whole outcome of a command that checks it (60_exceptions.md R275). -/
theorem exec_outside {s : State} {i : Instr} (h0 : s.fault = 0#8)
    (hc : firstFailure (checksOf s i) = some .corruptedStream) :
    ∃ t, exec i s = .next t ∧ FaultsReading s t 0x06#8 0 :=
  ⟨_, exec_faults_first h0 hc, rfl, rfl, rfl, .refl _ _⟩

/-- `DEC.SYM` faults as its symbol does; outside the interval it does so before it executes. -/
theorem exec_decSym_faults {s : State} {idx : Index} {m : SymModel} {code : BitVec 8} {came : Nat}
    (h0 : s.fault = 0#8) (ha : s.dec.active = true) (long : 2 ^ 24 ≤ s.dec.drange.toNat)
    (hx : idx.toNat < s.params.nSm) (hs : SlotFile.slot? s.sm idx.toNat = some m) (hm : m.Wf)
    (h : Rcd.FailsSymbol m s.rcd code came) :
    ∃ t, exec (.decSym idx) s = .next t ∧ FaultsReading s t code came := by
  have slot : s.symAt idx = m := by simp [State.symAt, hs]
  have checks : firstFailure (checksOf s (.decSym idx)) =
      if s.dec.inside then none else some .corruptedStream := by
    simp [checksOf, State.decoderOn, State.symIndex, State.symValid, ha, hx, hs]
  have run := h.sym_faults hm long
  obtain ⟨rfl, rfl, outside⟩ | ⟨v, hv, part, -⟩ := h
  · exact exec_outside h0 (by rw [checks, if_neg (by simpa [Decoder.inside] using outside)])
  · have inside := SymModel.inside_of_part hm hv long part
    exact exec_decoding_faults (put := fun t => t.withSym idx.toNat) (fun _ => by simp) h0
      (by rw [checks, if_pos (by simpa [Decoder.inside] using inside)]) (by rw [bodyOf, slot]) (fun _ _ => rfl) run

/-- `DEC.BIT` faults as its bit does; outside the interval it does so before it executes. -/
theorem exec_decBit_faults {s : State} {idx : Index} {m : BinModel} {code : BitVec 8} {came : Nat}
    (h0 : s.fault = 0#8) (ha : s.dec.active = true) (long : 2 ^ 24 ≤ s.dec.drange.toNat)
    (hx : idx.toNat < s.params.nBm) (hs : SlotFile.slot? s.bm idx.toNat = some m) (hm : m.Wf)
    (h : Rcd.FailsBit m s.rcd code came) :
    ∃ t, exec (.decBit idx) s = .next t ∧ FaultsReading s t code came := by
  have slot : s.binAt idx = m := by simp [State.binAt, hs]
  have checks : firstFailure (checksOf s (.decBit idx)) =
      if s.dec.inside then none else some .corruptedStream := by
    simp [checksOf, State.decoderOn, State.binIndex, State.binValid, ha, hx, hs]
  have run := h.bit_faults hm long
  obtain ⟨rfl, rfl, outside⟩ | ⟨b, -, part, -⟩ := h
  · exact exec_outside h0 (by rw [checks, if_neg (by simpa [Decoder.inside] using outside)])
  · have inside := BinModel.inside_of_part hm long part
    exact exec_decoding_faults (put := fun t => t.withBin idx.toNat) (fun _ => by simp) h0
      (by rw [checks, if_pos (by simpa [Decoder.inside] using inside)]) (by rw [bodyOf, slot]) (fun _ _ => rfl) run

/-- `IC.DEC` faults as its corrector does. -/
theorem exec_icDec_faults {s : State} {idx : Index} {c : IntComp} {ctx : BitVec 16} {pred : Word}
    {code : BitVec 8} {came : Nat} (h0 : s.fault = 0#8) (ha : s.dec.active = true)
    (long : 2 ^ 24 ≤ s.dec.drange.toNat) (hx : idx.toNat < s.params.nIc)
    (hs : SlotFile.slot? s.ic idx.toNat = some c) (hc : c.Wf) (hctx : ctx.toNat < c.contexts)
    (h : Rcd.FailsCorrector c ctx.toNat s.rcd code came) :
    ∃ t, exec (.icDec idx ctx pred) s = .next t ∧ FaultsReading s t code came := by
  have slot := State.intAt_of_slot hs
  have checks : firstFailure (checksOf s (.icDec idx ctx pred)) = none := by
    simp [checksOf, State.decoderOn, State.intIndex, State.intValid, ha, hx, hs, slot, hctx]
  exact exec_decoding_faults (put := fun t => t.withInt idx.toNat) (fun _ => by simp) h0 checks
    (by rw [bodyOf, slot]) (fun _ _ => rfl) (h.getCorr_faults hc hctx long)

/-- Settles O22: what the commands do not reach is as it was by `commandsKeepToTheirState` and
`exec_filesKept`. -/
theorem sourceFaultIsReported : Obligations.SourceFaultIsReported := by
  refine ⟨fun s i n got code h0 hi hn hb => ?_, fun s idx code came h0 ha long =>
    ⟨fun m hx hs hm h => ?_, fun m hx hs hm h => ?_, fun c ctx pred hx hs hc hctx h => ?_⟩⟩
  · obtain ⟨t, ht, fault, responses, res, left⟩ := exec_plainReads_faults h0 hi hn hb
    obtain ⟨hcsr, -, noEnc, noSink, noBin, noSym, noInt⟩ := apart_of_plainReads hi
    obtain ⟨enc, dec, sink, -⟩ := commandsKeepToTheirState s t i ht
    obtain ⟨bm, sm, ic⟩ := exec_filesKept hcsr ht
    exact ⟨t, ht, fault, responses, res, left, enc noEnc, sink noSink, bm noBin, sm noSym, ic noInt, dec⟩
  · obtain ⟨t, ht, fault, responses, res, left⟩ := exec_decSym_faults h0 ha long hx hs hm h
    obtain ⟨enc, -, sink, -⟩ := commandsKeepToTheirState s t _ ht
    obtain ⟨bm, -, ic⟩ := exec_filesKept (fun _ => by simp) ht
    exact ⟨t, ht, fault, responses, res, left, enc rfl, sink rfl, bm rfl, ic rfl⟩
  · obtain ⟨t, ht, fault, responses, res, left⟩ := exec_decBit_faults h0 ha long hx hs hm h
    obtain ⟨enc, -, sink, -⟩ := commandsKeepToTheirState s t _ ht
    obtain ⟨-, sm, ic⟩ := exec_filesKept (fun _ => by simp) ht
    exact ⟨t, ht, fault, responses, res, left, enc rfl, sink rfl, sm rfl, ic rfl⟩
  · obtain ⟨t, ht, fault, responses, res, left⟩ := exec_icDec_faults (pred := pred) h0 ha long hx hs hc hctx h
    obtain ⟨enc, -, sink, -⟩ := commandsKeepToTheirState s t _ ht
    obtain ⟨bm, sm, -⟩ := exec_filesKept (fun _ => by simp) ht
    exact ⟨t, ht, fault, responses, res, left, enc rfl, sink rfl, bm rfl, sm rfl⟩

end Sys2Proof.Machine
end

section
/-! SUPPORT. What a command does to the two ports, however it ends: the sink holds what it held and then its bursts,
and the source has lost first answers (20_memory.md R61, R62; 70_reset_and_hazards.md R300). -/

namespace Sys2Proof.Machine

/-! ## The source -/

/-- The source has lost nothing but first answers of these. -/
abbrev Rcd.Among (answers : List SrcAnswer) (r : Rcd) : Prop := r.src.answers <:+ answers

/-- The same with a model or a compressor beside the decoder. -/
abbrev Rcd.AmongWith {α : Type} (answers : List SrcAnswer) (p : Rcd × α) : Prop := p.1.src.answers <:+ answers

section
variable {α : Type} {as : List SrcAnswer}

theorem Source.next_among {p : Source} (h : p.answers <:+ as) : p.next.EndsIn fun q => q.answers <:+ as := by
  unfold Source.next
  split <;> rename_i left
  · exact .raised h
  · exact .ok ((left ▸ List.suffix_cons _ _).trans h)
  · exact .raised ((left ▸ List.suffix_cons _ _).trans h)
  · exact .raised ((left ▸ List.suffix_cons _ _).trans h)

theorem Source.read_among (n : Nat) {p : Source} (h : p.answers <:+ as) :
    (Source.read n p).EndsIn fun q => q.answers <:+ as := by
  induction n generalizing p with
  | zero => exact .ok h
  | succ n ih => exact (Source.next_among h).bind fun _ _ h1 => (ih h1).value

theorem Rcd.renormTurns_among {answers : List SrcAnswer} (n : Dword) (d : Decoder) (h : answers <:+ as) :
    (Rcd.renormTurns answers n d).EndsIn (Rcd.Among as) := by
  induction answers generalizing n d with
  | nil => exact .raised h
  | cons a rest ih =>
    have h1 : rest <:+ as := (List.suffix_cons a rest).trans h
    match a with
    | .endOfInput | .ioError => exact .raised h1
    | .byte b =>
      rw [Rcd.renormTurns]
      split
      · exact .ok h1
      · exact ih _ _ h1

theorem Rcd.renormIfSmall_among {r : Rcd} (h : r.Among as) : r.renormIfSmall.EndsIn (Rcd.Among as) := by
  unfold Rcd.renormIfSmall
  split
  · exact Rcd.renormTurns_among _ _ h
  · exact .ok h

theorem Rcd.init_among {r : Rcd} (h : r.Among as) : r.init.EndsIn (Rcd.Among as) :=
  Run.EndsIn.bind ((Source.read_among 4 h).within fun _ h1 => h1) fun _ _ h1 => .ok h1

theorem Rcd.lit_among (n : Nat) {r : Rcd} (h : r.Among as) : (r.lit n).EndsIn (Rcd.Among as) := by
  refine Run.EndsIn.bind (Rcd.renormIfSmall_among (r := r.setInterval _ _) h) fun _ r1 h1 => ?_
  split
  · exact .ok h1
  · exact .raised h1

theorem Rcd.halves_among (n : Nat) {r : Rcd} (h : r.Among as) : (Rcd.halves n r).EndsIn (Rcd.Among as) := by
  induction n generalizing r with
  | zero => exact .ok h
  | succ n ih => exact (Rcd.lit_among _ h).bind fun _ _ h1 => (ih h1).value

theorem Rcd.bits_among (n : Nat) {r : Rcd} (h : r.Among as) : (r.bits n).EndsIn (Rcd.Among as) := by
  unfold Rcd.bits
  split
  · exact (Rcd.lit_among _ h).bind fun _ _ h1 => (Rcd.lit_among _ h1).value
  · exact Rcd.lit_among n h

/-- A step on a model: the interval first, then the model. -/
theorem Rcd.beside_among {β : Type} {m : Run Rcd Unit} (hm : m.EndsIn (Rcd.Among as)) (c : α) (v : β) (g : α → α) :
    ((m.within fun r => (r, c)).bind fun _ p => .ok v (p.1, g p.2)).EndsIn (Rcd.AmongWith as) :=
  Run.EndsIn.bind (hm.within (good' := Rcd.AmongWith as) fun _ h => h) fun _ _ h => .ok h

theorem Rcd.sym_among (m : SymModel) {r : Rcd} (h : r.Among as) : (r.sym m).EndsIn (Rcd.AmongWith as) := by
  unfold Rcd.sym
  split
  · refine Rcd.beside_among (Rcd.renormIfSmall_among ?_) m _ (·.learn (m.find r.dec))
    exact h
  · exact .raised h

theorem Rcd.bit_among (m : BinModel) {r : Rcd} (h : r.Among as) : (r.bit m).EndsIn (Rcd.AmongWith as) := by
  unfold Rcd.bit
  dsimp only
  split_ifs
  · refine Rcd.beside_among (Rcd.renormIfSmall_among ?_) m.countZero 0 (·.tick)
    exact h
  · refine Rcd.beside_among (Rcd.renormIfSmall_among ?_) m 1 (·.tick)
    exact h
  · exact .raised h

theorem IntComp.getPayload_among (c : IntComp) (k : Nat) {r : Rcd} (h : r.Among as) :
    (c.getPayload k r).EndsIn (Rcd.AmongWith as) := by
  unfold IntComp.getPayload
  split
  · exact (Rcd.sym_among _ h).within fun _ h1 => h1
  · exact Run.EndsIn.bind ((Rcd.sym_among _ h).within fun _ h1 => h1) fun _ _ h1 =>
      Run.EndsIn.value ((Rcd.bits_among _ h1).within fun _ h2 => h2)

theorem IntComp.getCorr_among (c : IntComp) (ctx : Nat) {r : Rcd} (h : r.Among as) :
    (c.getCorr ctx r).EndsIn (Rcd.AmongWith as) := by
  refine Run.EndsIn.bind ((Rcd.sym_among _ h).within fun _ h1 => h1) fun k p h1 => ?_
  dsimp only
  split_ifs
  · exact Run.EndsIn.value ((Rcd.bit_among _ h1).within fun _ h2 => h2)
  · exact (IntComp.getPayload_among _ _ h1).value
  · exact .ok h1

end

/-- The body of every command takes first answers off the source and no others, whether it completes or raises. -/
theorem bodyOf_source_suffix (s : State) (i : Instr) :
    (bodyOf s i).EndsIn fun t => t.src.answers <:+ s.src.answers := by
  by_cases hu : usesSource i = true
  · have h : s.rcd.Among s.src.answers := List.suffix_rfl
    cases i with
    | bioRd8 | bioRd16le | bioRd16be | bioRd32le | bioRd32be | bioRd64le | bioRd64be =>
      exact Run.EndsIn.value ((Source.read_among _ h).within fun _ h1 => h1)
    | decInit => exact Run.EndsIn.value ((Rcd.init_among h).within fun _ h1 => h1)
    | decSym => exact Run.EndsIn.value ((Rcd.sym_among _ h).within fun _ h1 => h1)
    | decBit => exact Run.EndsIn.value ((Rcd.bit_among _ h).within fun _ h1 => h1)
    | decBits => exact Run.EndsIn.value ((Rcd.bits_among _ h).within fun _ h1 => h1)
    | decFloat | decDouble => exact Run.EndsIn.value ((Rcd.halves_among _ h).within fun _ h1 => h1)
    | icDec => exact Run.EndsIn.value ((IntComp.getCorr_among _ _ h).within fun _ h1 => h1)
    | _ => exact absurd hu Bool.false_ne_true
  · intro t ht
    rw [(bodyOf_kept ht).src (by simpa using hu)]

/-- The free value puts the source back to where it stood some answers earlier, or leaves it. -/
theorem Source.tookAtMost_suffix (taken : Nat) {before now : Source} (h : now.answers <:+ before.answers) :
    (Source.tookAtMost taken before now).answers <:+ before.answers := by
  unfold Source.tookAtMost
  split
  · exact List.drop_suffix _ _
  · exact h

/-! ## The sink -/

/-- Every burst, accepted or refused, leaves the bursts before it. -/
theorem Sink.burstsKeep_prefix (held : List (List Byte)) : Sink.BurstsKeep fun k => held <+: k.bursts := by
  intro b k h
  unfold Sink.write
  split
  · exact .ok (h.trans (List.prefix_append _ _))
  · exact .ok (h.trans (List.prefix_append _ _))
  · exact .raised h
  · exact .raised (h.trans (List.prefix_append _ _))

/-! ## The commands -/

/-- `CSR.RD` makes no transfer and uses no free value. -/
theorem exec_csrRd_ports {s t : State} {a : Index} (ht : exec (.csrRd a) s = .next t) :
    t.sink = s.sink ∧ t.src = s.src ∧ t.residues = s.residues := by
  cases hc : Csr.ofAddress a with
  | some c =>
    obtain rfl := Host.Outcome.next.inj ((exec_csrRd hc).symm.trans ht)
    exact ⟨rfl, rfl, rfl⟩
  | none =>
    have illegal : s.illegalCommand = .next t := by simpa [exec, execCsrRd, hc] using ht
    unfold State.illegalCommand at illegal
    split at illegal <;> cases illegal <;> exact ⟨rfl, rfl, rfl⟩

/-- A command, whatever its outcome, appends at the sink and advances the source. -/
theorem exec_appends_and_advances {s t : State} {i : Instr} (ht : exec i s = .next t) :
    s.sink.bursts <+: t.sink.bursts ∧ t.src.answers <:+ s.src.answers := by
  rcases Instr.csrRd_or_ne i with ⟨a, rfl⟩ | hi
  · obtain ⟨sink, src, -⟩ := exec_csrRd_ports ht
    rw [sink, src]
    exact ⟨List.prefix_rfl, List.suffix_rfl⟩
  have grown := bodyOf_keeps_sink (i := i) (Sink.burstsKeep_prefix s.sink.bursts) List.prefix_rfl
  have advanced := bodyOf_source_suffix s i
  rcases exec_cases s i hi with ⟨-, he⟩ | ⟨-, f, -, he⟩ | ⟨-, -, d, u, hb, -, he⟩ |
    ⟨-, -, f, u, hb, -, -, he⟩ | ⟨-, -, -, he⟩
  · obtain rfl := Host.Outcome.next.inj (he.symm.trans ht)
    exact ⟨List.prefix_rfl, List.suffix_rfl⟩
  · obtain rfl := Host.Outcome.next.inj (he.symm.trans ht)
    exact ⟨List.prefix_rfl, List.suffix_rfl⟩
  · obtain rfl := Host.Outcome.next.inj (he.symm.trans ht)
    cases d <;> exact ⟨grown u (.inl ⟨_, hb⟩), advanced u (.inl ⟨_, hb⟩)⟩
  · obtain rfl := Host.Outcome.next.inj (he.symm.trans ht)
    rw [State.raisePrecise_sink, State.raisePrecise_src, State.settle_sink]
    obtain ⟨taken, src⟩ := s.settle_src u (touchOf i)
    rw [src]
    exact ⟨grown u (.inr ⟨f, hb⟩), Source.tookAtMost_suffix taken (advanced u (.inr ⟨f, hb⟩))⟩
  · cases he.symm.trans ht

end Sys2Proof.Machine
end

section
/-! SUPPORT. The reset event in the midst of a command (70_reset_and_hazards.md R300): a command that would have
succeeded, run on ports that are cut off, makes the same transfers up to the cut and stops there, or has made them
all before it. -/

namespace Sys2Proof.Machine

/-! ## Commands on other ports -/

/-- The state with another source and other free values. -/
def State.besideSource (p : Source) (free : List Residue) (s : State) : State := { s with src := p, residues := free }

/-- The state with another sink and other free values. -/
def State.besideSink (k : Sink) (free : List Residue) (s : State) : State := { s with sink := k, residues := free }

/-- A body over a part of the state, seen in a larger state put back by `g'`. -/
theorem Run.value_within_within {σ τ υ α β : Type} (m : Run σ α) {g : σ → τ} {g' : σ → υ} {h : τ → υ} (k : α → β)
    (hg : ∀ r, g' r = h (g r)) : (m.within g').value k = ((m.within g).value k).within h := by
  cases m with
  | ok a r => simp [hg]
  | raised f r => simp [hg]
  | diverged => rfl

/-- A command that reads no source does the same with any source, and takes nothing off it. -/
theorem bodyOf_besideSource {i : Instr} (hi : usesSource i = false) (p : Source) (free : List Residue) (s : State) :
    bodyOf (s.besideSource p free) i = (bodyOf s i).within (·.besideSource p free) := by
  cases i with
  | bmInit | smCfg | smInit | encInit | decDone | icCfg | icInit | icGetk | csrRd => rfl
  | bioRd8 | bioRd16le | bioRd16be | bioRd32le | bioRd32be | bioRd64le | bioRd64be | decInit | decSym | decBit
  | decBits | decFloat | decDouble | icDec => cases hi
  | _ => exact Run.value_within_within _ _ fun _ => rfl

/-- A command that writes to no sink does the same with any sink, and leaves it. -/
theorem bodyOf_besideSink {i : Instr} (hi : usesSink i = false) (k : Sink) (free : List Residue) (s : State) :
    bodyOf (s.besideSink k free) i = (bodyOf s i).within (·.besideSink k free) := by
  cases i with
  | bmInit | smCfg | smInit | encInit | decDone | icCfg | icInit | icGetk | csrRd => rfl
  | bioWr8 | bioWr16le | bioWr16be | bioWr32le | bioWr32be | bioWr64le | bioWr64be | encSym | encBit | encBits
  | encFloat | encDouble | encDone | icEnc => cases hi
  | _ => exact Run.value_within_within _ _ fun _ => rfl

/-- A body uses no free value. -/
theorem bodyOf_residues (s : State) (i : Instr) : (bodyOf s i).EndsIn fun t => t.residues = s.residues := by
  have ran : ∀ {σ α : Type} {m : Run σ α} {g : σ → State} {k : α → Option Dword},
      (∀ r, (g r).residues = s.residues) → ((m.within g).value k).EndsIn fun t => t.residues = s.residues :=
    fun hg => Run.EndsIn.value (Run.EndsIn.within (good := fun _ => True) (fun _ _ => trivial) fun r _ => hg r)
  cases i with
  | bmInit | smCfg | smInit | encInit | decDone | icCfg | icInit | icGetk | csrRd => exact .ok rfl
  | _ => exact ran fun _ => rfl

/-- Completing a command moves nothing at the source. -/
theorem State.complete_src (s : State) (d : Option Dword) : (s.complete d).src = s.src := by
  cases d <;> rfl

/-- Completing a command uses no free value. -/
theorem State.complete_residues (s : State) (d : Option Dword) : (s.complete d).residues = s.residues := by
  cases d <;> rfl

/-- The body of a command that reads no source is scripted too: it takes no answer. -/
theorem bodyOf_srcScripted_of_any (s : State) (i : Instr) :
    State.srcView.Scripted fun l => bodyOf (State.srcView.answered l s) i := by
  by_cases hi : usesSource i = true
  · exact bodyOf_srcScripted s hi
  have body : ∀ l, bodyOf (State.srcView.answered l s) i =
      (bodyOf s i).within (·.besideSource { s.src with answers := l } s.residues) := fun _ =>
    bodyOf_besideSource (by simpa using hi) _ _ s
  intro as a t h
  obtain ⟨v, hv, rfl⟩ := Run.within_eq_ok.1 ((body as).symm.trans h)
  refine ⟨0, Nat.zero_le _, rfl, fun bs _ => (body bs).trans ?_, nofun⟩
  rw [hv]
  rfl

/-- An execution fault with no free value listed leaves what the body left (60_exceptions.md R278, log 10). -/
theorem exec_raises_naturally {s v : State} {i : Instr} {f : FaultCode} (hi : ∀ a, i ≠ .csrRd a) (h0 : s.fault = 0#8)
    (hc : firstFailure (checksOf s i) = none) (hb : bodyOf s i = .raised f v) (none_free : s.residues = []) :
    exec i s = .next (v.raisePrecise f) := by
  have hv : v.residues = [] := (bodyOf_residues s i v (.inr ⟨f, hb⟩)).trans none_free
  rw [exec_command s i hi, State.command_runs h0 hc, hb]
  simp only [State.finish, State.raiseInExecution, State.settle, hv]

/-- A command that succeeds uses no free value. -/
theorem exec_unfaulted_residues {s u : State} {i : Instr} (hu : exec i s = .next u) (hf : u.fault = 0#8) :
    u.residues = s.residues := by
  rcases Instr.csrRd_or_ne i with ⟨a, rfl⟩ | hi
  · obtain ⟨-, -, residues⟩ := exec_csrRd_ports hu
    exact residues
  · obtain ⟨-, -, d, v, hv, -, rfl⟩ := exec_unfaulted hi hu hf
    exact (State.complete_residues v d).trans (bodyOf_residues s i v (.inl ⟨d, hv⟩))

/-- The ports and the free values enter no check. -/
theorem checksOf_cut (s : State) (writes reads : Nat) (i : Instr) : checksOf (s.cut writes reads) i = checksOf s i := by
  cases i <;> rfl

/-! ## Where the ports are cut off -/

/-- A sink that is cut off has an answer left short of the cut, the refusal there at the latest. -/
theorem Sink.cut_left (k : Sink) {m n : Nat} (h : m ≤ n) : (k.cut n).answers.drop m ≠ [] := by
  simp only [Sink.cut, ne_eq, List.drop_eq_nil_iff, List.length_append, List.length_take, List.length_replicate,
    List.length_singleton]
  omega

/-- A source that is cut off has an answer left short of the cut, the refusal there at the latest. -/
theorem Source.cut_left (p : Source) {m n : Nat} (h : m ≤ n) : (p.cut n).answers.drop m ≠ [] := by
  simp only [Source.cut, ne_eq, List.drop_eq_nil_iff, List.length_append, List.length_take, List.length_replicate,
    List.length_singleton]
  omega

/-- A sink that accepts its first bursts accepts them up to the cut. -/
theorem Sink.cut_accepts {k : Sink} {n m : Nat} (hm : ∀ x ∈ k.answers.take m, x = .accept) :
    (m ≤ n → ∀ x ∈ (k.cut n).answers.take m, x = .accept) ∧
      (n ≤ m → (k.cut n).answers = List.replicate n .accept ++ [.ioError 0]) := by
  have accepts : ∀ j, j ≤ m → ∀ x ∈ (k.answers ++ List.replicate n SinkAnswer.accept).take j, x = .accept := by
    intro j hj x hx
    rw [List.take_append, List.mem_append] at hx
    rcases hx with hx | hx
    · exact hm x ((List.take_subset_take_left _ hj) hx)
    · exact List.eq_of_mem_replicate (List.mem_of_mem_take hx)
  refine ⟨fun h => ?_, fun h => ?_⟩
  · rw [Sink.cut, List.take_append_of_le_length (by simpa using h), List.take_take, Nat.min_eq_left h]
    exact accepts m le_rfl
  · have all : (k.answers ++ List.replicate n SinkAnswer.accept).take n = List.replicate n .accept :=
      List.eq_replicate_iff.2 ⟨by simp, accepts n h⟩
    rw [Sink.cut, all]

/-- A source that is cut off answers as it did up to the cut. -/
theorem Source.cut_answers {p : Source} {n m : Nat} (hm : m ≤ p.answers.length) :
    (m ≤ n → (p.cut n).answers.take m = p.answers.take m) ∧
      (n ≤ m → (p.cut n).answers = p.answers.take n ++ [.ioError]) := by
  refine ⟨fun h => ?_, fun h => ?_⟩
  · rw [Source.cut, List.take_append_of_le_length (by simpa using h), List.take_take, Nat.min_eq_left h,
      List.take_append_of_le_length hm]
  · rw [Source.cut, List.take_append_of_le_length (h.trans hm)]

/-! ## A command on ports that are cut off -/

/-- The command has gone from `s` to `u`, made these bursts, and taken `k` answers off the source. -/
structure Transferred (s u : State) (made : List (List Byte)) (k : Nat) : Prop where
  bursts : u.sink.bursts = s.sink.bursts ++ made
  bound : k ≤ s.src.answers.length
  left : u.src.answers = s.src.answers.drop k

/-- A source that has all its answers left has lost none. -/
theorem Transferred.none_taken {s u : State} {made : List (List Byte)} {k : Nat} (h : Transferred s u made k)
    (same : u.src = s.src) : k = 0 := by
  have := congrArg List.length (same ▸ h.left)
  rw [List.length_drop] at this
  have := h.bound
  omega

/-- A sink that is as it was has taken no burst. -/
theorem Transferred.none_made {s u : State} {made : List (List Byte)} {k : Nat} (h : Transferred s u made k)
    (same : u.sink = s.sink) : made = [] :=
  List.self_eq_append_right.1 (same ▸ h.bursts)

/-- How a command that makes these bursts and takes `k` answers ends in `v` on ports that are cut off after so many
writes and reads: at the burst cut off, at the byte cut off, or short of both. -/
inductive EndsAtCut (s v : State) (made : List (List Byte)) (k writes reads : Nat) : Prop
  | atBurst (early : writes < made.length) (unread : k = 0) (stopped : v.sink.answers = [])
      (bursts : v.sink.bursts = s.sink.bursts ++ made.take writes)
  | atByte (early : reads < k) (unwritten : made = []) (open_sink : v.sink.answers ≠ [])
      (stopped : v.src.answers = [])
  | short (written : made.length ≤ writes) (read : k ≤ reads) (open_sink : v.sink.answers ≠ [])
      (open_source : v.src.answers ≠ [])

section
variable {s u : State} {i : Instr} {made : List (List Byte)} {k : Nat}

/-- A command that writes to the sink, on ports that are cut off. -/
theorem exec_cut_of_usesSink (hi : usesSink i = true) (hu : exec i s = .next u) (hf : u.fault = 0#8)
    (done : Transferred s u made k) (writes reads : Nat) :
    (∃ v, exec i (s.cut writes reads) = .next v ∧ EndsAtCut s v made k writes reads) ∧
      u.sink.answers = s.sink.answers.drop made.length := by
  obtain ⟨-, unread, -, hcsr⟩ := apart_of_usesSink hi
  obtain ⟨h0, hc, d, v, hv, kept, rfl⟩ := exec_unfaulted hcsr hu hf
  have none_taken : k = 0 := done.none_taken ((State.complete_src v d).trans (kept.src unread))
  obtain ⟨made', bursts, answers, accepted, goes_on, stops⟩ := bodyOf_scripted s hi s.sink.answers d v hv
  obtain rfl : made' = made := by
    have held := done.bursts
    rw [State.complete_sink] at held
    exact List.append_cancel_left (bursts.symm.trans held)
  obtain ⟨accepts, cut⟩ := Sink.cut_accepts (n := writes) accepted
  have body : bodyOf (s.cut writes reads) i =
      (bodyOf (State.sinkView.answered (s.sink.cut writes).answers s) i).within
        (·.besideSource (s.src.cut reads) []) :=
    bodyOf_besideSource unread (s.src.cut reads) [] (State.sinkView.answered (s.sink.cut writes).answers s)
  rw [← checksOf_cut s writes reads] at hc
  refine ⟨?_, by rw [State.complete_sink]; exact answers⟩
  rcases Nat.lt_or_ge writes made'.length with early | late
  · obtain ⟨v', taken, missing, raised, -, held, -, left⟩ := stops writes 0 [] early
    rw [cut early.le] at body
    have raised := body.trans (congrArg (Run.within · _) raised)
    exact ⟨_, exec_raises_naturally hcsr h0 hc raised rfl,
      .atBurst early none_taken left (held.trans (List.append_nil _))⟩
  · have completes := body.trans (congrArg (Run.within · _) (goes_on _ (accepts late)))
    refine ⟨_, exec_completes hcsr h0 hc completes, .short late (by omega) ?_ ?_⟩
    · rw [State.complete_sink]
      exact s.sink.cut_left late
    · rw [State.complete_src]
      exact s.src.cut_left (Nat.zero_le reads)

/-- A command that writes to no sink, on ports that are cut off. -/
theorem exec_cut_of_not_usesSink (hcsr : ∀ a, i ≠ .csrRd a) (hi : usesSink i = false) (hu : exec i s = .next u)
    (hf : u.fault = 0#8) (done : Transferred s u made k) (writes reads : Nat) :
    (∃ v, exec i (s.cut writes reads) = .next v ∧ EndsAtCut s v made k writes reads) ∧
      u.sink.answers = s.sink.answers.drop made.length := by
  obtain ⟨h0, hc, d, v, hv, kept, rfl⟩ := exec_unfaulted hcsr hu hf
  have same : (v.complete d).sink = s.sink := (State.complete_sink v d).trans (kept.sink hi)
  obtain rfl : made = [] := done.none_made same
  obtain ⟨k', bound, left, goes_on, stops⟩ := bodyOf_srcScripted_of_any s i s.src.answers d v hv
  obtain rfl : k' = k := by
    have lengths := congrArg List.length (left.symm.trans ((State.complete_src v d) ▸ done.left))
    have := done.bound
    simp only [List.length_drop] at lengths
    omega
  obtain ⟨answers, cut⟩ := Source.cut_answers (n := reads) bound
  have body : bodyOf (s.cut writes reads) i =
      (bodyOf (State.srcView.answered (s.src.cut reads).answers s) i).within (·.besideSink (s.sink.cut writes) []) :=
    bodyOf_besideSink hi (s.sink.cut writes) [] (State.srcView.answered (s.src.cut reads).answers s)
  have writable : (s.sink.cut writes).answers ≠ [] := s.sink.cut_left (Nat.zero_le writes)
  rw [← checksOf_cut s writes reads] at hc
  refine ⟨?_, congrArg Sink.answers same⟩
  rcases Nat.lt_or_ge reads k' with early | late
  · obtain ⟨v', raised, stopped⟩ := stops reads early
    rw [cut early.le] at body
    have raised := body.trans (congrArg (Run.within · _) raised)
    exact ⟨_, exec_raises_naturally hcsr h0 hc raised rfl, .atByte early rfl writable stopped⟩
  · have completes := body.trans (congrArg (Run.within · _) (goes_on _ (answers late)))
    refine ⟨_, exec_completes hcsr h0 hc completes, .short (Nat.zero_le _) late ?_ ?_⟩
    · rw [State.complete_sink]
      exact writable
    · rw [State.complete_src]
      exact s.src.cut_left late

/-- A command that succeeds makes the same transfers on ports that are cut off, up to the cut. -/
theorem exec_cut (hu : exec i s = .next u) (hf : u.fault = 0#8) (done : Transferred s u made k)
    (writes reads : Nat) :
    (∃ v, exec i (s.cut writes reads) = .next v ∧ EndsAtCut s v made k writes reads) ∧
      u.sink.answers = s.sink.answers.drop made.length := by
  rcases Instr.csrRd_or_ne i with ⟨a, rfl⟩ | hcsr
  · obtain ⟨sink, src, -⟩ := exec_csrRd_ports hu
    obtain rfl := done.none_made sink
    obtain rfl := done.none_taken src
    obtain ⟨v, hv⟩ := exec_csrRd_next (s.cut writes reads) a
    obtain ⟨cut_sink, cut_src, -⟩ := exec_csrRd_ports hv
    refine ⟨⟨v, hv, .short (Nat.zero_le _) (Nat.zero_le _) ?_ ?_⟩, congrArg Sink.answers sink⟩
    · rw [cut_sink]
      exact s.sink.cut_left (Nat.zero_le writes)
    · rw [cut_src]
      exact s.src.cut_left (Nat.zero_le reads)
  · cases hi : usesSink i with
    | true => exact exec_cut_of_usesSink hi hu hf done writes reads
    | false => exact exec_cut_of_not_usesSink hcsr hi hu hf done writes reads

end

/-! ## The command abandoned -/

/-- What the reset event makes of a command abandoned after these transfers. -/
theorem State.abandonedAs_eq {s t : State} {delivered : List (List Byte)} {consumed : Nat}
    (sink : t.sink.bursts = s.sink.bursts ++ delivered) (src : t.src.answers = s.src.answers.drop consumed) :
    s.abandonedAs t = ({ s with
      sink := { bursts := s.sink.bursts ++ delivered, answers := t.sink.answers, count := 0#64 }
      src := { answers := s.src.answers.drop consumed, count := 0#64 }
      residues := t.residues } : State).restored := by
  rw [← sink, ← src]
  rfl

/-- A command that would have succeeded, abandoned: the first of its transfers stay. -/
theorem State.abandonCommand_eq {s u : State} {i : Instr} {made : List (List Byte)} {k : Nat}
    (hu : exec i s = .next u) (hf : u.fault = 0#8) (done : Transferred s u made k) (n : Nat) :
    s.abandonCommand i n = .next
      ({ s with
        sink :=
          { bursts := s.sink.bursts ++ made.take n
            answers := s.sink.answers.drop (min n made.length)
            count := 0#64 }
        src := { answers := s.src.answers.drop (min k (bytesRead i n)), count := 0#64 } } : State).restored := by
  obtain ⟨⟨v, hv, ends⟩, answers⟩ := exec_cut hu hf done n (bytesRead i n)
  unfold State.abandonCommand
  rw [hv]
  dsimp only
  cases ends with
  | atBurst early unread stopped bursts =>
    rw [if_pos stopped, unread, Nat.zero_min, Nat.min_eq_left early.le]
    exact congrArg Host.Outcome.next (State.abandonedAs_eq bursts rfl)
  | atByte early unwritten open_sink stopped =>
    rw [if_neg open_sink, if_pos stopped, unwritten, List.take_nil, List.length_nil, Nat.min_zero,
      Nat.min_eq_right early.le]
    exact congrArg Host.Outcome.next (State.abandonedAs_eq (List.append_nil _).symm rfl)
  | short written read open_sink open_source =>
    rw [if_neg open_sink, if_neg open_source, State.abandonWhole, hu, List.take_of_length_le written,
      Nat.min_eq_right written, Nat.min_eq_left read, ← answers, ← exec_unfaulted_residues hu hf]
    exact congrArg Host.Outcome.next (State.abandonedAs_eq done.bursts done.left)

/-- A command abandoned, whatever its outcome would have been: what it wrote is appended at the sink, what it read is
gone from the source. -/
theorem State.abandon_appends_and_advances {s t : State} {w : Command} {n : Nat} (h : s.abandon w n = .next t) :
    ∃ delivered consumed,
      t = ({ s with
        sink := { bursts := s.sink.bursts ++ delivered, answers := t.sink.answers, count := 0#64 }
        src := { answers := s.src.answers.drop consumed, count := 0#64 }
        residues := t.residues } : State).restored := by
  rcases State.abandon_cases h with ⟨-, rfl⟩ | ⟨i, v, -, hv, ⟨-, rfl⟩ | ⟨-, rfl⟩ | ⟨u, hu, rfl⟩⟩
  · exact ⟨[], 0, State.abandonedAs_eq (t := s) (List.append_nil _).symm rfl⟩
  · obtain ⟨⟨delivered, grown⟩, -⟩ := exec_appends_and_advances hv
    exact ⟨delivered, 0, State.abandonedAs_eq grown.symm rfl⟩
  · exact ⟨[], bytesRead i n, State.abandonedAs_eq (List.append_nil _).symm rfl⟩
  · obtain ⟨⟨delivered, grown⟩, advanced⟩ := exec_appends_and_advances hu
    exact ⟨delivered, _, State.abandonedAs_eq grown.symm (List.suffix_iff_eq_drop.1 advanced)⟩

/-- Settles O8: between commands by the definition of the reset event, in the midst of one by what its run on ports
that are cut off does. -/
theorem resetEventRestores : Obligations.ResetEventRestores := by
  refine ⟨fun s rest hp => step_of_event hp, fun s t w n rest hp ht => ?_,
    fun s u w n k rest i delivered hp hd hu hf bursts bound left => ?_⟩
  · rw [step_of_event hp] at ht
    exact State.abandon_appends_and_advances ht
  · have abandoned : step s = ({ s with port := rest } : State).abandonCommand i n := by
      rw [step_of_event hp, State.take, State.abandon, hd]
    rw [abandoned]
    exact State.abandonCommand_eq hu hf ⟨bursts, bound, left⟩ n

end Sys2Proof.Machine
end
